-- ==== Sys2Proof/Word.lean ====
section
/-! DEFINITION. The word types of the Akkulor Myzal (R3, R4): 32-bit registers, bytes, 64-bit addresses. -/

namespace Sys2Proof

/-- A 32-bit register value or instruction word (R3, R45). -/
abbrev Word := BitVec 32

/-- The smallest addressable unit (R4). -/
abbrev Byte := BitVec 8

/-- A 64-bit global virtual address or program counter (R7, R172). -/
abbrev Addr := BitVec 64

end Sys2Proof
end

