-- ==== Sys2Proof/Config.lean ====
section
/-! DEFINITION. The values the spec leaves open, as constants without a body: nothing can be proved of what they are. -/

namespace Sys2Proof.Config

/-- The 64-bit operand digest of R116: a function of the word, the address and the operand bytes, not architectural. -/
opaque digest : Word → Nat → List Byte → BitVec 64

/-- The signature of R388: a function of the key (as a number), the word, the address and the data, not architectural. -/
opaque signature : Nat → Word → Nat → List Byte → BitVec 64

/-- The result of a frame decode (R374, R400), modulo 4: the standards it follows are outside the spec. Arguments: the codec, the bytes of SRC, and the
SLOT's earlier access units. -/
opaque frameResult : Nat → List Byte → List (List Byte) → Nat

/-- The samples of the decoded picture; the further arguments are plane (0 Y, 1 Cb, 2 Cr), row and column. -/
opaque sample : Nat → List Byte → List (List Byte) → Nat → Nat → Nat → Nat

/-- Width, height and bit depth of the decoded picture (R400). -/
opaque pictureShape : Nat → List Byte → List (List Byte) → Nat × Nat × Nat

/-- The value FEXP2 or FLOG2 returns where the model's working precision does not settle the correct rounding (notes/assumptions/10.md).
Arguments: which function, the rounding, the operand; the flag word of the model and the two candidates are the caller's. -/
opaque elemTie : Nat → Nat → Word → Bool

/-- A value the spec leaves open and that differs from one use to the next: applied to `State.fresh`. -/
opaque freeWord : Nat → Word

/-- A pool row that three or more symbol errors hit (R37: the code gives no promise). -/
opaque brokenRow : Nat → List Byte

/-- The plane that a packet takes (R393: not architectural), as an index among the ports that are up. -/
opaque plane : Nat → List Nat → Nat

end Sys2Proof.Config
end

