-- ==== Sys2Proof/Syntax.lean ====
section
/-! DEFINITION. The instruction set as data: one constructor of `Instr` per row of spec/opcode_table.json.
The first 177 are the instruction words of *Instruction Formats and Opcode Map*. The last 74 are the table's events, the
steps of the part that no instruction word names (file 95); their arguments say which unit, crew, message, die or register they
concern, and they have no encoding. -/

namespace Sys2Proof

/-- Rounding codes (Table 11-10). -/
inductive Rm | rne | rtz | rup | rdn | fpm
  deriving DecidableEq, Repr

/-- Order codes (Table 11-9). -/
inductive Ord | rlx | acq | rel | ar
  deriving DecidableEq, Repr

/-- Integer conditions of ICMP (R278). -/
inductive ICond | eq | ne | lt | le | gt | ge
  deriving DecidableEq, Repr

/-- Conditions of FCMP (Table 13-4). -/
inductive FCond | eq | ne | lt | le | gt | ge | un
  deriving DecidableEq, Repr

/-- Operations of PLOP (R279). -/
inductive POp | and | or | xor | mov
  deriving DecidableEq, Repr

/-- Conversion formats, codes 0 to 11 (Table 11-11). -/
inductive Fmt | f32 | f16 | bf16 | e4m3 | e5m2 | e2m1 | i32 | n32 | i8 | n8 | i4 | e8m0
  deriving DecidableEq, Repr

/-- Destination codes of CVT.S and ACC.CVT (R254). -/
inductive SFmt | bf16 | f16 | e4m3 | e5m2 | e2m1 | i8 | n8 | i4
  deriving DecidableEq, Repr

/-- Plane formats, codes 1 to 7 of CONV (Table 14-11, R358). -/
inductive PFmt | bf16 | f16 | e4m3 | e5m2 | e2m1 | i8 | i4
  deriving DecidableEq, Repr

/-- Operand formats of a product (Table 11-12, AF and BF). -/
inductive MFmt | bf16 | f16 | e4m3 | e5m2 | i8 | i4 | e2m1 | cb2
  deriving DecidableEq, Repr

/-- Accumulator codes of a product (Table 11-12, AM). -/
inductive AccM | f32 | i32w | i32s
  deriving DecidableEq, Repr

/-- OP of ATOM and RED (Table 14-4). -/
inductive AOp | add | min | max | and | or | xor | exch
  deriving DecidableEq, Repr

/-- TY of ATOM and RED (R323). -/
inductive ATy | i32 | n32 | f32
  deriving DecidableEq, Repr

/-- Sizes of major 0x27, b[4:3] (R322). -/
inductive Sz | w | q | h | b
  deriving DecidableEq, Repr

/-- Modes of XBFLY (R307). -/
inductive XMode | bit | half | word
  deriving DecidableEq, Repr

/-- Special registers of Table 11-13. -/
inductive SReg
  | fibreIdx | laneIdx | crewIdx | unitIdx | gangIdx | mbTag | stepG | partW | engSt
  | fpmode | fpflags | statAmax | statSat | cyc | trapinfo0 | trapinfo1 | trapinfo2 | xrootLo | xrootHi
  deriving DecidableEq, Repr

/-- A register number of the window, `v0` to `v127` (R249). -/
abbrev VReg := BitVec 7
/-- A predicate number `p0` to `p15`, a mask number or an accumulator tile (R250). -/
abbrev Nib := BitVec 4

/-- One constructor per row of spec/opcode_table.json. -/
inductive Instr
  -- control (R262-R270, R286)
  | br (p : Nib) (sense : Bool) (off : BitVec 21)
  | bra (off : BitVec 26)
  | call (d : VReg) (off : BitVec 18)
  | callReg (d a : VReg)
  | ret (a : VReg)
  | jr (a : VReg)
  | brFar (lm1 : BitVec 6) (off : BitVec 19)
  | fork (lm1 : BitVec 3) (d a b : VReg)
  | endFibre
  | join (m : Nib) | leave (m : Nib) | wait (m : Nib) | mread (d : VReg) (m : Nib)
  -- loops (R309, R313) and window (R271), special registers (R272)
  | rept (cr : VReg) (id ia ib iacc : BitVec 2) (ar : VReg) (ae : Bool)
  | strm (sr : BitVec 2) (dr : VReg) (dims esz : BitVec 2)
  | strmOff (sr : BitVec 2)
  | wbase (b : VReg) | wbaseRel (b : VReg) | wbaseReg (a : VReg)
  | sread (d : VReg) (r : SReg) | swrite (r : SReg) (a : VReg)
  -- integer (R273-R280)
  | iadd (d a b : VReg) | iaddS (d a b : VReg) | isub (d a b : VReg) | isubS (d a b : VReg)
  | iminI (d a b : VReg) | iminN (d a b : VReg) | imaxI (d a b : VReg) | imaxN (d a b : VReg)
  | iand (d a b : VReg) | ior (d a b : VReg) | ixor (d a b : VReg) | iandn (d a b : VReg)
  | shl (d a b : VReg) | shrN (d a b : VReg) | shrI (d a b : VReg) | rot (d a b : VReg)
  | sel (d a b : VReg) | iabs (d a : VReg) | ineg (d a : VReg)
  | imul (d a b : VReg) | imulhI (d a b : VReg) | imulhN (d a b : VReg) | imad (d a b : VReg) | imadS (d a b : VReg)
  | idivI (d a b : VReg) | idivN (d a b : VReg) | iremI (d a b : VReg) | iremN (d a b : VReg)
  | popc (d a : VReg) | clz (d a : VReg) | ctz (d a : VReg) | brev (d a : VReg)
  | bfx (d a b : VReg) | bfi (d a b : VReg)
  | addi (d a : VReg) (imm : BitVec 12) | andi (d a : VReg) (imm : BitVec 12)
  | ori (d a : VReg) (imm : BitVec 12) | xori (d a : VReg) (imm : BitVec 12)
  | shli (d a : VReg) (c : BitVec 5) | shriN (d a : VReg) (c : BitVec 5)
  | shriI (d a : VReg) (c : BitVec 5) | roti (d a : VReg) (c : BitVec 5)
  | movi (d : VReg) (imm : BitVec 19) | movh (d : VReg) (imm : BitVec 19)
  | icmp (c : ICond) (n : Bool) (p : Nib) (a b : VReg)
  | plop (op : POp) (na nb : Bool) (d a b : Nib)
  | lea (s : BitVec 5) (d a b : VReg)
  -- floating point and conversion (R294-R304)
  | fadd (rm : Rm) (d a b : VReg) | fsub (rm : Rm) (d a b : VReg) | fmul (rm : Rm) (d a b : VReg)
  | fmin (d a b : VReg) | fmax (d a b : VReg)
  | ffma (np nc : Bool) (rm : Rm) (d a b : VReg)
  | frcp (rm : Rm) (d a : VReg) | frsq (rm : Rm) (d a : VReg) | fsqrt (rm : Rm) (d a : VReg)
  | fexp2 (rm : Rm) (d a : VReg) | flog2 (rm : Rm) (d a : VReg)
  | fabs (d a : VReg) | fneg (d a : VReg) | ffloor (d a : VReg) | fceil (d a : VReg)
  | frint (rm : Rm) (d a : VReg) | fclass (d a : VReg)
  | fcmp (c : FCond) (p : Nib) (a b : VReg)
  | cvt (src dst : Fmt) (inf : Bool) (rm : Rm) (d a : VReg)
  | cvtS (dst : SFmt) (inf fpm : Bool) (d a : VReg) (sc : BitVec 5) (rm : BitVec 2)
  -- exchanges (R305-R308)
  | pickAt (d a b : VReg) | pickLead (d a b : VReg) | pickBack (d a b : VReg) | pickFwd (d a b : VReg) | pickMir (d a b : VReg)
  | xbfly (stage : BitVec 3) (mode : XMode) (d a : VReg)
  | pollEvery (d a : Nib) | pollSome (d a : Nib) | pollMap (d : VReg) (a : Nib)
  | foldAdd (d a : VReg) | foldMinI (d a : VReg) | foldMinN (d a : VReg) | foldMaxI (d a : VReg) | foldMaxN (d a : VReg)
  | foldAnd (d a : VReg) | foldOr (d a : VReg) | foldXor (d a : VReg)
  -- memory (R319-R326); off is the scaled signed offset field
  | ldW (o : Ord) (sc : BitVec 3) (d a : VReg) (off : BitVec 7) | ldQ (o : Ord) (sc : BitVec 3) (d a : VReg) (off : BitVec 7)
  | ldB (o : Ord) (sc : BitVec 3) (d a : VReg) (off : BitVec 6) | ldH (o : Ord) (sc : BitVec 3) (d a : VReg) (off : BitVec 6)
  | stW (o : Ord) (sc : BitVec 3) (d a : VReg) (off : BitVec 7) | stQ (o : Ord) (sc : BitVec 3) (d a : VReg) (off : BitVec 7)
  | stB (o : Ord) (sc : BitVec 3) (d a : VReg) (off : BitVec 6) | stH (o : Ord) (sc : BitVec 3) (d a : VReg) (off : BitVec 6)
  | ldS (o : Ord) (sc : BitVec 3) (d a : VReg) (z : Sz) (off : BitVec 3) | stS (o : Ord) (sc : BitVec 3) (d a : VReg) (z : Sz) (off : BitVec 3)
  | ldG (o : Ord) (sc : BitVec 3) (d a : VReg) (z : Sz) (off : BitVec 3) | stG (o : Ord) (sc : BitVec 3) (d a : VReg) (z : Sz) (off : BitVec 3)
  | atom (o : Ord) (sc : BitVec 3) (gang : Bool) (op : AOp) (ty : ATy) (sat : Bool) (a b : VReg)
  | red (o : Ord) (sc : BitVec 3) (gang : Bool) (op : AOp) (ty : ATy) (sat : Bool) (a b : VReg)
  | atomc (o : Ord) (sc : BitVec 3) (gang : Bool) (a b : VReg)
  | ldDs (o : Ord) (sc : BitVec 3) (d a : VReg) | stDs (o : Ord) (sc : BitVec 3) (d a : VReg)
  | addDs (o : Ord) (sc : BitVec 3) (d a : VReg) | redDs (o : Ord) (sc : BitVec 3) (d a : VReg)
  -- fences, monitors, tags (R327-R330)
  | fence (o : Ord) (sc : BitVec 3) | fenceX (src dst : BitVec 6)
  | monitor (a : VReg) | mwait (sc : BitVec 3)
  | tagSet (o : Ord) (sc : BitVec 3) (d a : VReg) | tagGet (o : Ord) (sc : BitVec 3) (d a : VReg) | pref (a : VReg)
  -- barriers and synchronisation (R331-R336)
  | barInit (d a : VReg) (bytes : Bool) | barArr (sc : BitVec 3) (a : VReg) | barWait (sc : BitVec 3) (a : VReg)
  | barArrw (sc : BitVec 3) (p : Nib) (a : VReg)
  | unitSync | gangSync
  -- berths (R337)
  | berOpen (d : VReg) (p : Nib) | berPub (a : VReg) | stBerth (o : Ord) (sc : BitVec 3) (d a : VReg) | tagRetire (a : VReg)
  -- tile engine (R345-R369)
  | mma (c : Nib) (a b : VReg) (af bf : MFmt) (am : AccM)
  | mmaSp (c : Nib) (a b : VReg) (af bf : MFmt) (am : AccM)
  | mmaP (c : Nib) (a b : VReg) (af bf : MFmt) (am : AccM)
  | scacc (c p : Nib) (b : VReg)
  | accLd (t : Nib) (a : VReg) (sub : Bool) (q : BitVec 2) | accSt (t : Nib) (a : VReg) (sub : Bool) (q : BitVec 2)
  | accZero (t : Nib) (sub : Bool) (q : BitVec 2)
  | accCvt (dst : SFmt) (t : Nib) (a : VReg) (inf fpm : Bool) (rm : BitVec 2) (sub : Bool) (q : BitVec 2)
  | plane (d a : VReg) (f : PFmt) | unplane (d a : VReg) (f : PFmt) | cbLd (a : VReg)
  | ruleLd (slot : BitVec 2) (a : VReg)
  | sweep (t : Nib) (q : BitVec 2) (a : VReg) (slot : BitVec 2)
  | sweepR (t : Nib) (q : BitVec 2) (a : VReg) (slot : BitVec 2)
  | trace (d a : VReg) | bndIn (a b : VReg) | bndOut (t : Nib) (q : BitVec 2) (a : VReg)
  | engAcq (p : Nib) | engRel
  -- engine commands (R338-R344, R370-R374)
  | copy (a : VReg) | gather (a : VReg) | coll (a : VReg) | frame (a : VReg)
  -- work and system (R281-R292)
  | post (d a b : VReg) | cancel (d a : VReg) (level : BitVec 2) | cntRd (d a : VReg) (level : BitVec 2)
  | trap (c : Nib) | eret (skip : Bool) | cyc (d : VReg)
  | rednCtlCount (d : VReg) | finj (d a : VReg) (kind : BitVec 3)
  -- EVENTS: u is a unit's position, c a crew slot, m a message or operation number, n a node's position
  | clauseStart (u c : Nat) | reptPass (u c : Nat)
  | storeQueueSend (u c : Nat)
  | poolMissFill (u line : Nat) (victim : Option (Nat × Nat))
  | tagMirrorFill (core line : Nat)
  | crewSwap (u c u' c' : Nat) | forcedSwap (u c u' c' : Nat)
  | lockFormCrew (u : Nat) | unitSyncComplete (u : Nat) | gangSyncComplete (u : Nat)
  | barWaitComplete (u c : Nat) | mwaitWake (u c e : Nat)
  | keyedRequest (m : Nat) | drainedUpdate (m : Nat) | pairedArrival (m : Nat) | signatureCompare (m : Nat)
  | responseDone (m : Nat) | responseRefused (m : Nat) | responseFault (m : Nat) | responsePoison (m : Nat) | responseDiverged (m : Nat)
  | requestTimeout (m : Nat) | refusalBackoffExpiry (m : Nat) (jitter : Nat) | packetAgeDiscard (m : Nat)
  | lowAdvance (u f : Nat) | retireMessage (m : Nat)
  | ownerRestart (owner : Nat) (reloaded : Bool) | journalLoss (owner : Nat)
  | stepAdvComplete (m : Nat)
  | unitDispatch (n unit core : Nat) | passedOverLimit (n : Nat)
  | preempt (u : Nat) | preemptSaved (u : Nat) | resume (u core : Nat)
  | engineArrival (m : Nat) | engineCommandComplete (m : Nat) | sweepComplete (u : Nat)
  | frameDecode (m result : Nat) | treeRebuild (m : Nat)
  | grantServed (die : Nat) | grantHoldExpiry (die u : Nat)
  | unitEnd (u : Nat) | drainBegin (u : Nat) | nodeCommit (n : Nat)
  | rollbackInPlace (n : Nat) | rollbackRequeue (n : Nat)
  | dredgePassBegin (stack : Nat) | dredgePassEnd (stack : Nat)
  | scrubRead (stack sector : Nat) | bankFailure (core bank : Nat)
  | timingReplay (core : Nat) | replayLimit (core : Nat)
  | checkpoint (job : Nat) | checkpointDone (job : Nat) | restore (job : Nat)
  | ckptStart (v : BitVec 64) | dclsLoad (v : BitVec 64)
  | tlbinvPage (v : BitVec 64) | tlbinvJob (v : BitVec 64) | bmclr (v : BitVec 64) | berthk (v : BitVec 64)
  | stepset (v : BitVec 64) | root (v : BitVec 64) | drgnWrite (stack n : Nat) (v : BitVec 64)
  | managementRegisterWrite (off : Nat) (v : BitVec 64)
  | portLinkTraining (port rate : Nat) | portDown (port : Nat) | flitReceive (m : Nat) (correctable : Bool)
  | homeReadRequest (m : Nat) | coreReset (core : Nat)
  -- rows without operands, of both kinds
  | nop | bkpt | halt | stepAdv | rednCtlSync
  | machineCheckQueue | powerOn | tlbinvDone | bmclrDone
  deriving DecidableEq, Repr

end Sys2Proof
end

