-- ==== Sys2Proof/WellFormed.lean ====
section
/-! DEFINITION. Which instructions an instruction word can hold: the static decode checks 3, 4, 5 and 8 of Table 11-15 said of
the instruction as data. `Instr.wf` is checks 3 to 5; `Instr.comboOk` is check 8, which a word may fail and still be decoded. -/

namespace Sys2Proof

/-- An order a load accepts (Table 6-2). -/
def Ord.load : Ord → Bool | .rlx | .acq => true | _ => false
/-- An order a store, a RED or a TAG.SET accepts (Table 6-2). -/
def Ord.store : Ord → Bool | .rlx | .rel => true | _ => false

/-- The last register of a block of `n` registers from `r` lies in the window (R250). -/
def blockOk (r : VReg) (n : Nat) : Bool := decide (r.toNat + n ≤ 128)

/-- The registers that one row of A takes (R349): none for the formats never legal as A. -/
def MFmt.aRegs (f : MFmt) (partialK : Bool) : Nat :=
  match f with
  | .bf16 | .f16 => if partialK then 16 else 32
  | .e4m3 | .e5m2 | .i8 => if partialK then 8 else 16
  | .i4 | .e2m1 | .cb2 => 1

/-- The events of the table (file 95) have no instruction word. -/
def Instr.isWord : Instr → Bool
  | .clauseStart .. | .reptPass .. | .storeQueueSend .. | .poolMissFill .. | .tagMirrorFill .. | .crewSwap .. | .forcedSwap ..
  | .lockFormCrew .. | .unitSyncComplete .. | .gangSyncComplete .. | .barWaitComplete .. | .mwaitWake .. | .keyedRequest ..
  | .drainedUpdate .. | .pairedArrival .. | .signatureCompare .. | .responseDone .. | .responseRefused .. | .responseFault ..
  | .responsePoison .. | .responseDiverged .. | .requestTimeout .. | .refusalBackoffExpiry .. | .packetAgeDiscard ..
  | .lowAdvance .. | .retireMessage .. | .ownerRestart .. | .journalLoss .. | .stepAdvComplete .. | .unitDispatch ..
  | .passedOverLimit .. | .preempt .. | .preemptSaved .. | .resume .. | .engineArrival .. | .engineCommandComplete ..
  | .sweepComplete .. | .frameDecode .. | .treeRebuild .. | .grantServed .. | .grantHoldExpiry .. | .unitEnd .. | .drainBegin ..
  | .nodeCommit .. | .rollbackInPlace .. | .rollbackRequeue .. | .dredgePassBegin .. | .dredgePassEnd .. | .scrubRead ..
  | .bankFailure .. | .timingReplay .. | .replayLimit .. | .checkpoint .. | .checkpointDone .. | .restore .. | .ckptStart ..
  | .dclsLoad .. | .tlbinvPage .. | .tlbinvJob .. | .bmclr .. | .berthk .. | .stepset .. | .root .. | .drgnWrite ..
  | .machineCheckQueue | .managementRegisterWrite .. | .portLinkTraining .. | .portDown .. | .flitReceive .. | .powerOn
  | .homeReadRequest .. | .tlbinvDone | .bmclrDone | .coreReset .. => false
  | _ => true

/-- Check 3 of Table 11-15 on the fields an `Instr` can still hold: reserved fields zero, no reserved code. -/
def Instr.resOk : Instr → Bool
  | .rept _ _ _ _ _ ar ae => ae || ar == 0
  | .strm _ _ dims esz => dims != 3 && esz != 3
  | .plop op _ nb _ _ b => if op = .mov then !nb && b == 0 else true
  | .cvtS _ _ fpm _ _ _ rm => !fpm || rm == 0
  | .accCvt _ _ _ _ fpm rm sub q => (!fpm || rm == 0) && (sub || q == 0)
  | .accLd _ _ sub q => sub || q == 0
  | .accSt _ _ sub q => sub || q == 0
  | .accZero _ sub q => sub || q == 0
  | .fenceX src dst => src != 0 && dst != 0
  | .finj _ _ k => decide (k.toNat < 3)
  | .xbfly s _ _ _ => decide (s.toNat < 5)
  | _ => true

/-- Check 4 of Table 11-15: registers, predicates, masks, blocks and pairs within their ranges. -/
def Instr.rangeOk : Instr → Bool
  | .fork lm1 _ _ b => blockOk b (lm1.toNat + 1)
  | .join m => decide (m.toNat < 12)
  | .leave m => decide (m.toNat < 12)
  | .wait m => decide (m.toNat < 12)
  | .mread _ m => decide (m.toNat < 12)
  | .rept _ _ _ _ _ ar ae => !ae || blockOk ar 3
  | .strm _ dr _ _ => blockOk dr 8
  | .xbfly _ mode d a =>
    match mode with
    | .bit => true
    | .half => blockOk a 16 && blockOk d 16
    | .word => d == a && blockOk a 32
  | .ldW _ _ _ a _ => blockOk a 2
  | .ldQ _ _ d a _ => blockOk a 2 && blockOk d 4
  | .ldB _ _ _ a _ => blockOk a 2
  | .ldH _ _ _ a _ => blockOk a 2
  | .stW _ _ _ a _ => blockOk a 2
  | .stQ _ _ d a _ => blockOk a 2 && blockOk d 4
  | .stB _ _ _ a _ => blockOk a 2
  | .stH _ _ _ a _ => blockOk a 2
  | .ldS _ _ d _ z _ => z != .q || blockOk d 4
  | .stS _ _ d _ z _ => z != .q || blockOk d 4
  | .ldG _ _ d _ z _ => z != .q || blockOk d 4
  | .stG _ _ d _ z _ => z != .q || blockOk d 4
  | .atom _ _ g _ _ _ a b => (g || blockOk a 2) && blockOk b 2
  | .red _ _ g _ _ _ a _ => g || blockOk a 2
  | .atomc _ _ g a b => (g || blockOk a 2) && blockOk b 3
  | .ldDs _ _ _ a => blockOk a 2
  | .stDs _ _ d a => blockOk a 2 && blockOk d 2
  | .addDs _ _ _ a => blockOk a 2
  | .redDs _ _ _ a => blockOk a 2
  | .monitor a => blockOk a 2
  | .tagSet _ _ _ a => blockOk a 2
  | .tagGet _ _ _ a => blockOk a 2
  | .pref a => blockOk a 2
  | .stBerth _ _ d a => blockOk a 2 && blockOk d 2
  | .mma _ a _ af _ _ => blockOk a (af.aRegs false)
  | .mmaSp _ a _ af _ _ => blockOk a (af.aRegs false)
  | .mmaP _ a _ af _ _ => blockOk a (af.aRegs true)
  | .scacc _ _ b => blockOk b 2
  | .accCvt _ _ a _ _ _ _ _ => blockOk a 3
  | .plane d _ f => (f != .bf16 && f != .f16) || blockOk d 2
  | .unplane d _ f => (f != .bf16 && f != .f16) || blockOk d 2
  | .sweep _ _ a _ => blockOk a 5
  | .sweepR _ _ a _ => blockOk a 6
  | .trace d a => blockOk d 5 && blockOk a 2
  | .bndIn _ b => blockOk b 3
  | .bndOut _ _ a => blockOk a 2
  | .copy a => blockOk a 8
  | .gather a => blockOk a 8
  | .coll a => blockOk a 8
  | .frame a => blockOk a 8
  | .post _ a _ => blockOk a 2
  | .trap c => c != 15
  | .cyc d => blockOk d 2
  | _ => true

/-- Check 5 of Table 11-15: an order the instruction accepts (Table 6-2). -/
def Instr.ordOk : Instr → Bool
  | .ldW o _ _ _ _ => o.load
  | .ldQ o _ _ _ _ => o.load
  | .ldB o _ _ _ _ => o.load
  | .ldH o _ _ _ _ => o.load
  | .ldS o _ _ _ _ _ => o.load
  | .ldG o _ _ _ _ _ => o.load
  | .ldDs o _ _ _ => o.load
  | .tagGet o _ _ _ => o.load
  | .stW o _ _ _ _ => o.store
  | .stQ o _ _ _ _ => o.store
  | .stB o _ _ _ _ => o.store
  | .stH o _ _ _ _ => o.store
  | .stS o _ _ _ _ _ => o.store
  | .stG o _ _ _ _ _ => o.store
  | .stDs o _ _ _ => o.store
  | .stBerth o _ _ _ => o.store
  | .tagSet o _ _ _ => o.store
  | .red o _ _ _ _ _ _ _ => o.store
  | .redDs o _ _ _ => o.store
  | .fence o _ => o != .rlx
  | _ => true

/-- The integer formats of CVT. -/
def Fmt.isInt : Fmt → Bool | .i32 | .n32 | .i8 | .n8 | .i4 => true | _ => false
/-- The integer formats of CVT.S and ACC.CVT. -/
def SFmt.isInt : SFmt → Bool | .i8 | .n8 | .i4 => true | _ => false
/-- The integer formats of a product operand. -/
def MFmt.isInt : MFmt → Bool | .i8 | .i4 => true | _ => false

/-- The legal pairs of R258. -/
def aopOk (isAtom : Bool) (op : AOp) (ty : ATy) (sat : Bool) : Bool :=
  (match op with
   | .add | .min | .max => true
   | .and | .or | .xor => ty == .n32
   | .exch => ty == .n32 && isAtom) &&
  (!sat || (op == .add && ty != .f32))

/-- The legal product combinations of Table 15-2. -/
def mmaOk (af bf : MFmt) (am : AccM) (sparse partialK : Bool) : Bool :=
  match af, am with
  | .bf16, .f32 => bf == .bf16 || bf == .i4 || bf == .e2m1 || (bf == .cb2 && !sparse)
  | .f16, .f32 => bf == .f16
  | .e4m3, .f32 => bf == .e4m3 || bf == .e5m2
  | .e5m2, .f32 => bf == .e4m3 || bf == .e5m2
  | .i8, .i32w => (bf == .i8 || bf == .i4) && !partialK
  | .i8, .i32s => (bf == .i8 || bf == .i4) && !partialK
  | _, _ => false

/-- Check 8 of Table 11-15: defined codes in a legal combination (R255, R258, R303, R304, R350, R357). -/
def Instr.comboOk : Instr → Bool
  | .cvt src dst inf rm _ _ =>
    dst != .e8m0 && (src != .e8m0 || dst == .f32) && (!inf || !dst.isInt) &&
    (!(src.isInt && dst.isInt) || rm == .rne || rm == .rtz)
  | .cvtS dst inf _ _ _ _ _ => !inf || !dst.isInt
  | .accCvt dst _ _ inf _ _ _ _ => !inf || !dst.isInt
  | .atom _ _ _ op ty s _ _ => aopOk true op ty s
  | .red _ _ _ op ty s _ _ => aopOk false op ty s
  | .mma _ _ _ af bf am => mmaOk af bf am false false
  | .mmaSp _ _ _ af bf am => mmaOk af bf am true false
  | .mmaP _ _ _ af bf am => mmaOk af bf am false true
  | _ => true

/-- Checks 3, 4 and 5 of Table 11-15, for an instruction that a word can hold. -/
def Instr.wf (i : Instr) : Bool := i.isWord && i.resOk && i.rangeOk && i.ordOk

end Sys2Proof
end

