-- ==== Sys2Proof/Decode.lean ====
section
/-! DEFINITION. The decoder and the encoder, written from Tables 11-2 to 11-14. `decodeWord` is total on 32-bit words and rejects
by name: `Bad.marker` is check 1 of Table 11-15, `Bad.selector` check 2, `Bad.reserved` check 3, `Bad.range` check 4 and
`Bad.order` check 5. Checks 6 to 10 depend on where the word stands and are made when it issues. -/

namespace Sys2Proof

/-- Why a word is no instruction: the first failing check of 1 to 5 of Table 11-15. -/
inductive Bad | marker | selector | reserved | range | order
  deriving DecidableEq, Repr

/-- The ILLEGAL cause of the failing check (Table 11-15). -/
def Bad.cause : Bad → Nat
  | .selector => 0 | .reserved => 1 | .range => 2 | .order => 3 | .marker => 6

/-- What the decoder reads from a word before the checks: whether the reserved fields the instruction cannot hold are zero, whether
the named fields are in range, whether a forbidden order stands there, and the instruction. -/
structure Raw where
  res : Bool := true
  rng : Bool := true
  ord : Bool := true
  i : Instr

/-- Bits [hi:lo] of a word, `n = hi - lo + 1` of them. -/
abbrev fld (w : Word) (lo n : Nat) : BitVec n := w.extractLsb' lo n

/-- Rounding field (Table 11-10); codes 5 to 7 are reserved. -/
def rmOf (b : BitVec 3) : Option Rm :=
  if b = 0 then some .rne else if b = 1 then some .rtz else if b = 2 then some .rup
  else if b = 3 then some .rdn else if b = 4 then some .fpm else none

/-- Order field (Table 11-9). -/
def ordOf (b : BitVec 2) : Ord :=
  if b = 0 then .rlx else if b = 1 then .acq else if b = 2 then .rel else .ar

/-- Conversion format code (Table 11-11); 12 to 15 are reserved. -/
def fmtOf (b : BitVec 4) : Option Fmt :=
  match b.toNat with
  | 0 => some .f32 | 1 => some .f16 | 2 => some .bf16 | 3 => some .e4m3 | 4 => some .e5m2 | 5 => some .e2m1
  | 6 => some .i32 | 7 => some .n32 | 8 => some .i8 | 9 => some .n8 | 10 => some .i4 | 11 => some .e8m0 | _ => none

/-- CVT.S destination code (R254). -/
def sfmtOf (b : BitVec 3) : SFmt :=
  match b.toNat with
  | 0 => .bf16 | 1 => .f16 | 2 => .e4m3 | 3 => .e5m2 | 4 => .e2m1 | 5 => .i8 | 6 => .n8 | _ => .i4

/-- Plane format code (Table 14-11); 0 is none. -/
def pfmtOf (b : BitVec 3) : Option PFmt :=
  match b.toNat with
  | 1 => some .bf16 | 2 => some .f16 | 3 => some .e4m3 | 4 => some .e5m2 | 5 => some .e2m1 | 6 => some .i8 | 7 => some .i4 | _ => none

/-- AF code (Table 11-12). AF and BF share codes 0 to 4 and 7; 5 and 6 are INT4 and E2M1 in both. -/
def mfmtOf (b : BitVec 3) : MFmt :=
  match b.toNat with
  | 0 => .bf16 | 1 => .f16 | 2 => .e4m3 | 3 => .e5m2 | 4 => .i8 | 5 => .i4 | 6 => .e2m1 | _ => .cb2

/-- AM code (Table 11-12); 3 is reserved. -/
def accmOf (b : BitVec 2) : Option AccM :=
  match b.toNat with | 0 => some .f32 | 1 => some .i32w | 2 => some .i32s | _ => none

/-- OP code of ATOM and RED (Table 14-4); 7 is unassigned. -/
def aopOf (b : BitVec 3) : Option AOp :=
  match b.toNat with
  | 0 => some .add | 1 => some .min | 2 => some .max | 3 => some .and | 4 => some .or | 5 => some .xor | 6 => some .exch | _ => none

/-- TY code of ATOM and RED (R323); 3 is reserved. -/
def atyOf (b : BitVec 2) : Option ATy :=
  match b.toNat with | 0 => some .i32 | 1 => some .n32 | 2 => some .f32 | _ => none

/-- Size code of major 0x27 (R322). -/
def szOf (b : BitVec 2) : Sz := match b.toNat with | 0 => .w | 1 => .q | 2 => .h | _ => .b

/-- Special register numbers (Table 11-13). -/
def sregOf (b : BitVec 7) : Option SReg :=
  match b.toNat with
  | 0x00 => some .fibreIdx | 0x01 => some .laneIdx | 0x02 => some .crewIdx | 0x03 => some .unitIdx | 0x04 => some .gangIdx
  | 0x05 => some .mbTag | 0x06 => some .stepG | 0x07 => some .partW | 0x08 => some .engSt
  | 0x10 => some .fpmode | 0x11 => some .fpflags | 0x12 => some .statAmax | 0x13 => some .statSat | 0x18 => some .cyc
  | 0x20 => some .trapinfo0 | 0x21 => some .trapinfo1 | 0x22 => some .trapinfo2 | 0x30 => some .xrootLo | 0x31 => some .xrootHi
  | _ => none

/-- ICMP condition (R278); 6 and 7 are unassigned. -/
def icondOf (b : BitVec 3) : Option ICond :=
  match b.toNat with
  | 0 => some .eq | 1 => some .ne | 2 => some .lt | 3 => some .le | 4 => some .gt | 5 => some .ge | _ => none

/-- FCMP condition (Table 13-4); 7 is unassigned. -/
def fcondOf (b : BitVec 3) : Option FCond :=
  match b.toNat with
  | 0 => some .eq | 1 => some .ne | 2 => some .lt | 3 => some .le | 4 => some .gt | 5 => some .ge | 6 => some .un | _ => none

/-- PLOP operation (R279); 4 to 7 are unassigned. -/
def popOf (b : BitVec 3) : Option POp :=
  match b.toNat with | 0 => some .and | 1 => some .or | 2 => some .xor | 3 => some .mov | _ => none

/-- A 7-bit field naming a predicate or mask: its low four bits, in range when the others are zero (R250). -/
def nibOk (f : BitVec 7) : Bool := f.extractLsb' 4 3 == 0
/-- The number such a field names. -/
def nib (f : BitVec 7) : Nib := f.extractLsb' 0 4

/-- An instruction all of whose other fields are reserved and must be zero. -/
def plain (z : Bool) (i : Instr) : Option Raw := some { res := z, i := i }

/-- Majors 0x00 to 0x09. -/
def rawControl (maj : Nat) (w : Word) : Option Raw :=
  let minor := fld w 21 5; let d := fld w 14 7; let a := fld w 7 7; let b := fld w 0 7
  match maj with
  | 0x00 =>
    let z := d == 0 && a == 0 && b == 0
    match minor.toNat with
    | 0 => plain z .nop | 1 => plain z .bkpt | 2 => plain z .halt | _ => none
  | 0x01 => plain true (.br (fld w 22 4) ((fld w 21 1) == 1) (fld w 0 21))
  | 0x02 => plain true (.bra (fld w 0 26))
  | 0x03 =>
    if fld w 18 1 = 0 then plain true (.call (fld w 19 7) (fld w 0 18))
    else plain (fld w 0 11 == 0) (.callReg (fld w 19 7) (fld w 11 7))
  | 0x04 =>
    let z := d == 0 && b == 0
    match minor.toNat with
    | 0 => plain z (.ret a) | 1 => plain z (.jr a) | _ => none
  | 0x05 => plain (fld w 25 1 == 0) (.brFar (fld w 19 6) (fld w 0 19))
  | 0x06 =>
    if minor.toNat < 8 then plain true (.fork (fld w 21 3) d a b)
    else if minor = 8 then plain (d == 0 && a == 0 && b == 0) .endFibre else none
  | 0x07 =>
    match minor.toNat with
    | 0 => some { res := d == 0 && a == 0, rng := nibOk b, i := .join (nib b) }
    | 1 => some { res := d == 0 && a == 0, rng := nibOk b, i := .leave (nib b) }
    | 2 => some { res := d == 0 && a == 0, rng := nibOk b, i := .wait (nib b) }
    | 3 => some { res := a == 0, rng := nibOk b, i := .mread d (nib b) }
    | _ => none
  | 0x08 => plain (fld w 0 3 == 0) (.rept (fld w 19 7) (fld w 17 2) (fld w 15 2) (fld w 13 2) (fld w 11 2) (fld w 4 7) (fld w 3 1 == 1))
  | 0x09 =>
    if fld w 25 1 = 0 then plain (fld w 0 12 == 0) (.strm (fld w 23 2) (fld w 16 7) (fld w 14 2) (fld w 12 2))
    else plain (fld w 0 23 == 0) (.strmOff (fld w 23 2))
  | _ => none

/-- Majors 0x0A to 0x0D. -/
def rawAlu (maj : Nat) (w : Word) : Option Raw :=
  let minor := fld w 21 5; let d := fld w 14 7; let a := fld w 7 7; let b := fld w 0 7
  match maj, minor.toNat with
  | 0x0A, 0 => plain (d == 0 && a == 0) (.wbase b)
  | 0x0A, 1 => plain (d == 0 && a == 0) (.wbaseRel b)
  | 0x0A, 2 => plain (d == 0 && b == 0) (.wbaseReg a)
  | 0x0A, 8 => match sregOf a with
    | some r => plain (b == 0) (.sread d r)
    | none => some { res := b == 0, rng := false, i := .nop }
  | 0x0A, 9 => match sregOf d with
    | some r => plain (b == 0) (.swrite r a)
    | none => some { res := b == 0, rng := false, i := .nop }
  | 0x0B, 0 => plain true (.iadd d a b) | 0x0B, 1 => plain true (.iaddS d a b)
  | 0x0B, 2 => plain true (.isub d a b) | 0x0B, 3 => plain true (.isubS d a b)
  | 0x0B, 4 => plain true (.iminI d a b) | 0x0B, 5 => plain true (.iminN d a b)
  | 0x0B, 6 => plain true (.imaxI d a b) | 0x0B, 7 => plain true (.imaxN d a b)
  | 0x0B, 8 => plain true (.iand d a b) | 0x0B, 9 => plain true (.ior d a b)
  | 0x0B, 10 => plain true (.ixor d a b) | 0x0B, 11 => plain true (.iandn d a b)
  | 0x0B, 12 => plain true (.shl d a b) | 0x0B, 13 => plain true (.shrN d a b)
  | 0x0B, 14 => plain true (.shrI d a b) | 0x0B, 15 => plain true (.rot d a b)
  | 0x0B, 16 => plain true (.sel d a b)
  | 0x0B, 17 => plain (b == 0) (.iabs d a) | 0x0B, 18 => plain (b == 0) (.ineg d a)
  | 0x0C, 0 => plain true (.imul d a b) | 0x0C, 1 => plain true (.imulhI d a b) | 0x0C, 2 => plain true (.imulhN d a b)
  | 0x0C, 3 => plain true (.imad d a b) | 0x0C, 4 => plain true (.imadS d a b)
  | 0x0C, 5 => plain true (.idivI d a b) | 0x0C, 6 => plain true (.idivN d a b)
  | 0x0C, 7 => plain true (.iremI d a b) | 0x0C, 8 => plain true (.iremN d a b)
  | 0x0D, 0 => plain (b == 0) (.popc d a) | 0x0D, 1 => plain (b == 0) (.clz d a)
  | 0x0D, 2 => plain (b == 0) (.ctz d a) | 0x0D, 3 => plain (b == 0) (.brev d a)
  | 0x0D, 4 => plain true (.bfx d a b) | 0x0D, 5 => plain true (.bfi d a b)
  | _, _ => none

/-- Majors 0x0E to 0x17. -/
def rawImm (maj : Nat) (w : Word) : Option Raw :=
  let minor := fld w 21 5; let d := fld w 14 7; let a := fld w 7 7; let b := fld w 0 7
  let di := fld w 19 7; let ai := fld w 12 7; let imm := fld w 0 12; let c := fld w 0 5
  match maj with
  | 0x0E => plain true (.addi di ai imm) | 0x0F => plain true (.andi di ai imm)
  | 0x10 => plain true (.ori di ai imm) | 0x11 => plain true (.xori di ai imm)
  | 0x12 =>
    let z := fld w 5 5 == 0
    match (fld w 10 2).toNat with
    | 0 => plain z (.shli di ai c) | 1 => plain z (.shriN di ai c) | 2 => plain z (.shriI di ai c) | _ => plain z (.roti di ai c)
  | 0x13 => plain true (.movi di (fld w 0 19))
  | 0x14 => plain true (.movh di (fld w 0 19))
  | 0x15 => match icondOf (fld w 23 3) with
    | some cd => some { res := fld w 21 1 == 0, rng := nibOk d, i := .icmp cd (fld w 22 1 == 1) (nib d) a b }
    | none => none
  | 0x16 => match popOf (fld w 23 3) with
    | some .mov => some { res := fld w 21 1 == 0 && b == 0, rng := nibOk d && nibOk a, i := .plop .mov (fld w 22 1 == 1) false (nib d) (nib a) 0 }
    | some op => some { rng := nibOk d && nibOk a && nibOk b, i := .plop op (fld w 22 1 == 1) (fld w 21 1 == 1) (nib d) (nib a) (nib b) }
    | none => none
  | 0x17 => plain true (.lea minor d a b)
  | _ => none

/-- The rounding minors of major 0x18: the group base plus the rounding code (Table 13-1). -/
def rm5 (n : Nat) : Rm := match n % 5 with | 0 => .rne | 1 => .rtz | 2 => .rup | 3 => .rdn | _ => .fpm

/-- A unary instruction with a rounding in b[2:0] (R297). -/
def rawUn (w : Word) (f : Rm → Instr) : Option Raw :=
  match rmOf (fld w 0 3) with
  | some rm => plain (fld w 3 4 == 0) (f rm)
  | none => plain false .nop

/-- Majors 0x18 to 0x20. -/
def rawFp (maj : Nat) (w : Word) : Option Raw :=
  let minor := fld w 21 5; let d := fld w 14 7; let a := fld w 7 7; let b := fld w 0 7
  match maj with
  | 0x18 =>
    let m := minor.toNat
    if m < 5 then plain true (.fadd (rm5 m) d a b) else if m < 10 then plain true (.fsub (rm5 m) d a b)
    else if m < 15 then plain true (.fmul (rm5 m) d a b) else if m = 15 then plain true (.fmin d a b)
    else if m = 16 then plain true (.fmax d a b) else none
  | 0x19 => match rmOf (fld w 21 3) with
    | some rm => plain true (.ffma (fld w 25 1 == 1) (fld w 24 1 == 1) rm d a b)
    | none => plain false .nop
  | 0x1A =>
    let z := b == 0
    match minor.toNat with
    | 0 => rawUn w (.frcp · d a) | 1 => rawUn w (.frsq · d a) | 2 => rawUn w (.fsqrt · d a)
    | 3 => rawUn w (.fexp2 · d a) | 4 => rawUn w (.flog2 · d a)
    | 5 => plain z (.fabs d a) | 6 => plain z (.fneg d a) | 7 => plain z (.ffloor d a) | 8 => plain z (.fceil d a)
    | 9 => rawUn w (.frint · d a) | 10 => plain z (.fclass d a) | _ => none
  | 0x1B => match fcondOf (fld w 23 3) with
    | some c => some { res := fld w 21 2 == 0, rng := nibOk d, i := .fcmp c (nib d) a b }
    | none => none
  | 0x1C => match fmtOf (fld w 22 4), fmtOf (fld w 3 4), rmOf (fld w 0 3) with
    | some s, some t, some rm => plain true (.cvt s t (fld w 21 1 == 1) rm d a)
    | _, _, _ => plain false .nop
  | 0x1D => plain true (.cvtS (sfmtOf (fld w 23 3)) (fld w 22 1 == 1) (fld w 21 1 == 1) d a (fld w 2 5) (fld w 0 2))
  | 0x1E =>
    match minor.toNat with
    | 0 => plain true (.pickAt d a b) | 1 => plain true (.pickLead d a b) | 2 => plain true (.pickBack d a b)
    | 3 => plain true (.pickFwd d a b) | 4 => plain true (.pickMir d a b) | _ => none
  | 0x1F =>
    let s := fld w 23 3
    if s.toNat < 5 then
      match (fld w 21 2).toNat with
      | 0 => plain (b == 0) (.xbfly s .bit d a) | 1 => plain (b == 0) (.xbfly s .half d a)
      | 2 => plain (b == 0) (.xbfly s .word d a) | _ => plain false .nop
    else none
  | 0x20 =>
    let z := b == 0
    match minor.toNat with
    | 0 => some { res := z, rng := nibOk d && nibOk a, i := .pollEvery (nib d) (nib a) }
    | 1 => some { res := z, rng := nibOk d && nibOk a, i := .pollSome (nib d) (nib a) }
    | 2 => some { res := z, rng := nibOk a, i := .pollMap d (nib a) }
    | 8 => plain z (.foldAdd d a) | 9 => plain z (.foldMinI d a) | 10 => plain z (.foldMinN d a)
    | 11 => plain z (.foldMaxI d a) | 12 => plain z (.foldMaxN d a)
    | 13 => plain z (.foldAnd d a) | 14 => plain z (.foldOr d a) | 15 => plain z (.foldXor d a)
    | _ => none
  | _ => none

/-- Majors 0x21 to 0x2B. -/
def rawMem (maj : Nat) (w : Word) : Option Raw :=
  let o := ordOf (fld w 24 2); let sc := fld w 21 3
  let d := fld w 14 7; let a := fld w 7 7; let b := fld w 0 7; let off := fld w 0 6; let hb := fld w 6 1
  let g := fld w 20 1 == 1
  match maj with
  | 0x21 => plain true (.ldW o sc d a b) | 0x22 => plain true (.ldQ o sc d a b)
  | 0x23 => if hb = 0 then plain true (.ldB o sc d a off) else plain true (.ldH o sc d a off)
  | 0x24 => plain true (.stW o sc d a b) | 0x25 => plain true (.stQ o sc d a b)
  | 0x26 => if hb = 0 then plain true (.stB o sc d a off) else plain true (.stH o sc d a off)
  | 0x27 =>
    let z := szOf (fld w 3 2); let f := fld w 0 3
    match (fld w 5 2).toNat with
    | 0 => plain true (.ldS o sc d a z f) | 1 => plain true (.stS o sc d a z f)
    | 2 => plain true (.ldG o sc d a z f) | _ => plain true (.stG o sc d a z f)
  | 0x28 => match aopOf (fld w 17 3), atyOf (fld w 15 2) with
    | some op, some ty => plain true (.atom o sc g op ty (fld w 14 1 == 1) a b)
    | some _, none => plain false .nop
    | none, _ => none
  | 0x29 => match aopOf (fld w 17 3), atyOf (fld w 15 2) with
    | some op, some ty => plain true (.red o sc g op ty (fld w 14 1 == 1) a b)
    | some _, none => plain false .nop
    | none, _ => none
  | 0x2A => plain (fld w 14 6 == 0) (.atomc o sc g a b)
  | 0x2B =>
    let z := fld w 0 5 == 0
    match (fld w 5 2).toNat with
    | 0 => plain z (.ldDs o sc d a) | 1 => plain z (.stDs o sc d a) | 2 => plain z (.addDs o sc d a) | _ => plain z (.redDs o sc d a)
  | _ => none

/-- Majors 0x2C to 0x2E (Tables 14-7, 14-8, 14-10). -/
def rawSync (maj : Nat) (w : Word) : Option Raw :=
  let oz := fld w 24 2 == 0; let o := ordOf (fld w 24 2); let sc := fld w 21 3; let sz := sc == 0
  let d := fld w 14 7; let a := fld w 7 7; let lo := fld w 0 4 == 0
  match maj, (fld w 4 3).toNat with
  | 0x2C, 0 => some { res := d == 0 && a == 0 && lo, i := .fence o sc }
  | 0x2C, 1 => some { res := sz && lo && fld w 20 1 == 0 && fld w 13 1 == 0, ord := oz, i := .fenceX (fld w 14 6) (fld w 7 6) }
  | 0x2C, 2 => some { res := sz && d == 0 && lo, ord := oz, i := .monitor a }
  | 0x2C, 3 => some { res := d == 0 && a == 0 && lo, ord := oz, i := .mwait sc }
  | 0x2C, 4 => some { res := lo, i := .tagSet o sc d a }
  | 0x2C, 5 => some { res := lo, i := .tagGet o sc d a }
  | 0x2C, 6 => some { res := sz && d == 0 && lo, ord := oz, i := .pref a }
  | 0x2D, 0 => some { res := sz && fld w 0 3 == 0, ord := oz, i := .barInit d a (fld w 3 1 == 1) }
  | 0x2D, 1 => some { res := d == 0 && lo, ord := oz, i := .barArr sc a }
  | 0x2D, 2 => some { res := d == 0 && lo, ord := oz, i := .barWait sc a }
  | 0x2D, 3 => some { res := lo, rng := nibOk d, ord := oz, i := .barArrw sc (nib d) a }
  | 0x2D, 4 => some { res := sz && d == 0 && a == 0 && lo, ord := oz, i := .unitSync }
  | 0x2D, 5 => some { res := sz && d == 0 && a == 0 && lo, ord := oz, i := .gangSync }
  | 0x2E, n =>
    let z := fld w 0 5 == 0
    match n / 2 with
    | 0 => some { res := sz && z, rng := nibOk a, ord := oz, i := .berOpen d (nib a) }
    | 1 => some { res := sz && d == 0 && z, ord := oz, i := .berPub a }
    | 2 => some { res := z, i := .stBerth o sc d a }
    | _ => some { res := sz && d == 0 && z, ord := oz, i := .tagRetire a }
  | _, _ => none

/-- Majors 0x2F to 0x33. -/
def rawTile (maj : Nat) (w : Word) : Option Raw :=
  let minor := (fld w 21 5).toNat
  let d := fld w 14 7; let a := fld w 7 7; let b := fld w 0 7
  let c := fld w 22 4; let ab := fld w 15 7; let br := fld w 8 7
  let af := mfmtOf (fld w 5 3); let bf := mfmtOf (fld w 2 3)
  let sub := fld w 2 1 == 1; let q := fld w 0 2; let b63 := fld w 3 4 == 0
  let tile := fld w 14 4; let thi := fld w 18 3 == 0
  match maj with
  | 0x2F => match accmOf (fld w 0 2) with | some am => plain true (.mma c ab br af bf am) | none => plain false .nop
  | 0x30 => match accmOf (fld w 0 2) with | some am => plain true (.mmaSp c ab br af bf am) | none => plain false .nop
  | 0x31 => match accmOf (fld w 0 2) with | some am => plain true (.mmaP c ab br af bf am) | none => plain false .nop
  | 0x32 =>
    match minor with
    | 0 => plain (thi && fld w 11 3 == 0) (.scacc tile (fld w 7 4) b)
    | 1 => plain (thi && b63) (.accLd tile a sub q)
    | 2 => plain (thi && b63) (.accSt tile a sub q)
    | 3 => plain (thi && b63 && a == 0) (.accZero tile sub q)
    | 4 => plain true (.accCvt (sfmtOf (fld w 18 3)) tile a (fld w 6 1 == 1) (fld w 5 1 == 1) (fld w 3 2) sub q)
    | 5 => match pfmtOf (fld w 0 3) with | some f => plain b63 (.plane d a f) | none => plain false .nop
    | 6 => match pfmtOf (fld w 0 3) with | some f => plain b63 (.unplane d a f) | none => plain false .nop
    | 7 => plain (d == 0 && b == 0) (.cbLd a)
    | _ => none
  | 0x33 =>
    let st := fld w 16 4; let sq := fld w 14 2; let dz := fld w 20 1 == 0
    match minor with
    | 0 => plain (fld w 16 5 == 0 && b == 0) (.ruleLd (fld w 14 2) a)
    | 1 => plain (dz && fld w 2 5 == 0) (.sweep st sq a (fld w 0 2))
    | 2 => plain (dz && fld w 2 5 == 0) (.sweepR st sq a (fld w 0 2))
    | 3 => plain (b == 0) (.trace d a)
    | 4 => plain (d == 0) (.bndIn a b)
    | 5 => plain (dz && b == 0) (.bndOut st sq a)
    | _ => none
  | _ => none

/-- Majors 0x34 to 0x37. -/
def rawSys (maj : Nat) (w : Word) : Option Raw :=
  let minor := (fld w 21 5).toNat
  let d := fld w 14 7; let a := fld w 7 7; let b := fld w 0 7
  match maj, minor with
  | 0x34, 0 => some { res := a == 0 && b == 0, rng := nibOk d, i := .engAcq (nib d) }
  | 0x34, 1 => plain (d == 0 && a == 0 && b == 0) .engRel
  | 0x34, 2 => plain (d == 0 && b == 0) (.copy a)
  | 0x34, 3 => plain (d == 0 && b == 0) (.gather a)
  | 0x35, 0 => plain (d == 0 && b == 0) (.coll a)
  | 0x35, 1 => plain (d == 0 && b == 0) (.frame a)
  | 0x36, 0 => plain true (.post d a b)
  | 0x36, 1 => plain (fld w 2 5 == 0) (.cancel d a (fld w 0 2))
  | 0x36, 2 => plain (fld w 2 5 == 0) (.cntRd d a (fld w 0 2))
  | 0x36, 3 => plain (d == 0 && a == 0 && b == 0) .stepAdv
  | 0x37, 0 => plain (d == 0 && a == 0 && fld w 4 3 == 0) (.trap (fld w 0 4))
  | 0x37, 1 => plain (d == 0 && a == 0 && fld w 1 6 == 0) (.eret (fld w 0 1 == 1))
  | 0x37, 2 => plain (a == 0 && b == 0) (.cyc d)
  | 0x37, 3 =>
    match (fld w 0 2).toNat with
    | 0 => plain (d == 0 && fld w 2 12 == 0) .rednCtlSync
    | 1 => plain (fld w 2 12 == 0) (.rednCtlCount d)
    | _ => none
  | 0x37, 4 => plain (fld w 3 4 == 0) (.finj d a (fld w 0 3))
  | _, _ => none

/-- The row of Table 11-14 that a word falls under, by its major opcode. -/
def rawOf (w : Word) : Option Raw :=
  let maj := (fld w 26 6).toNat
  if maj < 0x0A then rawControl maj w
  else if maj < 0x0E then rawAlu maj w
  else if maj < 0x18 then rawImm maj w
  else if maj < 0x21 then rawFp maj w
  else if maj < 0x2C then rawMem maj w
  else if maj < 0x2F then rawSync maj w
  else if maj < 0x34 then rawTile maj w
  else rawSys maj w

/-- A header word: bits [31:29] are 0b111 (R245). -/
def isHeader (w : Word) : Bool := fld w 29 3 == 7

/-- The decoder: checks 1 to 5 of Table 11-15 in order; the first that fails names the rejection. (DEDUCED, log entry 17.) -/
def decodeWord (w : Word) : Except Bad Instr :=
  if isHeader w then .error .marker
  else match rawOf w with
    | none => .error .selector
    | some r =>
      if !(r.res && r.i.resOk) then .error .reserved
      else if !(r.rng && r.i.rangeOk) then .error .range
      else if !(r.ord && r.i.ordOk) then .error .order
      else .ok r.i

/-- The word of a 4-byte little-endian instruction (R4). -/
def wordOfBytes (b0 b1 b2 b3 : Byte) : Word := b3 ++ b2 ++ b1 ++ b0

/-- The decoder on any bytes: the instruction and the bytes after it, or why there is none. Fewer than four bytes hold no word. -/
def decode : List Byte → Except Bad (Instr × List Byte)
  | b0 :: b1 :: b2 :: b3 :: rest =>
    match decodeWord (wordOfBytes b0 b1 b2 b3) with
    | .ok i => .ok (i, rest)
    | .error e => .error e
  | _ => .error .selector

/-- What the decoder reads from an opcode-table word: bit 0 is the least significant bit of the one 32-bit word. -/
def decodeTableWord (_nbits w : Nat) : Option Instr :=
  let v : Word := BitVec.ofNat 32 w
  match decode [v.extractLsb' 0 8, v.extractLsb' 8 8, v.extractLsb' 16 8, v.extractLsb' 24 8] with
  | .ok (i, _) => some i
  | .error _ => none

/-! ### The encoder -/

/-- Rounding code (Table 11-10). -/
def Rm.code : Rm → BitVec 3 | .rne => 0 | .rtz => 1 | .rup => 2 | .rdn => 3 | .fpm => 4
/-- Order code (Table 11-9). -/
def Ord.code : Ord → BitVec 2 | .rlx => 0 | .acq => 1 | .rel => 2 | .ar => 3
/-- Format code (Table 11-11). -/
def Fmt.code : Fmt → BitVec 4
  | .f32 => 0 | .f16 => 1 | .bf16 => 2 | .e4m3 => 3 | .e5m2 => 4 | .e2m1 => 5 | .i32 => 6 | .n32 => 7 | .i8 => 8 | .n8 => 9 | .i4 => 10 | .e8m0 => 11
/-- CVT.S destination code (R254). -/
def SFmt.code : SFmt → BitVec 3
  | .bf16 => 0 | .f16 => 1 | .e4m3 => 2 | .e5m2 => 3 | .e2m1 => 4 | .i8 => 5 | .n8 => 6 | .i4 => 7
/-- Plane format code (Table 14-11). -/
def PFmt.code : PFmt → BitVec 3 | .bf16 => 1 | .f16 => 2 | .e4m3 => 3 | .e5m2 => 4 | .e2m1 => 5 | .i8 => 6 | .i4 => 7
/-- AF or BF code (Table 11-12). -/
def MFmt.code : MFmt → BitVec 3 | .bf16 => 0 | .f16 => 1 | .e4m3 => 2 | .e5m2 => 3 | .i8 => 4 | .i4 => 5 | .e2m1 => 6 | .cb2 => 7
/-- AM code (Table 11-12). -/
def AccM.code : AccM → BitVec 2 | .f32 => 0 | .i32w => 1 | .i32s => 2
/-- OP code (Table 14-4). -/
def AOp.code : AOp → BitVec 3 | .add => 0 | .min => 1 | .max => 2 | .and => 3 | .or => 4 | .xor => 5 | .exch => 6
/-- TY code (R323). -/
def ATy.code : ATy → BitVec 2 | .i32 => 0 | .n32 => 1 | .f32 => 2
/-- Size code (R322). -/
def Sz.code : Sz → BitVec 2 | .w => 0 | .q => 1 | .h => 2 | .b => 3
/-- XBFLY mode code (R307). -/
def XMode.code : XMode → BitVec 2 | .bit => 0 | .half => 1 | .word => 2
/-- Special register number (Table 11-13). -/
def SReg.code : SReg → BitVec 7
  | .fibreIdx => 0x00 | .laneIdx => 0x01 | .crewIdx => 0x02 | .unitIdx => 0x03 | .gangIdx => 0x04 | .mbTag => 0x05 | .stepG => 0x06
  | .partW => 0x07 | .engSt => 0x08 | .fpmode => 0x10 | .fpflags => 0x11 | .statAmax => 0x12 | .statSat => 0x13 | .cyc => 0x18
  | .trapinfo0 => 0x20 | .trapinfo1 => 0x21 | .trapinfo2 => 0x22 | .xrootLo => 0x30 | .xrootHi => 0x31
/-- ICMP condition code (R278). -/
def ICond.code : ICond → BitVec 3 | .eq => 0 | .ne => 1 | .lt => 2 | .le => 3 | .gt => 4 | .ge => 5
/-- FCMP condition code (Table 13-4). -/
def FCond.code : FCond → BitVec 3 | .eq => 0 | .ne => 1 | .lt => 2 | .le => 3 | .gt => 4 | .ge => 5 | .un => 6
/-- PLOP operation code (R279). -/
def POp.code : POp → BitVec 3 | .and => 0 | .or => 1 | .xor => 2 | .mov => 3
/-- One bit. -/
def bit1 (b : Bool) : BitVec 1 := BitVec.ofBool b
/-- A predicate, mask or tile number in a 7-bit field, its other bits zero (R250). -/
def nib7 (p : Nib) : BitVec 7 := (0 : BitVec 3) ++ p

/-- Format R (Table 11-2). -/
def encR (maj : BitVec 6) (minor : BitVec 5) (d a b : BitVec 7) : Word := maj ++ minor ++ d ++ a ++ b
/-- Format R with ORD and SCOPE in the minor field (R252). -/
def encM (maj : BitVec 6) (o : Ord) (sc : BitVec 3) (d a b : BitVec 7) : Word := maj ++ o.code ++ sc ++ d ++ a ++ b
/-- Format I (Table 11-3). -/
def encI (maj : BitVec 6) (d a : BitVec 7) (imm : BitVec 12) : Word := maj ++ d ++ a ++ imm
/-- Format L (Table 11-4). -/
def encL (maj : BitVec 6) (d : BitVec 7) (imm : BitVec 19) : Word := maj ++ d ++ imm
/-- Format M (Table 11-7). -/
def encMma (maj : BitVec 6) (c : Nib) (a b : BitVec 7) (af bf : MFmt) (am : AccM) : Word :=
  maj ++ c ++ a ++ b ++ af.code ++ bf.code ++ am.code
/-- The b field of major 0x27 (R322). -/
def encB27 (sel : BitVec 2) (z : Sz) (off : BitVec 3) : BitVec 7 := sel ++ z.code ++ off
/-- The d field of ATOM and RED (R323). -/
def encAop (g : Bool) (op : AOp) (ty : ATy) (s : Bool) : BitVec 7 := bit1 g ++ op.code ++ ty.code ++ bit1 s
/-- The extent field of R356. -/
def encExt (sub : Bool) (q : BitVec 2) : BitVec 7 := (0 : BitVec 4) ++ bit1 sub ++ q
/-- The sub-tile field of SWEEP (R366). -/
def encSub (t : Nib) (q : BitVec 2) : BitVec 7 := (0 : BitVec 1) ++ t ++ q

/-- The word of an instruction, from the encoding tables of *Instruction Formats and Opcode Map*; an event has none. -/
def encode : Instr → Option Word
  | .nop => some (encR 0 0 0 0 0) | .bkpt => some (encR 0 1 0 0 0) | .halt => some (encR 0 2 0 0 0)
  | .br p s off => some (0x01#6 ++ p ++ bit1 s ++ off)
  | .bra off => some (0x02#6 ++ off)
  | .call d off => some (0x03#6 ++ d ++ 0#1 ++ off)
  | .callReg d a => some (0x03#6 ++ d ++ 1#1 ++ a ++ 0#11)
  | .ret a => some (encR 4 0 0 a 0) | .jr a => some (encR 4 1 0 a 0)
  | .brFar l off => some (0x05#6 ++ 0#1 ++ l ++ off)
  | .fork l d a b => some (encR 6 (0#2 ++ l) d a b)
  | .endFibre => some (encR 6 8 0 0 0)
  | .join m => some (encR 7 0 0 0 (nib7 m)) | .leave m => some (encR 7 1 0 0 (nib7 m)) | .wait m => some (encR 7 2 0 0 (nib7 m))
  | .mread d m => some (encR 7 3 d 0 (nib7 m))
  | .rept cr id ia ib iacc ar ae => some (0x08#6 ++ cr ++ id ++ ia ++ ib ++ iacc ++ ar ++ bit1 ae ++ 0#3)
  | .strm sr dr dims esz => some (0x09#6 ++ 0#1 ++ sr ++ dr ++ dims ++ esz ++ 0#12)
  | .strmOff sr => some (0x09#6 ++ 1#1 ++ sr ++ 0#23)
  | .wbase b => some (encR 0x0A 0 0 0 b) | .wbaseRel b => some (encR 0x0A 1 0 0 b) | .wbaseReg a => some (encR 0x0A 2 0 a 0)
  | .sread d r => some (encR 0x0A 8 d r.code 0) | .swrite r a => some (encR 0x0A 9 r.code a 0)
  | .iadd d a b => some (encR 0x0B 0 d a b) | .iaddS d a b => some (encR 0x0B 1 d a b)
  | .isub d a b => some (encR 0x0B 2 d a b) | .isubS d a b => some (encR 0x0B 3 d a b)
  | .iminI d a b => some (encR 0x0B 4 d a b) | .iminN d a b => some (encR 0x0B 5 d a b)
  | .imaxI d a b => some (encR 0x0B 6 d a b) | .imaxN d a b => some (encR 0x0B 7 d a b)
  | .iand d a b => some (encR 0x0B 8 d a b) | .ior d a b => some (encR 0x0B 9 d a b)
  | .ixor d a b => some (encR 0x0B 10 d a b) | .iandn d a b => some (encR 0x0B 11 d a b)
  | .shl d a b => some (encR 0x0B 12 d a b) | .shrN d a b => some (encR 0x0B 13 d a b)
  | .shrI d a b => some (encR 0x0B 14 d a b) | .rot d a b => some (encR 0x0B 15 d a b)
  | .sel d a b => some (encR 0x0B 16 d a b) | .iabs d a => some (encR 0x0B 17 d a 0) | .ineg d a => some (encR 0x0B 18 d a 0)
  | .imul d a b => some (encR 0x0C 0 d a b) | .imulhI d a b => some (encR 0x0C 1 d a b) | .imulhN d a b => some (encR 0x0C 2 d a b)
  | .imad d a b => some (encR 0x0C 3 d a b) | .imadS d a b => some (encR 0x0C 4 d a b)
  | .idivI d a b => some (encR 0x0C 5 d a b) | .idivN d a b => some (encR 0x0C 6 d a b)
  | .iremI d a b => some (encR 0x0C 7 d a b) | .iremN d a b => some (encR 0x0C 8 d a b)
  | .popc d a => some (encR 0x0D 0 d a 0) | .clz d a => some (encR 0x0D 1 d a 0) | .ctz d a => some (encR 0x0D 2 d a 0)
  | .brev d a => some (encR 0x0D 3 d a 0) | .bfx d a b => some (encR 0x0D 4 d a b) | .bfi d a b => some (encR 0x0D 5 d a b)
  | .addi d a i => some (encI 0x0E d a i) | .andi d a i => some (encI 0x0F d a i)
  | .ori d a i => some (encI 0x10 d a i) | .xori d a i => some (encI 0x11 d a i)
  | .shli d a c => some (encI 0x12 d a (0#7 ++ c)) | .shriN d a c => some (encI 0x12 d a (0x20#7 ++ c))
  | .shriI d a c => some (encI 0x12 d a (0x40#7 ++ c)) | .roti d a c => some (encI 0x12 d a (0x60#7 ++ c))
  | .movi d i => some (encL 0x13 d i) | .movh d i => some (encL 0x14 d i)
  | .icmp c n p a b => some (encR 0x15 (c.code ++ bit1 n ++ 0#1) (nib7 p) a b)
  | .plop op na nb d a b => some (encR 0x16 (op.code ++ bit1 na ++ bit1 nb) (nib7 d) (nib7 a) (nib7 b))
  | .lea s d a b => some (encR 0x17 s d a b)
  | .fadd rm d a b => some (encR 0x18 (0#2 ++ rm.code) d a b)
  | .fsub rm d a b => some (encR 0x18 (5#5 + (0#2 ++ rm.code)) d a b)
  | .fmul rm d a b => some (encR 0x18 (10#5 + (0#2 ++ rm.code)) d a b)
  | .fmin d a b => some (encR 0x18 15 d a b) | .fmax d a b => some (encR 0x18 16 d a b)
  | .ffma np nc rm d a b => some (encR 0x19 (bit1 np ++ bit1 nc ++ rm.code) d a b)
  | .frcp rm d a => some (encR 0x1A 0 d a (0#4 ++ rm.code)) | .frsq rm d a => some (encR 0x1A 1 d a (0#4 ++ rm.code))
  | .fsqrt rm d a => some (encR 0x1A 2 d a (0#4 ++ rm.code)) | .fexp2 rm d a => some (encR 0x1A 3 d a (0#4 ++ rm.code))
  | .flog2 rm d a => some (encR 0x1A 4 d a (0#4 ++ rm.code))
  | .fabs d a => some (encR 0x1A 5 d a 0) | .fneg d a => some (encR 0x1A 6 d a 0)
  | .ffloor d a => some (encR 0x1A 7 d a 0) | .fceil d a => some (encR 0x1A 8 d a 0)
  | .frint rm d a => some (encR 0x1A 9 d a (0#4 ++ rm.code)) | .fclass d a => some (encR 0x1A 10 d a 0)
  | .fcmp c p a b => some (encR 0x1B (c.code ++ 0#2) (nib7 p) a b)
  | .cvt s t inf rm d a => some (encR 0x1C (s.code ++ bit1 inf) d a (t.code ++ rm.code))
  | .cvtS t inf fpm d a sc rm => some (encR 0x1D (t.code ++ bit1 inf ++ bit1 fpm) d a (sc ++ rm))
  | .pickAt d a b => some (encR 0x1E 0 d a b) | .pickLead d a b => some (encR 0x1E 1 d a b) | .pickBack d a b => some (encR 0x1E 2 d a b)
  | .pickFwd d a b => some (encR 0x1E 3 d a b) | .pickMir d a b => some (encR 0x1E 4 d a b)
  | .xbfly s m d a => some (encR 0x1F (s ++ m.code) d a 0)
  | .pollEvery d a => some (encR 0x20 0 (nib7 d) (nib7 a) 0) | .pollSome d a => some (encR 0x20 1 (nib7 d) (nib7 a) 0)
  | .pollMap d a => some (encR 0x20 2 d (nib7 a) 0)
  | .foldAdd d a => some (encR 0x20 8 d a 0) | .foldMinI d a => some (encR 0x20 9 d a 0) | .foldMinN d a => some (encR 0x20 10 d a 0)
  | .foldMaxI d a => some (encR 0x20 11 d a 0) | .foldMaxN d a => some (encR 0x20 12 d a 0)
  | .foldAnd d a => some (encR 0x20 13 d a 0) | .foldOr d a => some (encR 0x20 14 d a 0) | .foldXor d a => some (encR 0x20 15 d a 0)
  | .ldW o sc d a f => some (encM 0x21 o sc d a f) | .ldQ o sc d a f => some (encM 0x22 o sc d a f)
  | .ldB o sc d a f => some (encM 0x23 o sc d a (0#1 ++ f)) | .ldH o sc d a f => some (encM 0x23 o sc d a (1#1 ++ f))
  | .stW o sc d a f => some (encM 0x24 o sc d a f) | .stQ o sc d a f => some (encM 0x25 o sc d a f)
  | .stB o sc d a f => some (encM 0x26 o sc d a (0#1 ++ f)) | .stH o sc d a f => some (encM 0x26 o sc d a (1#1 ++ f))
  | .ldS o sc d a z f => some (encM 0x27 o sc d a (encB27 0 z f)) | .stS o sc d a z f => some (encM 0x27 o sc d a (encB27 1 z f))
  | .ldG o sc d a z f => some (encM 0x27 o sc d a (encB27 2 z f)) | .stG o sc d a z f => some (encM 0x27 o sc d a (encB27 3 z f))
  | .atom o sc g op ty s a b => some (encM 0x28 o sc (encAop g op ty s) a b)
  | .red o sc g op ty s a b => some (encM 0x29 o sc (encAop g op ty s) a b)
  | .atomc o sc g a b => some (encM 0x2A o sc (bit1 g ++ 0#6) a b)
  | .ldDs o sc d a => some (encM 0x2B o sc d a 0) | .stDs o sc d a => some (encM 0x2B o sc d a 0x20)
  | .addDs o sc d a => some (encM 0x2B o sc d a 0x40) | .redDs o sc d a => some (encM 0x2B o sc d a 0x60)
  | .fence o sc => some (encM 0x2C o sc 0 0 0)
  | .fenceX s t => some (encM 0x2C .rlx 0 (0#1 ++ s) (0#1 ++ t) 0x10)
  | .monitor a => some (encM 0x2C .rlx 0 0 a 0x20) | .mwait sc => some (encM 0x2C .rlx sc 0 0 0x30)
  | .tagSet o sc d a => some (encM 0x2C o sc d a 0x40) | .tagGet o sc d a => some (encM 0x2C o sc d a 0x50)
  | .pref a => some (encM 0x2C .rlx 0 0 a 0x60)
  | .barInit d a y => some (encM 0x2D .rlx 0 d a (0#3 ++ bit1 y ++ 0#3))
  | .barArr sc a => some (encM 0x2D .rlx sc 0 a 0x10) | .barWait sc a => some (encM 0x2D .rlx sc 0 a 0x20)
  | .barArrw sc p a => some (encM 0x2D .rlx sc (nib7 p) a 0x30)
  | .unitSync => some (encM 0x2D .rlx 0 0 0 0x40) | .gangSync => some (encM 0x2D .rlx 0 0 0 0x50)
  | .berOpen d p => some (encM 0x2E .rlx 0 d (nib7 p) 0) | .berPub a => some (encM 0x2E .rlx 0 0 a 0x20)
  | .stBerth o sc d a => some (encM 0x2E o sc d a 0x40) | .tagRetire a => some (encM 0x2E .rlx 0 0 a 0x60)
  | .mma c a b af bf am => some (encMma 0x2F c a b af bf am)
  | .mmaSp c a b af bf am => some (encMma 0x30 c a b af bf am)
  | .mmaP c a b af bf am => some (encMma 0x31 c a b af bf am)
  | .scacc c p b => some (encR 0x32 0 (nib7 c) (nib7 p) b)
  | .accLd t a sub q => some (encR 0x32 1 (nib7 t) a (encExt sub q))
  | .accSt t a sub q => some (encR 0x32 2 (nib7 t) a (encExt sub q))
  | .accZero t sub q => some (encR 0x32 3 (nib7 t) 0 (encExt sub q))
  | .accCvt g t a inf fpm rm sub q => some (encR 0x32 4 (g.code ++ t) a (bit1 inf ++ bit1 fpm ++ rm ++ bit1 sub ++ q))
  | .plane d a f => some (encR 0x32 5 d a (0#4 ++ f.code)) | .unplane d a f => some (encR 0x32 6 d a (0#4 ++ f.code))
  | .cbLd a => some (encR 0x32 7 0 a 0)
  | .ruleLd s a => some (encR 0x33 0 (0#5 ++ s) a 0)
  | .sweep t q a s => some (encR 0x33 1 (encSub t q) a (0#5 ++ s)) | .sweepR t q a s => some (encR 0x33 2 (encSub t q) a (0#5 ++ s))
  | .trace d a => some (encR 0x33 3 d a 0) | .bndIn a b => some (encR 0x33 4 0 a b) | .bndOut t q a => some (encR 0x33 5 (encSub t q) a 0)
  | .engAcq p => some (encR 0x34 0 (nib7 p) 0 0) | .engRel => some (encR 0x34 1 0 0 0)
  | .copy a => some (encR 0x34 2 0 a 0) | .gather a => some (encR 0x34 3 0 a 0)
  | .coll a => some (encR 0x35 0 0 a 0) | .frame a => some (encR 0x35 1 0 a 0)
  | .post d a b => some (encR 0x36 0 d a b)
  | .cancel d a l => some (encR 0x36 1 d a (0#5 ++ l)) | .cntRd d a l => some (encR 0x36 2 d a (0#5 ++ l))
  | .stepAdv => some (encR 0x36 3 0 0 0)
  | .trap c => some (encR 0x37 0 0 0 (nib7 c)) | .eret s => some (encR 0x37 1 0 0 (0#6 ++ bit1 s))
  | .cyc d => some (encR 0x37 2 d 0 0)
  | .rednCtlSync => some (encR 0x37 3 0 0 0) | .rednCtlCount d => some (encR 0x37 3 d 0 1)
  | .finj d a k => some (encR 0x37 4 d a (0#4 ++ k))
  | .clauseStart .. | .reptPass .. | .storeQueueSend .. | .poolMissFill .. | .tagMirrorFill .. | .crewSwap .. | .forcedSwap ..
  | .lockFormCrew .. | .unitSyncComplete .. | .gangSyncComplete .. | .barWaitComplete .. | .mwaitWake .. | .keyedRequest ..
  | .drainedUpdate .. | .pairedArrival .. | .signatureCompare .. | .responseDone .. | .responseRefused .. | .responseFault ..
  | .responsePoison .. | .responseDiverged .. | .requestTimeout .. | .refusalBackoffExpiry .. | .packetAgeDiscard ..
  | .lowAdvance .. | .retireMessage .. | .ownerRestart .. | .journalLoss .. | .stepAdvComplete .. | .unitDispatch ..
  | .passedOverLimit .. | .preempt .. | .preemptSaved .. | .resume .. | .engineArrival .. | .engineCommandComplete ..
  | .sweepComplete .. | .frameDecode .. | .treeRebuild .. | .grantServed .. | .grantHoldExpiry .. | .unitEnd .. | .drainBegin ..
  | .nodeCommit .. | .rollbackInPlace .. | .rollbackRequeue .. | .dredgePassBegin .. | .dredgePassEnd .. | .scrubRead ..
  | .bankFailure .. | .timingReplay .. | .replayLimit .. | .checkpoint .. | .checkpointDone .. | .restore .. | .ckptStart ..
  | .dclsLoad .. | .tlbinvPage .. | .tlbinvJob .. | .bmclr .. | .berthk .. | .stepset .. | .root .. | .drgnWrite ..
  | .machineCheckQueue | .managementRegisterWrite .. | .portLinkTraining .. | .portDown .. | .flitReceive .. | .powerOn
  | .homeReadRequest .. | .tlbinvDone | .bmclrDone | .coreReset .. => none

end Sys2Proof
end

