-- ==== Sys2Proof/Machine/State.lean ====
section
/-! DEFINITION. The state of the whole device as plain data: jobs, nodes, units with their crews and fibres, cores, dies, device memory,
the operations in flight, and the management region. Everything the spec names has a field here or, where a docstring says so, is computed
from fields. The fields of *The model's own* say what moves next; no hardware register holds them (notes/assumptions/1.md). -/

namespace Sys2Proof.Machine

/-- A sparse map from naturals, in canonical form: keys strictly rising and no entry that equals the map's default. -/
abbrev SMap (α : Type) := List (Nat × α)

/-- Bytes of memory by address (Host.Cell), in the same canonical form with default 0. -/
abbrev Memory := List Host.Cell

/-- How a step can stop. -/
inductive Fault
  /-- Raised by an instruction word's meaning when no crew stands where the state says an instruction issues (`State.cur`). Safe: `step`
  never applies a meaning there, so no run of the machine meets it. -/
  | noCrew
  deriving DecidableEq, Repr

/-- Why a meaning gives no outcome. -/
inductive Refusal
  /-- Named by a constructor of `Instr` that has no meaning yet. Safe: the model stops where the hardware goes on. -/
  | notModelled (mnemonic : String)
  deriving DecidableEq, Repr

-- crews --------------------------------------------------------------------------------------------------------------

/-- Status of a split entry (R56, R177). -/
inductive EStatus | empty | runnable | waiting | parked
  deriving DecidableEq, Repr

/-- A split entry (Table 2-6). `started`, `hdr`: a clause is open at the entry and its header word (derived on resume, R56, R189).
`hold`: the operations that the instruction at `pc` has issued and waits for. `arrived`, `closer`: lanes whose BAR.ARRW has arrived and
those whose arrival made the object complete (R332, R333). `toHandler`: a parked entry that waits for serial mode to enter its handler.
`stale`: resumed from its image, with its clause header still to be read again (R56). -/
structure Entry where
  pc : Addr := 0
  mask : BitVec 32 := 0
  status : EStatus := .empty
  waitOn : BitVec 4 := 0
  handler : Bool := false
  idx : Nat := 0
  llDone : Bool := false
  started : Bool := false
  hdr : Word := 0
  hold : List Nat := []
  arrived : BitVec 32 := 0
  closer : BitVec 32 := 0
  toHandler : Bool := false
  stale : Bool := false
  deriving DecidableEq, Repr

/-- Where a lane of a serial crew stands (Table 8-4, LST). -/
inductive Lst | runnable | waiting | gone | parked
  deriving DecidableEq, Repr

/-- A serial lane (Table 8-4). `handler`, `held`: the lane runs its handler; its trap has no handler that it can run (R190). -/
structure LaneWord where
  pc : Addr := 0
  lst : Lst := .gone
  handler : Bool := false
  held : Bool := false
  waitOn : BitVec 4 := 0
  deriving DecidableEq, Repr

/-- A stream record (Table 13-11). -/
structure Strm where
  bound : Bool := false
  dr : BitVec 7 := 0
  dims : BitVec 2 := 0
  esz : BitVec 2 := 0
  deriving DecidableEq, Repr

/-- A crew (Table 2-6, R219, R220). `loops`: the loop word of each lane, N in [15:8] and K in [7:0] (Table 13-8). FLAGCNT is the number of
engine commands in flight tied to the flag, computed from `State.cmds`. `chosen`: the entry that runs (R179). `tryAt`: when a stalled fence
or wait first tried, as a value of `State.nextId`. `miss`: the pool lines that its stalled instruction names, some of them absent, and `missAt`: since
when it has waited for them (R46). -/
structure Crew where
  split : List Entry := List.replicate 8 {}
  masks : List (BitVec 32) := List.replicate 12 0
  lanes : List (Option Nat) := List.replicate 32 none
  serial : Bool := false
  slane : Nat := 0
  tab : List LaneWord := []
  loops : SMap (BitVec 16) := []
  streams : List Strm := List.replicate 4 {}
  chosen : Option Nat := none
  tryAt : Option Nat := none
  fifo : List Nat := []
  active : Bool := true
  since : Nat := 0
  passed : Nat := 0
  miss : List Nat := []
  missAt : Nat := 0
  deriving DecidableEq, Repr

/-- A trap that an operation that returns nothing has answered with, and that its fibre takes at its first later instruction that waits for
the operation (R122). `flag`: the flag the operation was tied to. `here`: taken where its entry stands, once all that it waits for is answered. -/
structure Pend where
  id : Nat
  code : BitVec 8
  cause : BitVec 4
  faddr : Addr
  flag : Option Nat := none
  here : Bool := false
  deriving DecidableEq, Repr

/-- A fibre (Table 8-1, Table 2-7). `watch`, `fired`: the line MONITOR watches and whether it was written (R329). `seen`: nodes named by
relaxed reads that no acquire has recorded (R81). `fate`: an operation of unknown fate the lane waits for after ERET, and `skip`: the lane
takes the next instruction as done (R121). `pending`: traps of operations that return nothing, not yet taken (R122). -/
structure Fibre where
  pred : BitVec 16 := 1
  wb : Nat := 0
  serial : BitVec 16 := 0
  low : BitVec 16 := 0
  fpmode : BitVec 8 := 0
  fpflags : BitVec 8 := 0
  amax : Word := 0
  sat : Word := 0
  code : BitVec 8 := 0
  cause : BitVec 4 := 0
  faddr : Addr := 0
  exists_ : Bool := false
  ended : Bool := false
  inBasin : Bool := false
  watch : Option Nat := none
  fired : Bool := false
  seen : List Nat := []
  fate : Option Nat := none
  skip : Bool := false
  pending : List Pend := []
  deriving DecidableEq, Repr

/-- What a basin slot holds (R60), as `slotAt` reads its bytes. -/
structure BasinSlot where
  pc : Addr
  pred : BitVec 16
  fibre : Nat
  serial : BitVec 16
  live : Nat
  forked : Bool
  regs : List Word
  deriving DecidableEq, Repr

/-- A staging entry (R61), with the crew and the word that issued it, and G_req (R102). `slot`: its place, in the staging block below 2,048 and in
STGB from there up. -/
structure Staged where
  slot : Nat
  target : Addr
  value : Word
  fibre : Nat
  type : BitVec 6
  seq : BitVec 16
  word : Word
  g : BitVec 24
  crew : Nat
  deriving DecidableEq, Repr

/-- A party of the race check with the generations that decide intervals (R157, R158). -/
structure Party where
  unit : Nat
  crew : Nat
  gen : Nat
  ggen : Nat
  deriving DecidableEq, Repr

/-- Shadow state of one sector (R158). -/
structure Shadow where
  sector : Nat
  writers : List Party := []
  readers : List Party := []
  reducers : List (Party × Nat) := []
  deriving DecidableEq, Repr

/-- What the pool holds of an image line (R36, R46): whether a row holds it, whether it is dirty (R63), its poison mark (R37), the symbols in error
of its 18, where data symbol d is bytes 8d to 8d + 7, and when it was last used. -/
structure Row where
  here : Bool := false
  dirty : Bool := false
  poison : Bool := false
  bad : List Nat := []
  used : Nat := 0
  deriving DecidableEq, Repr

/-- A sweep-class instruction in flight (R366): SWEEP (0), SWEEP.R (1) or TRACE (2). `regs`: its operands and its rule as it latched them at
issue: 32 row symbols, 32 column symbols, control word, addresses of the traceback tile, the boundary block and the adjoint block, and the
16 words of the rule; for TRACE, by lane, the tile address, the start cell and the window base. -/
structure SweepCmd where
  kind : Nat
  crew : Nat
  sub : Nat
  a : BitVec 7
  d : BitVec 7
  slot : Nat
  active : BitVec 32
  flag : Option Nat
  regs : List Word
  deriving DecidableEq, Repr

/-- A compare-buffer entry of a redundant unit (R388): the key as a number, whose signature it is, and its parts. -/
structure Sig where
  op : Nat
  key : Nat
  trailer : Bool
  word : Word
  addr : Nat
  data : List Byte
  localClass : Bool
  deriving DecidableEq, Repr

/-- Where a unit's context stands (Table 2-5, STATUS). `queued`: no image of it has started. -/
inductive UStatus | never | resident | evictable | saved
  deriving DecidableEq, Repr

/-- Fields of the unit header that the runtime or the card fixes (Table 2-5). -/
structure UnitCfg where
  node : Nat := 0
  job : Nat := 0
  uidx : Nat := 0
  gsize : Nat := 1
  gidx : Nat := 0
  part : Word := 0
  fibres : Nat := 0
  crews : Nat := 0
  det : Bool := false
  red : Bool := false
  prot : Bool := false
  prio : Nat := 0
  mb : BitVec 6 := 0
  card : Addr := 0
  image : Nat := 0
  bases : List Nat := List.replicate 10 0
  stglen : Nat := 0
  code : Addr := 0
  handler : Addr := 0
  trailer : Bool := false
  twin : Option Nat := none
  deriving DecidableEq, Repr

/-- A unit. `rows` says which lines of its image the pool holds, numbered as the presence bitmap numbers them (R59), and what they hold: `regs` is keyed
(crew*1024 + register)*32 + lane, `scr` by scratchpad offset, `acc` (tile*32 + row)*128 + column, `bas` by byte offset in the basin slots; an absent key
reads 0 (R23, R47), and so does a line that the pool does not hold. `book` is keyed by index, `rules` 64*slot + byte. `barWaits`: operations of other units
of the core that were in flight when this one left it. `preempting`, `stopping`: asked to leave its core, by pre-emption and by a cancel. `ended`: the unit
has ended (R200). `told`: the host knows that its bound core cannot take it (R382). `leftAt`: when it last left a core. -/
structure UnitSt where
  cfg : UnitCfg := {}
  status : UStatus := .never
  engSaved : Bool := false
  core : Option Nat := none
  lastCore : Option Nat := none
  startedAt : Nat := 0
  xroot : BitVec 64 := 0
  engQueued : Bool := false
  engPower : Bool := false
  engBusy : Bool := false
  regs : SMap Word := []
  scr : SMap Byte := []
  acc : SMap Word := []
  book : SMap (BitVec 16) := []
  rules : SMap Byte := []
  bas : SMap Byte := []
  rows : SMap Row := []
  staging : List Staged := []
  ubarGen : BitVec 16 := 0
  gbarGen : Nat := 0
  turnDrained : Bool := false
  draining : Bool := false
  compare : List Sig := []
  sweeps : List SweepCmd := []
  shadow : List Shadow := []
  barWaits : List Nat := []
  preempting : Bool := false
  stopping : Bool := false
  cancelled : Bool := false
  ended : Bool := false
  told : Bool := false
  leftAt : Nat := 0
  crews : List Crew := []
  fibs : List Fibre := []
  deriving DecidableEq, Repr

-- operations ---------------------------------------------------------------------------------------------------------

/-- The key of Table 5-2. -/
structure Key where
  job : Nat
  node : Nat
  unit : Nat
  fibre : Nat
  part : Nat
  serial : BitVec 16
  deriving DecidableEq, Repr

/-- Who performs an operation (R114): a die-cache home, a die dispatcher, or the scratchpad owner of a unit. -/
inductive Owner | die (d : Nat) | disp (d : Nat) | pool (u : Nat) | remote (n : Nat)
  deriving DecidableEq, Repr

/-- What an operation asks of its owner. `load`: bytes, whether a stream or raw; `store`: bytes in `Op.data`; `window`: a granule of an engine command's
source on a storage window (R397). `engine`: what a die's own engines send for a checkpoint, a restore or a tree rebuild (Table 5-8). -/
inductive OpKind
  | load | tagGet | cntRd (level : Nat)
  | store | tagSet | berth (b : Nat)
  | rmw (op : AOp) (ty : ATy) (sat ret : Bool) | cas
  | ldDs | stDs (cls : BitVec 8) | addDs | redDs
  | scrStore | barInit (expect : Nat) (bytes : Bool)
  | berOpen | berPub (b t n : Nat) | tagRetire (t : Nat)
  | post (die : Nat) | cancel (level : Nat) | stepAdv
  | part | arrive (bytes : Nat) | collAdd (ty : Nat) | window
  | retire (unit : Option Nat)
  | engine
  deriving DecidableEq, Repr

/-- An answer (Table 5-5). `writers`: nodes named by the writer record (R81); `ahead`: R105; `clamped`: ISAT of R324. -/
inductive Resp
  | done (res : List Word) (writers : List Nat) (ahead clamped : Bool)
  | refused
  | fault (code : BitVec 8) (cause : BitVec 4)
  | poison
  | diverged
  deriving DecidableEq, Repr

/-- Where an operation stands. `queued`: in its crew's store queue (R141). `request`, `response`: a packet is in flight. `lost`: nothing is.
`backoff`: refused, until a cycle. `held`: kept unanswered by its owner (R134, R389). `paired`: waits for the signature of the other copy.
`fate`: its lane has trapped ATOMIC_FATE_UNKNOWN (R121). `answered`: kept until LOW may pass it (R120). -/
inductive Phase
  | queued | paired | request | response (r : Resp) | lost | backoff (at_ : Nat) | held | fate | answered
  deriving DecidableEq, Repr

/-- A translation: the leaf entry (Table 1-3), the page size, and the offset in the page. -/
structure Leaf where
  ent : BitVec 64
  size : Nat
  off : Nat
  deriving DecidableEq, Repr

/-- An operation of a fibre, a dispatcher, an engine or a host: a request-log entry (R62) with what its requester and its packets carry. `mask`:
bytes of `data` that it writes, all where empty; `bad`: bytes of an engine part that came from poisoned lines, one a line (R72); `number`: of a
drained update, with the last mark (R133). `low`: the low-water mark that its request carries (R123); `berth`: the entry of the berth map that it uses
(R88). `respAt`: when its response left, and `flying`: earlier responses still on their way, with when they left (R119, R120). -/
structure Op where
  id : Nat
  kind : OpKind
  u : Option Nat
  crew : Nat := 0
  lane : Nat := 0
  fibre : Nat := 0
  key : Option Key := none
  word : Word := 0
  pc : Addr := 0
  va : Addr := 0
  loc : Nat := 0
  owner : Owner := .die 0
  size : Nat := 4
  data : List Byte := []
  mask : List Bool := []
  bad : List Nat := []
  g : BitVec 24 := 0
  order : Ord := .rlx
  scope : Nat := 7
  dst : List Nat := []
  pdst : Option Nat := none
  flag : Option Nat := none
  phase : Phase := .request
  sentAt : Nat := 0
  tries : Nat := 0
  refusals : Nat := 0
  cmd : Option Nat := none
  number : Option (Nat × Bool) := none
  priv : Bool := false
  leaf : Option Leaf := none
  low : BitVec 16 := 0
  berth : BitVec 4 := 8
  respAt : Nat := 0
  flying : List (Resp × Nat) := []
  deriving DecidableEq, Repr

/-- A live journal entry (Tables 5-3, 5-4). `slot`: its place in its owner's journal; `pa`: ADDR, or OFFSET at a scratchpad owner; `word`, `addr`, `data`
are the parts that DIGEST covers (R116). `pins`: the lines of its effect, pinned until the entry has reached the stack (R69, R115), and `kept`: it has. -/
structure JEntry where
  slot : Nat := 0
  pa : Nat := 0
  pins : List Nat := []
  kept : Bool := false
  owner : Owner
  key : Key
  word : Word
  addr : Nat
  data : List Byte
  ret : Option (List Word)
  psn : Bool := false
  flt : Option (BitVec 8 × BitVec 4) := none
  ahead : Bool := false
  clamped : Bool := false
  deriving DecidableEq, Repr

/-- A drain record with its holding buffer (R134): the home, the address, the unit by index and node, NEXT, and the operations it holds. -/
structure Drain where
  owner : Owner
  addr : Nat
  unit : Nat
  node : Nat
  next : Nat
  held : List Nat
  deriving DecidableEq, Repr

/-- Kinds of engine command. -/
inductive CmdKind | copy | gather | coll | frame
  deriving DecidableEq, Repr

/-- An engine command in flight (R338, R370): its block as it stood at issue, followed for GATHER by its indices. `dst`: register lines that it
writes. `recv`: units that receive it. `gate`: of a redundant unit's command, 1 before its signature is formed, 2 while the signature waits for the
other copy's, 3 for the trailing copy once they match, 0 where it may go (R388). `next`: destination granules sent so far, `sent`: all of them;
`bytes`: what an arrival counts; `rung`: its arrivals are sent. `berth`: the entry of the berth map that its source reads use (R88); `got`: bytes of its
source that a storage node has answered, by address (R397); `tries`, `askedAt`: timeouts of a COLL that waits for other members, and since when (R399);
`fate`: its lane has trapped, or is to trap, ATOMIC_FATE_UNKNOWN, and the command waits to be sent again (R121). -/
structure Cmd where
  id : Nat
  kind : CmdKind
  u : Nat
  crew : Nat
  lane : Nat
  fibre : Nat
  key : Key
  word : Word
  pc : Addr
  priv : Bool
  block : List Word
  flag : Option Nat
  core : Nat
  dst : List Nat := []
  recv : List Nat := []
  gate : Nat := 0
  next : Nat := 0
  sent : Bool := false
  bytes : Nat := 0
  rung : Bool := false
  berth : BitVec 4 := 8
  got : SMap Nat := []
  tries : Nat := 0
  askedAt : Nat := 0
  fate : Bool := false
  deriving DecidableEq, Repr

/-- A contribution to a collective that a member on another device has sent (R372, R398). -/
structure Gift where
  job : Nat
  group : Nat
  chunk : Nat
  rank : Nat
  ty : Nat
  mode : Nat
  data : List Byte
  deriving DecidableEq, Repr

-- jobs, nodes, dies, cores -------------------------------------------------------------------------------------------

/-- Where a node stands. -/
inductive NStatus | queued | running | committing | committed | cancelled
  deriving DecidableEq, Repr

/-- An accepted node: the dispatcher's own copy of its card and declaration block (R211) and its records. `launch`: ended units (Table 8-5).
`consumed`: the consumed-from set (R81). `early`: producers it is an early consumer of (R79). `lcores`: physical core of a logical core (R214);
trailers' bindings at 65536 + c (R387). `holds`: rolled back in place and not yet started again, it still holds its pages (R75). `badTables`:
the TABLE entries that could not be read, as 4 * unit + entry (R215). `direct`: has written a direct region (R384). `first`: no in-place rollback yet (R292). `doom`: the node waits to be
rolled back because it consumed poison (1) or met a PAIR_MISMATCH (2), or for its phase to be cancelled (3) (R383 to R390). `stopping`: it is being
cancelled, and the CANCELs that wait until its units have stopped (R222). -/
structure NodeSt where
  job : Nat
  id : Nat
  card : BitVec 512
  decl : BitVec 2048
  home : Nat
  status : NStatus := .queued
  order : Nat := 0
  launch : Nat := 0
  dispatched : List Nat := []
  tdispatched : List Nat := []
  done : List Nat := []
  consumed : List Nat := []
  early : List Nat := []
  retries : Nat := 0
  direct : Bool := false
  first : Bool := true
  lcores : SMap Nat := []
  turn : Nat := 0
  passedAt : Option Nat := none
  blocking : Bool := false
  drainFault : Bool := false
  holds : Bool := false
  badTables : List Nat := []
  doom : Nat := 0
  stopping : Option (List Nat) := none
  shadow : List Shadow := []
  deriving DecidableEq, Repr

/-- A graph or a phase of a job (R417). A phase has `graph = none`. -/
structure Level where
  phase : Nat
  graph : Option Nat
  closed : Bool := false
  complete : Bool := false
  cancelled : Bool := false
  count : Nat := 0
  deriving DecidableEq, Repr

/-- The serial counter and low-water mark of an originator that is no fibre (R112). -/
structure Origin where
  serial : BitVec 16 := 0
  low : BitVec 16 := 0
  deriving DecidableEq, Repr

/-- A job. `gOld`: the step that replicas not in `gNew` still hold while a STEP.ADV is in progress (R100); `mapOld`, `mapNew`, `mapping`: the same for the
berth map while a BER.PUB or a TAG.RETIRE is (R85, R88). `classes`: loaded β (R96). `ckpt`: a checkpoint is requested (1), being copied (2). `waitStep`: the
STEP.ADVs of AUTOSTEP that dispatch waits for (R101). `origins`: by 4*NODE + FIBRE of Table 5-8. -/
structure Job where
  root : BitVec 64 := 0
  autostep : Bool := false
  g : BitVec 24 := 0
  gOld : Option (BitVec 24) := none
  gNew : List Nat := []
  advancing : Option Nat := none
  classes : SMap Word := []
  open_ : BitVec 8 := 0
  kctx : BitVec 3 := 0
  tagmap : SMap (BitVec 4) := []
  mapOld : Option (SMap (BitVec 4)) := none
  mapNew : List Nat := []
  mapping : Option Nat := none
  groups : SMap (BitVec 64 × BitVec 10) := []
  levels : List Level := []
  phases : Nat := 0
  cancelled : Bool := false
  cancelledNodes : List Nat := []
  ckpt : Nat := 0
  waitStep : Nat := 0
  origins : SMap Origin := []
  deriving DecidableEq, Repr

/-- A line of device memory that is more than its bytes: poisoned (R72), its backing-map bits C and W (R74), and its writer record (R80). -/
structure LineSt where
  poison : Bool := false
  c : Bool := false
  w : Bool := false
  owner : Nat := 0
  writers : List Nat := []
  deriving DecidableEq, Repr

/-- How a sector will decode when the home next reads it from the stack (Table 3-2). -/
inductive Syndrome | oneSymbol | misdirected | uncorrectable
  deriving DecidableEq, Repr

/-- A die: HCAP (Table 17-5), the governor's queue and the grants it holds (R221). -/
structure Die where
  hcap : Nat := 180
  queue : List Nat := []
  held : List Nat := []
  served : List (Nat × Nat) := []
  deriving DecidableEq, Repr

/-- A stack: its dredge (Tables 4-5, 4-6) and counters (R73). `due`: passes that have not finished, by job and boundary, the one in progress first. -/
structure Stack where
  drgn : List (BitVec 64) := List.replicate 16 0
  zeroed : BitVec 32 := 0
  skipped : Bool := false
  busy : Bool := false
  target : BitVec 24 := 0
  due : List (Nat × BitVec 24) := []
  doneAt : BitVec 24 := 0
  corrected : BitVec 21 := 0
  misdirected : BitVec 21 := 0
  poisoned : BitVec 21 := 0
  deriving DecidableEq, Repr

/-- A core. `tlb`: cached leaf translations as (job, page base, page level, entry word) (R25); `mirror`: 1 + the four tags of a line it holds (R29).
`bankErrs`: corrected errors as (bank, unit, line, time) (R38). -/
structure Core where
  engine : Option Nat := none
  skew : Nat := 0
  base : Nat := 0
  tlb : List (Nat × Nat × Nat × BitVec 64) := []
  mirror : SMap Nat := []
  corrected : Nat := 0
  bankErrs : List (Nat × Nat × Nat × Nat) := []
  bank : Option Nat := none
  replays : List Nat := []
  replayed : Nat := 0
  caplim : BitVec 64 := 0x40CC80
  deriving DecidableEq, Repr

/-- A record of the machine-check queue (R392): source and kind, and an address. -/
structure MCheck where
  kind : Nat
  source : Nat
  addr : Nat
  deriving DecidableEq, Repr

/-- A message that hosts have received. -/
inductive HostMsg
  | accept (job node code : Nat)
  | trap (job node unit crew : Nat) (lanes : BitVec 32) (code : BitVec 8) (cause : BitVec 4) (faddr : Addr)
  | halt (job node unit fibre : Nat)
  | drainFault (job node unit fibre : Nat) (serial : BitVec 16) (target : Addr) (code : BitVec 8) (cause : BitVec 4)
  | poison (cause : Nat) (nodes : List Nat)
  | pair (cause : Nat) (job node : Nat)
  | capacity (job node unit : Nat)
  | table (job node unit : Nat) (code : BitVec 8) (cause : BitVec 4) (addr : Addr)
  | mcheck (m : MCheck)
  | popped (m : Option MCheck)
  | read (off val : Nat)
  | ready
  deriving DecidableEq, Repr

/-- What a checkpoint holds (R92): bytes, with the lines among them that are poisoned (R72), tags, the berth map, step, classes and the unretired entries. -/
structure Ckpt where
  job : Nat
  mem : Memory
  poison : List Nat
  tags : SMap (BitVec 4)
  g : BitVec 24
  classes : SMap Word
  open_ : BitVec 8
  kctx : BitVec 3
  tagmap : SMap (BitVec 4)
  journal : List JEntry
  deriving DecidableEq, Repr

/-- What moves next (notes/assumptions/1.md). `run`: a crew takes its turn. `event`: a row of the opcode table that is no instruction word
takes place. The others are turns of agents that the table does not list, and the outside world. -/
inductive Input
  | run (u c : Nat)
  | event (i : Instr)
  | time (cycles : Nat)
  | drift (core cycles : Nat)
  | engine (cmd : Nat)
  | tlbFill (core job va : Nat)
  | tlbDrop (core job va : Nat)
  | mirrorDrop (core line : Nat)
  | adopt (job core : Nat)
  | adoptMap (job core : Nat)
  | journal (n : Nat)
  | telemetry (power temperature : Nat)
  | trains (port rate : Nat)
  | drop (m : Nat)
  | hostPost (host job die : Nat) (card : Addr)
  | hostCancel (host job level id : Nat)
  | hostPreempt (u : Nat)
  | dram (stack sector : Nat) (s : Syndrome)
  | symbols (core u row : Nat) (syms : List Nat) (found : Bool)
  | poisonLine (line : Nat)
  | remoteWrite (addr : Nat) (bytes : List Byte)
  | origin (m : Nat)
  | bankFail (core bank : Nat)
  | bind (u core : Nat)
  | chart (own : Nat) (devices : List Nat)
  | answer (m : Nat) (v : Word)
  | gift (g : Gift)
  | dredge (stack off : Nat)
  | ckptFail (job : Nat)
  | hostRead (off : Nat)
  deriving DecidableEq, Repr

/-- What the service processor finds at power-on (R404): pool banks that fail their self-test, by core, ports that train, with their rates, its own
fabric node identifier and the devices of the tier. -/
structure Found where
  banks : List (Nat × Nat) := []
  ports : List (Nat × Nat) := []
  own : Nat := 0
  devices : List Nat := []
  deriving DecidableEq, Repr

/-- Ports of the fabric dies (R393). -/
structure Port where
  up : Bool := false
  rate : Nat := 0
  deriving DecidableEq, Repr

/-- The state of the device. `lost`: jobs whose journal entries are lost, not yet rolled back (R128). `bound`: by the address of an image, the core it is
bound to, plus one (R382). `slots`: by engine slot, the access units that it has taken (R374). -/
structure State where
  -- The model's own (notes/assumptions/1.md to 4.md)
  inputs : List Input
  pace : Nat
  now : Nat
  fresh : Nat
  nextId : Nat
  cur : Nat × Nat × Nat
  -- memory and homes
  mem : Memory
  tags : SMap (BitVec 4)
  lines : SMap LineSt
  sectors : SMap Syndrome
  journal : List JEntry
  lost : List Nat
  restarting : List Owner
  drains : List Drain
  -- jobs, nodes, units
  jobs : SMap Job
  nodes : List NodeSt
  units : List UnitSt
  -- the parts
  cores : SMap Core
  dies : SMap Die
  stks : SMap Stack
  -- operations
  ops : List Op
  cmds : List Cmd
  gifts : List Gift
  slots : List (Nat × List (List Byte))
  -- outside and management region
  found : Found
  ready : Bool
  telemetry : List (List Nat)
  ports : List Port
  devId : Nat
  chart : List Nat
  jobctl : BitVec 64
  dcls : BitVec 2
  tlbinv : BitVec 64
  tlbinvJob : Nat
  ckptReg : BitVec 64
  bmclr : BitVec 64
  mchecks : List MCheck
  bound : SMap Nat
  hostLog : List HostMsg
  ckpts : List Ckpt
  deriving DecidableEq, Repr

/-- The machine right after power-on, before the service processor has reported ready (R404): memory and every record empty, registers at
the reset values of Tables 4-5, 4-6 and 17-2 to 17-12. (DESIGN CHOICE, log entry 6.) -/
def State.reset : State where
  inputs := []
  pace := 1
  now := 0
  fresh := 0
  nextId := 0
  cur := (0, 0, 0)
  mem := []
  tags := []
  lines := []
  sectors := []
  journal := []
  lost := []
  restarting := []
  drains := []
  jobs := []
  nodes := []
  units := []
  cores := []
  dies := []
  stks := []
  ops := []
  cmds := []
  gifts := []
  slots := []
  found := {}
  ready := false
  telemetry := []
  ports := List.replicate 36 {}
  devId := 0
  chart := []
  jobctl := 0
  dcls := 0
  tlbinv := 1
  tlbinvJob := 0
  ckptReg := 0
  bmclr := 0x8000000000000000
  mchecks := []
  bound := []
  hostLog := []
  ckpts := []

end Sys2Proof.Machine
end

