-- ==== Sys2Proof/Machine/Maps.lean ====
section
/-! DEFINITION. Sparse maps and memory: reading, writing, and the canonical form that every write keeps. -/

namespace Sys2Proof.Machine

/-- What a key holds: its first entry, else the default. -/
def SMap.get {α : Type} (d : α) : SMap α → Nat → α
  | [], _ => d
  | (j, v) :: r, k => if j = k then v else SMap.get d r k

/-- Insert at the key's sorted place, over an entry of the same key. -/
def SMap.put {α : Type} : SMap α → Nat → α → SMap α
  | [], k, v => [(k, v)]
  | (j, x) :: r, k, v => if k < j then (k, v) :: (j, x) :: r else if k = j then (k, v) :: r else (j, x) :: SMap.put r k v

/-- Every entry of the key gone. -/
def SMap.del {α : Type} (m : SMap α) (k : Nat) : SMap α := m.filter (fun e => e.1 != k)

/-- Write a key; writing the default removes it, so equal maps are equal lists. -/
def SMap.set {α : Type} [DecidableEq α] (d : α) (m : SMap α) (k : Nat) (v : α) : SMap α :=
  if v = d then SMap.del m k else SMap.put m k v

/-- Change what a key holds. -/
def SMap.upd {α : Type} [DecidableEq α] (d : α) (m : SMap α) (k : Nat) (f : α → α) : SMap α :=
  SMap.set d m k (f (SMap.get d m k))

/-- The canonical form: keys strictly rising, no entry equal to the default. -/
abbrev SMap.wf {α : Type} [DecidableEq α] (d : α) (m : SMap α) : Prop :=
  m.Pairwise (fun a b => a.1 < b.1) ∧ ∀ e ∈ m, e.2 ≠ d

/-- What a byte of memory that nothing has written reads as: the service processor clears the stacks at power-on (R404). (DESIGN CHOICE, log entry 5.) -/
def Memory.dflt : Byte := 0

/-- One byte. -/
def Memory.read (m : Memory) (a : Nat) : Byte := SMap.get Memory.dflt m a

/-- Write one byte. -/
def Memory.write (m : Memory) (a : Nat) (b : Byte) : Memory := SMap.set Memory.dflt m a b

/-- The canonical form of memory. -/
abbrev Memory.wf (m : Memory) : Prop := SMap.wf Memory.dflt m

/-- `n` bytes from `a`, lowest first. -/
def Memory.readN (m : Memory) (a : Nat) : Nat → List Byte
  | 0 => []
  | n + 1 => Memory.read m a :: Memory.readN m (a + 1) n

/-- Write bytes from `a`, lowest first. -/
def Memory.writeN (m : Memory) (a : Nat) : List Byte → Memory
  | [] => m
  | b :: bs => Memory.writeN (Memory.write m a b) (a + 1) bs

/-- Bytes as a little-endian number. -/
def leNat : List Byte → Nat
  | [] => 0
  | b :: bs => b.toNat + 256 * leNat bs

/-- A number's `n` low bytes, lowest first. -/
def leBytes (x : Nat) : Nat → List Byte
  | 0 => []
  | n + 1 => BitVec.ofNat 8 x :: leBytes (x / 256) n

/-- A little-endian number of `n` bytes at `a`. -/
def Memory.nat (m : Memory) (a n : Nat) : Nat := leNat (Memory.readN m a n)

/-- Replace the bytes of `l` from index `i` by `bs` (used on byte lists of one line or record). -/
def splice {α : Type} (l : List α) (i : Nat) (bs : List α) : List α := l.take i ++ bs ++ l.drop (i + bs.length)

/-- Write every (key, value) of a list. -/
def SMap.setAll {α : Type} [DecidableEq α] (d : α) (m : SMap α) (kvs : List (Nat × α)) : SMap α :=
  kvs.foldl (fun m kv => SMap.set d m kv.1 kv.2) m

/-- Bits [lo + n - 1 : lo] of a number. -/
def bits (x lo n : Nat) : Nat := x / 2 ^ lo % 2 ^ n

/-- A number read as two's complement of `w` bits. -/
def sext (w x : Nat) : Int := if x % 2 ^ w < 2 ^ (w - 1) then (x % 2 ^ w : Nat) else ((x % 2 ^ w : Nat) : Int) - (2 ^ w : Nat)

/-- The lanes of a mask, ascending. -/
def lanesOf (m : BitVec 32) : List Nat := (List.range 32).filter (fun l => m.getLsbD l)

/-- The mask of a list of lanes. -/
def maskOf (ls : List Nat) : BitVec 32 := ls.foldl (fun m l => m ||| BitVec.twoPow 32 l) 0

/-- The lowest lane of a mask (0 for the empty mask). -/
def lowLane (m : BitVec 32) : Nat := ((lanesOf m).head?).getD 0

end Sys2Proof.Machine
end

