-- ==== Sys2Proof/Machine/Ops.lean ====
section
/-! DEFINITION. Named operations over the state: the parts and how to change them, registers, translation and the checks of R31. -/

namespace Sys2Proof.Machine

/-- The outcome type of every meaning. -/
abbrev Out := Host.Outcome State Fault Refusal

-- the parts ----------------------------------------------------------------------------------------------------------

/-- The unit at a position. -/
def State.unit (s : State) (u : Nat) : UnitSt := s.units.getD u {}
/-- Crew slot `c` of a unit. -/
def UnitSt.crew (x : UnitSt) (c : Nat) : Crew := x.crews.getD c {}
/-- Split entry `e` of a crew. -/
def Crew.entry (x : Crew) (e : Nat) : Entry := x.split.getD e {}
/-- Fibre `f` of a unit. -/
def UnitSt.fib (x : UnitSt) (f : Nat) : Fibre := x.fibs.getD f {}
/-- The fibre that populates a lane (R175). -/
def Crew.fibre (x : Crew) (l : Nat) : Option Nat := x.lanes.getD l none
/-- The fibre index of a lane, 0 where none stands. -/
def Crew.fib (x : Crew) (l : Nat) : Nat := (x.fibre l).getD 0
/-- The job of an identifier. -/
def State.job (s : State) (j : Nat) : Job := s.jobs.get {} j
/-- The node at a position. -/
def State.node (s : State) (n : Nat) : NodeSt := s.nodes.getD n { job := 0, id := 0, card := 0, decl := 0, home := 0 }
/-- A core by number. -/
def State.core (s : State) (k : Nat) : Core := s.cores.get {} k
/-- A die by number. -/
def State.die (s : State) (d : Nat) : Die := s.dies.get {} d
/-- A stack by number. -/
def State.stack (s : State) (d : Nat) : Stack := s.stks.get {} d
/-- What is known of a line of device memory. -/
def State.line (s : State) (k : Nat) : LineSt := s.lines.get {} k
/-- The die of a core: 180 cores a die (R2), in the order of their numbers. (DESIGN CHOICE, log entry 60.) -/
def dieOf (core : Nat) : Nat := core / 180

/-- Change the unit at a position. -/
def State.modUnit (s : State) (u : Nat) (f : UnitSt → UnitSt) : State := { s with units := s.units.modify u f }
/-- Change a crew. -/
def State.modCrew (s : State) (u c : Nat) (f : Crew → Crew) : State :=
  s.modUnit u (fun x => { x with crews := x.crews.modify c f })
/-- Change a split entry. -/
def State.modEntry (s : State) (u c e : Nat) (f : Entry → Entry) : State :=
  s.modCrew u c (fun x => { x with split := x.split.modify e f })
/-- Change a fibre. -/
def State.modFib (s : State) (u k : Nat) (f : Fibre → Fibre) : State :=
  s.modUnit u (fun x => { x with fibs := x.fibs.modify k f })
/-- Change a node. -/
def State.modNode (s : State) (n : Nat) (f : NodeSt → NodeSt) : State := { s with nodes := s.nodes.modify n f }
/-- Change a job. -/
def State.modJob (s : State) (j : Nat) (f : Job → Job) : State := { s with jobs := s.jobs.upd {} j f }
/-- Change a core. -/
def State.modCore (s : State) (k : Nat) (f : Core → Core) : State := { s with cores := s.cores.upd {} k f }
/-- Change a die. -/
def State.modDie (s : State) (d : Nat) (f : Die → Die) : State := { s with dies := s.dies.upd {} d f }
/-- Change a stack. -/
def State.modStack (s : State) (d : Nat) (f : Stack → Stack) : State := { s with stks := s.stks.upd {} d f }
/-- Change what is known of a line. -/
def State.modLine (s : State) (k : Nat) (f : LineSt → LineSt) : State := { s with lines := s.lines.upd {} k f }
/-- A fabric message that the hosts receive. -/
def State.tell (s : State) (m : HostMsg) : State := { s with hostLog := s.hostLog ++ [m] }
/-- A machine check: posted to the service processor's queue and to the host (R392). -/
def State.machineCheck (s : State) (kind source addr : Nat) : State :=
  { s with mchecks := s.mchecks ++ [⟨kind, source, addr⟩], hostLog := s.hostLog ++ [.mcheck ⟨kind, source, addr⟩] }

/-- The operation with an identifier. -/
def State.op? (s : State) (m : Nat) : Option Op := s.ops.find? (fun o => o.id = m)
/-- Change an operation. -/
def State.modOp (s : State) (m : Nat) (f : Op → Op) : State :=
  { s with ops := s.ops.map (fun o => if o.id = m then f o else o) }
/-- Add operations. -/
def State.addOps (s : State) (os : List Op) : State := { s with ops := s.ops ++ os }
/-- The engine command with an identifier. -/
def State.cmd? (s : State) (m : Nat) : Option Cmd := s.cmds.find? (fun o => o.id = m)
/-- Change an engine command. -/
def State.modCmd (s : State) (m : Nat) (f : Cmd → Cmd) : State :=
  { s with cmds := s.cmds.map (fun o => if o.id = m then f o else o) }

/-- The cycle counter of a core (R289): cycles since its reset. -/
def State.cyc (s : State) (k : Nat) : Nat := s.now + (s.core k).skew - (s.core k).base

/-- The core a unit is resident on, 0 where none. -/
def UnitSt.at_ (x : UnitSt) : Nat := x.core.getD 0

/-- A register of a lane (R45): register line (c, r), lane l. -/
def regKey (c r l : Nat) : Nat := (c * 1024 + r) * 32 + l
/-- Rows of the pool, numbered as the presence bitmap numbers the image lines that they hold (R59). -/
def rowReg (c r : Nat) : Nat := c * 1024 + r
/-- The row of a scratchpad byte. -/
def rowScr (o : Nat) : Nat := 32768 + o / 128
/-- The row of accumulator element (i, n) of tile t. -/
def rowAcc (t i n : Nat) : Nat := 49152 + (16384 * t + 512 * i + 4 * n) / 128
/-- The row of a byte of the basin slots. -/
def rowBas (o : Nat) : Nat := 51200 + o / 128
/-- What the pool holds of an image line. -/
def UnitSt.row (x : UnitSt) (r : Nat) : Row := x.rows.get {} r
/-- Change that. -/
def UnitSt.modRow (x : UnitSt) (r : Nat) (f : Row → Row) : UnitSt := { x with rows := x.rows.upd {} r f }
/-- A write makes a row dirty (R63). -/
def Row.soil (w : Row) : Row := if w.here then { w with dirty := true } else w
/-- The value of register `r` of lane `l` of crew `c`; never written reads zero (R23). -/
def UnitSt.reg (x : UnitSt) (c l r : Nat) : Word := x.regs.get 0 (regKey c r l)
/-- Write a register of a lane (R45). -/
def UnitSt.setReg (x : UnitSt) (c l r : Nat) (v : Word) : UnitSt :=
  { x with regs := x.regs.set 0 (regKey c r l) v, rows := x.rows.upd {} (rowReg c r) Row.soil }
/-- The window base of a lane's fibre (R174). -/
def UnitSt.wb (x : UnitSt) (c l : Nat) : Nat := (x.fib ((x.crew c).fib l)).wb
/-- The predicate word of a lane's fibre. -/
def UnitSt.pred (x : UnitSt) (c l : Nat) : BitVec 16 := (x.fib ((x.crew c).fib l)).pred
/-- Scratchpad size in bytes (R20). -/
def UnitSt.scrSize (x : UnitSt) : Nat := bits x.cfg.part.toNat 6 6 * 32768
/-- Number of accumulator tiles (R22). -/
def UnitSt.tiles (x : UnitSt) : Nat := min 16 (2 * bits x.cfg.part.toNat 12 6)
/-- The partition word's LOOP bit (R44). -/
def UnitSt.loop (x : UnitSt) : Bool := x.cfg.part.getLsbD 18
/-- One scratchpad byte. -/
def UnitSt.scrB (x : UnitSt) (o : Nat) : Byte := x.scr.get 0 o
/-- `n` scratchpad bytes. -/
def UnitSt.scrN (x : UnitSt) (o n : Nat) : List Byte := Memory.readN x.scr o n
/-- The rows of `n` bytes of a space of 128-byte lines, the first of them row `base`. -/
def rowsFrom (base o n : Nat) : List Nat := if n = 0 then [] else (List.range ((o + n - 1) / 128 - o / 128 + 1)).map (fun i => base + o / 128 + i)
/-- The rows of a scratchpad range. -/
def scrRows (o n : Nat) : List Nat := rowsFrom 32768 o n
/-- Rows that a write makes dirty. -/
def UnitSt.soil (x : UnitSt) (rs : List Nat) : UnitSt := { x with rows := rs.foldl (fun m r => m.upd {} r Row.soil) x.rows }
/-- Write scratchpad bytes (R40). -/
def UnitSt.setScr (x : UnitSt) (o : Nat) (bs : List Byte) : UnitSt :=
  ({ x with scr := Memory.writeN x.scr o bs } : UnitSt).soil (scrRows o bs.length)
/-- The key of accumulator element (i, n) of tile t (R53). -/
def accKey (t i n : Nat) : Nat := (t * 32 + i) * 128 + n

-- translation --------------------------------------------------------------------------------------------------------

/-- A trap's code and cause (Table 16-1). -/
abbrev Why := BitVec 8 × BitVec 4

def cILLEGAL : BitVec 8 := 0x10
def cCOMBO : BitVec 8 := 0x11
def cPRIV : BitVec 8 := 0x12
def cHEADER : BitVec 8 := 0x13
def cXLATE : BitVec 8 := 0x20
def cPERM : BitVec 8 := 0x21
def cTAG : BitVec 8 := 0x22
def cALIGN : BitVec 8 := 0x23
def cDETRACE : BitVec 8 := 0x30
def cDETFORB : BitVec 8 := 0x31
def cBAR : BitVec 8 := 0x40
def cENG : BitVec 8 := 0x41
def cPOISON : BitVec 8 := 0x50
def cDIVERGED : BitVec 8 := 0x51
def cPAIR : BitVec 8 := 0x52
def cFATE : BitVec 8 := 0x53
def cCAPACITY : BitVec 8 := 0x60
def cSOFT : BitVec 8 := 0x70

/-- Codes that Table 16-1 delivers to the unit's handler; the others go to the host. -/
def toHandler (code : BitVec 8) : Bool := !(code == cPOISON || code == cDIVERGED || code == cPAIR || code == cCAPACITY)

/-- Fields of a table entry (Table 1-3). -/
def entPA (e : BitVec 64) : Nat := bits e.toNat 16 48 * 4096
def entHome (e : BitVec 64) : Nat := bits e.toNat 13 2
def entBerths (e : BitVec 64) : Nat := bits e.toNat 10 3
def entChecked (e : BitVec 64) : Bool := e.getLsbD 9
def entStaged (e : BitVec 64) : Bool := e.getLsbD 8
def entKind (e : BitVec 64) : Nat := bits e.toNat 6 2

/-- The page size of a leaf at a level (Table 1-2). -/
def pageSize (level : Nat) : Nat := 2 ^ (16 + 10 * (3 - level))

/-- A malformed entry at a level (R13). -/
def malformed (e : BitVec 64) (level : Nat) : Bool :=
  let leaf := e.getLsbD 1
  let n := e.toNat
  e.getLsbD 15 || entHome e == 3 || (leaf && level == 0) || (!leaf && level == 3) ||
  (!leaf && (bits n 2 13 != 0 || e.getLsbD 16 || bits (entPA e) 40 20 != 0)) ||
  (leaf && entPA e % pageSize level != 0) ||
  (entKind e != 2 && entBerths e != 0) || (entStaged e && entKind e != 0) || (e.getLsbD 4 && entKind e != 0) ||
  (entKind e == 3 && (e.getLsbD 3 || entHome e != 2)) || (entHome e != 2 && bits (entPA e) 40 20 != 0)

/-- The table walk (R10, R13, R415) from the table at `tbl` at level `4 - fuel`; an XLATE cause where it fails. -/
def walk (m : Memory) (tbl va : Nat) : Nat → Except (BitVec 4) Leaf
  | 0 => .error 2
  | fuel + 1 =>
    let level := 3 - fuel
    let e := BitVec.ofNat 64 (m.nat (tbl + 8 * bits va (16 + 10 * (3 - level)) 10) 8)
    if e.getLsbD 0 = false then .error 1
    else if malformed e level then .error 2
    else if e.getLsbD 1 then .ok ⟨e, pageSize level, va % pageSize level⟩
    else walk m (entPA e) va fuel

/-- A TLB entry that covers an address of a job (R25). -/
def tlbHit (t : List (Nat × Nat × Nat × BitVec 64)) (job va : Nat) : Option (Nat × BitVec 64) :=
  (t.find? (fun e => e.1 = job && va / pageSize e.2.2.1 * pageSize e.2.2.1 == e.2.1)).map (fun e => e.2.2)

/-- Translate a virtual address (R8, R9, R11, R25, R415) for a job, by a core's TLB where one is named. -/
def translate (s : State) (core : Option Nat) (job : Nat) (root va : BitVec 64) : Except Why Leaf :=
  if bits va.toNat 56 4 != 0 then .error (cXLATE, 0)
  else if bits root.toNat 40 20 != 0 then .error (cXLATE, 2)
  else
    let a := va.toNat % 2 ^ 56
    match core.bind (fun k => tlbHit (s.core k).tlb job a) with
    | some (level, e) => .ok ⟨e, pageSize level, a % pageSize level⟩
    | none =>
      match walk s.mem (root.toNat % 2 ^ 40) a 4 with
      | .ok l => .ok l
      | .error c => .error (cXLATE, c)

/-- Classes of access (Table 1-4, R330). -/
inductive Acc | ld | st | rmw | ldDs | stDs | rmwDs | berth | src | dst | fetch | tagSet | tagGet
  deriving DecidableEq, Repr

def Acc.reads : Acc → Bool | .ld | .rmw | .ldDs | .rmwDs | .src | .tagGet => true | _ => false
def Acc.writes : Acc → Bool | .st | .rmw | .stDs | .rmwDs | .berth | .dst | .tagSet => true | _ => false

/-- The kind check of Table 1-4: a PERM cause where the kind forbids the access. (DEDUCED, log entry 23.) -/
def kindCause (kind : Nat) (a : Acc) (handler : Bool) : Option (BitVec 4) :=
  match kind, a with
  | _, .fetch => none
  | 0, .ldDs => some 4 | 0, .stDs => some 4 | 0, .rmwDs => some 4 | 0, .berth => some 4
  | 0, _ => none
  | 1, .ld => none | 1, .src => none | 1, .ldDs => none | 1, .stDs => none | 1, .rmwDs => none | 1, .tagSet => none | 1, .tagGet => none
  | 1, .st => if handler then none else some 4
  | 1, _ => some 4
  | 2, .ld => none | 2, .src => none | 2, .berth => none | 2, .tagSet => none | 2, .tagGet => none
  | 2, _ => some 4
  | _, .src => none
  | _, .st => some 1 | _, .rmw => some 1 | _, .dst => some 1 | _, .tagSet => some 1
  | _, _ => some 4

/-- Kind, privilege and permission, in the order of R19: a PERM cause. -/
def permCause (e : BitVec 64) (a : Acc) (handler : Bool) : Option (BitVec 4) :=
  match kindCause (entKind e) a handler with
  | some c => some c
  | none =>
    if e.getLsbD 5 && !handler then some 3
    else if a.reads && !e.getLsbD 2 then some 0
    else if a.writes && !e.getLsbD 3 then some 1
    else if a == .fetch && !e.getLsbD 4 then some 2
    else none

/-- The place of a device physical address (R15): stack * 2^36 + offset, or 2^60 + the address where its home is remote, this device's own node among them. (DESIGN CHOICE,
log entry 62.) -/
def placeOf (home pa : Nat) : Nat :=
  if home = 2 then 2 ^ 60 + pa % 2 ^ 60
  else if home = 0 then bits pa 12 4 * 2 ^ 36 + bits pa 16 20 * 2 ^ 16 + bits pa 36 4 * 2 ^ 12 + bits pa 0 12
  else pa % 2 ^ 40

/-- The place of the byte of a leaf in backing `b` (R18). -/
def Leaf.place (l : Leaf) (b : Nat) : Nat := placeOf (entHome l.ent) (entPA l.ent + b * l.size + l.off)

/-- The home of a place (R15, R17): the die of its stack, or a remote node. -/
def ownerOf (loc : Nat) : Owner := if loc < 2 ^ 60 then .die (loc / 2 ^ 36) else .remote (bits loc 48 12)

/-- The reserved area of a stack (R68). -/
def reserved (loc : Nat) : Bool := decide (loc < 2 ^ 60 ∧ 0xFE8000000 ≤ loc % 2 ^ 36)

/-- Two address ranges overlap. -/
def overlap (a n b m : Nat) : Bool := decide (a < b + m ∧ b < a + n ∧ 0 < n ∧ 0 < m)

/-- Output entry `k` of a declaration block (Table 9-3): address and length. -/
def NodeSt.output (n : NodeSt) (k : Nat) : Nat × Nat := (bits n.decl.toNat (1536 + 128 * k) 56, bits n.decl.toNat (1600 + 128 * k) 64)

/-- The node declares the page of a leaf as an output (R75). (DEDUCED, log entry 21.) -/
def NodeSt.declares (n : NodeSt) (va : Nat) (l : Leaf) : Bool :=
  (List.range 4).any (fun k => overlap (n.output k).1 (n.output k).2 (va % 2 ^ 56 - l.off) l.size)

/-- The node has started and has neither committed nor been cancelled. -/
def NodeSt.uncommitted (n : NodeSt) : Bool := n.status == .running || n.status == .committing

/-- The node holds the pages of its outputs (R75): it is uncommitted, or was rolled back in place and not yet started again. -/
def NodeSt.holding (n : NodeSt) : Bool := n.uncommitted || n.holds

/-- The node that asks for an access: a position in `nodes`, or none for a dispatcher or a host. -/
abbrev Asker := Option Nat

/-- Entry `mb` of a job's berth map as a core's replica holds it (R85, R88), or the master where no core is named. -/
def berthEntry (s : State) (job : Nat) (core : Option Nat) (mb : BitVec 6) : BitVec 4 :=
  let j := s.job job
  let m := match j.mapOld, core with
    | some old, some k => if j.mapNew.contains k then j.tagmap else old
    | _, _ => j.tagmap
  m.get 8 mb.toNat

/-- The backing an access uses (R76, R77, R86): `none` where R75 or R86 forbids it (PERM cause 4). `t` is the entry of the berth map that it uses. -/
def backing (s : State) (n : Asker) (t : BitVec 4) (va : Nat) (l : Leaf) (a : Acc) (named : Nat) : Option Nat :=
  if entKind l.ent = 2 then
    if a == .berth then (if named ≤ entBerths l.ent then some named else none)
    else if t.getLsbD 3 && decide (t.toNat % 8 ≤ entBerths l.ent) then some (t.toNat % 8) else if a == .tagSet then some 0 else none
  else if entStaged l.ent then
    let x := s.line (l.place 0 / 128)
    let cb := x.c.toNat
    let mine := decide (n = some x.owner) || (match n with | some k => (s.node k).early.contains x.owner | none => false)
    if a.writes then
      match n with
      | none => none
      | some k =>
        if (s.node k).uncommitted && (s.node k).declares va l &&
           !((List.range s.nodes.length).any (fun j => j != k && (s.node j).job == (s.node k).job && (s.node j).holding && (s.node j).declares va l))
        then some (1 - cb) else none
    else some (if x.w && mine then 1 - cb else cb)
  else some 0

/-- The tag of the sector at a place. -/
def State.tag (s : State) (loc : Nat) : BitVec 4 := s.tags.get 0 (loc / 32)

/-- The tag a core compares at issue: its mirror's where it holds the line, else the home's (R29). (DEDUCED, log entry 45.) -/
def State.coreTag (s : State) (core : Option Nat) (loc : Nat) : BitVec 4 :=
  match core with
  | none => s.tag loc
  | some k =>
    let v := (s.core k).mirror.get 0 (loc / 128)
    if v = 0 then s.tag loc else BitVec.ofNat 4 ((v - 1) / 16 ^ (loc / 32 % 4))

/-- What a checked access yields: its leaf, the backing, and the place of its first byte. -/
structure Checked where
  leaf : Leaf
  back : Nat
  loc : Nat
  deriving DecidableEq, Repr

/-- Checks 2 to 5 of R31 for an access of a global address that touches one sector: canonical form, walk, kind and permission, tag. `late`: a
write to a staged page that R75 forbids, or to a berth that the page lacks, passes, because its home checks it. PERM cause 4 of R75 and R86
comes after the other permissions and before the tag. (DESIGN CHOICE, log entry 61.) -/
def checkGlobal (s : State) (core : Option Nat) (n : Asker) (job : Nat) (root : BitVec 64) (t : BitVec 4) (handler late : Bool)
    (a : Acc) (va : BitVec 64) (named : Nat) : Except Why Checked :=
  match translate s core job root va with
  | .error w => .error w
  | .ok l =>
    match permCause l.ent a handler with
    | some c => .error (cPERM, c)
    | none =>
      match backing s n t va.toNat l a named with
      | none =>
        if late && a == .berth then .ok ⟨l, 0, l.place 0⟩
        else if late && entKind l.ent != 2 && entStaged l.ent && a.writes then
          let b := 1 - (s.line (l.place 0 / 128)).c.toNat
          .ok ⟨l, b, l.place b⟩
        else .error (cPERM, 4)
      | some b =>
        let loc := l.place b
        if entKind l.ent != 3 && a != .fetch && a != .tagSet && a != .tagGet && s.coreTag core loc != va.extractLsb' 60 4
        then .error (cTAG, 0) else .ok ⟨l, b, loc⟩

/-- The checks of R31 for a lane of a unit: alignment first. -/
def checkLane (s : State) (u : Nat) (handler : Bool) (a : Acc) (va : BitVec 64) (align named : Nat) : Except Why Checked :=
  let x := s.unit u
  if va.toNat % align != 0 then .error (cALIGN, 0)
  else checkGlobal s x.core (some x.cfg.node) x.cfg.job x.xroot (berthEntry s x.cfg.job x.core x.cfg.mb) handler true a va named

/-- A scratchpad access (R20, R30). -/
def checkScr (x : UnitSt) (addr n align : Nat) : Option Why :=
  if addr % align != 0 then some (cALIGN, 0)
  else if addr / 2 ^ 21 != 0 || decide (x.scrSize < addr + n) then some (cXLATE, 3) else none

/-- The unit of the gang of `u` with a gang index, on the same side of a redundant pair (R201, R388). -/
def gangUnit (s : State) (u g : Nat) : Option Nat :=
  let x := (s.unit u).cfg
  s.units.findIdx? (fun y => y.cfg.node == x.node && y.cfg.trailer == x.trailer && y.cfg.uidx == x.uidx - x.gidx + g && !y.cancelled)

/-- A gang-window access (R21, R30): the target unit and offset. -/
def checkGang (s : State) (u addr n align : Nat) : Except Why (Nat × Nat) :=
  if addr % align != 0 then .error (cALIGN, 0)
  else if addr / 2 ^ 25 != 0 || decide ((s.unit u).cfg.gsize ≤ bits addr 21 4) then .error (cXLATE, 4)
  else match gangUnit s u (bits addr 21 4) with
    | none => .error (cXLATE, 4)
    | some v => if (s.unit v).scrSize < addr % 2 ^ 21 + n then .error (cXLATE, 3) else .ok (v, addr % 2 ^ 21)

/-- Fetch an instruction word (R34). -/
def fetchWord (s : State) (u : Nat) (handler : Bool) (pc : Addr) : Except Why Word :=
  let x := s.unit u
  match checkGlobal s x.core (some x.cfg.node) x.cfg.job x.xroot 8 handler false .fetch pc 0 with
  | .error w => .error w
  | .ok k => .ok (if reserved k.loc then 0 else BitVec.ofNat 32 (s.mem.nat k.loc 4))

/-- A word that bears the header marker (R245). -/
def isMarker (w : Word) : Bool := w.extractLsb' 29 3 == 7

end Sys2Proof.Machine
end

