-- ==== Sys2Proof/Machine/Pool.lean ====
section
/-! DEFINITION. The pool of a core (R36 to R40, R45 to R47, R59, R60, R63, R66): what its rows hold of image lines, the symbol code, misses, victims and
write-back, bytes that land in a line wherever it lies, the basin slots, and the DRAM decode of Table 3-2. -/

namespace Sys2Proof.Machine

-- DRAM (R70, R72) ----------------------------------------------------------------------------------------------------

/-- Bytes of device memory through the home; the reserved area reads zero (R68). -/
def State.load (s : State) (loc n : Nat) : List Byte := if reserved loc then List.replicate n 0 else Memory.readN s.mem loc n

/-- Some line of the range is poisoned (R72). -/
def State.poisonedAt (s : State) (loc n : Nat) : Bool :=
  decide (0 < n) && (List.range ((loc + n - 1) / 128 - loc / 128 + 1)).any (fun i => (s.line (loc / 128 + i)).poison)

/-- A node consumes poison (R72): it waits to be rolled back. -/
def consumePoison (s : State) (n : Nat) : State := s.modNode n (fun y => { y with doom := if y.doom = 0 then 1 else y.doom })

/-- The nodes that a line's writer record names and that are still uncommitted (R80). -/
def writersOf (s : State) (k : Nat) : List Nat := (s.line k).writers.filter (fun w => (s.node w).status != .committed && (s.node w).status != .cancelled)

/-- A write to these lines becomes visible to some units: their watches on them fire (R142, R156, R329). -/
def fireIn (s : State) (p : UnitSt → Bool) (ls : List Nat) : State :=
  { s with units := s.units.map (fun y => { y with fibs := y.fibs.map (fun f =>
      match f.watch with | some k => if p y && ls.contains k then { f with fired := true } else f | none => f) }) }

/-- To every unit. -/
def fire (s : State) (ls : List Nat) : State := fireIn s (fun _ => true) ls

/-- The place of journal slot `k` of an owner (Table 3-1, R58); die dispatchers keep theirs in die 0's area (R114). -/
def journalPlace (s : State) (w : Owner) (k : Nat) : Option Nat :=
  match w with
  | .die d => some (d * 2 ^ 36 + 0xFE8000000 + 64 * k)
  | .disp _ => some (0xFE8000000 + 64 * k)
  | .pool u => some ((s.unit u).cfg.bases.getD 8 0 % 2 ^ 40 + 32 * k)
  | .remote _ => none

/-- Poison in a line of memory; the journal entries that the line held are lost, and every job with one of them waits for its rollback (R70, R128). -/
def poisonLine (s : State) (k : Nat) : State :=
  let s := s.modLine k (fun x => { x with poison := true })
  let held := fun (e : JEntry) => e.kept && (match journalPlace s e.owner e.slot with | some a => a / 128 == k | none => false)
  let gone := s.journal.filter held
  if gone = [] then s
  else { s with journal := s.journal.filter (fun e => !held e), lost := (s.lost ++ gone.map (fun e => e.key.job)).eraseDups }

/-- The home reads a sector from the stack (Table 3-2). A counter at its greatest value wraps. (DESIGN CHOICE, log entry 63.) -/
def decodeSector (s : State) (k : Nat) : State :=
  match s.sectors.find? (fun e => e.1 = k) with
  | none => s
  | some e =>
    let s := { s with sectors := SMap.del s.sectors k }
    let st := k / 2 ^ 31
    match e.2 with
    | .oneSymbol => s.modStack st (fun x => { x with corrected := x.corrected + 1 })
    | .misdirected =>
      ((poisonLine s (k / 4)).modStack st (fun x => { x with misdirected := x.misdirected + 1, poisoned := x.poisoned + 1 })).machineCheck 2 st (32 * k % 2 ^ 36)
    | .uncorrectable => (poisonLine s (k / 4)).modStack st (fun x => { x with poisoned := x.poisoned + 1 })

/-- The sectors of a range that still wait to be decoded. -/
def decodeRange (s : State) (loc n : Nat) : State :=
  if s.sectors = [] then s
  else ((s.sectors.filter (fun e => decide (loc / 32 ≤ e.1 ∧ 32 * e.1 < loc + n))).map (fun e => e.1)).foldl decodeSector s

/-- The reserved area of a stack is reached (R68). -/
def reservedCheck (s : State) (loc : Nat) : State := if reserved loc then s.machineCheck 1 (loc / 2 ^ 36) (loc % 2 ^ 36) else s

/-- A home reads a range from its stack: its sectors decode (R70), and a place in the reserved area raises a machine check (R68). -/
def homeReads (s : State) (loc n : Nat) : State := if loc < 2 ^ 60 then reservedCheck (decodeRange s loc n) loc else s

/-- The sectors that a walk reads decode at their homes (R70, R415). -/
def walkReads (s : State) (tbl va : Nat) : Nat → State
  | 0 => s
  | fuel + 1 =>
    let level := 3 - fuel
    let a := tbl + 8 * bits va (16 + 10 * (3 - level)) 10
    let s := decodeRange s a 8
    let e := BitVec.ofNat 64 (s.mem.nat a 8)
    if e.getLsbD 0 = false || malformed e level || e.getLsbD 1 then s else walkReads s (entPA e) va fuel

/-- What a translation reads of the page tables. -/
def translateReads (s : State) (core : Option Nat) (job : Nat) (root va : BitVec 64) : State :=
  if s.sectors = [] || bits va.toNat 56 4 != 0 || bits root.toNat 40 20 != 0 then s
  else match core.bind (fun k => tlbHit (s.core k).tlb job (va.toNat % 2 ^ 56)) with
    | some _ => s
    | none => walkReads s (root.toNat % 2 ^ 40) (va.toNat % 2 ^ 56) 4

/-- What the fetch of a word reads: the walk, and the word where it translates (R34, R68, R70). -/
def fetchReads (s : State) (u : Nat) (handler : Bool) (pc : Addr) : State :=
  let x := s.unit u
  let s := translateReads s x.core x.cfg.job x.xroot pc
  match checkGlobal s x.core (some x.cfg.node) x.cfg.job x.xroot 8 handler false .fetch pc 0 with
  | .error _ => s
  | .ok k => homeReads s k.loc 4

-- writing the image -------------------------------------------------------------------------------------------------

/-- Write a number's `n` low bytes at a device physical address. -/
def State.poke (s : State) (a x n : Nat) : State := { s with mem := Memory.writeN s.mem a (leBytes x n) }

/-- Fields at their bit positions as one number. -/
def pack (fs : List (Nat × Nat)) : Nat := fs.foldr (fun f n => f.1 * 2 ^ f.2 + n) 0

/-- The base of a unit's image, and of its region `k` (Table 2-5, BASES). -/
def UnitSt.base (y : UnitSt) : Nat := y.cfg.image % 2 ^ 40
def UnitSt.region (y : UnitSt) (k : Nat) : Nat := y.cfg.bases.getD k 0 % 2 ^ 40

-- lines and their image (R45, R53, R58 to R60) -----------------------------------------------------------------------

/-- The bytes that the pool holds of a line. -/
def rowBytes (y : UnitSt) (row : Nat) : List Byte :=
  if row < 32768 then (List.range 32).flatMap (fun l => leBytes (y.reg (row / 1024) l (row % 1024)).toNat 4)
  else if row < 49152 then y.scrN (128 * (row - 32768)) 128
  else if row < 51200 then (List.range 32).flatMap (fun k => leBytes (y.acc.get 0 (32 * (row - 49152) + k)).toNat 4)
  else Memory.readN y.bas (128 * (row - 51200)) 128

/-- A line's bytes in the pool replaced. -/
def UnitSt.setRow (y : UnitSt) (row : Nat) (bs : List Byte) : UnitSt :=
  let bytes := (List.range 128).map (fun i => bs.getD i 0)
  let word := fun (i : Nat) => BitVec.ofNat 32 (leNat ((bytes.drop (4 * i)).take 4))
  if row < 32768 then { y with regs := (List.range 32).foldl (fun m l => SMap.set 0 m (regKey (row / 1024) (row % 1024) l) (word l)) y.regs }
  else if row < 49152 then { y with scr := Memory.writeN y.scr (128 * (row - 32768)) bytes }
  else if row < 51200 then { y with acc := (List.range 32).foldl (fun m i => SMap.set 0 m (32 * (row - 49152) + i) (word i)) y.acc }
  else { y with bas := Memory.writeN y.bas (128 * (row - 51200)) bytes }

/-- Bytes of a line in the pool written, by their offsets in the line. -/
def UnitSt.putCells (y : UnitSt) (row : Nat) (cells : List (Nat × Byte)) : UnitSt :=
  if 32768 ≤ row ∧ row < 49152 then { y with scr := cells.foldl (fun m c => Memory.write m (128 * (row - 32768) + c.1) c.2) y.scr }
  else if 51200 ≤ row then { y with bas := cells.foldl (fun m c => Memory.write m (128 * (row - 51200) + c.1) c.2) y.bas }
  else y.setRow row (cells.foldl (fun l c => l.set c.1 c.2) (rowBytes y row))

/-- The place of a line in the image (Table 2-8). -/
def rowPlace (y : UnitSt) (row : Nat) : Nat :=
  let b := fun k => y.cfg.bases.getD k 0 % 2 ^ 40
  if row < 32768 then b 0 + 128 * row
  else if row < 49152 then b 1 + 128 * (row - 32768)
  else if row < 51200 then b 2 + 128 * (row - 49152)
  else b 3 + 128 * (row - 51200)

/-- The byte of the presence bitmap that holds a line's bit (R59). -/
def bitPlace (y : UnitSt) (row : Nat) : Nat := y.cfg.bases.getD 6 0 % 2 ^ 40 + row / 8

/-- A line's presence bit (R59). -/
def presence (s : State) (u row : Nat) : Bool := (Memory.read s.mem (bitPlace (s.unit u) row)).getLsbD (row % 8)

/-- Set it. -/
def setPresence (s : State) (u row : Nat) : State :=
  let a := bitPlace (s.unit u) row
  { s with mem := Memory.write s.mem a (Memory.read s.mem a ||| BitVec.ofNat 8 (2 ^ (row % 8))) }

-- the symbol code (R36 to R38) ---------------------------------------------------------------------------------------

/-- The core whose pool holds a unit's lines: where it is resident, else its last core (R65). -/
def UnitSt.poolCore (y : UnitSt) : Option Nat := y.core.or y.lastCore

/-- Free bytes in some symbols of a row: data symbol d is bytes 8d to 8d + 7 (R36). -/
def breakSymbols (bs free : List Byte) (syms : List Nat) : List Byte :=
  (List.range 128).map (fun i => if syms.contains (i / 8) then free.getD i 0 else bs.getD i 0)

/-- A read of a row (R37, R38). One symbol in error is corrected, counted and rewritten. Two are detected, and the row is marked poisoned, or are taken
for the one of another error, which leaves the row wrong; of three or more nothing is promised. Which it is, and what a row left wrong holds, are free
values. A failed bank's symbol is erased, and counts as one. (DESIGN CHOICE, log entry 3.) -/
def touchRow (s : State) (u row : Nat) : State :=
  let y := s.unit u
  let r := y.row row
  let k := y.poolCore.getD 0
  let failed := (s.core k).bank
  let bad := match failed with | some b => r.bad.filter (fun y => y != b) | none => r.bad
  if !r.here || bad = [] then s
  else
    let n := bad.length + failed.isSome.toNat
    let fix := fun (s : State) (p : Bool) => s.modUnit u (fun y => y.modRow row (fun w => { w with bad := [], poison := w.poison || p }))
    let count := fun (s : State) => s.modCore k (fun y => { y with corrected := y.corrected + 1, bankErrs := y.bankErrs ++ [(bad.headD 0, u, row, s.now)] })
    if n = 1 then count (fix s false)
    else
      let f := s.fresh
      let s := { s with fresh := f + 1 }
      let w := Config.freeWord f
      if w.getLsbD 0 then fix s true
      else
        let wrong := (fix s false).modUnit u (fun y => y.setRow row (breakSymbols (rowBytes y row) (Config.brokenRow f) (bad ++ [w.toNat / 2 % 18])))
        if n = 2 then count wrong else wrong

/-- The rows of registers of the window in the lanes of a mask. -/
def regRows (x : UnitSt) (c : Nat) (m : BitVec 32) (rs : List Nat) : List Nat :=
  ((lanesOf m).flatMap (fun l => rs.map (fun r => rowReg c (x.wb c l + r)))).eraseDups

-- victims (R43, R46, R47) --------------------------------------------------------------------------------------------

/-- The rows that a register share offers for register and basin lines (R46). -/
def UnitSt.shareSlots (y : UnitSt) : Nat := 256 * bits y.cfg.part.toNat 0 6 - 256 * bits y.cfg.part.toNat 19 1
/-- A line that the register share holds. -/
def shareRow (row : Nat) : Bool := decide (row < 32768 ∨ 51200 ≤ row)
/-- The lines of the register share that the pool holds. -/
def UnitSt.shareHeld (y : UnitSt) : Nat := (y.rows.filter (fun e => e.2.here && shareRow e.1)).length
/-- The units with lines in the pool of a core. -/
def poolUnits (s : State) (k : Nat) : List Nat := (List.range s.units.length).filter (fun v => (s.unit v).poolCore == some k)
/-- The rows of a core's pool that are taken, the staging blocks of its resident units among them (R61). -/
def poolTaken (s : State) (k : Nat) : Nat :=
  ((poolUnits s k).map (fun v => let y := s.unit v
    (y.rows.filter (fun e => e.2.here)).length + if y.core.isSome && y.cfg.part.getLsbD 19 then 256 else 0)).sum

/-- A crew waits for a line (R46). -/
def crewMisses (y : UnitSt) (x : Crew) : Bool := x.miss.any (fun r => !(y.row r).here)

/-- The crew of a core that has waited longest for lines it names (R46). -/
def oldestMiss (s : State) (k : Nat) : Option (Nat × Nat) :=
  (((poolUnits s k).filter (fun v => (s.unit v).core.isSome)).flatMap (fun v =>
    ((List.range (s.unit v).crews.length).filter (fun c => crewMisses (s.unit v) ((s.unit v).crew c))).map (fun c => (v, c)))).foldl
      (fun b p => match b with
        | none => some p
        | some q => if ((s.unit p.1).crew p.2).missAt < ((s.unit q.1).crew q.2).missAt then some p else b) none

/-- The lines that instructions in flight of a unit name: destinations of operations, of engine commands and of TRACE, and what the core's oldest stalled
instruction names (R46). -/
def namedRows (s : State) (k u : Nat) : List Nat :=
  (s.ops.filter (fun o => o.u == some u && o.phase != .answered)).flatMap (fun o => o.dst.map (fun d => rowReg o.crew d)) ++
  (s.cmds.filter (fun m => m.u == u)).flatMap (fun m => m.dst.map (fun d => rowReg m.crew d)) ++
  ((s.unit u).sweeps.filter (fun w => w.kind == 2)).flatMap (fun w => (lanesOf w.active).flatMap (fun l =>
    (List.range 5).map (fun i => rowReg w.crew ((w.regs.getD (3 * l + 2) 0).toNat + w.d.toNat + i)))) ++
  (match oldestMiss s k with | some (v, c) => if v = u then ((s.unit u).crew c).miss else [] | none => [])

/-- The least recently used of some lines of a unit; the lowest-numbered where two were used at once. -/
def leastUsed (s : State) (u : Nat) (p : Nat → Bool) : Option (Nat × Nat) :=
  (((s.unit u).rows.filter (fun e => e.2.here && p e.1)).foldl (fun (b : Option (Nat × Nat)) e => match b with
    | none => some (e.1, e.2.used)
    | some q => if e.2.used < q.2 then some (e.1, e.2.used) else b) none).map (fun q => (u, q.1))

/-- A line of a unit that has left the core, of the one that left longest ago (R46, R64). -/
def evictable (s : State) (k : Nat) : Option (Nat × Nat) :=
  (((List.range s.units.length).filter (fun v => let y := s.unit v; y.core.isNone && y.lastCore == some k && y.rows.any (fun e => e.2.here))).foldl
    (fun (b : Option Nat) v => match b with
      | none => some v
      | some w => if (s.unit v).leftAt < (s.unit w).leftAt then some v else b) none).bind (fun v => leastUsed s v (fun _ => true))

/-- The line that goes where unit `u` of core `k` brings in a line (R46): none is needed where its share, for a line of the share, and the pool have a free
row (`some none`); `none` where one is needed and none can go. Where the pool is full and no line is evictable, a unit gives back what it holds beyond its
share. (DESIGN CHOICE, log entry 49.) -/
def victimOf (s : State) (k u row : Nat) : Option (Option (Nat × Nat)) :=
  let y := s.unit u
  let full := decide (16384 ≤ poolTaken s k)
  if !full && !(shareRow row && decide (y.shareSlots ≤ y.shareHeld)) then some none
  else
    let free := fun (v : Nat) => leastUsed s v (fun r => shareRow r && r != row && !(namedRows s k v).contains r)
    let extra := ((poolUnits s k).filter (fun v => (s.unit v).core.isSome && decide ((s.unit v).shareSlots < (s.unit v).shareHeld))).findSome? free
    ((evictable s k).or ((if shareRow row then free u else none).or (if full then extra else none))).map some

-- misses and write-back (R46, R63) -----------------------------------------------------------------------------------

/-- A line is written to the image whole, with its poison mark, and its presence bit set (R37, R59, R63). -/
def writeBack (s : State) (u row : Nat) : State :=
  let y := s.unit u
  let a := rowPlace y row
  let s := { s with mem := Memory.writeN s.mem a (rowBytes y row) }
  let s := s.modLine (a / 128) (fun x => { x with poison := (y.row row).poison })
  fire (setPresence s u row) [a / 128]

/-- A line leaves the pool: a dirty one is written back, as the code reads it; a clean one is dropped (R46, R63). -/
def evictRow (s : State) (u row : Nat) : State :=
  let s := if ((s.unit u).row row).dirty then (let s := touchRow s u row; writeBack s u row) else s
  s.modUnit u (fun y => { y.setRow row [] with rows := y.rows.set {} row {} })

/-- A line comes in: from the image where its presence bit is 1, and as zeros where it is 0 (R46). -/
def fillRow (s : State) (u row : Nat) : State :=
  if ((s.unit u).row row).here then s
  else
    let a := rowPlace (s.unit u) row
    let there := presence s u row
    let s := if there then decodeRange s a 128 else s
    let bs := if there then Memory.readN s.mem a 128 else []
    let p := there && (s.line (a / 128)).poison
    s.modUnit u (fun y => { y.setRow row bs with rows := y.rows.set {} row { here := true, poison := p, used := s.now } })

/-- A line that something other than a stalled crew needs comes in at once, in a victim's place where there is one. (DESIGN CHOICE, log entry 49.) -/
def fetchRow (s : State) (u row : Nat) : State :=
  if ((s.unit u).row row).here then s
  else
    let s := match (s.unit u).core with
      | some k => match victimOf s k u row with | some (some v) => evictRow s v.1 v.2 | _ => s
      | none => s
    fillRow s u row

/-- POOL_MISS_FILL (R46): a line that a stalled crew names. The victim is the one that R46 chooses; where there is none, only the oldest such
instruction is served. -/
def missFill (s : State) (u row : Nat) (victim : Option (Nat × Nat)) : State :=
  let y := s.unit u
  match y.core with
  | none => s
  | some k =>
    if y.cancelled || (y.row row).here || !y.crews.any (fun x => x.miss.contains row) then s
    else match victimOf s k u row with
      | some none => fillRow s u row
      | some (some v) => if victim == some v then fillRow (evictRow s v.1 v.2) u row else s
      | none => match oldestMiss s k with
        | some (v, c) => if v = u && ((s.unit u).crew c).miss.contains row then fillRow s u row else s
        | none => s

-- how an instruction finds its lines (R46, R47, R72) -----------------------------------------------------------------

/-- How lines answer an instruction: present, some absent (a miss, R46), or some line that it reads poisoned. -/
inductive RowsAre | ok | absent | poison
  deriving DecidableEq, Repr

/-- The answer of lines that an instruction reads, `reads`, and of others that it writes. -/
def rowsAre (s : State) (u : Nat) (reads writes : List Nat) : RowsAre :=
  let x := s.unit u
  if (reads ++ writes).any (fun r => !(x.row r).here) then .absent
  else if reads.any (fun r => (x.row r).poison) then .poison else .ok

/-- Lines are used now. -/
def useRows (s : State) (u : Nat) (rows : List Nat) : State :=
  s.modUnit u (fun y => { y with rows := rows.foldl (fun m r => m.upd {} r (fun w => if w.here then { w with used := s.now } else w)) y.rows })

/-- A crew waits for lines that its instruction names. -/
def recordMiss (s : State) (u c : Nat) (rows : List Nat) : State :=
  s.modCrew u c (fun y => { y with missAt := if crewMisses (s.unit u) y then y.missAt else s.now, miss := rows })

/-- An instruction of a crew asks for the lines that it reads, that it writes in part, and that it writes whole: what is read decodes (R37). Where a line
is absent the crew waits for all of them; where one that it reads is poisoned, its node consumes poison (R72). -/
def askRows (s : State) (u c : Nat) (reads part whole : List Nat) : RowsAre × State :=
  match rowsAre s u reads (part ++ whole) with
  | .absent => (.absent, recordMiss s u c (reads ++ part ++ whole))
  | _ =>
    let s := (reads ++ part).foldl (fun s r => touchRow s u r) s
    if rowsAre s u reads [] = .poison then (.poison, consumePoison s (s.unit u).cfg.node)
    else (.ok, useRows s u (reads ++ part ++ whole))

/-- Lines written whole are sound and lose their poison mark (R37, R72). -/
def cleanRows (s : State) (u : Nat) (rows : List Nat) : State :=
  s.modUnit u (fun y => { y with rows := rows.foldl (fun m r => m.upd {} r (fun w => { w with poison := false, bad := [] })) y.rows })

-- landing (R40, R66) -------------------------------------------------------------------------------------------------

/-- Bytes, by their offsets in the line, are written through to a line of the image: where its presence bit is 0 they merge with zeros, and set it (R66).
A partial write leaves a poisoned line poisoned (R72); `mark`: some of the bytes are poisoned. -/
def writeThrough (s : State) (u row : Nat) (cells : List (Nat × Byte)) (whole mark : Bool) : State :=
  let a := rowPlace (s.unit u) row
  let there := presence s u row
  let s := if there && !whole then decodeRange s a 128 else s
  let m : Memory := if there then s.mem else Memory.writeN s.mem a (List.replicate 128 0)
  let s : State := { s with mem := cells.foldl (fun (m : Memory) c => Memory.write m (a + c.1) c.2) m }
  let s := s.modLine (a / 128) (fun x => { x with poison := mark || (x.poison && there && !whole) })
  fire (setPresence s u row) [a / 128]

/-- Bytes of a line of a unit are written, from anywhere but the unit's own instructions (R40, R66): in the pool of its core, where an absent line first
comes in; in that of its last core where it still holds the line; else in the image. A line written whole loses its poison, one written in part keeps it, and
`mark`, some byte being poisoned, gives it. -/
def landRow (s : State) (u row : Nat) (cells : List (Nat × Byte)) (mark : Bool) : State :=
  let whole := decide (128 ≤ ((cells.map (fun c => c.1)).eraseDups).length)
  let s := if (s.unit u).core.isSome then fetchRow s u row else s
  if !((s.unit u).row row).here then writeThrough s u row cells whole mark
  else
    let s := if whole then s else touchRow s u row
    s.modUnit u (fun y => (y.putCells row cells).modRow row (fun w =>
      { w with dirty := true, used := s.now, poison := mark || (w.poison && !whole), bad := if whole then [] else w.bad }))

/-- Bytes land in a unit's scratchpad, `bad` of them poisoned. -/
def landScr (s : State) (u off : Nat) (cells : List (Nat × Byte)) (bad : List Nat) : State :=
  ((cells.map (fun c => rowScr (off + c.1))).eraseDups).foldl (fun s r =>
    landRow s u r ((cells.filter (fun c => rowScr (off + c.1) == r)).map (fun c => ((off + c.1) % 128, c.2)))
      (bad.any (fun k => rowScr (off + k) == r))) s

/-- Values land in registers, by register line and lane. -/
def landRegs (s : State) (u c : Nat) (vs : List (Nat × Nat × Word)) (bad : List Nat) : State :=
  ((vs.map (fun v => v.1)).eraseDups).foldl (fun s j =>
    landRow s u (rowReg c j) ((vs.filter (fun v => v.1 == j)).flatMap (fun v => (List.range 4).map (fun i =>
      (4 * v.2.1 + i, BitVec.ofNat 8 (v.2.2.toNat / 256 ^ i))))) (bad.contains j)) s

/-- Scratchpad bytes as something other than the unit's own instructions reads them: its lines come in where the unit is resident, and decode. Of a unit that
is not resident the bytes are those of its last core's lines, or of the image. -/
def readScr (s : State) (u off n : Nat) : State × List Byte :=
  let rows := scrRows off n
  let s := if (s.unit u).core.isSome then rows.foldl (fun s r => fetchRow s u r) s else s
  let s := rows.foldl (fun s r => if ((s.unit u).row r).here then touchRow s u r
    else if presence s u r then decodeRange s (rowPlace (s.unit u) r) 128 else s) s
  let y := s.unit u
  (s, (List.range n).map (fun i =>
    if (y.row (rowScr (off + i))).here then y.scrB (off + i)
    else if presence s u (rowScr (off + i)) then Memory.read s.mem (rowPlace y (rowScr (off + i)) + (off + i) % 128) else 0))

/-- A byte of a scratchpad range is poisoned, in the pool or in the image (R72). -/
def scrPoisoned (s : State) (u off n : Nat) : Bool :=
  (scrRows off n).any (fun r => let y := s.unit u
    if (y.row r).here then (y.row r).poison else presence s u r && (s.line (rowPlace y r / 128)).poison)

-- the basin (R60, R194) ----------------------------------------------------------------------------------------------

/-- A byte of the basin slots, in the pool or, where the line is absent, in the image. -/
def basByte (s : State) (u o : Nat) : Byte :=
  let y := s.unit u
  if (y.row (rowBas o)).here then Memory.read y.bas o
  else if presence s u (rowBas o) then Memory.read s.mem (rowPlace y (rowBas o) + o % 128) else 0

/-- A number of `n` bytes of a basin slot. -/
def basNat (s : State) (u k o n : Nat) : Nat := leNat ((List.range n).map (fun i => basByte s u (384 * k + o + i)))

/-- A slot is occupied. -/
def slotUsed (s : State) (u k : Nat) : Bool := (basByte s u (384 * k + 15)).getLsbD 0

/-- Basin slot `k` (R60); bit 0 of a predicate word is always 1 (R57). -/
def slotAt (s : State) (u k : Nat) : BasinSlot where
  pc := BitVec.ofNat 64 (basNat s u k 0 8)
  pred := BitVec.ofNat 16 (basNat s u k 8 2) ||| 1
  fibre := basNat s u k 10 2
  serial := BitVec.ofNat 16 (basNat s u k 12 2)
  live := basNat s u k 14 1
  forked := (basByte s u (384 * k + 15)).getLsbD 1
  regs := (List.range 64).map (fun r => BitVec.ofNat 32 (basNat s u k (128 + 4 * r) 4))

/-- The bytes of an occupied slot. -/
def BasinSlot.img (b : BasinSlot) : List Byte :=
  leBytes b.pc.toNat 8 ++ leBytes b.pred.toNat 2 ++ leBytes b.fibre 2 ++ leBytes b.serial.toNat 2 ++ leBytes b.live 1 ++ leBytes (1 + 2 * b.forked.toNat) 1 ++
    List.replicate 112 0 ++ (List.range 64).flatMap (fun k => leBytes (b.regs.getD k 0).toNat 4)

/-- The three lines of a slot. -/
def slotRows (k : Nat) : List Nat := (List.range 3).map (fun i => 51200 + 3 * k + i)

/-- The occupied slots, ascending. -/
def usedSlots (s : State) (u : Nat) : List Nat := (List.range 1024).filter (slotUsed s u)

/-- A slot whose lines the pool holds is written. -/
def putSlot (y : UnitSt) (k : Nat) (b : BasinSlot) : UnitSt := ({ y with bas := Memory.writeN y.bas (384 * k) b.img } : UnitSt).soil (slotRows k)

/-- A slot is left: its lines come in, and its state byte is cleared. -/
def freeSlot (s : State) (u k : Nat) : State := landRow s u (51200 + 3 * k) [(15, 0)] false

end Sys2Proof.Machine
end

