-- ==== Sys2Proof/Machine/Operands.lean ====
section
/-! DEFINITION. What each instruction reads and writes among the registers of the window, which of its fields REPT steps, and the classes of
instruction that the checks and the clause rules name. -/

namespace Sys2Proof.Machine

/-- The numbers of a block of `n` registers from `r`. -/
def blk (r : VReg) (n : Nat) : List Nat := (List.range n).map (fun i => r.toNat + i)

/-- The long-latency instructions (R247). -/
def isLong : Instr → Bool
  | .stW .. | .stQ .. | .stB .. | .stH .. | .stS .. | .stG .. | .stBerth .. | .stDs .. | .red .. | .redDs .. | .tagSet ..
  | .copy .. | .gather .. | .coll .. | .frame .. | .sweep .. | .sweepR .. | .trace .. => true
  | _ => false

/-- The control transfers (R167): majors 0x01 to 0x05, END, HALT and ERET. -/
def isTransfer : Instr → Bool
  | .br .. | .bra .. | .call .. | .callReg .. | .ret .. | .jr .. | .brFar .. | .endFibre | .halt | .eret .. => true
  | _ => false

/-- Words that a REPT body must not contain (R310). -/
def bodyForbidden (i : Instr) : Bool :=
  isTransfer i || (match i with | .rept .. | .strm .. | .strmOff .. | .wait .. | .mwait .. => true | _ => false)

/-- The tile-engine instructions, majors 0x2F to 0x33. -/
def needsEngine : Instr → Bool
  | .mma .. | .mmaSp .. | .mmaP .. | .scacc .. | .accLd .. | .accSt .. | .accZero .. | .accCvt .. | .plane .. | .unplane .. | .cbLd ..
  | .ruleLd .. | .sweep .. | .sweepR .. | .trace .. | .bndIn .. | .bndOut .. => true
  | _ => false

/-- The operations that trap DET_FORBIDDEN in a deterministic launch (R159, R131). -/
def detForbidden : Instr → Bool
  | .fork .. | .mwait .. | .atom .. | .atomc .. | .addDs .. => true
  | .red _ _ _ _ _ sat _ _ => sat
  | _ => false

/-- Registers marked R in Table 11-13. -/
def sregReadOnly : SReg → Bool
  | .fpmode | .fpflags | .statAmax | .statSat | .trapinfo0 | .trapinfo1 | .trapinfo2 => false
  | _ => true
/-- Registers marked H in Table 11-13. -/
def sregPriv : SReg → Bool
  | .trapinfo0 | .trapinfo1 | .trapinfo2 | .xrootLo | .xrootHi => true
  | _ => false

/-- Check 9 of Table 11-15: the word needs a privilege that the entry does not have (R256, R288, R291, R292). -/
def privFails (i : Instr) (handler testen : Bool) : Bool :=
  match i with
  | .swrite r _ => sregReadOnly r || (sregPriv r && !handler)
  | .sread _ r => sregPriv r && !handler
  | .eret _ => !handler
  | .rednCtlCount _ => !handler
  | .finj .. => !testen
  | _ => false

/-- Which register fields of a word REPT steps (Table 13-7). -/
inductive Step | none | r (d a b : Bool) | i | l | m | cvtS
  deriving DecidableEq, Repr

/-- The stepped fields of each instruction: the fields that name vector registers. -/
def stepFields : Instr → Step
  | .mread .. => .r true false false
  | .fork .. => .r true true true
  | .wbaseReg .. | .swrite .. => .r false true false
  | .sread .. => .r true false false
  | .iadd .. | .iaddS .. | .isub .. | .isubS .. | .iminI .. | .iminN .. | .imaxI .. | .imaxN .. | .iand .. | .ior .. | .ixor ..
  | .iandn .. | .shl .. | .shrN .. | .shrI .. | .rot .. | .sel .. | .imul .. | .imulhI .. | .imulhN .. | .imad .. | .imadS ..
  | .idivI .. | .idivN .. | .iremI .. | .iremN .. | .bfx .. | .bfi .. | .lea .. => .r true true true
  | .iabs .. | .ineg .. | .popc .. | .clz .. | .ctz .. | .brev .. => .r true true false
  | .addi .. | .andi .. | .ori .. | .xori .. | .shli .. | .shriN .. | .shriI .. | .roti .. => .i
  | .movi .. | .movh .. => .l
  | .icmp .. | .fcmp .. => .r false true true
  | .fadd .. | .fsub .. | .fmul .. | .fmin .. | .fmax .. | .ffma .. => .r true true true
  | .frcp .. | .frsq .. | .fsqrt .. | .fexp2 .. | .flog2 .. | .fabs .. | .fneg .. | .ffloor .. | .fceil .. | .frint .. | .fclass ..
  | .cvt .. => .r true true false
  | .cvtS .. => .cvtS
  | .pickAt .. | .pickLead .. | .pickBack .. | .pickFwd .. | .pickMir .. => .r true true true
  | .xbfly .. | .foldAdd .. | .foldMinI .. | .foldMinN .. | .foldMaxI .. | .foldMaxN .. | .foldAnd .. | .foldOr .. | .foldXor .. =>
    .r true true false
  | .pollMap .. => .r true false false
  | .ldW .. | .ldQ .. | .ldB .. | .ldH .. | .stW .. | .stQ .. | .stB .. | .stH .. | .ldS .. | .stS .. | .ldG .. | .stG ..
  | .ldDs .. | .stDs .. | .addDs .. | .redDs .. | .tagSet .. | .tagGet .. | .barInit .. | .stBerth .. => .r true true false
  | .atom .. | .red .. | .atomc .. => .r false true true
  | .monitor .. | .pref .. | .barArr .. | .barWait .. | .barArrw .. | .berPub .. | .tagRetire .. => .r false true false
  | .berOpen .. => .r true false false
  | .mma .. | .mmaSp .. | .mmaP .. => .m
  | .scacc .. => .r false false true
  | .accLd .. | .accSt .. | .accCvt .. | .cbLd .. | .ruleLd .. | .sweep .. | .sweepR .. | .bndOut .. => .r false true false
  | .plane .. | .unplane .. | .trace .. => .r true true false
  | .bndIn .. => .r false true true
  | .copy .. | .gather .. | .coll .. | .frame .. => .r false true false
  | .post .. => .r true true true
  | .cancel .. | .cntRd .. => .r true true false
  | .cyc .. | .rednCtlCount .. => .r true false false
  | .finj .. => .r true true false
  | _ => .none

/-- The value of a REPT step code (R249). -/
def stepOf (c : BitVec 2) : Nat := match c.toNat with | 0 => 0 | 1 => 1 | 2 => 2 | _ => 4

/-- A 7-bit field at `lo` moved up by `k`, none where it leaves the window. -/
def bump (w : Word) (lo n k : Nat) : Option Word :=
  let f := bits w.toNat lo n
  if f + k < 2 ^ n then some (BitVec.ofNat 32 (w.toNat + k * 2 ^ lo)) else none

/-- The word of a REPT body with its fields stepped for pass `k` (Table 13-7); none where a field leaves its range. -/
def stepWord (i : Instr) (w : Word) (k sd sa sb sacc : Nat) : Option Word :=
  match stepFields i with
  | .none => some w
  | .r d a b =>
    (if d then bump w 14 7 (k * sd) else some w).bind (fun w =>
    (if a then bump w 7 7 (k * sa) else some w).bind (fun w =>
    if b then bump w 0 7 (k * sb) else some w))
  | .i => (bump w 19 7 (k * sd)).bind (fun w => bump w 12 7 (k * sa))
  | .l => bump w 19 7 (k * sd)
  | .m => (bump w 22 4 (k * sacc)).bind (fun w => (bump w 15 7 (k * sa)).bind (fun w => bump w 8 7 (k * sb)))
  | .cvtS => (bump w 14 7 (k * sd)).bind (fun w => bump w 7 7 (k * sa))

/-- The registers of the window that an instruction reads. -/
def srcs : Instr → List Nat
  | .callReg _ a | .ret a | .jr a | .wbaseReg a | .swrite _ a => [a.toNat]
  | .fork l _ a b => a.toNat :: blk b (l.toNat + 1)
  | .brFar l _ => List.range (l.toNat + 1)
  | .rept cr _ _ _ _ _ _ => [cr.toNat]
  | .iadd _ a b | .iaddS _ a b | .isub _ a b | .isubS _ a b | .iminI _ a b | .iminN _ a b | .imaxI _ a b | .imaxN _ a b | .iand _ a b
  | .ior _ a b | .ixor _ a b | .iandn _ a b | .shl _ a b | .shrN _ a b | .shrI _ a b | .rot _ a b | .imul _ a b | .imulhI _ a b
  | .imulhN _ a b | .idivI _ a b | .idivN _ a b | .iremI _ a b | .iremN _ a b | .bfx _ a b | .lea _ _ a b
  | .icmp _ _ _ a b | .fcmp _ _ a b | .fadd _ _ a b | .fsub _ _ a b | .fmul _ _ a b | .fmin _ a b | .fmax _ a b
  | .pickAt _ a b | .pickLead _ a b | .pickBack _ a b | .pickFwd _ a b | .pickMir _ a b => [a.toNat, b.toNat]
  | .sel d a b | .imad d a b | .imadS d a b | .bfi d a b | .ffma _ _ _ d a b => [a.toNat, b.toNat, d.toNat]
  | .iabs _ a | .ineg _ a | .popc _ a | .clz _ a | .ctz _ a | .brev _ a | .addi _ a _ | .andi _ a _ | .ori _ a _ | .xori _ a _
  | .shli _ a _ | .shriN _ a _ | .shriI _ a _ | .roti _ a _ | .frcp _ _ a | .frsq _ _ a | .fsqrt _ _ a | .fexp2 _ _ a | .flog2 _ _ a
  | .fabs _ a | .fneg _ a | .ffloor _ a | .fceil _ a | .frint _ _ a | .fclass _ a | .cvt _ _ _ _ _ a
  | .foldAdd _ a | .foldMinI _ a | .foldMinN _ a | .foldMaxI _ a | .foldMaxN _ a | .foldAnd _ a | .foldOr _ a | .foldXor _ a => [a.toNat]
  | .movh d _ => [d.toNat]
  | .cvtS _ _ _ _ a sc _ => [a.toNat, 4 * sc.toNat, 4 * sc.toNat + 1]
  | .xbfly _ m _ a => match m with | .bit => [a.toNat] | .half => blk a 16 | .word => blk a 32
  | .ldW _ _ _ a _ | .ldQ _ _ _ a _ | .ldB _ _ _ a _ | .ldH _ _ _ a _ | .ldDs _ _ _ a | .tagGet _ _ _ a | .monitor a | .pref a => blk a 2
  | .stW _ _ d a _ | .stB _ _ d a _ | .stH _ _ d a _ | .addDs _ _ d a | .redDs _ _ d a | .tagSet _ _ d a => d.toNat :: blk a 2
  | .stQ _ _ d a _ => blk d 4 ++ blk a 2
  | .stDs _ _ d a | .stBerth _ _ d a => blk d 2 ++ blk a 2
  | .ldS _ _ _ a _ _ | .ldG _ _ _ a _ _ => [a.toNat]
  | .stS _ _ d a z _ | .stG _ _ d a z _ => a.toNat :: blk d (if z = .q then 4 else 1)
  | .atom _ _ g _ _ _ a b | .red _ _ g _ _ _ a b => b.toNat :: blk a (if g then 1 else 2)
  | .atomc _ _ g a b => blk b 2 ++ blk a (if g then 1 else 2)
  | .barInit d a _ => [d.toNat, a.toNat]
  | .barArr _ a | .barWait _ a | .barArrw _ _ a | .berPub a | .tagRetire a => [a.toNat]
  | .mma _ a b f _ _ | .mmaSp _ a b f _ _ => b.toNat :: blk a (f.aRegs false)
  | .mmaP _ a b f _ _ => b.toNat :: blk a (f.aRegs true)
  | .scacc _ _ b => blk b 2
  | .accLd _ a _ _ | .accSt _ a _ _ | .cbLd a | .ruleLd _ a => [a.toNat]
  | .accCvt _ _ a _ _ _ _ _ => blk a 3
  | .plane d a f => a.toNat :: blk d (if f = .bf16 ∨ f = .f16 then 2 else 1)
  | .unplane _ a _ => [a.toNat]
  | .sweep _ _ a _ => blk a 5
  | .sweepR _ _ a _ => blk a 6
  | .trace _ a => blk a 2
  | .bndIn a b => a.toNat :: blk b 3
  | .bndOut _ _ a => blk a 2
  | .copy a | .gather a | .coll a | .frame a => blk a 8
  | .post _ a b => b.toNat :: blk a 2
  | .cancel _ a _ | .cntRd _ a _ => [a.toNat]
  | .finj _ a _ => [a.toNat]
  | _ => []

/-- The registers of the window that an instruction writes. -/
def dsts : Instr → List Nat
  | .call d _ | .callReg d _ | .fork _ d _ _ | .mread d _ | .sread d _ => [d.toNat]
  | .iadd d _ _ | .iaddS d _ _ | .isub d _ _ | .isubS d _ _ | .iminI d _ _ | .iminN d _ _ | .imaxI d _ _ | .imaxN d _ _ | .iand d _ _
  | .ior d _ _ | .ixor d _ _ | .iandn d _ _ | .shl d _ _ | .shrN d _ _ | .shrI d _ _ | .rot d _ _ | .imul d _ _ | .imulhI d _ _
  | .imulhN d _ _ | .idivI d _ _ | .idivN d _ _ | .iremI d _ _ | .iremN d _ _ | .bfx d _ _ | .lea _ d _ _
  | .fadd _ d _ _ | .fsub _ d _ _ | .fmul _ d _ _ | .fmin d _ _ | .fmax d _ _
  | .pickAt d _ _ | .pickLead d _ _ | .pickBack d _ _ | .pickFwd d _ _ | .pickMir d _ _
  | .sel d _ _ | .imad d _ _ | .imadS d _ _ | .bfi d _ _ | .ffma _ _ _ d _ _
  | .iabs d _ | .ineg d _ | .popc d _ | .clz d _ | .ctz d _ | .brev d _ | .addi d _ _ | .andi d _ _ | .ori d _ _ | .xori d _ _
  | .shli d _ _ | .shriN d _ _ | .shriI d _ _ | .roti d _ _ | .frcp _ d _ | .frsq _ d _ | .fsqrt _ d _ | .fexp2 _ d _ | .flog2 _ d _
  | .fabs d _ | .fneg d _ | .ffloor d _ | .fceil d _ | .frint _ d _ | .fclass d _ | .cvt _ _ _ _ d _ | .cvtS _ _ _ d _ _ _
  | .foldAdd d _ | .foldMinI d _ | .foldMinN d _ | .foldMaxI d _ | .foldMaxN d _ | .foldAnd d _ | .foldOr d _ | .foldXor d _
  | .movi d _ | .movh d _ | .pollMap d _ => [d.toNat]
  | .xbfly _ m d _ => match m with | .bit => [d.toNat] | .half => blk d 16 | .word => blk d 32
  | .ldW _ _ d _ _ | .ldB _ _ d _ _ | .ldH _ _ d _ _ | .ldDs _ _ d _ | .tagGet _ _ d _ | .addDs _ _ d _ => [d.toNat]
  | .ldQ _ _ d _ _ => blk d 4
  | .ldS _ _ d _ z _ | .ldG _ _ d _ z _ => blk d (if z = .q then 4 else 1)
  | .atom _ _ _ _ _ _ _ b => [b.toNat + 1]
  | .atomc _ _ _ _ b => [b.toNat + 2]
  | .berOpen d _ => [d.toNat]
  | .unplane d _ f => blk d (if f = .bf16 ∨ f = .f16 then 2 else 1)
  | .trace d _ => blk d 5
  | .post d _ _ | .cancel d _ _ | .cntRd d _ _ | .rednCtlCount d | .finj d _ _ => [d.toNat]
  | .cyc d => blk d 2
  | _ => []

end Sys2Proof.Machine
end

