-- ==== Sys2Proof/Machine/Crews.lean ====
section
/-! DEFINITION. Crews: where an entry goes next, splitting and merging, waiting, serial mode, and taking a trap and entering its handler
(R176 to R193, R311, R312, R377 to R379). -/

namespace Sys2Proof.Machine

/-- A program counter moved by a number of bytes: bits [63:32] never change (R8, R251). (DEDUCED, log entry 20.) -/
def pcAdd (pc : Addr) (d : BitVec 32) : Addr := pc.extractLsb' 32 32 ++ (pc.extractLsb' 0 32 + d)

/-- A program counter with new low bits, bits [1:0] ignored (R251). -/
def pcTo (pc : Addr) (t : BitVec 32) : Addr := pc.extractLsb' 32 32 ++ (t &&& 0xFFFFFFFC)

/-- The instruction count minus one of a header (Table 11-1). -/
def hdrN (h : Word) : Nat := bits h.toNat 5 4
/-- The flag of an instruction at this place in its clause: SA for the clause's first long-latency instruction, SB later (R246). -/
def hdrFlag (h : Word) (llDone : Bool) : Option Nat :=
  let f := if llDone then bits h.toNat 9 4 else bits h.toNat 13 4
  if f < 12 then some f else none

/-- A word that is a long-latency instruction. -/
def longWord (w : Word) : Bool := match decodeWord w with | .ok i => isLong i | .error _ => false

/-- The words before `pc`, nearest first, back to the nearest header (R189); `none` where none stands within 16 words. -/
def backTo (s : State) (u : Nat) (handler : Bool) (pc : Addr) : Nat → List Word → Option (Word × List Word)
  | 0, _ => none
  | k + 1, seen =>
    match fetchWord s u handler (pcAdd pc 0xFFFFFFFC) with
    | .error _ => none
    | .ok w => if isMarker w then some (w, seen) else backTo s u handler (pcAdd pc 0xFFFFFFFC) k (seen ++ [w])

/-- An entry at an address whose place in its clause is recovered from the text (R189, R378): at a header, or inside a clause. -/
def openAt (s : State) (u : Nat) (handler : Bool) (pc : Addr) (mask : BitVec 32) : Entry :=
  let e : Entry := { pc := pc, mask := mask, status := .runnable, handler := handler }
  match fetchWord s u handler pc with
  | .error _ => e
  | .ok w =>
    if isMarker w then e
    else match backTo s u handler pc 16 [] with
      | none => e
      | some (h, ws) => if hdrN h < ws.length then e
        else { e with started := true, hdr := h, idx := ws.length, llDone := ws.any longWord }

/-- The pass count of a lane's live loop, 0 outside one (Table 13-8). -/
def Crew.loopN (x : Crew) (l : Nat) : Nat := bits (x.loops.get 0 l).toNat 8 8
/-- The pass in progress. -/
def Crew.loopK (x : Crew) (l : Nat) : Nat := bits (x.loops.get 0 l).toNat 0 8
/-- Some lane of the mask is in a loop. -/
def Crew.inLoop (x : Crew) (m : BitVec 32) : Bool := (lanesOf m).any (fun l => x.loopN l != 0)

/-- Put an entry into the lowest-numbered empty place, or after the table where none is empty (R184). (DEDUCED, log entry 18.) -/
def placeEntry (sp : List Entry) (en : Entry) : List Entry :=
  match sp.findIdx? (fun x => x.status == .empty) with
  | some k => sp.set k en
  | none => sp ++ [en]

/-- Two entries that R182 merges: both runnable at one header, with one handler-mode bit, and no lane in a loop. -/
def mergeable (x : Crew) (a b : Entry) : Bool :=
  a.status == .runnable && b.status == .runnable && a.pc == b.pc && a.handler == b.handler &&
  !a.started && !b.started && !x.inLoop a.mask && !x.inLoop b.mask

/-- The merge of R182 for the entry `e` that has just reached a header: the merged lanes go to the lower-numbered entry. -/
def mergeAt (x : Crew) (e : Nat) : Crew :=
  let me := x.entry e
  match (List.range x.split.length).find? (fun j => j != e && mergeable x me (x.entry j)) with
  | none => x
  | some j =>
    let lo := min e j; let hi := max e j
    { x with
      split := (x.split.modify lo (fun a => { a with mask := (x.entry lo).mask ||| (x.entry hi).mask })).set hi {}
      chosen := if x.chosen = some hi then some lo else x.chosen }

/-- Every runnable entry of a clause header merged with its like (used after several entries have reached headers at once). -/
def mergeAll (x : Crew) : Crew := (List.range x.split.length).foldl mergeAt x

-- serial mode --------------------------------------------------------------------------------------------------------

/-- A lane of an entry as a serial lane word (R189, Table 8-4). -/
def laneOfEntry (e : Entry) : LaneWord :=
  match e.status with
  | .empty => {}
  | .runnable => { pc := e.pc, lst := .runnable, handler := e.handler }
  | .waiting => { pc := e.pc, lst := .waiting, handler := e.handler, waitOn := e.waitOn }
  | .parked => { pc := e.pc, lst := .parked, handler := e.handler, held := !e.toHandler }

/-- Enter serial mode: each lane's position goes to the lane table (R189). -/
def enterSerial (x : Crew) : Crew :=
  { x with
    serial := true
    slane := 0
    chosen := none
    tab := (List.range 32).map (fun l =>
      match x.split.find? (fun e => e.status != .empty && e.mask.getLsbD l) with
      | some e => laneOfEntry e
      | none => {})
    split := List.replicate 8 {} }

/-- Serial mode where a split has overflowed the table (R184). -/
def settle (x : Crew) : Crew := if 8 < x.split.length then enterSerial x else x

/-- The trap handler's entry of an entry or lane: the trap link in register 1,023 of every lane, then HANDLER (R377). -/
def linkRegs (s : State) (u c : Nat) (mask : BitVec 32) (pc : Addr) : State :=
  landRegs s u c ((lanesOf mask).map (fun l => (1023, l, pc.extractLsb' 0 32))) []

/-- Where a lane of a serial crew stands: the running lane where its entry does. -/
def Crew.word (x : Crew) (l : Nat) : LaneWord :=
  if x.chosen.isSome && l == x.slane then { pc := (x.entry 0).pc, lst := .runnable, handler := (x.entry 0).handler } else x.tab.getD l {}

/-- The lanes that R192 tests: neither gone nor held. -/
def tested (x : Crew) : List Nat :=
  (List.range 32).filter (fun l => let w := x.word l; w.lst != .gone && !(w.lst == .parked && w.held))

/-- The test of R192: all tested lanes have one PC and one LST, no lane is in handler mode, the loop words agree where LOOP = 1, and the
held lanes stand at no more than seven PCs. -/
def serialOver (x : Crew) (loop : Bool) : Bool :=
  match tested x with
  | [] => false
  | l :: ls =>
    let w := x.word l
    ls.all (fun k => let v := x.word k; v.pc == w.pc && v.lst == w.lst && v.waitOn == w.waitOn && (!loop || x.loops.get 0 k == x.loops.get 0 l)) &&
    (l :: ls).all (fun k => !(x.word k).handler) &&
    decide ((((List.range 32).filter (fun k => let v := x.word k; v.lst == .parked && v.held)).map (fun k => (x.word k).pc.toNat)).eraseDups.length ≤ 7)

/-- Leave serial mode where R192 says so: entry 0 takes the tested lanes, and the held lanes one parked entry per PC, ascending. (DEDUCED, log entry 18.) -/
def leaveSerial (s : State) (u c : Nat) : State :=
  let x := (s.unit u).crew c
  if x.serial && serialOver x (s.unit u).loop then
    let ls := tested x
    let w := x.word (ls.headD 0)
    let held := (List.range 32).filter (fun k => let v := x.word k; v.lst == .parked && v.held)
    let pcs := ((held.map (fun k => (x.word k).pc.toNat)).eraseDups).mergeSort (· ≤ ·)
    let m := maskOf ls
    let e0 : Entry := match w.lst with
      | .waiting => { openAt s u false w.pc m with status := .waiting, waitOn := w.waitOn }
      | .parked => { pc := (s.unit u).cfg.handler, mask := m, status := .runnable, handler := true }
      | _ => openAt s u false w.pc m
    let hs : List Entry := pcs.map (fun p =>
      { pc := BitVec.ofNat 64 p, status := .parked, mask := maskOf (held.filter (fun k => (x.word k).pc.toNat == p)) })
    let s := if w.lst == .parked then linkRegs s u c m w.pc else s
    s.modCrew u c (fun y => { y with
      serial := false, slane := 0, tab := [], chosen := none
      split := (e0 :: hs) ++ List.replicate (7 - hs.length) {} })
  else s

/-- Write a lane word and stop running the lane (R190). -/
def serialStop (s : State) (u c l : Nat) (w : LaneWord) : State :=
  leaveSerial (s.modCrew u c (fun y => { y with tab := y.tab.set l w, split := List.replicate 8 {}, chosen := none })) u c

/-- Choose the next running lane: the lowest that is runnable, or parked with a handler that it can run (R190). -/
def serialChoose (s : State) (u c : Nat) : State :=
  let x := (s.unit u).crew c
  match (List.range 32).find? (fun l => let w := x.tab.getD l {}; w.lst == .runnable || (w.lst == .parked && !w.held)) with
  | none => s
  | some l =>
    let w := x.tab.getD l {}
    let m := BitVec.twoPow 32 l
    let en : Entry := if w.lst == .parked
      then { pc := (s.unit u).cfg.handler, mask := m, status := .runnable, handler := true }
      else openAt s u w.handler w.pc m
    let s := if w.lst == .parked then linkRegs s u c m w.pc else s
    s.modCrew u c (fun y => { y with
      slane := l, chosen := some 0, split := en :: List.replicate 7 {}
      tab := y.tab.set l { w with lst := .runnable, handler := en.handler } })

/-- The entry with the lowest PC among the runnable ones, the lower-numbered on a tie (R178). -/
def chooseEntry (sp : List Entry) : Option Nat :=
  (List.range sp.length).foldl (fun b e =>
    let x := sp.getD e {}
    if x.status == .runnable then
      match b with
      | none => some e
      | some k => if x.pc.toNat < (sp.getD k {}).pc.toNat then some e else b
    else b) none

-- the next instruction -----------------------------------------------------------------------------------------------

/-- The REPT that opened the loop of a body at `hdr` (R312): its word is the one before the body header. -/
def reptOf (s : State) (u : Nat) (handler : Bool) (hdrPc : Addr) : Option Instr :=
  match fetchWord s u handler (pcAdd hdrPc 0xFFFFFFFC) with
  | .error _ => none
  | .ok w => match decodeWord w with
    | .ok (.rept cr d a b acc ar ae) => some (.rept cr d a b acc ar ae)
    | _ => none

/-- The address of the header of the clause an entry stands in. (DEDUCED, log entry 16.) -/
def Entry.header (e : Entry) : Addr := pcAdd e.pc (BitVec.ofInt 32 (-4 * (e.idx + 1)))

/-- The entry stands in a loop body (R312): its lanes hold loop words, and in handler mode, where those may belong to the trapped body, a REPT
stands before its clause. -/
def bodyOf (s : State) (u c : Nat) (en : Entry) : Bool :=
  ((s.unit u).crew c).inLoop en.mask && (!en.handler || (reptOf s u en.handler en.header).isSome)

/-- The address step of REPT with AE = 1, in each lane's own window (R311). Its register lines come in; a poisoned one is consumed (R72). -/
def stepAddr (s : State) (u c : Nat) (mask : BitVec 32) (ar : Nat) : State :=
  let rows := regRows (s.unit u) c mask [ar, ar + 1, ar + 2]
  let s := rows.foldl (fun s r => touchRow (fetchRow s u r) u r) s
  let s := if rows.any (fun r => ((s.unit u).row r).poison) then consumePoison s (s.unit u).cfg.node else s
  s.modUnit u (fun x => (lanesOf mask).foldl (fun x l =>
    let w := x.wb c l
    let lo := x.reg c l (w + ar); let hi := x.reg c l (w + ar + 1)
    let v := (hi ++ lo) + (x.reg c l (w + ar + 2)).signExtend 64
    (x.setReg c l (w + ar) (v.extractLsb' 0 32)).setReg c l (w + ar + 1) (v.extractLsb' 32 32)) x)

/-- The entry at the next word of its clause. -/
def Entry.bump (e : Entry) (long : Bool) : Entry :=
  { e with pc := pcAdd e.pc 4, idx := e.idx + 1, llDone := e.llDone || long, hold := [], arrived := 0, closer := 0 }

/-- The entry at the header that follows its clause. -/
def Entry.after (e : Entry) : Entry :=
  { e with pc := pcAdd e.pc 4, idx := 0, llDone := false, started := false, hdr := 0, hold := [], arrived := 0, closer := 0 }

/-- The end of a clause that is the body of a loop (R311, R312): lanes with a pass to run return to the body header, the others go on. -/
def endPass (s : State) (u c e : Nat) : State :=
  let x := s.unit u
  let cr := x.crew c
  let en := cr.entry e
  let ls := (lanesOf en.mask).filter (fun l => cr.loopN l != 0)
  let again := maskOf (ls.filter (fun l => cr.loopK l + 1 < cr.loopN l))
  let done := en.mask &&& ~~~again
  let s := match reptOf s u en.handler en.header with
    | some (.rept _ _ _ _ _ ar true) => stepAddr s u c (maskOf ls) ar.toNat
    | _ => s
  let back : Entry := { en.after with pc := en.header, mask := again }
  let out : Entry := { en.after with mask := done }
  s.modCrew u c (fun y =>
    let y := { y with loops := ls.foldl (fun m l =>
      SMap.set 0 m l (if again.getLsbD l then BitVec.ofNat 16 (y.loopN l * 256 + (y.loopK l + 1)) else 0)) y.loops }
    if done = 0 then { y with split := y.split.set e back }
    else if again = 0 then settle (mergeAt { y with split := y.split.set e out } e)
    else
      let first := if lowLane done < lowLane again then out else back
      let second := if lowLane done < lowLane again then back else out
      settle (mergeAll { y with split := placeEntry (y.split.set e first) second }))

/-- The entry goes on to its next instruction (R246, R248, R311). -/
def goNext (s : State) (u c e : Nat) (long : Bool) : State :=
  let en := ((s.unit u).crew c).entry e
  if en.mask = 0 then s
  else if en.idx < hdrN en.hdr then s.modEntry u c e (fun y => y.bump long)
  else if bodyOf s u c en then endPass s u c e
  else s.modCrew u c (fun y => settle (mergeAt { y with split := y.split.modify e Entry.after } e))

/-- Groups of lanes leave for new places: the first stays in the entry, the others take the lowest empty entries in order (R180, R181), each
merging at the header it reaches (R182), and the crew chooses again (R179). -/
def regroup (s : State) (u c e : Nat) (gs : List Entry) : State :=
  match gs with
  | [] => s
  | g :: rest => s.modCrew u c (fun y =>
      let y := { y with split := rest.foldl placeEntry (y.split.set e g), chosen := none }
      if y.serial then { y with chosen := some 0, split := y.split.take 8 } else settle (mergeAll y))

/-- An entry begins to wait (R187): the lanes that are not in `act` split off into a new runnable entry at the next instruction, and `act` waits
at this one on what `on` names. -/
def waitSplit (s : State) (u c e : Nat) (act : BitVec 32) (on : BitVec 4) (long : Bool) : State :=
  let en := ((s.unit u).crew c).entry e
  let rest := en.mask &&& ~~~act
  let s := s.modCrew u c (fun y => { y with split := y.split.modify e (fun z => { z with mask := act, status := .waiting, waitOn := on }) })
  let s :=
    if rest = 0 then s
    else
      let sp := ((s.unit u).crew c).split
      let k := (sp.findIdx? (fun y => y.status == .empty)).getD sp.length
      goNext (s.modCrew u c (fun y => { y with split := placeEntry y.split { en with mask := rest } })) u c k long
  if ((s.unit u).crew c).serial then s else s.modCrew u c settle

/-- The crew chooses again where the entry that ran has been left waiting or empty (R179). -/
def Crew.dropChoice (x : Crew) : Crew :=
  { x with chosen := match x.chosen with | some e => if (x.entry e).status == .runnable then some e else none | none => none }

-- waiting ------------------------------------------------------------------------------------------------------------

/-- The merge test of R187 for a mask at a PC: every lane of the mask stands in entries that wait on it there. -/
def waitMerge (s : State) (u c m : Nat) (pc : Addr) : State :=
  let x := (s.unit u).crew c
  let es := (List.range x.split.length).filter (fun e => let y := x.entry e; y.status == .waiting && y.waitOn.toNat == m && y.pc == pc)
  let all := es.foldl (fun b e => b ||| (x.entry e).mask) 0
  match es with
  | [] => s
  | e :: rest =>
    if (x.masks.getD m 0) &&& ~~~all = 0 then
      let s := s.modCrew u c (fun y => { y with
        masks := y.masks.set m 0
        split := rest.foldl (fun sp k => sp.set k {}) (y.split.modify e (fun z => { z with mask := all, status := .runnable, waitOn := 0 })) })
      goNext s u c e false
    else s

/-- A serial lane goes on past the instruction it waited at. At the end of a body it takes that instruction as done, so that its pass ends
when it runs (R311). -/
def serialNext (s : State) (u c l : Nat) : State :=
  let x := (s.unit u).crew c
  let w := x.tab.getD l {}
  let e := openAt s u w.handler w.pc (BitVec.twoPow 32 l)
  if e.started && e.idx == hdrN e.hdr && bodyOf s u c e then
    (s.modFib u (x.fib l) (fun f => { f with skip := true })).modCrew u c (fun y => { y with
      tab := y.tab.set l { w with lst := .runnable, waitOn := 0 } })
  else s.modCrew u c (fun y => { y with tab := y.tab.set l { w with lst := .runnable, pc := pcAdd w.pc 4, waitOn := 0 } })

/-- The merge test in serial mode (R191). -/
def serialMerge (s : State) (u c m : Nat) (pc : Addr) : State :=
  let x := (s.unit u).crew c
  let ls := (List.range 32).filter (fun l => let w := x.tab.getD l {}; w.lst == .waiting && w.waitOn.toNat == m && w.pc == pc)
  if ls = [] then s
  else if (x.masks.getD m 0) &&& ~~~(maskOf ls) = 0 then
    ls.foldl (fun s l => serialNext s u c l) (s.modCrew u c (fun y => { y with masks := y.masks.set m 0 }))
  else s

/-- The merge test of every waiting entry or lane that waits on mask `m` (R186, R188). -/
def testMask (s : State) (u c m : Nat) : State :=
  let x := (s.unit u).crew c
  if x.serial then
    (((List.range 32).filter (fun l => let w := x.tab.getD l {}; w.lst == .waiting && w.waitOn.toNat == m)).map
      (fun l => (x.tab.getD l {}).pc)).eraseDups.foldl (fun s p => serialMerge s u c m p) s
  else
    ((x.split.filter (fun e => e.status == .waiting && e.waitOn.toNat == m)).map (fun e => e.pc)).eraseDups.foldl
      (fun s p => waitMerge s u c m p) s

/-- The merge tests of every mask. -/
def testMasks (s : State) (u c : Nat) : State := (List.range 12).foldl (fun s m => testMask s u c m) s

/-- The entry of a crew waits on what `on` names: in mask mode under R187, in serial mode the running lane takes LST 01 (R191). `on` below 12 is a
mask, whose merge test follows. -/
def beginWait (s : State) (u c e : Nat) (act : BitVec 32) (on : BitVec 4) : State :=
  let x := (s.unit u).crew c
  if x.serial then
    let en := x.entry e
    let s := s.modCrew u c (fun y => { y with
      tab := y.tab.set x.slane { pc := en.pc, lst := .waiting, handler := en.handler, waitOn := on }
      split := List.replicate 8 {}
      chosen := none })
    leaveSerial (if on.toNat < 12 then testMask s u c on.toNat else s) u c
  else
    let s := waitSplit s u c e act on false
    (if on.toNat < 12 then testMask s u c on.toNat else s).modCrew u c Crew.dropChoice

/-- Lanes leave the crew: ended or diverted to the basin (R188, R194). The entry keeps its others. -/
def leaveCrew (s : State) (u c e : Nat) (mask : BitVec 32) : State :=
  let s := s.modCrew u c (fun y => { y with
    lanes := (lanesOf mask).foldl (fun ls l => ls.set l none) y.lanes
    masks := y.masks.map (fun m => m &&& ~~~mask)
    loops := (lanesOf mask).foldl (fun m l => SMap.set 0 m l 0) y.loops
    split := y.split.modify e (fun z => if z.mask &&& ~~~mask = 0 then {} else { z with mask := z.mask &&& ~~~mask })
    chosen := none })
  let s := if ((s.unit u).crew c).serial
    then s.modCrew u c (fun y => { y with tab := (lanesOf mask).foldl (fun t l => t.set l {}) y.tab }) else s
  leaveSerial (testMasks s u c) u c

-- traps --------------------------------------------------------------------------------------------------------------

/-- A lane's trap: code, cause and FADDR (Table 16-2). -/
structure Trap where
  lane : Nat
  code : BitVec 8
  cause : BitVec 4
  faddr : Addr
  deriving DecidableEq, Repr

/-- The trap of the lowest lane. -/
def lowTrap (t : Trap) (ts : List Trap) : Trap := ts.foldl (fun b t => if t.lane < b.lane then t else b) t

/-- The report of a parking that no handler runs (R379). -/
def reportTrap (s : State) (u c : Nat) (mask : BitVec 32) (ts : List Trap) : State :=
  match ts with
  | [] => s
  | t :: ts =>
  let t := lowTrap t ts
  let x := (s.unit u).cfg
  s.tell (.trap x.job (s.node x.node).id x.uidx c mask t.code t.cause t.faddr)

/-- The entry can run its handler: not in handler mode, HANDLER nonzero, and the codes go to the handler (R377, R379). -/
def canHandle (s : State) (u : Nat) (handler : Bool) (ts : List Trap) : Bool :=
  !handler && (s.unit u).cfg.handler != 0 && ts.all (fun t => toHandler t.code)

/-- Lanes that leave entry `en` as one parked entry (R183): where a handler can run it enters it at once (R377), else it is reported (R379).
Where the table is full the entry waits for serial mode (R189).
An entry that reaches its handler's first header merges there with its like (R182; DEDUCED, log entry 13). -/
def placeParked (s : State) (u c : Nat) (en : Entry) (ts : List Trap) : State :=
  match ts with
  | [] => s
  | _ :: _ =>
    let mask := maskOf (ts.map (fun t => t.lane))
    let can := canHandle s u en.handler ts
    let room := ((s.unit u).crew c).split.any (fun e => e.status == .empty)
    let parked : Entry := { en with mask := mask, status := .parked, hold := [], toHandler := can && !room }
    let s := if can then s else reportTrap s u c mask ts
    let e : Entry := if can && room
      then { pc := (s.unit u).cfg.handler, mask := mask, status := .runnable, handler := true } else parked
    let s := if can && room then linkRegs s u c mask en.pc else s
    s.modCrew u c (fun y =>
      let spot := (y.split.findIdx? (fun z => z.status == .empty)).getD y.split.length
      let y : Crew := { y with split := placeEntry y.split e }
      if can && room then mergeAt y spot else y)

/-- TRAPINFO of each trapping lane's fibre (R376). -/
def writeTrapinfo (s : State) (u c : Nat) (ts : List Trap) : State :=
  ts.foldl (fun s t => s.modFib u (((s.unit u).crew c).fib t.lane)
    (fun f => { f with code := t.code, cause := t.cause, faddr := t.faddr })) s

/-- Taking a trap: TRAPINFO is written, and the trapping lanes leave entry `e` as one parked entry, or two where their codes go both to the
handler and to the host (R183, R376, R377, R379); in serial mode the running lane parks (R190). The other lanes stay where they are. -/
def park (s : State) (u c e : Nat) (ts : List Trap) : State :=
  match ts with
  | [] => s
  | _ :: _ =>
    let en := ((s.unit u).crew c).entry e
    let mask := maskOf (ts.map (fun t => t.lane))
    let s := writeTrapinfo s u c ts
    if ((s.unit u).crew c).serial then
      let can := canHandle s u en.handler ts
      let s := if can then s else reportTrap s u c mask ts
      serialStop s u c ((s.unit u).crew c).slane { pc := en.pc, lst := .parked, handler := en.handler, held := !can }
    else
      let s := s.modCrew u c (fun y => { y with
        split := y.split.modify e (fun z => if z.mask &&& ~~~mask = 0 then {} else { z with mask := z.mask &&& ~~~mask })
        chosen := if en.mask &&& ~~~mask = 0 then none else y.chosen })
      let s := placeParked s u c en (ts.filter (fun t => toHandler t.code))
      placeParked s u c en (ts.filter (fun t => !toHandler t.code))

/-- A trap of every lane of the entry: the crew enters serial mode at once where the table overflowed (R189). -/
def parkEntry (s : State) (u c e : Nat) (ts : List Trap) : State :=
  let serial := ((s.unit u).crew c).serial
  let s := park s u c e ts
  if serial then s else s.modCrew u c settle

/-- The trapping lanes park and the entry's other lanes go on to the next instruction. Where the table had overflowed before, this further trap
takes the crew to serial mode (R189). -/
def parkAndGo (s : State) (u c e : Nat) (ts : List Trap) (long : Bool) : State :=
  match ts with
  | [] => goNext s u c e long
  | _ :: _ =>
    let x := (s.unit u).crew c
    let rest := (x.entry e).mask &&& ~~~(maskOf (ts.map (fun t => t.lane)))
    if x.serial || rest = 0 then parkEntry s u c e ts
    else
      let s := goNext (park s u c e ts) u c e long
      if 8 < x.split.length && !((s.unit u).crew c).serial then s.modCrew u c settle else s

/-- The same trap for every lane of a mask, with FADDR the address of the instruction (R376). -/
def trapAll (mask : BitVec 32) (pc : Addr) (w : Why) : List Trap :=
  (lanesOf mask).map (fun l => { lane := l, code := w.1, cause := w.2, faddr := pc })

end Sys2Proof.Machine
end

