-- ==== Sys2Proof/Machine/Issue.lean ====
section
/-! DEFINITION. Issue: the context of the instruction now issuing, the checks that stand before every meaning (checks 6 to 10 of Table 11-15,
R159, the scoreboard of R247, poisoned and absent rows, stream reads), the race check, and `withIssue`, which every instruction's meaning
goes through. -/

namespace Sys2Proof.Machine

/-- The instruction now issuing: unit position, crew slot, entry, the entry itself, its active lanes (R176), and the stream elements its
sources read, keyed 32 * stream + lane (R315). -/
structure Ctx where
  u : Nat
  c : Nat
  e : Nat
  ent : Entry
  act : BitVec 32
  strm : SMap Nat := []
  deriving DecidableEq, Repr

/-- The executing lanes whose predicate P equals 1 - S (R176, R246). -/
def activeLanes (x : UnitSt) (c : Nat) (en : Entry) : BitVec 32 :=
  let p := bits en.hdr.toNat 1 4
  maskOf ((lanesOf en.mask).filter (fun l => (x.pred c l).getLsbD p != en.hdr.getLsbD 0))

/-- Lanes whose operation was answered for the instruction they stand at, and which take it as done (R121). -/
def skipping (x : UnitSt) (c : Nat) (m : BitVec 32) : BitVec 32 :=
  maskOf ((lanesOf m).filter (fun l => (x.fib ((x.crew c).fib l)).skip))

/-- The context at `State.cur`. -/
def State.ctx (s : State) : Ctx :=
  let u := s.cur.1; let c := s.cur.2.1; let e := s.cur.2.2
  let x := s.unit u
  let en := (x.crew c).entry e
  let a := activeLanes x c en
  { u := u, c := c, e := e, ent := en, act := a &&& ~~~(skipping x c a) }

/-- A register of the window in a lane, or the stream element that stands for it. -/
def Ctx.rd (x : Ctx) (s : State) (l : Nat) (r : VReg) : Word :=
  let n := if 124 ≤ r.toNat then x.strm.get 0 (32 * (r.toNat - 124) + l) else 0
  if n = 0 then (s.unit x.u).reg x.c l ((s.unit x.u).wb x.c l + r.toNat) else BitVec.ofNat 32 (n - 1)

/-- The register after `r` by `i`, for pairs and blocks. -/
def Ctx.rdi (x : Ctx) (s : State) (l : Nat) (r : VReg) (i : Nat) : Word := x.rd s l (r + BitVec.ofNat 7 i)

/-- A register pair as 64 bits, bits [31:0] in `r` (R250). -/
def Ctx.pair (x : Ctx) (s : State) (l : Nat) (r : VReg) : BitVec 64 := x.rdi s l r 1 ++ x.rd s l r

/-- A predicate of a lane. -/
def Ctx.p (x : Ctx) (s : State) (l : Nat) (p : Nib) : Bool := ((s.unit x.u).pred x.c l).getLsbD p.toNat

/-- The fibre of a lane. -/
def Ctx.f (x : Ctx) (s : State) (l : Nat) : Nat := ((s.unit x.u).crew x.c).fib l

/-- The record of a lane's fibre. -/
def Ctx.fibre (x : Ctx) (s : State) (l : Nat) : Fibre := (s.unit x.u).fib (x.f s l)

/-- The lowest active lane (R345). -/
def Ctx.low (x : Ctx) : Nat := lowLane x.act

/-- What an instruction does in one lane: registers of the window, predicates, FPFLAGS bits to set, and the statistics of R243. -/
structure LaneFx where
  regs : List (Nat × Word) := []
  preds : List (Nib × Bool) := []
  flags : BitVec 8 := 0
  amax : Option Word := none
  sats : Nat := 0
  deriving DecidableEq, Repr

/-- A predicate word with one predicate written; `p0` always reads true (R250). -/
def setPred (w : BitVec 16) (p : Nib) (v : Bool) : BitVec 16 :=
  if p = 0 then w else if v then w ||| BitVec.twoPow 16 p.toNat else w &&& ~~~(BitVec.twoPow 16 p.toNat)

/-- Write a lane's fibre. -/
def UnitSt.modLane (x : UnitSt) (c l : Nat) (f : Fibre → Fibre) : UnitSt :=
  { x with fibs := x.fibs.modify ((x.crew c).fib l) f }

/-- The effect of one lane on its fibre. -/
def LaneFx.fibre (fx : LaneFx) (f : Fibre) : Fibre :=
  { f with
    pred := fx.preds.foldl (fun w p => setPred w p.1 p.2) f.pred
    fpflags := f.fpflags ||| fx.flags
    amax := fx.amax.getD f.amax
    sat := if f.sat.toNat + fx.sats < 2 ^ 32 then f.sat + BitVec.ofNat 32 fx.sats else 0xFFFFFFFF }

/-- The effect of one lane on its unit; a destination is written in the window as it stood at issue (R262). -/
def LaneFx.apply (fx : LaneFx) (c l : Nat) (x : UnitSt) : UnitSt :=
  let w := x.wb c l
  let x := fx.regs.foldl (fun x rv => x.setReg c l (w + rv.1) rv.2) x
  if fx.preds.isEmpty && fx.flags == 0 && fx.amax.isNone && fx.sats == 0 then x else x.modLane c l fx.fibre

/-- The effects of the active lanes, sources all read before (R262, R271). -/
def applyLanes (x : Ctx) (fx : Nat → LaneFx) (s : State) : State :=
  s.modUnit x.u (fun y => (lanesOf x.act).foldl (fun y l => (fx l).apply x.c l y) y)

-- the race check -----------------------------------------------------------------------------------------------------

/-- Kinds of access of R158: a read, a write, a reduction of a type. -/
inductive RKind | rd | wr | red (ty : Nat)
  deriving DecidableEq, Repr

/-- The check of R158 on one sector: a DET_RACE cause, or the sector with the access recorded, in the place of the party's earlier one. `shares` says
which recorded parties share an interval with this access (R157). (DEDUCED, log entry 30.) -/
def raceSector (sh : Shadow) (p : Party) (k : RKind) (shares : Party → Bool) : Option (BitVec 4) × Shadow :=
  let ws := sh.writers.filter shares; let rs := sh.readers.filter shares; let ds := sh.reducers.filter (fun d => shares d.1)
  let other := fun (q : Party) => !(q.unit == p.unit && q.crew == p.crew)
  let bad : Option (BitVec 4) := match k with
    | .wr => if ws.any other || rs.any other || ds.any (fun d => other d.1) then some 0 else none
    | .rd => if ws.any other || ds.any (fun d => other d.1) then some 1 else none
    | .red t => if ws.any other || rs.any other || ds.any (fun d => other d.1 && d.2 != t) then some 2 else none
  (bad, match bad, k with
    | some _, _ => sh
    | none, .wr => { sh with writers := sh.writers.filter other ++ [p] }
    | none, .rd => { sh with readers := sh.readers.filter other ++ [p] }
    | none, .red t => { sh with reducers := sh.reducers.filter (fun d => other d.1 || d.2 != t) ++ [(p, t)] })

/-- The check over a list of shadows, for one sector. -/
def raceIn (l : List Shadow) (sector : Nat) (p : Party) (k : RKind) (shares : Party → Bool) : Option (BitVec 4) × List Shadow :=
  match l.find? (fun h => h.sector = sector) with
  | some h => let (b, h') := raceSector h p k shares
              (b, l.map (fun g => if g.sector = sector then h' else g))
  | none => let (b, h') := raceSector { sector := sector } p k shares
            (b, l ++ [h'])

/-- A crew as a party of accesses to the scratchpad of unit `o` (R157). -/
def scrParty (s : State) (u c o : Nat) : Party :=
  { unit := (s.unit u).cfg.uidx, crew := c, gen := (s.unit o).ubarGen.toNat, ggen := (s.unit o).gbarGen }

/-- The race check of an access to the scratchpad of unit `o` in a deterministic launch, sector by sector. -/
def raceScr (s : State) (u c o off n : Nat) (k : RKind) : Option (BitVec 4) × State :=
  if (s.unit u).cfg.det && decide (0 < n) then
    let p := scrParty s u c o
    let shares := fun (q : Party) => q.gen == p.gen && q.ggen == p.ggen
    (List.range ((off + n - 1) / 32 - off / 32 + 1)).foldl (fun (a : Option (BitVec 4) × State) i =>
      match a.1 with
      | some _ => a
      | none => let (b, l) := raceIn (a.2.unit o).shadow (off / 32 + i) p k shares
                (b, a.2.modUnit o (fun y => { y with shadow := l }))) (none, s)
  else (none, s)

/-- The place by which an access to a line is known whichever backing it uses: on a staged page, that of backing 0. -/
def logicalLoc (leaf : Option Leaf) (loc : Nat) : Nat :=
  match leaf with | some l => if entStaged l.ent then l.place 0 else loc | none => loc

/-- The race check of an access to a CHECKED global page (R157, R158); the sectors of a staged page are those of its two backings together. -/
def raceGlobal (s : State) (u c : Nat) (leaf : Leaf) (loc n : Nat) (k : RKind) : Option (BitVec 4) × State :=
  if (s.unit u).cfg.det && entChecked leaf.ent && decide (0 < n) then
    let loc := logicalLoc (some leaf) loc
    let x := s.unit u
    let p : Party := { unit := x.cfg.uidx, crew := c, gen := x.ubarGen.toNat, ggen := 0 }
    let shares := fun (q : Party) => q.unit != p.unit || q.gen == p.gen
    (List.range ((loc + n - 1) / 32 - loc / 32 + 1)).foldl (fun (a : Option (BitVec 4) × State) i =>
      match a.1 with
      | some _ => a
      | none => let (b, l) := raceIn (a.2.node x.cfg.node).shadow (loc / 32 + i) p k shares
                (b, a.2.modNode x.cfg.node (fun y => { y with shadow := l }))) (none, s)
  else (none, s)

-- operations in flight -----------------------------------------------------------------------------------------------

/-- The writes of path `c` that pass through a store queue (R141). -/
def OpKind.write : OpKind → Bool
  | .store | .tagSet | .berth _ | .rmw .. | .cas | .stDs _ | .addDs | .redDs | .scrStore | .barInit .. => true
  | _ => false

/-- The writes of a crew to its own unit's scratchpad, which are not remote (R111). -/
def OpKind.own : OpKind → Bool | .scrStore | .barInit .. => true | _ => false

/-- The loads of path `c`. -/
def OpKind.load_ : OpKind → Bool
  | .load | .tagGet | .ldDs | .cntRd _ => true
  | _ => false

/-- The operation is not yet answered. -/
def Op.open_ (o : Op) : Bool := o.phase != .answered

/-- Its lane has trapped, or is to trap, ATOMIC_FATE_UNKNOWN, and it is not sent (R121); its owner may hold it still. -/
def Op.fated (o : Op) : Bool := o.phase == .fate || (o.phase == .held && decide (16 ≤ o.tries))

/-- An operation that is still to be answered; one of unknown fate is not until it is sent again (R121). -/
def Op.due (o : Op) : Bool := o.open_ && !o.fated

/-- The operations of a crew of unit `u` that are still to be answered. -/
def State.crewOps (s : State) (u c : Nat) : List Op := s.ops.filter (fun o => o.due && o.cmd.isNone && o.u == some u && o.crew == c)

/-- An unanswered operation of a fibre. -/
def State.fibOps (s : State) (u f : Nat) : List Op := s.ops.filter (fun o => o.open_ && o.cmd.isNone && o.u == some u && o.fibre == f)

/-- The units resident on a core. -/
def State.onCore (s : State) (k : Nat) : List Nat := (List.range s.units.length).filter (fun u => (s.unit u).core == some k)

/-- Sent, unanswered writes of the crews of a core: its pending set (R141). -/
def State.pendingSet (s : State) (k : Nat) : List Op :=
  s.ops.filter (fun o => o.open_ && o.phase != .queued && o.kind.write && o.cmd.isNone &&
    (match o.u with | some u => (s.unit u).core == some k | none => false))

/-- A write touches a line of the bytes [loc, loc + n) of owner `w` on the page of `leaf`. -/
def touchesLine (w : Owner) (leaf : Option Leaf) (loc n : Nat) (o : Op) : Bool :=
  let a := logicalLoc leaf loc
  let b := logicalLoc o.leaf o.loc
  decide (o.owner = w ∧ b / 128 ≤ (a + n - 1) / 128 ∧ a / 128 ≤ (b + o.size - 1) / 128)

/-- A load of bytes [loc, loc + n) of owner `w` must wait (R141): the core has a pending write to a line it touches, or the crew a queued one.
(DESIGN CHOICE, log entry 11.) -/
def mustWait (s : State) (u c : Nat) (w : Owner) (leaf : Option Leaf) (loc n : Nat) : Bool :=
  (s.pendingSet (s.unit u).at_).any (touchesLine w leaf loc n) || (s.crewOps u c).any (fun o => o.phase == .queued && touchesLine w leaf loc n o)

/-- The kinds of operation that return nothing, and whose lane waits for them at their own instruction all the same (R88, R285). -/
def OpKind.holds : OpKind → Bool | .berPub .. | .tagRetire _ | .stepAdv => true | _ => false

/-- The kinds that return a value. -/
def OpKind.returns : OpKind → Bool
  | .load | .tagGet | .cntRd _ | .rmw _ _ _ true | .cas | .ldDs | .addDs | .berOpen | .post _ | .cancel _ => true
  | _ => false

-- streams ------------------------------------------------------------------------------------------------------------

/-- The streams an instruction reads: bound stream registers among its sources (R315), in launches with LOOP = 0. -/
def streamsOf (s : State) (x : Ctx) (i : Instr) : List Nat :=
  if (s.unit x.u).loop then []
  else (List.range 4).filter (fun k => (((s.unit x.u).crew x.c).streams.getD k {}).bound && (srcs i).contains (124 + k))

/-- Bytes of a stream element (R313). -/
def strmSize (t : Strm) : Nat := match t.esz.toNat with | 0 => 4 | 1 => 2 | _ => 1

/-- The address a stream reads next in a lane. -/
def strmAddr (y : UnitSt) (c l : Nat) (t : Strm) : BitVec 64 :=
  let b := y.wb c l + t.dr.toNat
  y.reg c l (b + 1) ++ y.reg c l b

/-- Index, count and stride of a dimension of a walk; a count of 0 acts as 1 (R314). -/
def strmDim (y : UnitSt) (c l : Nat) (t : Strm) (d : Nat) : Nat × Nat × BitVec 64 :=
  let b := y.wb c l + t.dr.toNat
  let w := (y.reg c l (b + 2 + 2 * d)).toNat
  (w / 65536, (if w % 65536 = 0 then 1 else w % 65536), (y.reg c l (b + 3 + 2 * d)).signExtend 64)

/-- Write the index of a dimension. -/
def strmSetIdx (y : UnitSt) (c l : Nat) (t : Strm) (d i : Nat) : UnitSt :=
  let b := y.wb c l + t.dr.toNat + 2 + 2 * d
  y.setReg c l b (BitVec.ofNat 32 (i % 65536 * 65536) + (y.reg c l b &&& 0xFFFF))

/-- Advance a walk in one lane (R315): the unit, and p12 to p15. -/
def strmStep (y : UnitSt) (c l : Nat) (t : Strm) : UnitSt × List Bool :=
  let D := t.dims.toNat + 1
  let (i0, c0, s0) := strmDim y c l t 0
  let (i1, c1, s1) := if 2 ≤ D then strmDim y c l t 1 else (0, 1, 0)
  let (i2, c2, s2) := if D = 3 then strmDim y c l t 2 else (0, 1, 0)
  let last0 := decide (c0 ≤ i0 + 1)
  let last1 := decide (2 ≤ D) && decide (c1 ≤ i1 + 1)
  let last2 := decide (D = 3) && decide (c2 ≤ i2 + 1)
  let fin := last0 && (decide (D < 2) || last1) && (decide (D < 3) || last2)
  let setI := fun (y : UnitSt) (d i : Nat) => strmSetIdx y c l t d i
  let (y', st) :=
    if !last0 then (setI y 0 (i0 + 1), s0)
    else if 2 ≤ D && !last1 then (setI (setI y 0 0) 1 (i1 + 1), s1)
    else if D = 3 && !last2 then (setI (setI (setI y 0 0) 1 0) 2 (i2 + 1), s2)
    else (setI (setI (setI y 0 0) 1 0) 2 0, if D = 1 then s0 else if D = 2 then s1 else s2)
  let a := strmAddr y c l t + st
  let b := y.wb c l + t.dr.toNat
  ((y'.setReg c l b (a.extractLsb' 0 32)).setReg c l (b + 1) (a.extractLsb' 32 32),
   [last0, last0 && last1, last0 && last1 && last2, fin])

/-- What the stream reads of an instruction come to in the lanes so far; `reads`: the places that homes have read. -/
structure StrmAcc where
  s : State
  reads : List (Nat × Nat) := []
  vals : SMap Nat := []
  traps : List Trap := []
  wait : Bool := false
  poison : Bool := false

/-- What homes have read stays so, whatever becomes of the lane (R68, R70). -/
def readAll (s : State) (rs : List (Nat × Nat)) : State := rs.foldl (fun s r => homeReads s r.1 r.2) s

/-- A fibre's read of a line at its home names the line's uncommitted writers (R81). -/
def seeWriters (s : State) (u k : Nat) (loc : Nat) : State :=
  s.modFib u k (fun f => { f with seen := (f.seen ++ writersOf s (loc / 128)).eraseDups })

/-- The stream reads of one lane, in register order; a failing read leaves the lane's registers and predicates unchanged (R316). Its element comes from
the home as a relaxed load's data does (R68, R70, R72, R81). -/
def strmLane (x : Ctx) (ks : List Nat) (a : StrmAcc) (l : Nat) : StrmAcc :=
  let r := ks.foldl (fun (b : StrmAcc × List Bool) k =>
    let a := b.1
    if a.traps.any (fun t => t.lane = l) || a.wait || a.poison then b
    else
      let t := ((a.s.unit x.u).crew x.c).streams.getD k {}
      let va := strmAddr (a.s.unit x.u) x.c l t
      let n := strmSize t
      let a : StrmAcc := { a with s := translateReads a.s (a.s.unit x.u).core (a.s.unit x.u).cfg.job (a.s.unit x.u).xroot va }
      match checkLane a.s x.u x.ent.handler .ld va n 0 with
      | .error w => ({ a with traps := a.traps ++ [⟨l, w.1, w.2, va⟩] }, b.2)
      | .ok k' =>
        let a' : StrmAcc := { a with s := homeReads a.s k'.loc n, reads := a.reads ++ [(k'.loc, n)] }
        if mustWait a.s x.u x.c (ownerOf k'.loc) (some k'.leaf) k'.loc n then ({ a with wait := true }, b.2)
        else if a'.s.poisonedAt k'.loc n then ({ a' with poison := true }, b.2)
        else
          let a := a'
          match raceGlobal a.s x.u x.c k'.leaf k'.loc n .rd with
          | (some cause, _) => ({ a with traps := a.traps ++ [⟨l, cDETRACE, cause, va⟩] }, b.2)
          | (none, s') =>
            let (y, ps) := strmStep (s'.unit x.u) x.c l t
            ({ a with s := seeWriters (s'.modUnit x.u (fun _ => y)) x.u (((s'.unit x.u).crew x.c).fib l) k'.loc, vals := a.vals.set 0 (32 * k + l) (leNat (s'.load k'.loc n) + 1) },
             List.zipWith or b.2 ps)) (a, [false, false, false, false])
  if r.1.traps.any (fun t => t.lane = l) then { r.1 with s := readAll a.s (r.1.reads.drop a.reads.length), vals := a.vals }
  else { r.1 with s := r.1.s.modUnit x.u (fun y => y.modLane x.c l (fun f =>
    { f with pred := ([12, 13, 14, 15].zip r.2).foldl (fun w p => setPred w (BitVec.ofNat 4 p.1) p.2) f.pred })) }

-- the gate -----------------------------------------------------------------------------------------------------------

/-- A crew stands where `State.cur` says, inside a clause. (DESIGN CHOICE, log entry 47.) -/
def standing (s : State) : Bool :=
  match s.units[s.cur.1]? with
  | none => false
  | some y => match y.crews[s.cur.2.1]? with
    | none => false
    | some cr => match cr.split[s.cur.2.2]? with
      | none => false
      | some en => en.status == .runnable && en.started

/-- The entry stands in a loop body (R312). -/
def inBody (s : State) (x : Ctx) : Bool := bodyOf s x.u x.c x.ent

/-- The window register that holds the scale of a CVT.S, which a REPT body steps by IB (Table 13-7). -/
def scaleReg (s : State) (x : Ctx) (sc : BitVec 5) : Nat :=
  if inBody s x then
    match reptOf s x.u x.ent.handler x.ent.header with
    | some (.rept _ _ _ ib _ _ _) => 4 * sc.toNat + ((s.unit x.u).crew x.c).loopK (lowLane x.ent.mask) * stepOf ib
    | _ => 4 * sc.toNat
  else 4 * sc.toNat

/-- The registers of the window that an instruction reads where it stands. -/
def srcsIn (s : State) (x : Ctx) (i : Instr) : List Nat :=
  match i with
  | .cvtS _ _ _ _ a sc _ => [a.toNat, scaleReg s x sc, scaleReg s x sc + 1]
  | i => srcs i

/-- The descriptor registers that the streams of an instruction read, those of their dimensions (R314). -/
def strmRegs (s : State) (x : Ctx) (i : Instr) : List Nat :=
  (streamsOf s x i).flatMap (fun k => let t := ((s.unit x.u).crew x.c).streams.getD k {}
    (List.range (min 8 (4 + 2 * t.dims.toNat))).map (fun j => t.dr.toNat + j))

/-- The index registers above those, in which a walk that begins anew clears an index (R315). -/
def strmClears (s : State) (x : Ctx) (i : Instr) : List Nat :=
  (streamsOf s x i).flatMap (fun k => let t := ((s.unit x.u).crew x.c).streams.getD k {}
    ([1, 2].filter (fun d => decide (t.dims.toNat < d))).map (fun d => t.dr.toNat + 2 + 2 * d))

/-- The registers that an instruction reads in its register file: a bound one it reads from its stream (R315), in the active lanes. -/
def srcsHere (s : State) (x : Ctx) (i : Instr) : List Nat := (srcsIn s x i).filter (fun r => !((streamsOf s x i).map (124 + ·)).contains r)

/-- The first failing check of 4, for the stepped scale of CVT.S (Table 13-7), and 6 to 10 of Table 11-15, then R159. -/
def dynCheck (s : State) (x : Ctx) (i : Instr) : Option Why :=
  let last := decide (x.ent.idx = hdrN x.ent.hdr)
  let y := s.unit x.u
  if (match i with | .cvtS _ _ _ _ _ sc _ => decide (127 < scaleReg s x sc + 1) | _ => false) then some (cILLEGAL, 2)
  else if (match i with | .rept .. => !last | _ => false) || (inBody s x && bodyForbidden i) then some (cILLEGAL, 7)
  else if isTransfer i && !last then some (cILLEGAL, 4)
  else if (match i with | .rept .. => !y.loop | .strm .. | .strmOff .. => y.loop | _ => false) then some (cILLEGAL, 5)
  else if !i.comboOk then some (cCOMBO, 0)
  else if privFails i x.ent.handler (s.jobctl.getLsbD 33) then some (cPRIV, 0)
  else if needsEngine i && (s.core y.at_).engine != some x.u then some (cENG, 0)
  else if detForbidden i && y.cfg.det then some (cDETFORB, 0)
  else none

/-- A register of the window waits, in one of the lanes `m`, for a TRACE or an engine command that is to write it (the scoreboard of R247). For
an operation that returns a value the whole entry waits at its instruction (`finishSent`). -/
def regsBusy (s : State) (x : Ctx) (m : BitVec 32) (rs : List Nat) : Bool :=
  (s.unit x.u).sweeps.any (fun w => w.kind == 2 && w.crew == x.c &&
    (lanesOf (w.active &&& m)).any (fun l => let d := (w.regs.getD (3 * l + 2) 0).toNat + w.d.toNat
      rs.any (fun r => decide (d ≤ (s.unit x.u).wb x.c l + r ∧ (s.unit x.u).wb x.c l + r < d + 5)))) ||
  s.cmds.any (fun k => k.u == x.u && k.crew == x.c && m.getLsbD k.lane && k.dst.any (fun d => rs.any (fun r => (s.unit x.u).wb x.c k.lane + r == d)))

/-- Instructions whose operands every lane supplies (R305, R345). -/
def suppliesAll : Instr → Bool
  | .pickAt .. | .pickLead .. | .pickBack .. | .pickFwd .. | .pickMir .. | .xbfly .. | .plane .. | .bndIn .. | .sweep .. | .sweepR .. => true
  | _ => false

/-- The lanes whose operands an instruction uses. -/
def operandLanes (s : State) (x : Ctx) (i : Instr) : BitVec 32 :=
  if suppliesAll i then maskOf ((List.range 32).filter (fun l => (((s.unit x.u).crew x.c).fibre l).isSome)) else x.act

/-- An operand register of the instruction waits. -/
def scoreboard (s : State) (x : Ctx) (i : Instr) : Bool :=
  regsBusy s x (operandLanes s x i &&& ~~~x.act) (srcsIn s x i ++ dsts i) || regsBusy s x x.act (srcsHere s x i ++ dsts i ++ strmRegs s x i ++ strmClears s x i)

/-- The register lines that an instruction reads. -/
def readRows (s : State) (x : Ctx) (i : Instr) : List Nat :=
  regRows (s.unit x.u) x.c (operandLanes s x i &&& ~~~x.act) (srcsIn s x i) ++ regRows (s.unit x.u) x.c x.act (srcsHere s x i ++ strmRegs s x i)

/-- An instruction writes its lines whole: every lane is active, with one window base. -/
def wholeLines (s : State) (x : Ctx) : Bool :=
  x.act == 0xFFFFFFFF && (List.range 32).all (fun l => (s.unit x.u).wb x.c l == (s.unit x.u).wb x.c 0)

/-- The register lines that an instruction writes, in all lanes or in some. -/
def destRows (s : State) (x : Ctx) (i : Instr) : List Nat := regRows (s.unit x.u) x.c x.act (dsts i)

/-- The register lines that its streams write in part beside those that they read. -/
def walkRows (s : State) (x : Ctx) (i : Instr) : List Nat := regRows (s.unit x.u) x.c x.act (strmClears s x i)

/-- The entry waits: for its own operation, or for the answer to one of unknown fate (R121), or its node for a rollback. -/
def waiting (s : State) (x : Ctx) : Bool :=
  x.ent.hold != [] || (lanesOf x.ent.mask).any (fun l => (x.fibre s l).fate.isSome) ||
  (s.node (s.unit x.u).cfg.node).doom != 0 || (s.unit x.u).cancelled

/-- What the checks come to. -/
inductive Gate
  | absent
  | idle (x : Ctx)
  | trap (x : Ctx) (w : Why)
  | stall (s : State)
  | go (x : Ctx) (ts : List Trap) (s : State)

/-- The stream reads of an instruction: where one must wait, nothing of it happens. -/
def withStreams (s : State) (x : Ctx) (i : Instr) : Gate :=
  match streamsOf s x i with
  | [] => .go x [] s
  | ks =>
    let a := (lanesOf x.act).foldl (strmLane x ks) { s := s }
    if a.wait then .stall s
    else if a.poison then .stall (consumePoison (readAll s a.reads) (s.unit x.u).cfg.node)
    else .go { x with act := x.act &&& ~~~(maskOf (a.traps.map (fun t => t.lane))), strm := a.vals } a.traps a.s

/-- Everything that stands before an instruction's own effect. `pre`: what makes this instruction wait, or park some of its lanes, before it
reads its operands; it then yields the state after that, and nothing else of the instruction happens. -/
def gate (i : Instr) (pre : Ctx → State → Option State) (s : State) : Gate :=
  if !standing s then .absent
  else
    let x := s.ctx
    if waiting s x then .stall s
    else if x.act = 0 then .idle x
    else match dynCheck s x i with
      | some w => .trap x w
      | none =>
        if scoreboard s x i then .stall s
        else match pre x s with
          | some s' => .stall s'
          | none =>
            let ds := destRows s x i
            let whole := wholeLines s x
            match askRows s x.u x.c (readRows s x i) (walkRows s x i ++ if whole then [] else ds) (if whole then ds else []) with
            | (.ok, s) => withStreams s x i
            | (_, s) => .stall s

/-- The lanes of the entry have done the instruction they stand at. -/
def clearSkip (s : State) (x : Ctx) : State :=
  let m := skipping (s.unit x.u) x.c x.ent.mask
  if m = 0 then s
  else s.modUnit x.u (fun y => (lanesOf m).foldl (fun y l => y.modLane x.c l (fun f => { f with skip := false })) y)

/-- The instruction is done in the entry's lanes but those that trap, which park at it. -/
def finish (x : Ctx) (i : Instr) (ts : List Trap) (s : State) : State :=
  let s := clearSkip s x
  let s := s.modCrew x.u x.c (fun y => { y with tryAt := none, miss := [] })
  parkAndGo s x.u x.c x.e ts (isLong i)

/-- Every instruction's meaning: the checks, then `body` with the traps of stream reads so far, in the state after them. Where `body` must wait
nothing of the instruction has happened, its stream reads included, but for the change that it names. -/
def withIssueE (i : Instr) (s : State) (pre : Ctx → State → Option State)
    (body : Ctx → List Trap → State → Except (State → State) State) : Out :=
  match gate i pre s with
  | .absent => .fault .noCrew
  | .idle x => .next (finish x i [] s)
  | .trap x w => .next (finish x i (trapAll x.act x.ent.pc w) s)
  | .stall s' => .next s'
  | .go x ts s' =>
    if x.act = 0 then .next (finish x i ts s')
    else match body x ts s' with
      | .ok t => .next t
      | .error f => .next (f s)

/-- An instruction that waits for nothing beyond the checks. -/
def withIssue (i : Instr) (s : State) (body : Ctx → List Trap → State → State) : Out :=
  withIssueE i s (fun _ _ => none) (fun x ts s => .ok (body x ts s))

/-- Register rows that an instruction has just written in all 32 lanes are whole and lose their poison mark (R72). -/
def wroteRegs (x : Ctx) (i : Instr) (s : State) : State :=
  if wholeLines s x then cleanRows s x.u (destRows s x i) else s

/-- The meaning of an instruction that only computes within each active lane. -/
def laneInstr (i : Instr) (s : State) (fx : Ctx → State → Nat → LaneFx) : Out :=
  withIssue i s (fun x ts s => finish x i ts (wroteRegs x i (applyLanes x (fx x s) s)))

end Sys2Proof.Machine
end

