-- ==== Sys2Proof/Machine/Flags.lean ====
section
/-! DEFINITION. FPFLAGS bits (Table 10-2) and the rounding an instruction uses (R228). -/

namespace Sys2Proof.Machine

def fNV : BitVec 8 := 0x01
def fDZ : BitVec 8 := 0x02
def fOF : BitVec 8 := 0x04
def fUF : BitVec 8 := 0x08
def fNX : BitVec 8 := 0x10
def fISAT : BitVec 8 := 0x20
def fAHEAD : BitVec 8 := 0x80

/-- A flag where a condition holds. -/
def flagIf (b : Bool) (f : BitVec 8) : BitVec 8 := if b then f else 0

/-- The four roundings of R228. -/
inductive Round | rne | rtz | rup | rdn
  deriving DecidableEq, Repr

/-- The two-bit rounding code of FPMODE (Table 10-1) and of CVT.S (R304). -/
def roundOf (b : BitVec 2) : Round := match b.toNat with | 0 => .rne | 1 => .rtz | 2 => .rup | _ => .rdn

/-- An instruction's rounding in a lane: `.fpm` takes FPMODE.RM there (R228). -/
def Ctx.round (x : Ctx) (s : State) (l : Nat) (rm : Rm) : Round :=
  match rm with
  | .rne => .rne | .rtz => .rtz | .rup => .rup | .rdn => .rdn
  | .fpm => roundOf ((x.fibre s l).fpmode.extractLsb' 0 2)

/-- Clamp an integer to a range: the value, and whether it clamped. -/
def clampInt (lo hi x : Int) : Int × Bool := if x < lo then (lo, true) else if hi < x then (hi, true) else (x, false)

/-- Clamp to INT32. -/
def clamp32 (x : Int) : Word × Bool :=
  let r := clampInt (-2147483648) 2147483647 x
  (BitVec.ofInt 32 r.1, r.2)

end Sys2Proof.Machine
end

