-- ==== Sys2Proof/Machine/Fp.lean ====
section
/-! DEFINITION. Exact arithmetic on the floating-point formats (R225 to R236): values as signed dyadic numbers, one rounding function for
every format, and the elementary functions by bounds on the exact real (notes/assumptions/10.md). -/

namespace Sys2Proof.Machine

/-- A floating-point value: NaN (signalling or quiet), an infinity, or (-1)^neg * m * 2^e. -/
inductive Num
  | nan (signalling : Bool)
  | inf (neg : Bool)
  | fin (neg : Bool) (m : Nat) (e : Int)
  deriving DecidableEq, Repr

/-- A format (Table 10-4): fraction bits, exponent of the subnormal step, the code of the largest finite magnitude, the width, the canonical
NaN, and the code of infinity where the format has one. -/
structure Form where
  frac : Nat
  qmin : Int
  maxCode : Nat
  width : Nat
  nan : Nat
  inf : Option Nat
  deriving DecidableEq, Repr

def fF32 : Form := ⟨23, -149, 0x7F7FFFFF, 32, 0x7FC00000, some 0x7F800000⟩
def fBF16 : Form := ⟨7, -133, 0x7F7F, 16, 0x7FC0, some 0x7F80⟩
def fF16 : Form := ⟨10, -24, 0x7BFF, 16, 0x7E00, some 0x7C00⟩
def fE4M3 : Form := ⟨3, -9, 0x7E, 8, 0x7F, none⟩
def fE5M2 : Form := ⟨2, -16, 0x7B, 8, 0x7E, some 0x7C⟩
def fE2M1 : Form := ⟨1, -1, 0x7, 4, 0, none⟩

/-- Decode a code of a format (R231). A signalling NaN is one whose top fraction bit is 0; E4M3 and E2M1 have none. -/
def Form.decode (f : Form) (w : Nat) : Num :=
  let neg := w / 2 ^ (f.width - 1) % 2 == 1
  let c := w % 2 ^ (f.width - 1)
  if c ≤ f.maxCode then
    let e := c / 2 ^ f.frac; let m := c % 2 ^ f.frac
    if e = 0 then .fin neg m f.qmin else .fin neg (m + 2 ^ f.frac) (f.qmin + (e - 1 : Nat))
  else match f.inf with
    | some i => if c = i then .inf neg else .nan (c / 2 ^ (f.frac - 1) % 2 == 0)
    | none => .nan false

/-- FP32 of a register. -/
def f32 (w : Word) : Num := fF32.decode w.toNat

/-- m * 2^e to an integer multiple of 2^q under a rounding: the multiple, and whether inexact. `neg` gives the direction of RUP and RDN. -/
def roundAt (r : Round) (neg : Bool) (m : Nat) (e q : Int) : Nat × Bool :=
  if q ≤ e then (m * 2 ^ (e - q).toNat, false)
  else
    let d := (q - e).toNat
    let Q := m / 2 ^ d; let R := m % 2 ^ d
    let up := match r with
      | .rne => decide (2 * R > 2 ^ d) || (decide (2 * R = 2 ^ d) && decide (Q % 2 = 1))
      | .rtz => false
      | .rup => !neg && decide (R ≠ 0)
      | .rdn => neg && decide (R ≠ 0)
    (if up then Q + 1 else Q, decide (R ≠ 0))

/-- How an overflowing result is delivered: as IEEE 754 prescribes, or held at the largest finite value (R228, R235). -/
inductive Ovf | ieee | fin
  deriving DecidableEq, Repr

/-- The sign bit of a format. -/
def Form.sign (f : Form) (neg : Bool) : Nat := if neg then 2 ^ (f.width - 1) else 0

/-- An infinity of a format under an overflow option: E4M3 has the canonical NaN in its place, E2M1 its largest value (R235). -/
def Form.infCode (f : Form) (neg : Bool) : Nat :=
  match f.inf with
  | some i => f.sign neg + i
  | none => if f.nan = 0 then f.sign neg + f.maxCode else f.nan

/-- The code of an overflow (R228, R235). -/
def Form.overflow (f : Form) (r : Round) (o : Ovf) (neg : Bool) : Nat :=
  let toInf := match r with | .rne => true | .rtz => false | .rup => !neg | .rdn => neg
  if o = .fin || !toInf then f.sign neg + f.maxCode else f.infCode neg

/-- Round (-1)^neg * m * 2^e once to a format: code, FPFLAGS (R227: OF with NX, UF when tiny after rounding and inexact), and overflow. -/
def Form.round (f : Form) (r : Round) (o : Ovf) (neg : Bool) (m : Nat) (e : Int) : Nat × BitVec 8 × Bool :=
  if m = 0 then (f.sign neg, 0, false)
  else
    let L : Int := (Nat.log2 m : Nat) + e
    let q := max (L - f.frac) f.qmin
    let (Q, inex) := roundAt r neg m e q
    let code := (q - f.qmin).toNat * 2 ^ f.frac + Q
    if f.maxCode < code then (f.overflow r o neg, fOF ||| fNX, true)
    else
      let least : Int := f.frac + f.qmin
      let tiny := decide (L < least) && !(decide (L = least - 1) && decide ((roundAt r neg m e (L - f.frac)).1 = 2 ^ (f.frac + 1)))
      (f.sign neg + code, flagIf inex fNX ||| flagIf (tiny && inex) fUF, false)

/-- Round to FP32 with the overflow of IEEE 754. -/
def round32 (r : Round) (neg : Bool) (m : Nat) (e : Int) : Word × BitVec 8 :=
  let x := fF32.round r .ieee neg m e
  (BitVec.ofNat 32 x.1, x.2.1)

/-- The canonical NaN of FP32 (R229). -/
def nan32 : Word := 0x7FC00000
/-- An infinity of FP32. -/
def inf32 (neg : Bool) : Word := if neg then 0xFF800000 else 0x7F800000
/-- A zero of FP32. -/
def zero32 (neg : Bool) : Word := if neg then 0x80000000 else 0

/-- Whether a value is a signalling NaN, as an NV flag. -/
def Num.snan : Num → BitVec 8 | .nan true => fNV | _ => 0
def Num.isNaN : Num → Bool | .nan _ => true | _ => false
def Num.neg : Num → Num | .nan s => .nan s | .inf n => .inf !n | .fin n m e => .fin (!n) m e

/-- A finite value as an integer multiple of 2^q, for q at or below its exponent. -/
def dyInt (neg : Bool) (m : Nat) (e q : Int) : Int :=
  let v : Int := (m * 2 ^ (e - q).toNat : Nat)
  if neg then -v else v

/-- The exact product of two values. -/
def Num.mul (a b : Num) : Num :=
  match a, b with
  | .nan _, _ => .nan false | _, .nan _ => .nan false
  | .inf n, .inf k => .inf (n != k)
  | .inf n, .fin k m _ => if m = 0 then .nan false else .inf (n != k)
  | .fin n m _, .inf k => if m = 0 then .nan false else .inf (n != k)
  | .fin n m e, .fin k p g => .fin (n != k) (m * p) (e + g)

/-- The exact sum of two values; a zero sum of opposite signs is +0, and -0 under RDN (R229). -/
def Num.add (r : Round) (a b : Num) : Num :=
  match a, b with
  | .nan _, _ => .nan false | _, .nan _ => .nan false
  | .inf n, .inf k => if n = k then .inf n else .nan false
  | .inf n, .fin .. => .inf n
  | .fin .., .inf k => .inf k
  | .fin n m e, .fin k p g =>
    if m = 0 ∧ p = 0 then .fin (if n = k then n else r == .rdn) 0 e
    else
      let q := min e g
      let v := dyInt n m e q + dyInt k p g q
      if v = 0 then .fin (r == .rdn) 0 q else .fin (decide (v < 0)) v.natAbs q

/-- Deliver an exact value in FP32. -/
def Num.toF32 (r : Round) (x : Num) : Word × BitVec 8 :=
  match x with
  | .nan _ => (nan32, 0)
  | .inf n => (inf32 n, 0)
  | .fin n m e => round32 r n m e

/-- A result whose operands are `xs`: a NaN from non-NaN operands sets NV, and so does a signalling operand (R227). -/
def deliver (r : Round) (xs : List Num) (x : Num) : Word × BitVec 8 :=
  let (w, f) := x.toF32 r
  let made := x.isNaN && !xs.any Num.isNaN
  (w, f ||| flagIf made fNV ||| xs.foldl (fun a y => a ||| y.snan) 0)

def fpAdd (r : Round) (a b : Word) : Word × BitVec 8 := deliver r [f32 a, f32 b] ((f32 a).add r (f32 b))
def fpSub (r : Round) (a b : Word) : Word × BitVec 8 := deliver r [f32 a, f32 b] ((f32 a).add r (f32 b).neg)
def fpMul (r : Round) (a b : Word) : Word × BitVec 8 := deliver r [f32 a, f32 b] ((f32 a).mul (f32 b))

-- FP32 arithmetic under RNE, flags left out
def addF (a b : Word) : Word := (fpAdd .rne a b).1
def mulF (a b : Word) : Word := (fpMul .rne a b).1
def subF (a b : Word) : Word := (fpSub .rne a b).1
def negF (a : Word) : Word := a ^^^ 0x80000000

/-- FFMA: one rounding of the exact sum; 0 × ∞ sets NV even when the addend is a NaN (R296). -/
def fpFma (r : Round) (np nc : Bool) (a b d : Word) : Word × BitVec 8 :=
  let p := (f32 a).mul (f32 b)
  let p := if np then p.neg else p
  let c := if nc then (f32 d).neg else f32 d
  let (w, f) := deliver r [f32 a, f32 b, f32 d] (p.add r c)
  (w, f ||| flagIf (p.isNaN && !(f32 a).isNaN && !(f32 b).isNaN) fNV)

/-- The order of FP32 codes that are no NaN, -0 below +0: a key that compares as the value does. -/
def ord32 (w : Word) : Int := if w.getLsbD 31 then -1 - (w.toNat % 2 ^ 31 : Nat) else (w.toNat : Nat)

/-- FMIN and FMAX (R295). -/
def fpMin (a b : Word) : Word × BitVec 8 :=
  (if (f32 a).isNaN && (f32 b).isNaN then nan32 else if (f32 a).isNaN then b else if (f32 b).isNaN then a
   else if ord32 b < ord32 a then b else a, (f32 a).snan ||| (f32 b).snan)
def fpMax (a b : Word) : Word × BitVec 8 :=
  (if (f32 a).isNaN && (f32 b).isNaN then nan32 else if (f32 a).isNaN then b else if (f32 b).isNaN then a
   else if ord32 a < ord32 b then b else a, (f32 a).snan ||| (f32 b).snan)

/-- Comparison of two values that are no NaN: -1, 0 or 1; zeros are equal. -/
def Num.cmp (a b : Num) : Int :=
  let key : Num → Int × Int × Nat := fun x => match x with
    | .nan _ => (0, 0, 0)
    | .inf n => (if n then -2 else 2, 0, 0)
    | .fin n m e => (if m = 0 then 0 else if n then -1 else 1, e, m)
  let (sa, ea, ma) := key a; let (sb, eb, mb) := key b
  if sa < sb then -1 else if sb < sa then 1
  else if sa = 1 ∨ sa = -1 then
    let q := min ea eb
    let va := dyInt (sa == -1) ma ea q; let vb := dyInt (sa == -1) mb eb q
    if va < vb then -1 else if vb < va then 1 else 0
  else 0

-- elementary functions -----------------------------------------------------------------------------------------------

/-- The integer square root, bit by bit from 2^k down. -/
def isqrt (n : Nat) : Nat → Nat → Nat
  | 0, r => if (r + 1) * (r + 1) ≤ n then r + 1 else r
  | k + 1, r => isqrt n k (if (r + 2 ^ (k + 1)) * (r + 2 ^ (k + 1)) ≤ n then r + 2 ^ (k + 1) else r)

/-- A value that lies at m * 2^e, or strictly between there and (m + 1) * 2^e: its sticky bit made explicit. -/
def sticky (m : Nat) (e : Int) (more : Bool) : Nat × Int := (2 * m + (if more then 1 else 0), e - 1)

/-- 1 / a for a nonzero finite a. -/
def rcpNum (neg : Bool) (m : Nat) (e : Int) : Num :=
  let k := Nat.log2 m + 40
  let (q, g) := sticky (2 ^ k / m) (-e - k) (2 ^ k % m != 0)
  .fin neg q g

/-- √(m * 2^e) for m > 0. -/
def sqrtNum (m : Nat) (e : Int) : Num :=
  let (m, e) := if e % 2 = 0 then (m, e) else (2 * m, e - 1)
  let n := m * 2 ^ 64
  let r := isqrt n 46 0
  let (q, g) := sticky r ((e - 64) / 2) (r * r != n)
  .fin false q g

/-- 1 / √(m * 2^e) for m > 0. -/
def rsqrtNum (m : Nat) (e : Int) : Num :=
  let (m, e) := if e % 2 = 0 then (m, e) else (2 * m, e - 1)
  let r := isqrt (2 ^ 120 / m) 61 0
  let (q, g) := sticky r (-60 - e / 2) (r * r * m != 2 ^ 120)
  .fin false q g

/-- The working precision of the bounds, in bits after the point. -/
def workP : Nat := 320

/-- Bounds on atanh(z) * 2^P for a rational z = a / b in [0, 1/3], by `n` terms of its series. -/
def atanhLoHi (a b : Nat) : Nat × Nat :=
  let z := a * 2 ^ workP / b
  let zu := z + 1
  let step := fun (st : Nat × Nat × Nat × Nat) k =>
    let (lo, hi, pl, ph) := st
    let lo := lo + pl / (2 * k + 1)
    let hi := hi + ph / (2 * k + 1) + 1
    (lo, hi, pl * z / 2 ^ workP * z / 2 ^ workP, (ph * zu / 2 ^ workP + 1) * zu / 2 ^ workP + 1)
  let r := (List.range 110).foldl step (0, 0, z, zu)
  (r.1, r.2.1 + 2 * r.2.2.2 + 1)

/-- Bounds on ln 2 * 2^P: 2 atanh(1/3). -/
def ln2LoHi : Nat × Nat := let r := atanhLoHi 1 3; (2 * r.1, 2 * r.2)

/-- Bounds on e^t * 2^P for t given by bounds in [0, ln 2), by its Taylor series. -/
def expLoHi (tl th : Nat) : Nat × Nat :=
  let step := fun (st : Nat × Nat × Nat × Nat) k =>
    let (lo, hi, pl, ph) := st
    (lo + pl, hi + ph, pl * tl / 2 ^ workP / (k + 1), ph * th / 2 ^ workP / (k + 1) + 1)
  let r := (List.range 75).foldl step (0, 0, 2 ^ workP, 2 ^ workP)
  (r.1, r.2.1 + 2 * r.2.2.2)

/-- Round two bounds of one inexact real; where they disagree the model does not settle it (`Config.elemTie`). (DESIGN CHOICE, log entry 10.) -/
def roundBoth (fn : Nat) (a : Word) (r : Round) (neg : Bool) (lo hi : Nat) (e : Int) : Word × BitVec 8 :=
  let (m, g) := sticky lo e true
  let (m', g') := sticky hi e false
  let x := round32 r neg m g
  let y := round32 r neg m' g'
  if x.1 = y.1 then (x.1, x.2) else if Config.elemTie fn (match r with | .rne => 0 | .rtz => 1 | .rup => 2 | .rdn => 3) a then x else y

/-- 2^x for a finite x (R230). -/
def exp2Fin (a : Word) (r : Round) (neg : Bool) (m : Nat) (e : Int) : Word × BitVec 8 :=
  if m = 0 then (0x3F800000, 0)
  else if 9 < (Nat.log2 m : Int) + e then if neg then round32 r false 1 (-2000) else round32 r false 1 2000
  else
    -- x = n + f with 0 ≤ f < 1, f a multiple of 2^-P
    let v : Int := if 0 ≤ e then dyInt neg (m * 2 ^ e.toNat) 0 (-workP) else dyInt neg (m * 2 ^ (workP - (-e).toNat)) 0 0
    let n := v / 2 ^ workP
    let f := (v % 2 ^ workP).toNat
    if f = 0 then round32 r false 1 n
    else
      let l := ln2LoHi
      let b := expLoHi (f * l.1 / 2 ^ workP) (f * l.2 / 2 ^ workP + 1)
      roundBoth 0 a r false b.1 b.2 (n - workP)

/-- log2 of a positive finite value (R230). -/
def log2Fin (a : Word) (r : Round) (m : Nat) (e : Int) : Word × BitVec 8 :=
  let k := Nat.log2 m
  let E : Int := k + e
  if m = 2 ^ k then round32 r (decide (E < 0)) E.natAbs 0
  else
    let t := atanhLoHi (m - 2 ^ k) (m + 2 ^ k)
    let l := ln2LoHi
    let lo : Int := E * 2 ^ workP + (2 * t.1 * 2 ^ workP / l.2 : Nat)
    let hi : Int := E * 2 ^ workP + (2 * t.2 * 2 ^ workP / l.1 + 1 : Nat)
    if 0 ≤ lo then roundBoth 1 a r false lo.toNat hi.toNat (-workP)
    else roundBoth 1 a r true (-hi).toNat (-lo).toNat (-workP)

/-- FRCP (Table 10-3). -/
def fpRcp (r : Round) (a : Word) : Word × BitVec 8 :=
  match f32 a with
  | .nan s => (nan32, flagIf s fNV)
  | .inf n => (zero32 n, 0)
  | .fin n m e => if m = 0 then (inf32 n, fDZ) else (rcpNum n m e).toF32 r

/-- FRSQ (Table 10-3). -/
def fpRsq (r : Round) (a : Word) : Word × BitVec 8 :=
  match f32 a with
  | .nan s => (nan32, flagIf s fNV)
  | .inf n => if n then (nan32, fNV) else (0, 0)
  | .fin n m e => if m = 0 then (inf32 n, fDZ) else if n then (nan32, fNV) else (rsqrtNum m e).toF32 r

/-- FSQRT (Table 10-3). -/
def fpSqrt (r : Round) (a : Word) : Word × BitVec 8 :=
  match f32 a with
  | .nan s => (nan32, flagIf s fNV)
  | .inf n => if n then (nan32, fNV) else (inf32 false, 0)
  | .fin n m e => if m = 0 then (a, 0) else if n then (nan32, fNV) else (sqrtNum m e).toF32 r

/-- FEXP2 (Table 10-3). -/
def fpExp2 (r : Round) (a : Word) : Word × BitVec 8 :=
  match f32 a with
  | .nan s => (nan32, flagIf s fNV)
  | .inf n => (if n then 0 else inf32 false, 0)
  | .fin n m e => exp2Fin a r n m e

/-- FLOG2 (Table 10-3): of a zero it is −∞ with DZ. -/
def fpLog2 (r : Round) (a : Word) : Word × BitVec 8 :=
  match f32 a with
  | .nan s => (nan32, flagIf s fNV)
  | .inf n => if n then (nan32, fNV) else (inf32 false, 0)
  | .fin n m e => if m = 0 then (inf32 true, fDZ) else if n then (nan32, fNV) else log2Fin a r m e

/-- FABS and FNEG (R298). -/
def fpSign (a : Word) (w : Word) : Word × BitVec 8 := if (f32 a).isNaN then (nan32, (f32 a).snan) else (w, 0)

/-- FFLOOR, FCEIL and FRINT: an integral value, never NX, a zero keeping the operand's sign (R298). -/
def fpInt (r : Round) (a : Word) : Word × BitVec 8 :=
  match f32 a with
  | .nan s => (nan32, flagIf s fNV)
  | .inf _ => (a, 0)
  | .fin n m e => ((round32 .rne n (roundAt r n m e 0).1 0).1, 0)

/-- FCLASS (R299). -/
def fpClass (a : Word) : Word :=
  let bit : Nat := match f32 a with
    | .nan s => if s then 8 else 9
    | .inf n => if n then 0 else 7
    | .fin n m _ => if m = 0 then (if n then 3 else 4) else if m < 2 ^ 23 then (if n then 2 else 5) else (if n then 1 else 6)
  BitVec.twoPow 32 bit

/-- FCMP: the predicate and NV (Table 13-4). -/
def fpCmp (c : FCond) (a b : Word) : Bool × BitVec 8 :=
  let un := (f32 a).isNaN || (f32 b).isNaN
  let k := (f32 a).cmp (f32 b)
  let sn := (f32 a).snan ||| (f32 b).snan
  match c with
  | .eq => (!un && k == 0, sn)
  | .ne => (un || k != 0, sn)
  | .lt => (!un && decide (k < 0), flagIf un fNV)
  | .le => (!un && decide (k ≤ 0), flagIf un fNV)
  | .gt => (!un && decide (0 < k), flagIf un fNV)
  | .ge => (!un && decide (0 ≤ k), flagIf un fNV)
  | .un => (un, sn)

-- conversions --------------------------------------------------------------------------------------------------------

/-- Round an exact value to an integer range (R236): the integer and flags. -/
def toIntFmt (r : Round) (lo hi : Int) (x : Num) : Int × BitVec 8 :=
  match x with
  | .nan _ => (0, fNV)
  | .inf n => (if n then lo else hi, fNV)
  | .fin n m e =>
    let (q, inex) := roundAt r n m e 0
    let v : Int := if n then -(q : Int) else q
    let c := clampInt lo hi v
    if c.2 then (c.1, fNV) else (v, flagIf inex fNX)

/-- Convert an exact value to a narrow float under R235. -/
def toFloatFmt (f : Form) (r : Round) (inf : Bool) (x : Num) : Nat × BitVec 8 :=
  match x with
  | .nan s => (f.nan, if f.nan = 0 then fNV else flagIf s fNV)
  | .inf n => (if inf then f.infCode n else f.sign n + f.maxCode, 0)
  | .fin n m e => let y := f.round r (if inf then .ieee else .fin) n m e; (y.1, y.2.1)

/-- The form of a floating-point conversion code. -/
def Form.ofFmt : Fmt → Option Form
  | .f32 => some fF32 | .f16 => some fF16 | .bf16 => some fBF16 | .e4m3 => some fE4M3 | .e5m2 => some fE5M2 | .e2m1 => some fE2M1
  | _ => none

/-- Range of an integer format (R232). -/
def intRange : Fmt → Int × Int
  | .i32 => (-2147483648, 2147483647) | .n32 => (0, 4294967295) | .i8 => (-128, 127) | .n8 => (0, 255) | .i4 => (-8, 7) | _ => (0, 0)

/-- The source integer of a register (R302). -/
def intSrc (f : Fmt) (w : Word) : Int :=
  match f with
  | .i32 => w.toInt | .n32 => w.toNat | .i8 => sext 8 w.toNat | .n8 => (w.toNat % 256 : Nat) | .i4 => sext 4 w.toNat | _ => 0

/-- The bits an integer destination receives (R302): signed results sign-extended to 32 bits, N8 zero-extended. -/
def intDst (_f : Fmt) (v : Int) : Word := BitVec.ofInt 32 v

/-- An integer truncated to the width of a format (R236, `.w`). -/
def intWrap (f : Fmt) (v : Int) : Int :=
  match f with
  | .i32 => (BitVec.ofInt 32 v).toInt | .n32 => ((BitVec.ofInt 32 v).toNat : Nat)
  | .i8 => (BitVec.ofInt 8 v).toInt | .n8 => ((BitVec.ofInt 8 v).toNat : Nat) | .i4 => (BitVec.ofInt 4 v).toInt | _ => v

/-- E8M0 to FP32 (R233). -/
def e8m0 (w : Word) : Word :=
  let e := w.toNat % 256
  if e = 255 then nan32 else (round32 .rne false 1 ((e : Int) - 127)).1

/-- CVT (R301, R302, R235, R236). -/
def cvtVal (src dst : Fmt) (inf : Bool) (r : Round) (sat : Bool) (w : Word) : Word × BitVec 8 :=
  match Form.ofFmt src, Form.ofFmt dst with
  | some f, some g =>
    let x := f.decode (w.toNat % 2 ^ f.width)
    if src = dst then
      (match x with | .nan _ => (BitVec.ofNat 32 f.nan, x.snan) | _ => (BitVec.ofNat 32 (w.toNat % 2 ^ f.width), 0))
    else let y := toFloatFmt g r inf x; (BitVec.ofNat 32 y.1, y.2)
  | some f, none =>
    let y := toIntFmt r (intRange dst).1 (intRange dst).2 (f.decode (w.toNat % 2 ^ f.width))
    (intDst dst y.1, y.2)
  | none, some g =>
    if src = .e8m0 then (e8m0 w, 0)
    else
      let v := intSrc src w
      let x := round32 r (decide (v < 0)) v.natAbs 0
      if dst = .f32 then x
      else let y := toFloatFmt g r inf (f32 x.1); (BitVec.ofNat 32 y.1, x.2 ||| y.2)
  | none, none =>
    let v := intSrc src w
    if sat then let c := clampInt (intRange dst).1 (intRange dst).2 v; (intDst dst c.1, flagIf c.2 fISAT)
    else (intDst dst (intWrap dst v), 0)

/-- The form of a CVT.S destination. -/
def Form.ofSFmt : SFmt → Option Form
  | .bf16 => some fBF16 | .f16 => some fF16 | .e4m3 => some fE4M3 | .e5m2 => some fE5M2 | .e2m1 => some fE2M1 | _ => none

/-- Range of a CVT.S integer destination. -/
def sfmtRange : SFmt → Int × Int | .i8 => (-128, 127) | .n8 => (0, 255) | _ => (-8, 7)

/-- What CVT.S and ACC.CVT do to one element: the result, FPFLAGS, and the statistics (R242, R243). -/
structure CvtS where
  res : Word
  flags : BitVec 8
  amax : Word
  sat : Bool
  deriving DecidableEq, Repr

/-- The scale, clip and convert pipeline (R242). `amax` is STAT.AMAX before. -/
def cvtS (v s c : Word) (dst : SFmt) (r : Round) (inf : Bool) (amax : Word) : CvtS :=
  let am := if (f32 v).isNaN then amax else let a := v &&& 0x7FFFFFFF; if amax.toNat < a.toNat then a else amax
  let x := (f32 v).mul (f32 s)
  if x.isNaN then ⟨BitVec.ofNat 32 (match Form.ofSFmt dst with | some f => f.nan | none => 0), fNV, am, false⟩
  else
    let cl := c &&& 0x7FFFFFFF
    let ax : Num := match x with | .fin _ m e => .fin false m e | .inf _ => .inf false | y => y
    let sg := match x with | .fin n _ _ => n | .inf n => n | _ => false
    let clip := !(f32 c).isNaN && ax.cmp (f32 cl) == 1
    let x := if clip then (if sg then (f32 cl).neg else f32 cl) else x
    match Form.ofSFmt dst with
    | none =>
      let y := toIntFmt r (sfmtRange dst).1 (sfmtRange dst).2 x
      ⟨BitVec.ofInt 32 y.1, y.2, am, clip || y.2 == fNV⟩
    | some f =>
      match x with
      | .fin n m e => let y := f.round r (if inf then .ieee else .fin) n m e; ⟨BitVec.ofNat 32 y.1, y.2.1, am, clip || y.2.2⟩
      | .inf n => ⟨BitVec.ofNat 32 (if inf then f.infCode n else f.sign n + f.maxCode), 0, am, true⟩
      | .nan _ => ⟨BitVec.ofNat 32 f.nan, fNV, am, clip⟩

end Sys2Proof.Machine
end

