-- ==== Sys2Proof/Machine/Integer.lean ====
section
/-! DEFINITION. Integer, window and special-register-free lane instructions: majors 0x0B to 0x17 (R273 to R280, R244). Each computes within
one lane's registers and goes through `laneInstr`. -/

namespace Sys2Proof.Machine

/-- One register written. -/
def wr (d : VReg) (v : Word) : LaneFx := { regs := [(d.toNat, v)] }
/-- One register written, with FPFLAGS bits. -/
def wrf (d : VReg) (v : Word × BitVec 8) : LaneFx := { regs := [(d.toNat, v.1)], flags := v.2 }
/-- One register written with a saturated result: ISAT on a clamp (R239). -/
def wrs (d : VReg) (x : Int) : LaneFx := let c := clamp32 x; { regs := [(d.toNat, c.1)], flags := flagIf c.2 fISAT }
/-- One predicate written. -/
def wp (p : Nib) (v : Bool) : LaneFx := { preds := [(p, v)] }

/-- Truncated quotient of naturals read as signed or unsigned, with the corner results of Table 10-10. -/
def divI (a b : Word) : Word := if b = 0 then 0xFFFFFFFF else BitVec.ofInt 32 (a.toInt.tdiv b.toInt)
def divN (a b : Word) : Word := if b = 0 then 0xFFFFFFFF else BitVec.ofNat 32 (a.toNat / b.toNat)
def remI (a b : Word) : Word := if b = 0 then a else BitVec.ofInt 32 (a.toInt.tmod b.toInt)
def remN (a b : Word) : Word := if b = 0 then a else BitVec.ofNat 32 (a.toNat % b.toNat)
/-- The number of 1 bits. -/
def popCount (a : Word) : Nat := ((List.range 32).filter (fun i => a.getLsbD i)).length
/-- Leading zeros, 32 for zero. -/
def leadZeros (a : Word) : Nat := ((List.range 32).find? (fun i => a.getLsbD (31 - i))).getD 32
/-- Trailing zeros, 32 for zero. -/
def trailZeros (a : Word) : Nat := ((List.range 32).find? (fun i => a.getLsbD i)).getD 32
/-- Bit i moved to bit 31 - i. -/
def bitRev (a : Word) : Word := BitVec.ofNat 32 ((List.range 32).foldl (fun n i => if a.getLsbD i then n + 2 ^ (31 - i) else n) 0)
/-- Position and end of the field that BFX and BFI name, cut at bit 31 (R275). -/
def fieldOf (b : Word) : Nat × Nat :=
  let pos := bits b.toNat 0 5
  let len := if bits b.toNat 5 5 = 0 then 32 else bits b.toNat 5 5
  (pos, min (pos + len) 32)
/-- BFX. -/
def bfxVal (a b : Word) : Word := let f := fieldOf b; BitVec.ofNat 32 (bits a.toNat f.1 (f.2 - f.1))
/-- BFI into `d`. -/
def bfiVal (d a b : Word) : Word :=
  let f := fieldOf b
  BitVec.ofNat 32 (d.toNat % 2 ^ f.1 + bits a.toNat 0 (f.2 - f.1) * 2 ^ f.1 + d.toNat / 2 ^ f.2 * 2 ^ f.2)
/-- The conditions of ICMP (R278). -/
def icmpVal (c : ICond) (n : Bool) (a b : Word) : Bool :=
  let x : Int := if n then (a.toNat : Int) else a.toInt
  let y : Int := if n then (b.toNat : Int) else b.toInt
  match c with
  | .eq => decide (x = y) | .ne => decide (x ≠ y) | .lt => decide (x < y) | .le => decide (x ≤ y) | .gt => decide (y < x) | .ge => decide (y ≤ x)
/-- The operations of PLOP (R279). -/
def plopVal (op : POp) (a b : Bool) : Bool := match op with | .and => a && b | .or => a || b | .xor => a != b | .mov => a
/-- Logical and arithmetic shifts by a full unsigned count (Table 12-1). -/
def shlVal (a b : Word) : Word := if 32 ≤ b.toNat then 0 else a <<< b.toNat
def shrNVal (a b : Word) : Word := if 32 ≤ b.toNat then 0 else a >>> b.toNat
def shrIVal (a b : Word) : Word := a.sshiftRight (min b.toNat 31)
def rotVal (a b : Word) : Word := a.rotateLeft (b.toNat % 32)

/-- IADD: the sum modulo 2^32 (R273). -/
def execIadd (d a b : VReg) (s : State) : Out :=
  laneInstr (.iadd d a b) s (fun x s l => let va := x.rd s l a; let vb := x.rd s l b; wr d (va + vb))

/-- IADD.s: clamped to INT32 (R273). -/
def execIaddS (d a b : VReg) (s : State) : Out :=
  laneInstr (.iaddS d a b) s (fun x s l => let va := x.rd s l a; let vb := x.rd s l b; wrs d (va.toInt + vb.toInt))

/-- ISUB (R273). -/
def execIsub (d a b : VReg) (s : State) : Out :=
  laneInstr (.isub d a b) s (fun x s l => let va := x.rd s l a; let vb := x.rd s l b; wr d (va - vb))

/-- ISUB.s (R273). -/
def execIsubS (d a b : VReg) (s : State) : Out :=
  laneInstr (.isubS d a b) s (fun x s l => let va := x.rd s l a; let vb := x.rd s l b; wrs d (va.toInt - vb.toInt))

/-- IMIN.i32 (R273). -/
def execIminI (d a b : VReg) (s : State) : Out :=
  laneInstr (.iminI d a b) s (fun x s l => let va := x.rd s l a; let vb := x.rd s l b; wr d (if vb.toInt < va.toInt then vb else va))

/-- IMIN.n32 (R273). -/
def execIminN (d a b : VReg) (s : State) : Out :=
  laneInstr (.iminN d a b) s (fun x s l => let va := x.rd s l a; let vb := x.rd s l b; wr d (if vb.toNat < va.toNat then vb else va))

/-- IMAX.i32 (R273). -/
def execImaxI (d a b : VReg) (s : State) : Out :=
  laneInstr (.imaxI d a b) s (fun x s l => let va := x.rd s l a; let vb := x.rd s l b; wr d (if va.toInt < vb.toInt then vb else va))

/-- IMAX.n32 (R273). -/
def execImaxN (d a b : VReg) (s : State) : Out :=
  laneInstr (.imaxN d a b) s (fun x s l => let va := x.rd s l a; let vb := x.rd s l b; wr d (if va.toNat < vb.toNat then vb else va))

/-- AND (R273). -/
def execIand (d a b : VReg) (s : State) : Out :=
  laneInstr (.iand d a b) s (fun x s l => let va := x.rd s l a; let vb := x.rd s l b; wr d (va &&& vb))

/-- OR (R273). -/
def execIor (d a b : VReg) (s : State) : Out :=
  laneInstr (.ior d a b) s (fun x s l => let va := x.rd s l a; let vb := x.rd s l b; wr d (va ||| vb))

/-- XOR (R273). -/
def execIxor (d a b : VReg) (s : State) : Out :=
  laneInstr (.ixor d a b) s (fun x s l => let va := x.rd s l a; let vb := x.rd s l b; wr d (va ^^^ vb))

/-- ANDN (R273). -/
def execIandn (d a b : VReg) (s : State) : Out :=
  laneInstr (.iandn d a b) s (fun x s l => let va := x.rd s l a; let vb := x.rd s l b; wr d (va &&& ~~~vb))

/-- SHL: 0 for a count of 32 or more (R273). -/
def execShl (d a b : VReg) (s : State) : Out :=
  laneInstr (.shl d a b) s (fun x s l => let va := x.rd s l a; let vb := x.rd s l b; wr d (shlVal va vb))

/-- SHR.n32 (R273). -/
def execShrN (d a b : VReg) (s : State) : Out :=
  laneInstr (.shrN d a b) s (fun x s l => let va := x.rd s l a; let vb := x.rd s l b; wr d (shrNVal va vb))

/-- SHR.i32 (R273). -/
def execShrI (d a b : VReg) (s : State) : Out :=
  laneInstr (.shrI d a b) s (fun x s l => let va := x.rd s l a; let vb := x.rd s l b; wr d (shrIVal va vb))

/-- ROT left (R273). -/
def execRot (d a b : VReg) (s : State) : Out :=
  laneInstr (.rot d a b) s (fun x s l => let va := x.rd s l a; let vb := x.rd s l b; wr d (rotVal va vb))

/-- SEL: the old d is the selecting mask (R273). -/
def execSel (d a b : VReg) (s : State) : Out :=
  laneInstr (.sel d a b) s (fun x s l => let va := x.rd s l a; let vb := x.rd s l b; let vd := x.rd s l d; wr d ((va &&& vd) ||| (vb &&& ~~~vd)))

/-- IABS (R273). -/
def execIabs (d a : VReg) (s : State) : Out :=
  laneInstr (.iabs d a) s (fun x s l => let va := x.rd s l a; wr d (if va.getLsbD 31 then -va else va))

/-- INEG (R273). -/
def execIneg (d a : VReg) (s : State) : Out :=
  laneInstr (.ineg d a) s (fun x s l => let va := x.rd s l a; wr d (-va))

/-- IMUL: the low 32 bits (R274). -/
def execImul (d a b : VReg) (s : State) : Out :=
  laneInstr (.imul d a b) s (fun x s l => let va := x.rd s l a; let vb := x.rd s l b; wr d (va * vb))

/-- IMULH.i32: the high 32 bits of the signed product (R274). -/
def execImulhI (d a b : VReg) (s : State) : Out :=
  laneInstr (.imulhI d a b) s (fun x s l => let va := x.rd s l a; let vb := x.rd s l b; wr d (BitVec.ofInt 32 (va.toInt * vb.toInt / 4294967296)))

/-- IMULH.n32 (R274). -/
def execImulhN (d a b : VReg) (s : State) : Out :=
  laneInstr (.imulhN d a b) s (fun x s l => let va := x.rd s l a; let vb := x.rd s l b; wr d (BitVec.ofNat 32 (va.toNat * vb.toNat / 4294967296)))

/-- IMAD (R274). -/
def execImad (d a b : VReg) (s : State) : Out :=
  laneInstr (.imad d a b) s (fun x s l => let va := x.rd s l a; let vb := x.rd s l b; let vd := x.rd s l d; wr d (va * vb + vd))

/-- IMAD.s: the exact sum clamped (R274). -/
def execImadS (d a b : VReg) (s : State) : Out :=
  laneInstr (.imadS d a b) s (fun x s l => let va := x.rd s l a; let vb := x.rd s l b; let vd := x.rd s l d; wrs d (va.toInt * vb.toInt + vd.toInt))

/-- IDIV.i32 (R274, Table 10-10). -/
def execIdivI (d a b : VReg) (s : State) : Out :=
  laneInstr (.idivI d a b) s (fun x s l => let va := x.rd s l a; let vb := x.rd s l b; wr d (divI va vb))

/-- IDIV.n32 (R274). -/
def execIdivN (d a b : VReg) (s : State) : Out :=
  laneInstr (.idivN d a b) s (fun x s l => let va := x.rd s l a; let vb := x.rd s l b; wr d (divN va vb))

/-- IREM.i32 (R274). -/
def execIremI (d a b : VReg) (s : State) : Out :=
  laneInstr (.iremI d a b) s (fun x s l => let va := x.rd s l a; let vb := x.rd s l b; wr d (remI va vb))

/-- IREM.n32 (R274). -/
def execIremN (d a b : VReg) (s : State) : Out :=
  laneInstr (.iremN d a b) s (fun x s l => let va := x.rd s l a; let vb := x.rd s l b; wr d (remN va vb))

/-- POPC (R275). -/
def execPopc (d a : VReg) (s : State) : Out :=
  laneInstr (.popc d a) s (fun x s l => let va := x.rd s l a; wr d (BitVec.ofNat 32 (popCount va)))

/-- CLZ (R275). -/
def execClz (d a : VReg) (s : State) : Out :=
  laneInstr (.clz d a) s (fun x s l => let va := x.rd s l a; wr d (BitVec.ofNat 32 (leadZeros va)))

/-- CTZ (R275). -/
def execCtz (d a : VReg) (s : State) : Out :=
  laneInstr (.ctz d a) s (fun x s l => let va := x.rd s l a; wr d (BitVec.ofNat 32 (trailZeros va)))

/-- BREV (R275). -/
def execBrev (d a : VReg) (s : State) : Out :=
  laneInstr (.brev d a) s (fun x s l => let va := x.rd s l a; wr d (bitRev va))

/-- BFX (R275). -/
def execBfx (d a b : VReg) (s : State) : Out :=
  laneInstr (.bfx d a b) s (fun x s l => let va := x.rd s l a; let vb := x.rd s l b; wr d (bfxVal va vb))

/-- BFI (R275). -/
def execBfi (d a b : VReg) (s : State) : Out :=
  laneInstr (.bfi d a b) s (fun x s l => let va := x.rd s l a; let vb := x.rd s l b; let vd := x.rd s l d; wr d (bfiVal vd va vb))

/-- ADDI (R276). -/
def execAddi (d a : VReg) (imm : BitVec 12) (s : State) : Out :=
  laneInstr (.addi d a imm) s (fun x s l => let va := x.rd s l a; wr d (va + imm.signExtend 32))

/-- ANDI (R276). -/
def execAndi (d a : VReg) (imm : BitVec 12) (s : State) : Out :=
  laneInstr (.andi d a imm) s (fun x s l => let va := x.rd s l a; wr d (va &&& imm.signExtend 32))

/-- ORI (R276). -/
def execOri (d a : VReg) (imm : BitVec 12) (s : State) : Out :=
  laneInstr (.ori d a imm) s (fun x s l => let va := x.rd s l a; wr d (va ||| imm.signExtend 32))

/-- XORI (R276). -/
def execXori (d a : VReg) (imm : BitVec 12) (s : State) : Out :=
  laneInstr (.xori d a imm) s (fun x s l => let va := x.rd s l a; wr d (va ^^^ imm.signExtend 32))

/-- SHLI (R276). -/
def execShli (d a : VReg) (c : BitVec 5) (s : State) : Out :=
  laneInstr (.shli d a c) s (fun x s l => let va := x.rd s l a; wr d (va <<< c.toNat))

/-- SHRI.n32 (R276). -/
def execShriN (d a : VReg) (c : BitVec 5) (s : State) : Out :=
  laneInstr (.shriN d a c) s (fun x s l => let va := x.rd s l a; wr d (va >>> c.toNat))

/-- SHRI.i32 (R276). -/
def execShriI (d a : VReg) (c : BitVec 5) (s : State) : Out :=
  laneInstr (.shriI d a c) s (fun x s l => let va := x.rd s l a; wr d (va.sshiftRight c.toNat))

/-- ROTI (R276). -/
def execRoti (d a : VReg) (c : BitVec 5) (s : State) : Out :=
  laneInstr (.roti d a c) s (fun x s l => let va := x.rd s l a; wr d (va.rotateLeft c.toNat))

/-- MOVI: imm19 sign-extended (R277). -/
def execMovi (d : VReg) (imm : BitVec 19) (s : State) : Out :=
  laneInstr (.movi d imm) s (fun _ _ _ => wr d (imm.signExtend 32))

/-- MOVH: d[31:13], the low bits unchanged (R277). -/
def execMovh (d : VReg) (imm : BitVec 19) (s : State) : Out :=
  laneInstr (.movh d imm) s (fun x s l => wr d (imm ++ (x.rd s l d).extractLsb' 0 13))

/-- ICMP (R278). -/
def execIcmp (c : ICond) (n : Bool) (p : Nib) (a b : VReg) (s : State) : Out :=
  laneInstr (.icmp c n p a b) s (fun x s l => wp p (icmpVal c n (x.rd s l a) (x.rd s l b)))

/-- PLOP (R279). -/
def execPlop (op : POp) (na nb : Bool) (d a b : Nib) (s : State) : Out :=
  laneInstr (.plop op na nb d a b) s (fun x s l => wp d (plopVal op (x.p s l a != na) (x.p s l b != nb)))

/-- LEA: a + (b << s) (R280). -/
def execLea (sh : BitVec 5) (d a b : VReg) (s : State) : Out :=
  laneInstr (.lea sh d a b) s (fun x s l => wr d (x.rd s l a + (x.rd s l b <<< sh.toNat)))

end Sys2Proof.Machine
end

