-- ==== Sys2Proof/Machine/Requests.lean ====
section
/-! DEFINITION. Requests: keys and serials (R112, R113), putting an operation on its way (R111, R141), what a release waits for (R143), the
traps of operations that return nothing (R122), and what an acquire records (R81). -/

namespace Sys2Proof.Machine

-- keys and serials ---------------------------------------------------------------------------------------------------

/-- OUTST (R113): a fibre's keyed operations and engine commands that are not yet answered. -/
def State.outst (s : State) (u f : Nat) : Nat :=
  ((s.fibOps u f).filter (fun o => o.key.isSome)).length + (s.cmds.filter (fun m => m.u == u && m.fibre == f)).length

/-- The node is under rollback protection (R124). -/
def UnitSt.protect (x : UnitSt) : Bool := x.cfg.prot || x.cfg.red

/-- What a lane that would take a serial meets (R113). -/
inductive Draw | ok | stall | diverged
  deriving DecidableEq, Repr

/-- The request log has an entry to spare: a unit has at most 4,096 requests outstanding, keyed or not (R62). -/
def State.logRoom (s : State) (u : Nat) : Bool :=
  decide ((s.ops.filter (fun o => o.open_ && o.u == some u && o.cmd.isNone && !o.kind.own)).length < 4096)

/-- The window and the outstanding limit of R113, and the request log (R62). -/
def drawOf (s : State) (u f : Nat) : Draw :=
  let x := (s.unit u).fib f
  if 32768 ≤ (x.serial + 1 - x.low).toNat then (if (s.unit u).protect then .diverged else .stall)
  else if 256 ≤ s.outst u f || !s.logRoom u then .stall else .ok

/-- The key of a fibre's operation (Table 5-2). -/
def fibreKey (s : State) (u f : Nat) (serial : BitVec 16) (part : Nat) : Key :=
  let x := (s.unit u).cfg
  { job := x.job, node := (s.node x.node).id, unit := x.uidx, fibre := f, part := part, serial := serial }

/-- Take a serial. -/
def spend (s : State) (u f : Nat) : State := s.modFib u f (fun y => { y with serial := y.serial + 1 })

-- putting an operation on its way ------------------------------------------------------------------------------------

/-- The berth-map entry that an access of a unit uses, taken from its core's replica as it issues (R85, R88). -/
def UnitSt.berth (y : UnitSt) (s : State) : BitVec 4 := berthEntry s y.cfg.job y.core y.cfg.mb

/-- An operation of a lane, not yet sent. -/
def Ctx.op (x : Ctx) (s : State) (i : Instr) (l : Nat) (k : OpKind) : Op :=
  { id := s.nextId, kind := k, u := some x.u, crew := x.c, lane := l, fibre := x.f s l, word := (encode i).getD 0, pc := x.ent.pc
    sentAt := s.cyc (s.unit x.u).at_, berth := (s.unit x.u).berth s }

/-- Add an operation under the next identifier. -/
def State.send (s : State) (o : Op) : State := { s with ops := s.ops ++ [{ o with id := s.nextId }], nextId := s.nextId + 1 }

/-- Add a keyed operation of a fibre: it takes the fibre's next serial. -/
def State.sendKeyed (s : State) (o : Op) : State :=
  match o.u with
  | none => s.send o
  | some u => spend (s.send { o with key := some (fibreKey s u o.fibre ((s.unit u).fib o.fibre).serial 0) }) u o.fibre

/-- A write enters its crew's store queue (R141). -/
def State.enqueue (s : State) (u c : Nat) (keyed : Bool) (o : Op) : State :=
  let m := s.nextId
  let o := { o with phase := .queued }
  let s := if keyed then s.sendKeyed o else s.send o
  s.modCrew u c (fun y => { y with fifo := y.fifo ++ [m] })

/-- The signature class of R388. -/
def OpKind.signs : OpKind → Bool
  | .store | .tagSet | .berth _ | .stDs _ | .stepAdv | .berPub .. | .tagRetire _ => true
  | _ => false

/-- The place an operation takes when it is sent: a redundant unit's operations of the signature class meet in the compare buffer first. -/
def State.sentPhase (s : State) (o : Op) : Phase :=
  match o.u with
  | some u => if (s.unit u).cfg.red && o.kind.signs then .paired else .request
  | none => .request

/-- The clock that times an operation: the cycles of its core, or of its unit's last core. -/
def Op.clock (o : Op) (s : State) : Nat := match o.u with | some u => s.cyc ((s.unit u).poolCore.getD 0) | none => s.now

/-- The serial counter and low-water mark of an originator that is no fibre, by the NODE and FIBRE of its keys (Table 5-8). -/
def State.origin (s : State) (job node fibre : Nat) : Origin := (s.job job).origins.get {} (4 * node + fibre)

/-- The low-water mark that an operation's request carries: its fibre's, or its originator's (R112, R123). -/
def State.lowOf (s : State) (o : Op) : BitVec 16 :=
  match o.u, o.key with
  | some u, _ => ((s.unit u).fib o.fibre).low
  | none, some k => (s.origin k.job k.node k.fibre).low
  | none, none => 0

/-- An operation as it is first sent. -/
def State.sent (s : State) (o : Op) : Op := { o with phase := s.sentPhase o, low := s.lowOf o, sentAt := o.clock s }

/-- A keyed operation that does not pass through a store queue is sent at once. -/
def State.post (s : State) (o : Op) : State := s.sendKeyed (s.sent o)

-- originators that are not fibres (R112) -----------------------------------------------------------------------------

/-- The NODE of a host's keys, and of a die dispatcher's or its engines' (Table 5-8). -/
def hostNode (h : Nat) : Nat := 0xFFFF0000 + h
def dispNode (s : State) (die : Nat) : Nat := 0xFFFE0000 + 16 * s.devId + die

/-- An operation of the originator (job, NODE, FIBRE) that is sent and not answered. -/
def Op.byOrigin (o : Op) (job node fibre : Nat) : Bool :=
  o.u.isNone && o.open_ && o.phase != .queued && (match o.key with | some k => k.job == job && k.node == node && k.fibre == fibre | none => false)

/-- The window and the outstanding limit of R113 for an originator. -/
def originRoom (s : State) (job node fibre : Nat) : Bool :=
  let g := s.origin job node fibre
  decide ((g.serial + 1 - g.low).toNat < 32768 ∧ (s.ops.filter (fun o => o.byOrigin job node fibre)).length < 256)

/-- An originator's operation that waits is sent under its next serial where R113 has room for it. (DEDUCED, log entry 35.) -/
def originTurn (s : State) (m : Nat) : State :=
  match s.op? m with
  | none => s
  | some o => match o.u, o.key with
    | none, some k =>
      if o.phase == .queued && originRoom s k.job k.node k.fibre then
        let g := s.origin k.job k.node k.fibre
        (s.modOp m (fun q => { s.sent q with key := some { k with serial := g.serial } })).modJob k.job (fun j =>
          { j with origins := j.origins.upd {} (4 * k.node + k.fibre) (fun g => { g with serial := g.serial + 1 }) })
      else s
    | _, _ => s

/-- An originator issues an operation for a job: it takes its serial at once, or waits for room. -/
def sendOrigin (s : State) (job node fibre : Nat) (o : Op) : State :=
  originTurn (s.send { o with u := none, phase := .queued, key := some { job := job, node := node, unit := 0xFFFFF, fibre := fibre, part := 0, serial := 0 } }) s.nextId

/-- The dispatcher of a die issues an operation for a job. -/
def sendDisp (s : State) (job die : Nat) (o : Op) : State := sendOrigin s job (dispNode s die) 0 o

-- releases -----------------------------------------------------------------------------------------------------------

/-- An operation that a release of a crew at a scope waits for (R143): its crew's queued stores, unanswered loads and unanswered keyed writes at
scope 0; otherwise every unanswered access of its crew and every write of its core's pending set. -/
def relBlocks (s : State) (u c scope : Nat) (o : Op) : Bool :=
  o.due && o.cmd.isNone &&
  (if scope = 0 then o.u == some u && o.crew == c && (o.phase == .queued || o.kind.load_ || (o.kind.write && o.key.isSome))
   else (o.u == some u && o.crew == c && (o.kind.write || o.kind.load_)) ||
     (o.kind.write && o.phase != .queued &&
       match o.u with | some v => (s.unit v).core == (s.unit u).core && (s.unit v).core.isSome | none => false))

/-- The operations a release at this moment waits for. -/
def releaseIds (s : State) (u c scope : Nat) : List Nat :=
  (s.ops.filter (relBlocks s u c scope)).map (fun o => o.id) ++ (if scope = 0 then [] else (s.unit u).barWaits)

/-- None of these operations is unanswered. -/
def answeredAll (s : State) (ids : List Nat) : Bool := ids.all (fun m => s.ops.all (fun o => o.id != m || !o.open_))

/-- Whether an instruction that waits for the operations of a class must stall, counting those that were there when it first tried. -/
def stallOn (s : State) (u c : Nat) (blocks : Op → Bool) (ids : List Nat) : Option State :=
  let t := ((s.unit u).crew c).tryAt.getD s.nextId
  if s.ops.any (fun o => decide (o.id < t) && blocks o) || !answeredAll s ids
  then some (s.modCrew u c (fun y => { y with tryAt := some t })) else none

/-- An instruction that is a release with no queued write of its own stalls until R143 holds. -/
def releaseStall (s : State) (u c scope : Nat) : Option State :=
  stallOn s u c (relBlocks s u c scope) (if scope = 0 then [] else (s.unit u).barWaits)

-- traps that wait (R122) ---------------------------------------------------------------------------------------------

/-- The first pending trap of each lane's fibre that a test picks. -/
def pendOf (s : State) (x : Ctx) (m : BitVec 32) (p : Pend → Bool) : List Trap :=
  (lanesOf m).filterMap (fun l => ((x.fibre s l).pending.find? p).map (fun e => ⟨l, e.code, e.cause, e.faddr⟩))

/-- Those traps are taken: they no longer wait. -/
def dropPend (s : State) (x : Ctx) (m : BitVec 32) (p : Pend → Bool) : State :=
  (lanesOf m).foldl (fun s l => s.modFib x.u (x.f s l) (fun f => { f with pending := f.pending.eraseP p })) s

/-- Lanes that trap park, and the others stay at the instruction, still to do it. -/
def parkHere (x : Ctx) (ts : List Trap) (s : State) : State :=
  let s := s.modCrew x.u x.c (fun y => { y with tryAt := none, miss := [] })
  match ts with | [] => s | _ :: _ => park s x.u x.c x.e ts

/-- Lanes that trap park, and the entry is left where it stands for the rest, which have done the instruction. -/
def parkOnly (x : Ctx) (ts : List Trap) (s : State) : State := parkHere x ts (clearSkip s x)

/-- An instruction that waits for its lanes' operations: lanes with a pending trap park at it (R122). -/
def prePend (x : Ctx) (s : State) : Option State :=
  match pendOf s x x.act (fun _ => true) with
  | [] => none
  | ps => some (parkHere x ps (dropPend s x x.act (fun _ => true)))

/-- An instruction that is a release at a scope (R122, R143). -/
def preRelease (scope : Nat) (x : Ctx) (s : State) : Option State := (prePend x s).or (releaseStall s x.u x.c scope)

/-- The waits of a memory access with an order and a scope. -/
def preMem (o : Ord) (scope : BitVec 3) (x : Ctx) (s : State) : Option State :=
  if o == .rel || o == .ar then preRelease scope.toNat x s else none

-- acquires -----------------------------------------------------------------------------------------------------------

/-- The nodes of a list that recording would add to a node's consumed-from set (R81). -/
def toRecord (s : State) (n : Nat) (ws : List Nat) : List Nat :=
  ws.eraseDups.filter (fun w => w != n && (s.node w).status != .committed && !(s.node n).consumed.contains w)

/-- The members of the consumed-from set that have not committed. -/
def consumedNow (s : State) (n : Nat) : List Nat := (s.node n).consumed.filter (fun w => (s.node w).status != .committed)

/-- Recording would exceed 8 entries (R81). -/
def recordFull (s : State) (n : Nat) (ws : List Nat) : Bool := decide (8 < (consumedNow s n ++ toRecord s n ws).length)

/-- Record the writers of an acquire (R81). -/
def record (s : State) (n : Nat) (ws : List Nat) : State :=
  s.modNode n (fun y => { y with consumed := consumedNow s n ++ toRecord s n ws })

/-- What the relaxed reads of the active lanes named since their last acquire. -/
def seenOf (s : State) (x : Ctx) : List Nat := (lanesOf x.act).flatMap (fun l => (x.fibre s l).seen)

/-- An acquire fence of the active lanes: what they saw is recorded. -/
def acquireSeen (s : State) (x : Ctx) : State :=
  let s' := record s (s.unit x.u).cfg.node (seenOf s x)
  (lanesOf x.act).foldl (fun s l => s.modFib x.u (x.f s l) (fun f => { f with seen := [] })) s'

-- lane by lane ------------------------------------------------------------------------------------------------------

/-- What an access comes to in one lane: a trap, in the state before the access or in one after what homes have read for it, a wait of the whole
instruction, or the state after it. -/
inductive LaneDo
  | trap (t : Trap)
  | trapIn (s : State) (t : Trap)
  | wait (f : State → State)
  | go (s : State)

/-- The active lanes act in ascending order (R140), each in the state its predecessors left. -/
def eachLane (x : Ctx) (step : State → Nat → LaneDo) (s : State) : Except (State → State) (State × List Trap) :=
  (lanesOf x.act).foldl (fun a l => a.bind (fun st => match step st.1 l with
    | .trap t => .ok (st.1, st.2 ++ [t])
    | .trapIn s t => .ok (s, st.2 ++ [t])
    | .wait f => .error f
    | .go s => .ok (s, st.2))) (.ok (s, []))

/-- The end of an instruction that may have sent operations for which its lanes wait, beyond the first `n`. With one outstanding the entry stands
at the instruction until the last is answered (R122, R247), and then all its faulting lanes leave together (R32). -/
def finishSent (x : Ctx) (i : Instr) (n : Nat) (ts : List Trap) (s : State) : State :=
  match ((s.ops.drop n).filter (fun o => o.kind.returns || o.kind.holds)).map (fun o => o.id) with
  | [] => finish x i ts s
  | ids =>
    let s := (clearSkip s x).modCrew x.u x.c (fun y => { y with tryAt := none, miss := [] })
    let s := ts.foldl (fun s t => s.modFib x.u (x.f s t.lane) (fun f =>
      { f with pending := f.pending ++ [{ id := 0, code := t.code, cause := t.cause, faddr := t.faddr, here := true }] })) s
    s.modEntry x.u x.c x.e (fun en => { en with hold := ids })

/-- A memory instruction with an order and a scope, lane by lane. -/
def memInstr (i : Instr) (o : Ord) (scope : BitVec 3) (s : State) (step : Ctx → State → Nat → LaneDo) : Out :=
  withIssueE i s (preMem o scope) (fun x ts s =>
    (eachLane x (step x) s).map (fun r => finishSent x i s.ops.length (ts ++ r.2) r.1))

/-- A lane that takes a serial and then does `k`, or waits, or traps REPLAY_DIVERGED (R113). -/
def drawing (x : Ctx) (s : State) (l : Nat) (k : State → LaneDo) : LaneDo :=
  match drawOf s x.u (x.f s l) with
  | .stall => .wait id
  | .diverged => .trap ⟨l, cDIVERGED, 1, x.ent.pc⟩
  | .ok => k s

-- flags --------------------------------------------------------------------------------------------------------------

/-- A flag of a crew is set: an operation, an engine command or a sweep-class instruction tied to it is not complete (R246, R247). One of unknown fate is
not, either, until it is sent again and answered (R121). -/
def flagBusy (s : State) (u c k : Nat) : Bool :=
  s.ops.any (fun o => o.open_ && o.cmd.isNone && o.u == some u && o.crew == c && o.flag == some k) ||
  s.cmds.any (fun m => m.u == u && m.crew == c && m.flag == some k) || (s.unit u).sweeps.any (fun w => w.crew == c && w.flag == some k)

/-- A flag is set by something that has not met an unknown fate. -/
def flagDue (s : State) (u c k : Nat) : Bool :=
  (s.crewOps u c).any (fun o => o.flag == some k) || s.cmds.any (fun m => m.u == u && m.crew == c && m.flag == some k && !m.fate) ||
  (s.unit u).sweeps.any (fun w => w.crew == c && w.flag == some k)

/-- The flag of an instruction that stands where the entry stands (R246). -/
def Ctx.flag (x : Ctx) : Option Nat := hdrFlag x.ent.hdr x.ent.llDone

end Sys2Proof.Machine
end

