-- ==== Sys2Proof/Machine/Control.lean ====
section
/-! DEFINITION. Control transfers, leaving the crew, masks, window and special registers, and the system instructions: majors 0x00 to 0x07,
0x0A and 0x37 (R262 to R272, R286 to R292). -/

namespace Sys2Proof.Machine

/-- The entry's lanes go to where `groups` puts them; the lanes of `ts` park first. -/
def transfer (x : Ctx) (ts : List Trap) (groups : Entry → List Entry) (s : State) : State :=
  let s := parkOnly x ts s
  let m := x.ent.mask &&& ~~~(maskOf (ts.map (fun t => t.lane)))
  if m = 0 then s.modCrew x.u x.c (fun y => if y.serial then y else settle y)
  else regroup s x.u x.c x.e (groups { x.ent with mask := m })

/-- The split of R180: the taken lanes at the target, the others at the fall-through header. -/
def takenSplit (en : Entry) (taken : BitVec 32) (target : Addr) : List Entry :=
  let fall := en.after
  let rest := en.mask &&& ~~~taken
  if taken = 0 || target == fall.pc then [fall]
  else if rest = 0 then [{ fall with pc := target }]
  else [{ fall with pc := target, mask := taken }, { fall with mask := rest }]

/-- The grouping of R181: executing lanes by target, in ascending order of their lowest lanes. -/
def byTarget (en : Entry) (target : Nat → Addr) (put : Addr → BitVec 32 → Entry) : List Entry :=
  ((lanesOf en.mask).map target).eraseDups.map (fun a => put a (maskOf ((lanesOf en.mask).filter (fun l => target l == a))))

/-- The address `n` words on. -/
def relTarget (pc : Addr) (n : Int) : Addr := pcAdd pc (BitVec.ofInt 32 (4 * n))

/-- NOP (R286). -/
def execNop (s : State) : Out := withIssue .nop s (fun x ts s => finish x .nop ts s)

/-- BKPT: code SOFT, cause 15 (R286). -/
def execBkpt (s : State) : Out :=
  withIssue .bkpt s (fun x ts s => finish x .bkpt (ts ++ trapAll x.act x.ent.pc (cSOFT, 15)) s)

/-- HALT: the unit's own node is cancelled as by a level-0 CANCEL of the lowest active lane, the host is told, and the active lanes stay parked
at the HALT with no handler and no report (R286). -/
def execHalt (s : State) : Out :=
  withIssue .halt s (fun x ts s =>
    let f := x.f s x.low
    match drawOf s x.u f with
    | .stall => s
    | .diverged => parkHere x [⟨x.low, cDIVERGED, 1, x.ent.pc⟩] s
    | .ok =>
      let y := (s.unit x.u).cfg
      let o := { x.op s .halt x.low (.cancel 0) with owner := .disp 0, loc := (s.node y.node).id, size := 0 }
      let s := (s.post o).tell (.halt y.job (s.node y.node).id y.uidx f)
      let s := parkOnly x ts s
      let en := ((s.unit x.u).crew x.c).entry x.e
      let rest := x.ent.mask &&& ~~~x.act
      if ((s.unit x.u).crew x.c).serial then
        serialStop s x.u x.c x.low { pc := x.ent.pc, lst := .parked, handler := x.ent.handler, held := true }
      else
        s.modCrew x.u x.c (fun z => settle (mergeAll { z with
          chosen := none
          split := placeEntry (z.split.set x.e (if rest = 0 then {} else { en.after with mask := rest }))
            { x.ent with mask := x.act, status := .parked } })))

/-- BR: the taken lanes are the active lanes whose predicate equals 1 - sense (R263). -/
def execBr (p : Nib) (sense : Bool) (off : BitVec 21) (s : State) : Out :=
  withIssue (.br p sense off) s (fun x ts s =>
    let taken := maskOf ((lanesOf x.act).filter (fun l => x.p s l p != sense))
    transfer x ts (fun en => takenSplit en (taken &&& en.mask) (relTarget x.ent.pc off.toInt)) s)

/-- BRA (R264). -/
def execBra (off : BitVec 26) (s : State) : Out :=
  withIssue (.bra off) s (fun x ts s => transfer x ts (fun en => takenSplit en (x.act &&& en.mask) (relTarget x.ent.pc off.toInt)) s)

/-- The return address of CALL: the next clause header. -/
def retAddr (x : Ctx) : Word := x.ent.pc.extractLsb' 0 32 + 4

/-- CALL, relative (R265). -/
def execCall (d : VReg) (off : BitVec 18) (s : State) : Out :=
  withIssue (.call d off) s (fun x ts s =>
    transfer x ts (fun en => takenSplit en (x.act &&& en.mask) (relTarget x.ent.pc off.toInt))
      (wroteRegs x (.call d off) (applyLanes x (fun _ => wr d (retAddr x)) s)))

/-- Lanes to register targets: each active lane to its own, the others to the fall-through header (R181). -/
def toRegs (x : Ctx) (ts : List Trap) (a : VReg) (s s' : State) : State :=
  transfer x ts (fun en => byTarget en
    (fun l => if x.act.getLsbD l then pcTo x.ent.pc (x.rd s l a) else en.after.pc)
    (fun t m => { en.after with pc := t, mask := m })) s'

/-- CALL, register (R265): the target is read before the return address is written. -/
def execCallReg (d a : VReg) (s : State) : Out :=
  withIssue (.callReg d a) s (fun x ts s => toRegs x ts a s (wroteRegs x (.callReg d a) (applyLanes x (fun _ => wr d (retAddr x)) s)))

/-- RET (R266). -/
def execRet (a : VReg) (s : State) : Out := withIssue (.ret a) s (fun x ts s => toRegs x ts a s s)

/-- JR (R266). -/
def execJr (a : VReg) (s : State) : Out := withIssue (.jr a) s (fun x ts s => toRegs x ts a s s)

/-- Something a fibre issued is not complete, on any path. -/
def fibreBusy (s : State) (x : Ctx) (l : Nat) : Bool :=
  let f := x.f s l
  !(s.fibOps x.u f).isEmpty || s.cmds.any (fun m => m.u == x.u && m.fibre == f) ||
  (s.unit x.u).sweeps.any (fun w => w.crew == x.c && w.active.getLsbD l)

/-- The lanes of `x` leave and the rest of the entry goes on to the next header. -/
def leaveAndFall (x : Ctx) (ts : List Trap) (s : State) : State :=
  let s := parkOnly x ts s
  let s := s.modEntry x.u x.c x.e (fun en => if en.mask = 0 then en else en.after)
  let s := leaveCrew s x.u x.c x.e x.act
  s.modCrew x.u x.c (fun y => if y.serial then y else settle (mergeAll y))

/-- Free basin slots, the lowest first, at most `n`. (DESIGN CHOICE, log entry 50.) -/
def freeSlots (s : State) (u n : Nat) : List Nat := ((List.range 1024).filter (fun k => !slotUsed s u k)).take n

/-- An instruction that fills `n` basin slots needs their lines beside its registers (R46). -/
def preBasin (i : Instr) (n : Nat) (x : Ctx) (s : State) : Option State :=
  match askRows s x.u x.c (readRows s x i) (destRows s x i) ((freeSlots s x.u n).flatMap slotRows) with
  | (.ok, _) => none
  | (_, s) => some s

/-- Basin slots are written, each in three whole lines (R60). -/
def putSlots (s : State) (u : Nat) (bs : List (Nat × BasinSlot)) : State :=
  let rows := bs.flatMap (fun b => slotRows b.1)
  cleanRows (useRows (s.modUnit u (fun y => bs.foldl (fun y b => putSlot y b.1 b.2) y)) u rows) u rows

/-- What BR.FAR waits for (R194, R267): every operation of its lanes' fibres, then the fence and the room to record what it acquires, then the lines. -/
def preFar (i : Instr) (x : Ctx) (s : State) : Option State :=
  (prePend x s).or (
    if (lanesOf x.act).any (fibreBusy s x) then some s
    else (releaseStall s x.u x.c 7).or (
      if recordFull s (s.unit x.u).cfg.node (seenOf s x) then some s else preBasin i (lanesOf x.act).length x s))

/-- BR.FAR: each active lane's fibre goes to a basin slot (R194, R267). -/
def execBrFar (lm1 : BitVec 6) (off : BitVec 19) (s : State) : Out :=
  withIssueE (.brFar lm1 off) s (preFar (.brFar lm1 off)) (fun x ts s =>
    let s := acquireSeen s x
    let slot := fun l : Nat =>
      let f := x.fibre s l
      ({ pc := relTarget x.ent.pc off.toInt, pred := f.pred, fibre := x.f s l, serial := f.serial, live := lm1.toNat + 1, forked := false
         regs := (List.range (lm1.toNat + 1)).map (fun i => x.rdi s l 0 i) } : BasinSlot)
    let slots := (lanesOf x.act).map slot
    let s := putSlots s x.u ((freeSlots s x.u slots.length).zip slots)
    .ok (leaveAndFall x ts (slots.foldl (fun s b => s.modFib x.u b.fibre (fun f => { f with inBasin := true })) s)))

/-- The indices that FORK gives its active lanes: the lowest never started or forked, as far as they go (R195). -/
def forkIndices (s : State) (x : Ctx) : List Nat :=
  let fs := (s.unit x.u).fibs
  ((List.range fs.length).filter (fun k => !(fs.getD k {}).exists_)).take (lanesOf x.act).length

/-- FORK: a release at `.h7`, then one fibre per active lane at the lowest index never started or forked (R195, R268). -/
def execFork (lm1 : BitVec 3) (d a b : VReg) (s : State) : Out :=
  let i := Instr.fork lm1 d a b
  withIssueE i s (fun x s => (preRelease 7 x s).or (preBasin i (forkIndices s x).length x s)) (fun x ts s =>
    let made := (lanesOf x.act).zip (forkIndices s x)
    let slot := fun (p : Nat × Nat) => ({ pc := pcTo x.ent.pc (x.rd s p.1 a), pred := 1, fibre := p.2, serial := 0, live := lm1.toNat + 1, forked := true
                                          regs := (List.range (lm1.toNat + 1)).map (fun i => x.rdi s p.1 b i) } : BasinSlot)
    let s' := putSlots s x.u ((freeSlots s x.u made.length).zip (made.map slot))
    let s' := made.foldl (fun s p => s.modFib x.u p.2 (fun _ => { exists_ := true, inBasin := true })) s'
    let fx := fun l => wr d (match made.find? (fun p => p.1 == l) with | some p => BitVec.ofNat 32 p.2 | none => 0xFFFFFFFF)
    .ok (finish x i ts (wroteRegs x i (applyLanes x fx s'))))

/-- Operations and engine commands of unknown fate whose traps have been taken are sent again, one that its owner holds still among them (R121);
`value`: whether an answer still writes its destination. (DEDUCED, log entry 25.) -/
def resendFate (s : State) (u f : Nat) (value : Op → Bool) : State :=
  let held := ((s.unit u).fib f).pending.map (fun e => e.id)
  { s with
    ops := s.ops.map (fun o =>
      if o.fated && o.u == some u && o.fibre == f && !held.contains (o.cmd.getD o.id) then
        { o with phase := if o.phase == .held then .held else .request, tries := 0, sentAt := s.cyc (s.unit u).at_
                 dst := if value o then o.dst else [], pdst := if value o then o.pdst else none }
      else o)
    cmds := s.cmds.map (fun m => if m.fate && m.u == u && m.fibre == f && !held.contains m.id then { m with fate := false, tries := 0, askedAt := s.cyc (s.unit u).at_ } else m) }

/-- What END waits for (R188, R122): every operation of its lanes' fibres; in handler mode those of unknown fate are sent again first (R121). -/
def preEnd (x : Ctx) (s : State) : Option State :=
  (prePend x s).or (
    let s := if x.ent.handler then (lanesOf x.act).foldl (fun s l => resendFate s x.u (x.f s l) (fun _ => false)) s else s
    if (lanesOf x.act).any (fibreBusy s x) then some s else none)

/-- END: the active lanes' fibres end (R188, R269); in handler mode this abandons the trap. -/
def execEndFibre (s : State) : Out :=
  withIssueE .endFibre s preEnd (fun x ts s =>
    let fs := (lanesOf x.act).map (x.f s)
    .ok (leaveAndFall x ts (s.modUnit x.u (fun y => { y with
      fibs := fs.foldl (fun l f => l.modify f (fun z => { z with ended := true })) y.fibs }))))

/-- JOIN (R185). -/
def execJoin (m : Nib) (s : State) : Out :=
  withIssue (.join m) s (fun x ts s =>
    finish x (.join m) ts (s.modCrew x.u x.c (fun y => { y with masks := y.masks.modify m.toNat (fun v => v ||| x.act) })))

/-- LEAVE (R186). -/
def execLeave (m : Nib) (s : State) : Out :=
  withIssue (.leave m) s (fun x ts s =>
    let s := s.modCrew x.u x.c (fun y => { y with masks := y.masks.modify m.toNat (fun v => v &&& ~~~x.act) })
    finish x (.leave m) ts (testMask s x.u x.c m.toNat))

/-- WAIT (R187, R191). -/
def execWait (m : Nib) (s : State) : Out :=
  withIssue (.wait m) s (fun x _ s => beginWait (parkOnly x [] s) x.u x.c x.e x.act m)

/-- MREAD (R270). -/
def execMread (d : VReg) (m : Nib) (s : State) : Out :=
  laneInstr (.mread d m) s (fun x s _ => wr d (((s.unit x.u).crew x.c).masks.getD m.toNat 0))

/-- A new window base per active lane; one that is no window base traps ILLEGAL cause 2 and leaves WB (R174, R271). -/
def moveWindow (i : Instr) (w : Ctx → State → Nat → Int) (s : State) : Out :=
  withIssue i s (fun x ts s =>
    let ok := fun l => decide (w x s l % 8 = 0 ∧ 0 ≤ w x s l ∧ w x s l ≤ 896)
    let s' := s.modUnit x.u (fun y => (lanesOf x.act).foldl (fun y l =>
      if ok l then y.modLane x.c l (fun f => { f with wb := (w x s l).toNat }) else y) y)
    finish x i (ts ++ trapAll (maskOf ((lanesOf x.act).filter (fun l => !ok l))) x.ent.pc (cILLEGAL, 2)) s')

/-- WBASE n (R271). -/
def execWbase (b : VReg) (s : State) : Out := moveWindow (.wbase b) (fun _ _ _ => 8 * (b.toNat : Int)) s

/-- WBASE.REL n (R271). -/
def execWbaseRel (b : VReg) (s : State) : Out :=
  moveWindow (.wbaseRel b) (fun x s l => ((s.unit x.u).wb x.c l : Int) + 8 * b.toInt) s

/-- WBASE v (R271): read in the old window. -/
def execWbaseReg (a : VReg) (s : State) : Out := moveWindow (.wbaseReg a) (fun x s l => ((x.rd s l a).toNat : Int)) s

/-- The step that a core's replica holds (R99, R100). -/
def stepG (s : State) (job core : Nat) : BitVec 24 :=
  let j := s.job job
  match j.gOld with
  | some g => if j.gNew.contains core then j.g else g
  | none => j.g

/-- ENG.ST (Table 9-7). -/
def engSt (y : UnitSt) : Word := (0 : BitVec 29) ++ BitVec.ofBool y.engQueued ++ BitVec.ofBool y.engPower ++ BitVec.ofBool y.engBusy

/-- The value of a special register in a lane (Table 11-13). -/
def sregVal (x : Ctx) (s : State) (l : Nat) (r : SReg) : Word :=
  let y := s.unit x.u
  let f := x.fibre s l
  match r with
  | .fibreIdx => BitVec.ofNat 32 (x.f s l)
  | .laneIdx => BitVec.ofNat 32 l
  | .crewIdx => BitVec.ofNat 32 x.c
  | .unitIdx => BitVec.ofNat 32 y.cfg.uidx
  | .gangIdx => BitVec.ofNat 32 y.cfg.gidx
  | .mbTag => y.cfg.mb.setWidth 32
  | .stepG => (stepG s y.cfg.job y.at_).setWidth 32
  | .partW => y.cfg.part
  | .engSt => engSt y
  | .fpmode => f.fpmode.setWidth 32
  | .fpflags => f.fpflags.setWidth 32
  | .statAmax => f.amax
  | .statSat => f.sat
  | .cyc => BitVec.ofNat 32 (s.cyc y.at_)
  | .trapinfo0 => (0 : BitVec 20) ++ f.cause ++ f.code
  | .trapinfo1 => f.faddr.extractLsb' 0 32
  | .trapinfo2 => f.faddr.extractLsb' 32 32
  | .xrootLo => y.xroot.extractLsb' 0 32
  | .xrootHi => y.xroot.extractLsb' 32 32

/-- SREAD (R256, R272). -/
def execSread (d : VReg) (r : SReg) (s : State) : Out :=
  laneInstr (.sread d r) s (fun x s l => wr d (sregVal x s l r))

/-- What SWRITE writes in a fibre (R272). -/
def sregSet (r : SReg) (v : Word) (f : Fibre) : Fibre :=
  match r with
  | .fpmode => { f with fpmode := (v &&& 3).setWidth 8 }
  | .fpflags => { f with fpflags := v.setWidth 8 &&& 0xBF }
  | .statAmax => { f with amax := v &&& 0x7FFFFFFF }
  | .statSat => { f with sat := v }
  | .trapinfo0 => { f with code := v.extractLsb' 0 8, cause := v.extractLsb' 8 4 }
  | .trapinfo1 => { f with faddr := f.faddr.extractLsb' 32 32 ++ v }
  | .trapinfo2 => { f with faddr := v ++ f.faddr.extractLsb' 0 32 }
  | _ => f

/-- SWRITE (R256, R272); the gate has refused read-only and privileged registers. -/
def execSwrite (r : SReg) (a : VReg) (s : State) : Out :=
  withIssue (.swrite r a) s (fun x ts s =>
    finish x (.swrite r a) ts (s.modUnit x.u (fun y =>
      (lanesOf x.act).foldl (fun y l => y.modLane x.c l (sregSet r (x.rd s l a))) y)))

/-- TRAP (R287). -/
def execTrap (c : Nib) (s : State) : Out :=
  withIssue (.trap c) s (fun x ts s => finish x (.trap c) (ts ++ trapAll x.act x.ent.pc (cSOFT, c)) s)

/-- Where a lane resumes at ERET (R288): bits [63:32] of the PC with register 1,023. -/
def resumeAt (x : Ctx) (s : State) (l : Nat) : Addr := pcTo x.ent.pc ((s.unit x.u).reg x.c l 1023)

/-- The entry that ERET makes at a resume address (R288, R378). With SKIP it stands at the word after it; where the word there is the last of
its clause it stands at that word and has still to step past it. -/
def eretEntry (s : State) (u : Nat) (skip : Bool) (a : Addr) (m : BitVec 32) : Entry :=
  let e := openAt s u false a m
  if !skip || (e.started && e.idx == hdrN e.hdr) then e else openAt s u false (pcAdd a 4) m

/-- Sending operations of unknown fate again at ERET, and the lanes that wait for their answers (R121). -/
def eretFate (s : State) (x : Ctx) (skip : Bool) (l : Nat) : State :=
  let f := x.f s l
  let here := fun (o : Op) => !skip && o.pc == resumeAt x s l && (o.dst != [] || o.pdst.isSome || o.kind.holds)
  let wait := s.ops.find? (fun o => o.fated && o.u == some x.u && o.fibre == f && o.cmd.isNone && here o)
  (resendFate s x.u f here).modFib x.u f (fun y => { y with fate := wait.map (fun o => o.id) })

/-- Lanes step past the word that they stand at: the entry that holds exactly them, or each where the crew has entered serial mode. -/
def stepPast (s : State) (u c : Nat) (g : Entry) : State :=
  let y := (s.unit u).crew c
  if y.serial then (lanesOf g.mask).foldl (fun s l => serialNext s u c l) s
  else match y.split.findIdx? (fun e => e.status == .runnable && !e.handler && e.pc == g.pc && e.mask == g.mask) with
    | some k => goNext s u c k false
    | none => s

/-- ERET (R288, R378): every executing lane resumes at the address in its register 1,023, whose line it reads, grouped under R181, with handler mode
cleared. -/
def execEret (skip : Bool) (s : State) : Out :=
  withIssueE (.eret skip) s (fun _ _ => none) (fun x ts s =>
    match askRows s x.u x.c [rowReg x.c 1023] [] [] with
    | (.ok, s) =>
      let s := (lanesOf x.ent.mask).foldl (fun s l => eretFate s x skip l) s
      let s := parkOnly x ts s
      let gs := byTarget x.ent (fun l => resumeAt x s l) (fun a m => eretEntry s x.u skip a m)
      let past := gs.filter (fun g => skip && (lanesOf g.mask).all (fun l => resumeAt x s l == g.pc))
      if ((s.unit x.u).crew x.c).serial then
        let s := s.modCrew x.u x.c (fun y => { y with split := y.split.set 0 (gs.headD {}), chosen := some 0 })
        .ok (leaveSerial (if past = [] then s else goNext s x.u x.c 0 false) x.u x.c)
      else
        let s := past.foldl (fun s g => stepPast s x.u x.c g) (regroup s x.u x.c x.e gs)
        .ok (leaveSerial s x.u x.c)
    | _ => .error (fun s => (askRows s x.u x.c [rowReg x.c 1023] [] []).2))

/-- CYC (R289). -/
def execCyc (d : VReg) (s : State) : Out :=
  laneInstr (.cyc d) s (fun x s _ =>
    let t := s.cyc (s.unit x.u).at_
    { regs := [(d.toNat, BitVec.ofNat 32 t), (d.toNat + 1, BitVec.ofNat 32 (t / 2 ^ 32))] })

/-- What REDN.CTL SYNC waits for (R291): the stores of its lanes' fibres, compared in a redundant unit, answered in any other. -/
def preSync (x : Ctx) (s : State) : Option State :=
  let red := (s.unit x.u).cfg.red
  let fs := (lanesOf x.act).map (x.f s)
  stallOn s x.u x.c (fun o => o.open_ && o.cmd.isNone && o.u == some x.u && fs.contains o.fibre && o.kind.write &&
    (!red || o.phase == .queued || o.phase == .paired)) []

/-- REDN.CTL SYNC (R291). -/
def execRednCtlSync (s : State) : Out := withIssueE .rednCtlSync s preSync (fun x ts s => .ok (finish x .rednCtlSync ts s))

/-- The leader of a redundant unit: itself, or its twin where it is the trailer (R387). -/
def leaderOf (s : State) (u : Nat) : Nat := if (s.unit u).cfg.trailer then ((s.unit u).cfg.twin).getD u else u

/-- A key (Table 5-2). -/
def Key.num (k : Key) : Nat := k.job + k.node * 2 ^ 32 + k.unit * 2 ^ 64 + k.fibre * 2 ^ 84 + k.part * 2 ^ 94 + k.serial.toNat * 2 ^ 110

/-- Two signatures are equal (R388): always where the parts are. (DESIGN CHOICE, log entry 14.) -/
def Sig.same (a b : Sig) : Bool :=
  (a.word == b.word && a.addr == b.addr && a.data == b.data) ||
  Config.signature a.key a.word a.addr a.data == Config.signature b.key b.word b.addr b.data

/-- A PAIR_MISMATCH: the node waits to be retried or cancelled, and nothing unmatched of it is sent (R390). -/
def pairMismatch (s : State) (n : Nat) : State := s.modNode n (fun y => { y with doom := if y.doom = 0 then 2 else y.doom })

/-- What a signature meets in the compare buffer of its leader (R388): no room, the other copy's that differs, room to wait, or the other copy's, with the
operations of the leader and of the trailer. -/
inductive Met
  | full | mismatch
  | first (s : State)
  | second (s : State) (lead trail : Nat)

/-- A signature of unit `u` enters the buffer of 64. (DEDUCED, log entry 34.) -/
def meetSig (s : State) (u : Nat) (g : Sig) : Met :=
  let l := leaderOf s u
  match (s.unit l).compare.find? (fun h => h.key == g.key && h.trailer != g.trailer && h.localClass == g.localClass) with
  | some h =>
    if !g.same h then .mismatch
    else .second (s.modUnit l (fun y => { y with compare := y.compare.filter (fun e => e != h) })) (if g.trailer then h.op else g.op) (if g.trailer then g.op else h.op)
  | none => if 64 ≤ (s.unit l).compare.length then .full else .first (s.modUnit l (fun y => { y with compare := y.compare ++ [g] }))

/-- A signature of the local class (R388): `none` where its copy must stall, else the state after it and whether the operation goes on. -/
def signLocal (s : State) (u : Nat) (g : Sig) : Option (State × Bool) :=
  match meetSig s u g with
  | .full => none
  | .mismatch => some (pairMismatch s (s.unit u).cfg.node, false)
  | .first s => some (s, true)
  | .second s _ _ => some (s, true)

/-- REDN.CTL COUNT (R291): unmatched entries of the compare buffer. -/
def execRednCtlCount (d : VReg) (s : State) : Out :=
  laneInstr (.rednCtlCount d) s (fun x s _ =>
    wr d (if (s.unit x.u).cfg.red then BitVec.ofNat 32 (s.unit (leaderOf s x.u)).compare.length else 0))

/-- FINJ injects in a lane (R292): ROLE picks the copies, ONCE the node's first run. -/
def injects (s : State) (u : Nat) (v : Word) : Bool :=
  let y := (s.unit u).cfg
  (match bits v.toNat 5 2 with
   | 0 => true
   | 1 => y.red && !y.trailer
   | 2 => y.red && y.trailer
   | _ => false) && (!v.getLsbD 7 || (s.node y.node).first)

/-- One lane's injection (R292). -/
def inject (x : Ctx) (d : VReg) (kind bit l : Nat) (s : State) : State :=
  let r := (s.unit x.u).wb x.c l + d.toNat
  let row := rowReg x.c r
  match kind with
  | 0 => s.modUnit x.u (fun y => y.setReg x.c l r (y.reg x.c l r ^^^ BitVec.twoPow 32 bit))
  | 1 => s.modUnit x.u (fun y => y.modRow row (fun w => { w with poison := true }))
  | _ => if bit ≤ 17 then
      s.modUnit x.u (fun y => y.modRow row (fun w => { w with bad := if w.bad.contains bit then w.bad else w.bad ++ [bit] }))
    else s

/-- FINJ (R292). -/
def execFinj (d a : VReg) (kind : BitVec 3) (s : State) : Out :=
  withIssue (.finj d a kind) s (fun x ts s =>
    let vs := (lanesOf x.act).map (fun l => (l, x.rd s l a))
    finish x (.finj d a kind) ts (vs.foldl (fun s lv =>
      if injects s x.u lv.2 then inject x d kind.toNat (bits lv.2.toNat 0 5) lv.1 s else s) s))

end Sys2Proof.Machine
end

