-- ==== Sys2Proof/Machine/Access.lean ====
section
/-! DEFINITION. How one lane's memory access is addressed, checked and put on its way (R318, R20, R21, R31, R141, R158). The instructions that use
it stand in Memory.lean, Atomics.lean and Sync.lean. -/

namespace Sys2Proof.Machine

/-- A global address (R318): the pair plus the scaled signed offset, modulo 2^64. -/
def Ctx.ea (x : Ctx) (s : State) (l : Nat) (a : VReg) (off : Int) (size : Nat) : BitVec 64 := x.pair s l a + BitVec.ofInt 64 (off * size)

/-- A scratchpad or gang-window address (R318), modulo 2^32. -/
def Ctx.la (x : Ctx) (s : State) (l : Nat) (a : VReg) (off : Int) (size : Nat) : Nat := (x.rd s l a + BitVec.ofInt 32 (off * size)).toNat

/-- Where a lane's access goes. -/
inductive Target
  | glob (ea : BitVec 64)
  | gang (addr : Nat)

/-- What the checks of a lane's access yield: the owner, the place there, and the page of a global access. -/
structure Place where
  owner : Owner
  loc : Nat
  va : BitVec 64
  leaf : Option Leaf

/-- The checks of R31 for a lane's access of a class: global, or through the gang window. -/
def Target.check (t : Target) (s : State) (x : Ctx) (a : Acc) (n align named : Nat) : Except Why Place :=
  match t with
  | .glob ea => (checkLane s x.u x.ent.handler a ea align named).map (fun k => ⟨ownerOf k.loc, k.loc, ea, some k.leaf⟩)
  | .gang d => (checkGang s x.u d n align).map (fun k => ⟨.pool k.1, k.2, BitVec.ofNat 64 d, none⟩)

/-- The walk of an access reads the page tables (R70). -/
def Target.walks (t : Target) (s : State) (x : Ctx) : State :=
  match t with
  | .glob ea => translateReads s (s.unit x.u).core (s.unit x.u).cfg.job (s.unit x.u).xroot ea
  | .gang _ => s

/-- The address a trap of the access reports (Table 16-2). -/
def Target.addr : Target → Addr | .glob ea => ea | .gang d => BitVec.ofNat 64 d

/-- The race check of an access that has been checked (R158). -/
def Place.race (p : Place) (s : State) (x : Ctx) (n : Nat) (k : RKind) : Option (BitVec 4) × State :=
  match p.owner, p.leaf with
  | .pool o, _ => raceScr s x.u x.c o p.loc n k
  | _, some lf => raceGlobal s x.u x.c lf p.loc n k
  | _, none => (none, s)

/-- An operation of a lane on a place. -/
def Place.op (p : Place) (x : Ctx) (s : State) (i : Instr) (l n : Nat) (k : OpKind) (o : Ord) (scope : BitVec 3) : Op :=
  { x.op s i l k with
    owner := p.owner, loc := p.loc, va := p.va, leaf := p.leaf, size := n, order := o, scope := scope.toNat, priv := x.ent.handler }

/-- Register lines that a lane's result goes to, in its window. -/
def Ctx.dst (x : Ctx) (s : State) (l : Nat) (rs : List Nat) : List Nat := rs.map (fun r => (s.unit x.u).wb x.c l + r)

/-- A lane's load: checked, then a read request (R320). It waits for the stores that R141 names. -/
def loadLane (i : Instr) (t : Target) (a : Acc) (n align : Nat) (k : OpKind) (rs : List Nat) (o : Ord) (scope : BitVec 3)
    (x : Ctx) (s : State) (l : Nat) : LaneDo :=
  let s := t.walks s x
  match t.check s x a n align 0 with
  | .error w => .trapIn s ⟨l, w.1, w.2, t.addr⟩
  | .ok p =>
    match p.race s x n .rd with
    | (some c, _) => .trapIn s ⟨l, cDETRACE, c, t.addr⟩
    | (none, s) => if mustWait s x.u x.c p.owner p.leaf p.loc n || !s.logRoom x.u then .wait id
      else .go (s.send { p.op x s i l n k o scope with dst := x.dst s l rs })

/-- A lane's keyed write or read-modify-write: checked, then queued under the fibre's next serial (R141, R113). `mk` adds its operands. -/
def queueLane (i : Instr) (t : Target) (a : Acc) (n align named : Nat) (rk : RKind) (k : OpKind) (o : Ord) (scope : BitVec 3) (mk : Op → Op)
    (x : Ctx) (s : State) (l : Nat) : LaneDo :=
  let s := t.walks s x
  match t.check s x a n align named with
  | .error w => .trapIn s ⟨l, w.1, w.2, t.addr⟩
  | .ok p =>
    match p.race s x n rk with
    | (some c, _) => .trapIn s ⟨l, cDETRACE, c, t.addr⟩
    | (none, s) => drawing x s l (fun s => .go (s.enqueue x.u x.c true (mk (p.op x s i l n k o scope))))

/-- Scratchpad bytes as an instruction of a crew reads them: it waits for an absent line, and a poisoned one is consumed (R46, R47, R72). -/
def scrRead (s : State) (u c off n : Nat) : Except (State → State) (List Byte × State) :=
  match askRows s u c (scrRows off n) [] [] with
  | (.ok, s) => .ok ((s.unit u).scrN off n, s)
  | (_, _) => .error (fun s => (askRows s u c (scrRows off n) [] []).2)

/-- Bytes as register values of four bytes each. -/
def wordsOf : List Byte → Nat → List Word
  | _, 0 => []
  | bs, n + 1 => BitVec.ofNat 32 (leNat (bs.take 4)) :: wordsOf (bs.drop 4) n

/-- The registers a load of `n` bytes fills (R320): one, zero-extended, or four. -/
def loadWords (bs : List Byte) : List Word := if bs.length = 16 then wordsOf bs 4 else [BitVec.ofNat 32 (leNat bs)]

/-- Write register lines of a lane, each a merge into its row (R39). -/
def State.setRegs (s : State) (u c l : Nat) (rs : List Nat) (vs : List Word) : State :=
  let s := rs.foldl (fun s r => touchRow (fetchRow s u (rowReg c r)) u (rowReg c r)) s
  s.modUnit u (fun y => (rs.zip vs).foldl (fun y rv => y.setReg c l rv.1 rv.2) y)

/-- The low `n` bytes of the data registers of a store (R320). -/
def storeBytes (x : Ctx) (s : State) (l : Nat) (d : VReg) (n : Nat) : List Byte :=
  if n = 16 then (List.range 4).flatMap (fun i => leBytes (x.rdi s l d i).toNat 4) else leBytes (x.rd s l d).toNat n

/-- Mark a stored operation: its data and its flag. -/
def withData (x : Ctx) (bs : List Byte) (o : Op) : Op := { o with data := bs, flag := x.flag }

end Sys2Proof.Machine
end

