-- ==== Sys2Proof/Machine/Memory.lean ====
section
/-! DEFINITION. Loads and stores of global memory, the scratchpad and the gang window: majors 0x21 to 0x27 (R319 to R322). -/

namespace Sys2Proof.Machine

/-- Bytes of a size code of major 0x27 (R322). -/
def szBytes : Sz → Nat | .w => 4 | .q => 16 | .h => 2 | .b => 1

/-- The registers that data of a size takes from `d`. -/
def szRegs (d : VReg) (n : Nat) : List Nat := blk d (if n = 16 then 4 else 1)

/-- A global load (R320). -/
def gload (i : Instr) (n : Nat) (o : Ord) (sc : BitVec 3) (d a : VReg) (off : Int) (s : State) : Out :=
  memInstr i o sc s (fun x s l => loadLane i (.glob (x.ea s l a off n)) .ld n n .load (szRegs d n) o sc x s l)

/-- A global store (R320). -/
def gstore (i : Instr) (n : Nat) (o : Ord) (sc : BitVec 3) (d a : VReg) (off : Int) (s : State) : Out :=
  memInstr i o sc s (fun x s l =>
    queueLane i (.glob (x.ea s l a off n)) .st n n 0 .wr .store o sc (withData x (storeBytes x s l d n)) x s l)

/-- LD.w (R319). -/
def execLdW (o : Ord) (sc : BitVec 3) (d a : VReg) (off : BitVec 7) (s : State) : Out := gload (.ldW o sc d a off) 4 o sc d a off.toInt s
/-- LD.q (R319). -/
def execLdQ (o : Ord) (sc : BitVec 3) (d a : VReg) (off : BitVec 7) (s : State) : Out := gload (.ldQ o sc d a off) 16 o sc d a off.toInt s
/-- LD.b (R319). -/
def execLdB (o : Ord) (sc : BitVec 3) (d a : VReg) (off : BitVec 6) (s : State) : Out := gload (.ldB o sc d a off) 1 o sc d a off.toInt s
/-- LD.h (R319). -/
def execLdH (o : Ord) (sc : BitVec 3) (d a : VReg) (off : BitVec 6) (s : State) : Out := gload (.ldH o sc d a off) 2 o sc d a off.toInt s
/-- ST.w (R319). -/
def execStW (o : Ord) (sc : BitVec 3) (d a : VReg) (off : BitVec 7) (s : State) : Out := gstore (.stW o sc d a off) 4 o sc d a off.toInt s
/-- ST.q (R319). -/
def execStQ (o : Ord) (sc : BitVec 3) (d a : VReg) (off : BitVec 7) (s : State) : Out := gstore (.stQ o sc d a off) 16 o sc d a off.toInt s
/-- ST.b (R319). -/
def execStB (o : Ord) (sc : BitVec 3) (d a : VReg) (off : BitVec 6) (s : State) : Out := gstore (.stB o sc d a off) 1 o sc d a off.toInt s
/-- ST.h (R319). -/
def execStH (o : Ord) (sc : BitVec 3) (d a : VReg) (off : BitVec 6) (s : State) : Out := gstore (.stH o sc d a off) 2 o sc d a off.toInt s

/-- One lane of LD.S: read at issue, after the crew's older loads and the stores that R141 names. -/
def ldsLane (n : Nat) (d a : VReg) (off : Int) (x : Ctx) (s : State) (l : Nat) : LaneDo :=
  let y := s.unit x.u
  let at_ := x.la s l a off n
  match checkScr y at_ n n with
  | some w => .trap ⟨l, w.1, w.2, BitVec.ofNat 64 at_⟩
  | none =>
    match raceScr s x.u x.c x.u at_ n .rd with
    | (some c, _) => .trap ⟨l, cDETRACE, c, BitVec.ofNat 64 at_⟩
    | (none, s) =>
      if mustWait s x.u x.c (.pool x.u) none at_ n then .wait id
      else match scrRead s x.u x.c at_ n with
        | .error f => .wait f
        | .ok (bs, s) => .go (s.setRegs x.u x.c l (x.dst s l (szRegs d n)) (loadWords bs))

/-- LD.S (R322). -/
def execLdS (o : Ord) (sc : BitVec 3) (d a : VReg) (z : Sz) (off : BitVec 3) (s : State) : Out :=
  let i := Instr.ldS o sc d a z off
  withIssueE i s (preMem o sc) (fun x ts s =>
    (eachLane x (ldsLane (szBytes z) d a off.toInt x) s).map (fun r =>
      finish x i (ts ++ r.2) (if r.2 = [] then wroteRegs x i r.1 else r.1)))

/-- One lane of ST.S: unkeyed, through the store queue (R141, R322). -/
def stsLane (i : Instr) (n : Nat) (o : Ord) (sc : BitVec 3) (d a : VReg) (off : Int) (x : Ctx) (s : State) (l : Nat) : LaneDo :=
  let at_ := x.la s l a off n
  match checkScr (s.unit x.u) at_ n n with
  | some w => .trap ⟨l, w.1, w.2, BitVec.ofNat 64 at_⟩
  | none =>
    match raceScr s x.u x.c x.u at_ n .wr with
    | (some c, _) => .trap ⟨l, cDETRACE, c, BitVec.ofNat 64 at_⟩
    | (none, s) =>
      let p : Place := ⟨.pool x.u, at_, BitVec.ofNat 64 at_, none⟩
      .go (s.enqueue x.u x.c false (withData x (storeBytes x s l d n) (p.op x s i l n .scrStore o sc)))

/-- ST.S (R322). -/
def execStS (o : Ord) (sc : BitVec 3) (d a : VReg) (z : Sz) (off : BitVec 3) (s : State) : Out :=
  let i := Instr.stS o sc d a z off
  memInstr i o sc s (stsLane i (szBytes z) o sc d a off.toInt)

/-- LD.G (R322). -/
def execLdG (o : Ord) (sc : BitVec 3) (d a : VReg) (z : Sz) (off : BitVec 3) (s : State) : Out :=
  let i := Instr.ldG o sc d a z off
  let n := szBytes z
  memInstr i o sc s (fun x s l => loadLane i (.gang (x.la s l a off.toInt n)) .ld n n .load (szRegs d n) o sc x s l)

/-- ST.G (R322). -/
def execStG (o : Ord) (sc : BitVec 3) (d a : VReg) (z : Sz) (off : BitVec 3) (s : State) : Out :=
  let i := Instr.stG o sc d a z off
  let n := szBytes z
  memInstr i o sc s (fun x s l =>
    queueLane i (.gang (x.la s l a off.toInt n)) .st n n 0 .wr .store o sc (withData x (storeBytes x s l d n)) x s l)

end Sys2Proof.Machine
end

