-- ==== Sys2Proof/Machine/Atomics.lean ====
section
/-! DEFINITION. Atomics, reductions and stamped operations at issue: majors 0x28 to 0x2B (R323 to R326), and the staging of floating-point
reductions in a deterministic launch (R61, R131, R132). What an owner does with them stands in Home.lean. -/

namespace Sys2Proof.Machine

/-- The target of an atomic: the global pair, or the gang-window register (R323). -/
def atomTarget (x : Ctx) (s : State) (l : Nat) (gang : Bool) (a : VReg) : Target :=
  if gang then .gang (x.la s l a 0 4) else .glob (x.ea s l a 0 4)

/-- The reduction type code of R61: OP, TY and S of the RED word. -/
def redCode (op : AOp) (ty : ATy) (sat : Bool) : Nat :=
  (match op with | .add => 0 | .min => 1 | .max => 2 | .and => 3 | .or => 4 | .xor => 5 | .exch => 6) * 8 +
  (match ty with | .i32 => 0 | .n32 => 1 | .f32 => 2) * 2 + sat.toNat

/-- ATOM (R323, R324). -/
def execAtom (o : Ord) (sc : BitVec 3) (gang : Bool) (op : AOp) (ty : ATy) (sat : Bool) (a b : VReg) (s : State) : Out :=
  let i := Instr.atom o sc gang op ty sat a b
  memInstr i o sc s (fun x s l =>
    queueLane i (atomTarget x s l gang a) .rmw 4 4 0 (.red 64) (.rmw op ty sat true) o sc
      (fun p => { p with data := leBytes (x.rd s l b).toNat 4, dst := x.dst s l [b.toNat + 1] }) x s l)

/-- Room in the staging block and its region (R61). -/
def stagingRoom (y : UnitSt) : Bool := decide (y.staging.length < 2048 + y.cfg.stglen)

/-- A staged entry's own-scratchpad, or any scratchpad, target (R61, R131). -/
def Staged.own (e : Staged) : Bool := bits e.target.toNat 56 4 == 15
def Staged.local_ (e : Staged) : Bool := e.own || bits e.target.toNat 56 4 == 14

/-- A staging entry (R61), 16 bytes. -/
def Staged.img (e : Staged) : Nat := pack [(e.target.toNat, 0), (e.value.toNat, 64), (e.fibre, 96), (e.type.toNat, 106), (e.seq.toNat, 112)]

/-- The lowest free place, in the staging block first and then in STGB (R61). (DESIGN CHOICE, log entry 52.) -/
def stagingSlot (y : UnitSt) : Nat := ((List.range (y.staging.length + 1)).find? (fun k => !y.staging.any (fun e => e.slot == k))).getD 0

/-- A reduction is staged: beyond the block's 2,048 entries it spills to STGB at once (R61). -/
def stage (s : State) (u : Nat) (e : Staged) : State :=
  let y := s.unit u
  let e := { e with slot := stagingSlot y }
  let s := s.modUnit u (fun y => { y with staging := y.staging ++ [e] })
  if e.slot < 2048 then s else s.poke (y.region 4 + 16 * (e.slot - 2048)) e.img 16

/-- The target that a staging entry holds: the global address, or the codes of R131. -/
def stageTarget (s : State) (x : Ctx) (t : Target) : Addr :=
  match t with
  | .glob ea => ea
  | .gang d => if bits d 21 4 = (s.unit x.u).cfg.gidx then BitVec.ofNat 64 (0xF * 2 ^ 56 + d % 2 ^ 21) else BitVec.ofNat 64 (0xE * 2 ^ 56 + d)

/-- The signature of a staged reduction of a redundant unit through the gang window (R388). -/
def stageSig (s : State) (x : Ctx) (i : Instr) (t : Target) (value : Word) (f : Nat) : Option (State × Bool) :=
  match t with
  | .glob _ => some (s, true)
  | .gang d =>
    if !(s.unit x.u).cfg.red then some (s, true)
    else signLocal { s with nextId := s.nextId + 1 } x.u {
      op := s.nextId, key := (fibreKey s x.u f ((s.unit x.u).fib f).serial 0).num, trailer := (s.unit x.u).cfg.trailer, word := (encode i).getD 0
      addr := d, data := leBytes value.toNat 4, localClass := true }

/-- One lane of a reduction that a deterministic launch stages (R61, R131, R132): it takes its serial now and is sent in the drain. -/
def stageLane (i : Instr) (t : Target) (a : Acc) (n align code : Nat) (value : Word) (x : Ctx) (s : State) (l : Nat) : LaneDo :=
  let s := t.walks s x
  match t.check s x a n align 0 with
  | .error w => .trapIn s ⟨l, w.1, w.2, t.addr⟩
  | .ok p =>
    let r := match t with | .gang _ => p.race s x n (.red code) | .glob _ => (none, s)
    match r with
    | (some c, _) => .trapIn s ⟨l, cDETRACE, c, t.addr⟩
    | (none, s) =>
      if !stagingRoom (s.unit x.u) then .trapIn s ⟨l, cDETFORB, 1, x.ent.pc⟩
      else drawing x s l (fun s =>
        let f := x.f s l
        match stageSig s x i t value f with
        | none => .wait id
        | some (s, false) => .go s
        | some (s, true) =>
        let e : Staged := { slot := 0, target := stageTarget s x t, value := value, fibre := f, type := BitVec.ofNat 6 code
                            seq := ((s.unit x.u).fib f).serial, word := (encode i).getD 0
                            g := stepG s (s.unit x.u).cfg.job (s.unit x.u).at_, crew := x.c }
        .go (spend (stage s x.u e) x.u f))

/-- RED (R323, R324): in a deterministic launch a reduction on FP32 is staged (R131, R132). -/
def execRed (o : Ord) (sc : BitVec 3) (gang : Bool) (op : AOp) (ty : ATy) (sat : Bool) (a b : VReg) (s : State) : Out :=
  let i := Instr.red o sc gang op ty sat a b
  memInstr i o sc s (fun x s l =>
    let t := atomTarget x s l gang a
    if (s.unit x.u).cfg.det && ty == .f32 then stageLane i t .rmw 4 4 (redCode op ty sat) (x.rd s l b) x s l
    else queueLane i t .rmw 4 4 0 (.red (redCode op ty sat)) (.rmw op ty sat false) o sc (withData x (leBytes (x.rd s l b).toNat 4)) x s l)

/-- ATOMC (R325): the compare value, then the new one. -/
def execAtomc (o : Ord) (sc : BitVec 3) (gang : Bool) (a b : VReg) (s : State) : Out :=
  let i := Instr.atomc o sc gang a b
  memInstr i o sc s (fun x s l =>
    queueLane i (atomTarget x s l gang a) .rmw 4 4 0 (.red 64) .cas o sc
      (fun p => { p with data := leBytes (x.rd s l b).toNat 4 ++ leBytes (x.rdi s l b 1).toNat 4, dst := x.dst s l [b.toNat + 2] }) x s l)

/-- G_req (R102): the step of the issuing core's replica. -/
def sampleG (x : Ctx) (s : State) (o : Op) : Op := { o with g := stepG s (s.unit x.u).cfg.job (s.unit x.u).at_ }

/-- One lane of LD.DS: a keyed load that passes no store queue (R111, R326). -/
def ldDsLane (i : Instr) (o : Ord) (sc : BitVec 3) (d a : VReg) (x : Ctx) (s : State) (l : Nat) : LaneDo :=
  let t := Target.glob (x.ea s l a 0 8)
  let s := t.walks s x
  match t.check s x .ldDs 8 8 0 with
  | .error w => .trapIn s ⟨l, w.1, w.2, t.addr⟩
  | .ok p =>
    match p.race s x 8 .rd with
    | (some c, _) => .trapIn s ⟨l, cDETRACE, c, t.addr⟩
    | (none, s) => if mustWait s x.u x.c p.owner p.leaf p.loc 8 then .wait id
      else drawing x s l (fun s => .go (s.post (sampleG x s { p.op x s i l 8 .ldDs o sc with dst := x.dst s l [d.toNat] })))

/-- LD.DS (R326). -/
def execLdDs (o : Ord) (sc : BitVec 3) (d a : VReg) (s : State) : Out :=
  let i := Instr.ldDs o sc d a
  memInstr i o sc s (ldDsLane i o sc d a)

/-- ST.DS (R326). -/
def execStDs (o : Ord) (sc : BitVec 3) (d a : VReg) (s : State) : Out :=
  let i := Instr.stDs o sc d a
  memInstr i o sc s (fun x s l =>
    queueLane i (.glob (x.ea s l a 0 8)) .stDs 8 8 0 .wr (.stDs ((x.rdi s l d 1).setWidth 8)) o sc
      (fun p => sampleG x s (withData x (leBytes (x.rd s l d).toNat 4) p)) x s l)

/-- ADD.DS (R326). -/
def execAddDs (o : Ord) (sc : BitVec 3) (d a : VReg) (s : State) : Out :=
  let i := Instr.addDs o sc d a
  memInstr i o sc s (fun x s l =>
    queueLane i (.glob (x.ea s l a 0 8)) .rmwDs 8 8 0 (.red 63) .addDs o sc
      (fun p => sampleG x s { p with data := leBytes (x.rd s l d).toNat 4, dst := x.dst s l [d.toNat] }) x s l)

/-- RED.DS (R326): in a deterministic launch it is staged (R132). -/
def execRedDs (o : Ord) (sc : BitVec 3) (d a : VReg) (s : State) : Out :=
  let i := Instr.redDs o sc d a
  memInstr i o sc s (fun x s l =>
    let t := Target.glob (x.ea s l a 0 8)
    if (s.unit x.u).cfg.det then stageLane i t .rmwDs 8 8 63 (x.rd s l d) x s l
    else queueLane i t .rmwDs 8 8 0 (.red 63) .redDs o sc (fun p => sampleG x s (withData x (leBytes (x.rd s l d).toNat 4) p)) x s l)

end Sys2Proof.Machine
end

