-- ==== Sys2Proof/Machine/Planes.lean ====
section
/-! DEFINITION. The plane layout of B operands and the arithmetic of products (R50 to R52, R231, R234, R237 to R241, R353, R358). -/

namespace Sys2Proof.Machine

/-- A plane format: the floating-point format with its exponent planes, or the width of an integer format. -/
inductive PlaneFmt | fp (f : Form) (exps : Nat) | int (w : Nat)
  deriving DecidableEq, Repr

/-- The plane formats of CONV codes 1 to 7 (Table 14-11). -/
def pfmtPlanes : PFmt → PlaneFmt
  | .bf16 => .fp fBF16 8 | .f16 => .fp fF16 5 | .e4m3 => .fp fE4M3 4 | .e5m2 => .fp fE5M2 5 | .e2m1 => .fp fE2M1 2 | .i8 => .int 8 | .i4 => .int 4

/-- Planes of a group, S / 16 (Table 2-4). -/
def PlaneFmt.count : PlaneFmt → Nat | .fp f e => 2 + e + f.frac | .int w => w

/-- Bits of an element in a register (R232). -/
def PlaneFmt.width : PlaneFmt → Nat | .fp f _ => f.width | .int w => w

/-- The planes of a group as 128-bit numbers. -/
def planesOf : List Byte → Nat → List Nat
  | _, 0 => []
  | bs, n + 1 => leNat (bs.take 16) :: planesOf (bs.drop 16) n

/-- Column `n` of the planes, first plane most significant. -/
def column (ps : List Nat) (n : Nat) : Nat := ps.foldl (fun v p => 2 * v + (p.testBit n).toNat) 0

/-- A code as the planes of R50 hold it: with the integer bit between exponent and fraction. -/
def PlaneFmt.spread (p : PlaneFmt) (c : Nat) : Nat :=
  match p with
  | .int _ => c
  | .fp f _ =>
    let hi := c / 2 ^ f.frac
    let e := hi % 2 ^ (f.width - 1 - f.frac)
    (2 * hi + (if e = 0 then 0 else 1)) * 2 ^ f.frac + c % 2 ^ f.frac

/-- The code in a plane column, its integer bit left out (UNPLANE, R358). -/
def PlaneFmt.gather (p : PlaneFmt) (v : Nat) : Nat :=
  match p with
  | .int _ => v
  | .fp f _ => v / 2 ^ (f.frac + 1) * 2 ^ f.frac + v % 2 ^ f.frac

/-- The plane group of 128 codes (R50). -/
def PlaneFmt.pack (p : PlaneFmt) (code : Nat → Nat) : List Byte :=
  (List.range p.count).flatMap (fun k =>
    leBytes ((List.range 128).foldl (fun w n => if (p.spread (code n)).testBit (p.count - 1 - k) then w + 2 ^ n else w) 0) 16)

/-- An element of a plane column as MMA reads it: with the stored integer bit; specials by exponent and fraction alone (R50). -/
def PlaneFmt.elem (p : PlaneFmt) (v : Nat) : Num :=
  match p with
  | .int w => let x := sext w v; .fin (decide (x < 0)) x.natAbs 0
  | .fp f _ =>
    let c := p.gather v
    let m := c % 2 ^ (f.width - 1)
    if f.maxCode < m then f.decode c
    else .fin (v.testBit (p.count - 1)) (v % 2 ^ (f.frac + 1)) (f.qmin + ((max (m / 2 ^ f.frac) 1 - 1 : Nat) : Int))

/-- A B operand's format: planes, or CB2 indices (Table 11-12). -/
def mfmtPlanes : MFmt → Option PlaneFmt
  | .bf16 => some (pfmtPlanes .bf16) | .f16 => some (pfmtPlanes .f16) | .e4m3 => some (pfmtPlanes .e4m3) | .e5m2 => some (pfmtPlanes .e5m2)
  | .i8 => some (pfmtPlanes .i8) | .i4 => some (pfmtPlanes .i4) | .e2m1 => some (pfmtPlanes .e2m1) | .cb2 => none

/-- Bytes of one k-row of B (Table 2-4). -/
def mfmtRowBytes (f : MFmt) : Nat := match mfmtPlanes f with | some p => 16 * p.count | none => 32

/-- A weight of a CB2 index (R234): entry in [15:8], signs of coordinates 0 to 6 in [7:1], parity in [0]. -/
def cb2Weight (book : Nat → Nat) (index c : Nat) : Num :=
  let m := bits (book (index / 256)) (2 * c) 2
  let neg := if c < 7 then index.testBit (1 + c) else ((List.range 8).foldl (fun b i => b != index.testBit i) false)
  .fin neg (2 * m + 1) (-1)

/-- The 128 elements of a k-row of B. -/
def mfmtRow (f : MFmt) (book : Nat → Nat) (bs : List Byte) : List Num :=
  match mfmtPlanes f with
  | some p => let ps := planesOf bs p.count; (List.range 128).map (fun n => p.elem (column ps n))
  | none => (List.range 16).flatMap (fun q => let i := leNat ((bs.drop (2 * q)).take 2); (List.range 8).map (cb2Weight book i))

/-- Consecutive pieces of `n` bytes. -/
def pieces (n : Nat) : Nat → List Byte → List (List Byte)
  | 0, _ => []
  | k + 1, bs => bs.take n :: pieces n k (bs.drop n)

/-- The k-rows of a dense B tile. -/
def denseRows (f : MFmt) (book : Nat → Nat) (k : Nat) (bs : List Byte) : List (List (Option Num)) :=
  (pieces (mfmtRowBytes f) k bs).map (fun r => (mfmtRow f book r).map some)

/-- Bytes of a sparse tile (R353). -/
def sparseSize (f : MFmt) (live : Nat) : Nat :=
  16 + ((List.range 8).filter (fun s => live.testBit s)).length * (128 + 4 * mfmtRowBytes f)

/-- The k-rows of a sparse tile (R353): `none` where the element is pruned. Of equal indices j = 0 is placed. -/
def sparseRows (f : MFmt) (bs : List Byte) : List (List (Option Num)) :=
  let live := leNat (bs.take 1)
  let slabs := (List.range 8).filter (fun s => live.testBit s)
  let L := slabs.length
  (List.range 8).flatMap (fun s =>
    match slabs.idxOf? s with
    | none => List.replicate 8 (List.replicate 128 none)
    | some p =>
      let idx := (bs.drop (16 + 128 * p)).take 128
      let stored := (pieces (mfmtRowBytes f) 4 (bs.drop (16 + 128 * L + 4 * mfmtRowBytes f * p))).map (fun r => mfmtRow f (fun _ => 0) r)
      (List.range 2).flatMap (fun g =>
        let nib := fun n => bits ((idx.getD (64 * g + n / 2) 0).toNat) (4 * (n % 2)) 4
        (List.range 4).map (fun k => (List.range 128).map (fun n =>
          if nib n % 4 = k then (stored.getD (2 * g) [])[n]?
          else if nib n / 4 = k then (stored.getD (2 * g + 1) [])[n]? else none))))

/-- The exponent of the leading bit of a nonzero value. -/
def Num.lead : Num → Int | .fin _ m e => (Nat.log2 m : Nat) + e | _ => 0

/-- A value truncated toward zero to a multiple of 2^q, as that multiple. -/
def Num.trunc (q : Int) : Num → Int
  | .fin n m e => let v : Int := (roundAt .rtz n m e q).1; if n then -v else v
  | _ => 0

/-- The group sum s of R237 over the products that are formed. (DEDUCED, log entry 32.) -/
def groupSum (qs : List Num) : Num :=
  if qs.any Num.isNaN || (qs.contains (.inf false) && qs.contains (.inf true)) then .nan false
  else if qs.contains (.inf false) then .inf false
  else if qs.contains (.inf true) then .inf true
  else
    let nz := qs.filter (fun q => match q with | .fin _ m _ => m != 0 | _ => false)
    match nz with
    | [] => .fin (qs.all (fun q => match q with | .fin n _ _ => n | _ => false)) 0 0
    | q0 :: _ =>
      let E := nz.foldl (fun b q => max b q.lead) q0.lead
      let v := nz.foldl (fun (a : Int) q => a + q.trunc (E - 38)) 0
      f32 ((Num.fin (decide (v < 0)) v.natAbs (E - 38)).toF32 .rne).1

/-- The procedure of R237: groups of 16 in ascending k; a pruned element forms no product (R238). -/
def mmaF32 (c : Word) (a : List Num) (b : List (Option Num)) : Nat → Word
  | 0 => c
  | g + 1 =>
    let qs := ((a.take 16).zip (b.take 16)).filterMap (fun p => p.2.map (fun y => p.1.mul y))
    mmaF32 (((f32 c).add .rne (groupSum qs)).toF32 .rne).1 (a.drop 16) (b.drop 16) g

/-- An integer element. -/
def Num.toInt : Num → Int | .fin n m e => dyInt n m e 0 | _ => 0

/-- The INT32 accumulator (R239): the stored value, and whether it clamped. -/
def mmaI32 (sat : Bool) (c : Word) (a : List Num) (b : List (Option Num)) : Word × Bool :=
  let v := (a.zip b).foldl (fun (v : Int) p => match p.2 with | some y => v + p.1.toInt * y.toInt | none => v) c.toInt
  if sat then clamp32 v else (BitVec.ofInt 32 v, false)

/-- SCACC of one element (R241). -/
def scaccVal (c p r k : Word) : Word := (((f32 c).add .rne (((f32 p).mul (f32 r)).mul (f32 k))).toF32 .rne).1

/-- Element `k` of a lane's row of A (R349), from its registers. -/
def aElem (f : MFmt) (reg : Nat → Word) (k : Nat) : Num :=
  match f with
  | .bf16 => fBF16.decode (bits (reg (k / 2)).toNat (16 * (k % 2)) 16)
  | .f16 => fF16.decode (bits (reg (k / 2)).toNat (16 * (k % 2)) 16)
  | .e4m3 => fE4M3.decode (bits (reg (k / 4)).toNat (8 * (k % 4)) 8)
  | .e5m2 => fE5M2.decode (bits (reg (k / 4)).toNat (8 * (k % 4)) 8)
  | _ => let x := sext 8 (bits (reg (k / 4)).toNat (8 * (k % 4)) 8); .fin (decide (x < 0)) x.natAbs 0

end Sys2Proof.Machine
end

