-- ==== Sys2Proof/Machine/Stamp.lean ====
section
/-! DEFINITION. Step-stamped slots: factor tables, reckoning and merging (R95 to R107), and the new value of a read-modify-write (R323, R324). -/

namespace Sys2Proof.Machine

/-- A stamped slot (Table 4-1). -/
structure Slot where
  value : Word
  stamp : BitVec 24
  cls : BitVec 8
  deriving DecidableEq, Repr

/-- A slot from its 64 bits. -/
def slotOf (bs : List Byte) : Slot :=
  let n := leNat bs
  { value := BitVec.ofNat 32 (bits n 0 32), stamp := BitVec.ofNat 24 (bits n 32 24), cls := BitVec.ofNat 8 (bits n 56 8) }

/-- Its 8 bytes. -/
def Slot.toBytes (x : Slot) : List Byte := leBytes (x.value.toNat + x.stamp.toNat * 2 ^ 32 + x.cls.toNat * 2 ^ 56) 8

/-- The factor of a class (R96): 1.0 where none is loaded. -/
def Job.beta (j : Job) (cls : BitVec 8) : Word := j.classes.get 0x3F800000 cls.toNat

/-- The factor β^n (R98): T is squared from bit to bit. -/
def powF : Nat → Word → Nat → Word → Word
  | 0, _, _, p => p
  | k + 1, t, n, p => powF k (mulF t t) (n / 2) (if n % 2 = 1 then mulF p t else p)

/-- The factor pow(cls, n) of R98. -/
def Job.pow (j : Job) (cls : BitVec 8) (n : Nat) : Word := powF 24 (j.beta cls) n 0x3F800000

/-- Reckoning of x from step s to step t (R103). -/
def Job.reckon (j : Job) (x : Word) (s t : BitVec 24) (cls : BitVec 8) : Word :=
  let n := (t - s).toInt
  if n ≤ 0 then x
  else
    let e : Int := (t.toNat % 2 ^ 20 : Nat)
    if e < n ∧ 0 < e then mulF (mulF x (j.pow cls (n - e).toNat)) (j.pow cls e.toNat)
    else mulF x (j.pow cls n.toNat)

/-- The merge of a δ that was sampled at `g` into a slot (R106). -/
def Job.merge (j : Job) (x : Slot) (delta : Word) (g : BitVec 24) : Slot :=
  let S := if 0 ≤ (g - x.stamp).toInt then g else x.stamp
  { x with value := addF (j.reckon x.value x.stamp S x.cls) (j.reckon delta g S x.cls), stamp := S }

/-- LD.DS: the reckoned value and AHEAD (R105, R106). -/
def Job.loadSlot (j : Job) (x : Slot) (g : BitVec 24) : Word × Bool :=
  if (g - x.stamp).toInt < 0 then (x.value, true) else (j.reckon x.value x.stamp g x.cls, false)

/-- The dredge's rewrite for a boundary, where the slot's stamp is older (R109). -/
def Job.dredge (j : Job) (x : Slot) (B : BitVec 24) : Option Slot :=
  if 0 < (B - x.stamp).toInt then some { x with value := j.reckon x.value x.stamp B x.cls, stamp := B } else none

/-- The new value of ATOM and RED (Table 14-4), and whether it clamped (R324). -/
def rmwVal (op : AOp) (ty : ATy) (sat : Bool) (old x : Word) : Word × Bool :=
  let less := fun (a b : Word) => match ty with
    | .i32 => decide (a.toInt < b.toInt)
    | _ => decide (a.toNat < b.toNat)
  match op with
  | .add => match ty with
    | .f32 => (addF old x, false)
    | .i32 => if sat then clamp32 (old.toInt + x.toInt) else (old + x, false)
    | .n32 => if sat then let r := clampInt 0 4294967295 ((old.toNat + x.toNat : Nat) : Int); (BitVec.ofInt 32 r.1, r.2) else (old + x, false)
  | .min => (if ty = .f32 then (fpMin old x).1 else if less x old then x else old, false)
  | .max => (if ty = .f32 then (fpMax old x).1 else if less old x then x else old, false)
  | .and => (old &&& x, false)
  | .or => (old ||| x, false)
  | .xor => (old ^^^ x, false)
  | .exch => (x, false)

end Sys2Proof.Machine
end

