-- ==== Sys2Proof/Machine/Sync.lean ====
section
/-! DEFINITION. Fences, monitors, tags and prefetch, barriers, unit and gang synchronisation, and the berth instructions: majors 0x2C to 0x2E
(R327 to R337). -/

namespace Sys2Proof.Machine

-- fences -------------------------------------------------------------------------------------------------------------

/-- What FENCE waits for (R148): as a release, R143; as an acquire, its crew's older reads and room to record what they saw (R81). `.ar` also
waits for every earlier write at any scope, so that a later read follows it. (DEDUCED, log entry 29.) -/
def preFence (o : Ord) (scope : Nat) (x : Ctx) (s : State) : Option State :=
  (prePend x s).or
    ((match o with
      | .ar => releaseStall s x.u x.c (max scope 1)
      | .rel => releaseStall s x.u x.c scope
      | _ => none).or
    (if o == Ord.acq || o == Ord.ar then
      (if recordFull s (s.unit x.u).cfg.node (seenOf s x) then some s else none)
    else none))

/-- FENCE (R148, R328). -/
def execFence (o : Ord) (sc : BitVec 3) (s : State) : Out :=
  withIssueE (.fence o sc) s (preFence o sc.toNat) (fun x ts s =>
    .ok (finish x (.fence o sc) ts (if o == Ord.acq || o == Ord.ar then acquireSeen s x else s)))

/-- Something on a path that the crew issued is not performed (R151, R152): `c` 0, `m` 1, `k` 2, `g` 3, `l` 4, `f` 5. -/
def pathBusy (s : State) (u c p : Nat) : Bool :=
  let cmd := fun k => s.cmds.any (fun m => m.u == u && m.crew == c && m.kind == k)
  match p with
  | 0 => false
  | 1 => !(s.unit u).sweeps.isEmpty
  | 2 => cmd .copy
  | 3 => cmd .gather
  | 4 => cmd .coll
  | _ => cmd .frame

/-- What FENCE.X waits for (R152): everything on the paths of its source set. -/
def preFenceX (src : BitVec 6) (x : Ctx) (s : State) : Option State :=
  (prePend x s).or
    ((if src.getLsbD 0 then releaseStall s x.u x.c 7 else none).or
    (if (List.range 6).any (fun p => src.getLsbD p && pathBusy s x.u x.c p) then some s else none))

/-- FENCE.X (R152, R328): what comes after is issued later, on every path. -/
def execFenceX (src dst : BitVec 6) (s : State) : Out :=
  withIssueE (.fenceX src dst) s (preFenceX src) (fun x ts s => .ok (finish x (.fenceX src dst) ts s))

-- monitor and wait ---------------------------------------------------------------------------------------------------

/-- One lane of MONITOR: checked as a 1-byte read (R329). A line of a staged page is watched in both its backings. -/
def monitorLane (a : VReg) (x : Ctx) (s : State) (l : Nat) : LaneDo :=
  let ea := x.ea s l a 0 1
  let s := (Target.glob ea).walks s x
  match checkLane s x.u x.ent.handler .ld ea 1 0 with
  | .error w => .trapIn s ⟨l, w.1, w.2, ea⟩
  | .ok k => .go (s.modFib x.u (x.f s l) (fun f => { f with watch := some (logicalLoc (some k.leaf) k.loc / 128), fired := false }))

/-- MONITOR (R329). -/
def execMonitor (a : VReg) (s : State) : Out :=
  withIssueE (.monitor a) s (fun _ _ => none) (fun x ts s => (eachLane x (monitorLane a x) s).map (fun r => finish x (.monitor a) (ts ++ r.2) r.1))

/-- The writers of the watched lines of a mask's lanes, as they stand (R81). -/
def watchedWriters (s : State) (x : Ctx) (m : BitVec 32) : List Nat :=
  (lanesOf m).flatMap (fun l => match (x.fibre s l).watch with | some k => (s.line k).writers | none => [])

/-- An MWAIT of these lanes completes: its watch is unarmed, or a write to the line has become visible (R156, R329). -/
def mwaitReady (s : State) (x : Ctx) (m : BitVec 32) : Bool :=
  (lanesOf m).any (fun l => let f := x.fibre s l; f.watch.isNone || f.fired)

/-- The acquire of a completing MWAIT (R81, R156). -/
def mwaitRecord (s : State) (x : Ctx) (m : BitVec 32) : State := record s (s.unit x.u).cfg.node (watchedWriters s x m)

/-- MWAIT waits, before anything else, for room to record what it acquires. (DEDUCED, log entry 29.) -/
def preMwait (x : Ctx) (s : State) : Option State :=
  (prePend x s).or
    (if mwaitReady s x x.act && recordFull s (s.unit x.u).cfg.node (watchedWriters s x x.act) then some s else none)

/-- MWAIT (R156, R329). -/
def execMwait (sc : BitVec 3) (s : State) : Out :=
  withIssueE (.mwait sc) s preMwait (fun x ts s =>
    .ok (if mwaitReady s x x.act then finish x (.mwait sc) ts (mwaitRecord s x x.act)
         else beginWait (parkOnly x ts s) x.u x.c x.e x.act 13))

-- tags and prefetch --------------------------------------------------------------------------------------------------

/-- TAG.SET (R330). -/
def execTagSet (o : Ord) (sc : BitVec 3) (d a : VReg) (s : State) : Out :=
  let i := Instr.tagSet o sc d a
  memInstr i o sc s (fun x s l =>
    queueLane i (.glob (x.ea s l a 0 1)) .tagSet 32 32 0 .wr .tagSet o sc
      (withData x [(x.rd s l d &&& 0xF).setWidth 8]) x s l)

/-- TAG.GET (R330): any byte of the sector. -/
def execTagGet (o : Ord) (sc : BitVec 3) (d a : VReg) (s : State) : Out :=
  let i := Instr.tagGet o sc d a
  memInstr i o sc s (fun x s l => loadLane i (.glob (x.ea s l a 0 1)) .tagGet 1 1 .tagGet [d.toNat] o sc x s l)

/-- PREF: no architectural effect, and never a fault (R330). -/
def execPref (a : VReg) (s : State) : Out := withIssue (.pref a) s (fun x ts s => finish x (.pref a) ts s)

-- counted barriers ---------------------------------------------------------------------------------------------------

/-- A counted-barrier object (Table 2-3). -/
structure Barrier where
  expect : Nat
  count : Nat
  armed : Bool
  bytes : Bool
  unarmed : Bool
  gen : Nat
  aux : Nat
  deriving DecidableEq, Repr

/-- The object in 16 bytes. -/
def barOf (bs : List Byte) : Barrier :=
  let n := leNat bs
  { expect := bits n 0 32, count := bits n 32 32, armed := n.testBit 64, bytes := n.testBit 65, unarmed := n.testBit 66, gen := bits n 80 16
    aux := bits n 96 32 }

/-- Its 16 bytes; the reserved bits read zero. -/
def Barrier.toBytes (b : Barrier) : List Byte :=
  leBytes (b.expect + b.count * 2 ^ 32 + b.armed.toNat * 2 ^ 64 + b.bytes.toNat * 2 ^ 65 + b.unarmed.toNat * 2 ^ 66 + b.gen * 2 ^ 80 + b.aux * 2 ^ 96) 16

/-- Complete (R49). -/
def Barrier.complete (b : Barrier) : Bool := b.armed && decide (b.expect ≤ b.count)

/-- BAR.INIT on an object that may be initialised (R332). -/
def Barrier.init (b : Barrier) (expect : Nat) (bytes : Bool) : Barrier :=
  { expect := expect, count := 0, armed := true, bytes := bytes, unarmed := false, gen := (b.gen + 1) % 2 ^ 16, aux := 0xFFFFFFFF }

/-- An arrival (R332): of a lane with its fibre index, or of an engine with its counted bytes; and whether it closes the object. -/
def Barrier.arrive (b : Barrier) (who : Option Nat) (m : Nat) : Barrier × Bool :=
  let before := b.complete
  let by_ := match who with | some _ => 1 | none => if b.bytes then m else 1
  let count := min (b.count + by_) 0xFFFFFFFF
  let aux := match who with
    | some f => if !before && (b.aux == 0xFFFFFFFF || decide (b.aux < f)) then f else b.aux
    | none => b.aux
  ({ b with unarmed := b.unarmed || !b.armed, count := count, aux := aux },
   who.isSome && !before && b.armed && decide (b.expect ≤ count))

/-- The object at a place of a unit's scratchpad. -/
def UnitSt.bar (y : UnitSt) (off : Nat) : Barrier := barOf (y.scrN off 16)

/-- A scratchpad address that names an object (R20, R48). -/
def barLane (x : Ctx) (s : State) (l : Nat) (a : VReg) (k : Nat → State → LaneDo) : LaneDo :=
  let at_ := (x.rd s l a).toNat
  match checkScr (s.unit x.u) at_ 16 16 with
  | some w => .trap ⟨l, w.1, w.2, BitVec.ofNat 64 at_⟩
  | none => match scrRead s x.u x.c at_ 16 with
    | .error f => .wait f
    | .ok (_, s) => k at_ s

/-- What a barrier instruction of its crew waits for: the crew's queued stores, which its update follows in queue order (R141). -/
def preBar (x : Ctx) (s : State) : Option State :=
  stallOn s x.u x.c (fun o => o.u == some x.u && o.crew == x.c && o.phase == .queued) []

/-- One lane of BAR.INIT: a path-`c` store at `.h0` that enters the store queue, where it finds the object not UNARMED (R332); `s0`: what was queued before it.
(DEDUCED, log entry 51.) -/
def barInitLane (i : Instr) (d a : VReg) (bytes : Bool) (x : Ctx) (s0 s : State) (l : Nat) : LaneDo :=
  barLane x s l a (fun at_ s =>
    if mustWait s0 x.u x.c (.pool x.u) none at_ 16 then .wait id
    else if ((s.unit x.u).bar at_).unarmed then .trap ⟨l, cBAR, 0, BitVec.ofNat 64 at_⟩
    else .go (s.enqueue x.u x.c false { x.op s i l (.barInit (x.rd s l d).toNat bytes) with
      owner := .pool x.u, loc := at_, va := BitVec.ofNat 64 at_, size := 16 }))

/-- BAR.INIT (R332). -/
def execBarInit (d a : VReg) (bytes : Bool) (s : State) : Out :=
  let i := Instr.barInit d a bytes
  withIssueE i s (fun _ _ => none) (fun x ts s => (eachLane x (barInitLane i d a bytes x s) s).map (fun r => finish x i (ts ++ r.2) r.1))

/-- One lane's arrival at an object. -/
def arriveLane (x : Ctx) (a : VReg) (s : State) (l : Nat) : LaneDo :=
  barLane x s l a (fun at_ s =>
    .go (s.modUnit x.u (fun y => y.setScr at_ ((y.bar at_).arrive (some (x.f s l)) 1).1.toBytes)))

/-- BAR.ARR: a release at its scope, whose write is the arrival (R149, R332). -/
def execBarArr (sc : BitVec 3) (a : VReg) (s : State) : Out :=
  let i := Instr.barArr sc a
  withIssueE i s (preRelease sc.toNat) (fun x ts s =>
    (eachLane x (fun s l => arriveLane x a s l) s).map (fun r => finish x i (ts ++ r.2) r.1))

/-- One lane's wait: a trap, a stall, or nothing (R332). -/
def waitLane (x : Ctx) (a : VReg) (s : State) (l : Nat) : LaneDo :=
  barLane x s l a (fun at_ s =>
    let b := (s.unit x.u).bar at_
    if b.unarmed then .trap ⟨l, cBAR, 1, BitVec.ofNat 64 at_⟩ else if b.complete then .go s else .wait id)

/-- The lanes whose wait traps, where some other lane's must stall: they park, and the entry stays. -/
def waitTraps (x : Ctx) (a : VReg) (s : State) : List Trap :=
  (lanesOf x.act).filterMap (fun l => match waitLane x a s l with | .trap t => some t | _ => none)

/-- BAR.WAIT (R332, R334): a stall leaves the entry runnable. -/
def execBarWait (sc : BitVec 3) (a : VReg) (s : State) : Out :=
  let i := Instr.barWait sc a
  withIssueE i s preBar (fun x ts s =>
    match eachLane x (fun s l => waitLane x a s l) s with
    | .ok r => .ok (finish x i (ts ++ r.2) r.1)
    | .error f => .error (fun s0 => match waitTraps x a s with | [] => f s0 | us => parkHere x us s0))

/-- The arrivals of BAR.ARRW that are still to be made, and the lanes that close an object by them. -/
def arrwArrive (x : Ctx) (a : VReg) (s : State) : Except (State → State) (State × List Trap) :=
  let x' := { x with act := x.act &&& ~~~x.ent.arrived }
  eachLane x' (fun s l => barLane x' s l a (fun at_ s =>
    let r := ((s.unit x.u).bar at_).arrive (some (x.f s l)) 1
    .go ((s.modUnit x.u (fun y => y.setScr at_ r.1.toBytes)).modEntry x.u x.c x.e (fun en =>
      { en with
        arrived := en.arrived ||| BitVec.twoPow 32 l
        closer := if r.2 then en.closer ||| BitVec.twoPow 32 l else en.closer })))) s

/-- What BAR.ARRW waits for: as a release where a lane has still to arrive (R149). -/
def preArrw (scope : Nat) (x : Ctx) (s : State) : Option State :=
  if x.act &&& ~~~x.ent.arrived = 0 then none else preRelease scope x s

/-- BAR.ARRW: an arrival, then a wait, then the closer predicate (R332, R333). The arrivals stand while the wait stalls. -/
def execBarArrw (sc : BitVec 3) (p : Nib) (a : VReg) (s : State) : Out :=
  let i := Instr.barArrw sc p a
  withIssueE i s (preArrw sc.toNat) (fun x ts s =>
    (arrwArrive x a s).bind (fun r =>
      let bad := maskOf (r.2.map (fun t => t.lane))
      let x' := { x with act := x.act &&& ~~~bad }
      match eachLane x' (fun s l => waitLane x' a s l) r.1 with
      | .error f => .error (fun s0 =>
          match r.2 ++ waitTraps x' a r.1 with
          | [] => match arrwArrive x a s0 with | .ok r0 => r0.1 | .error _ => f s0
          | us => parkHere x us (match arrwArrive x a s0 with | .ok r0 => r0.1 | .error _ => s0))
      | .ok w =>
        let s := w.1
        let gone := maskOf (w.2.map (fun t => t.lane))
        let y := s.unit x.u
        let closer := ((y.crew x.c).entry x.e).closer
        let fx := fun l => wp p (if y.cfg.det then decide ((y.bar (x.rd s l a).toNat).aux = x.f s l) else closer.getLsbD l)
        .ok (finish x i (ts ++ r.2 ++ w.2) (applyLanes { x' with act := x'.act &&& ~~~gone } fx s))))

/-- UNIT.SYNC (R335): it waits on what 15 names, once what its release waits for is answered (R122, R149). -/
def execUnitSync (s : State) : Out :=
  withIssueE .unitSync s (preRelease 0) (fun x ts s => .ok (beginWait (parkOnly x ts s) x.u x.c x.e x.act 15))

/-- GANG.SYNC (R336): it waits on what 14 names, once what its release waits for is answered (R122, R149). -/
def execGangSync (s : State) : Out :=
  withIssueE .gangSync s (preRelease 3) (fun x ts s => .ok (beginWait (parkOnly x ts s) x.u x.c x.e x.act 14))

-- berths -------------------------------------------------------------------------------------------------------------

/-- BER.OPEN (R87, R337). -/
def execBerOpen (d : VReg) (p : Nib) (s : State) : Out :=
  let i := Instr.berOpen d p
  withIssueE i s (fun _ _ => none) (fun x ts s =>
    (eachLane x (fun s l => drawing x s l (fun s =>
      .go (s.post { x.op s i l .berOpen with owner := .disp 0, size := 0, dst := x.dst s l [d.toNat], pdst := some p.toNat }))) s).map
    (fun r => finishSent x i s.ops.length (ts ++ r.2) r.1))

/-- One lane of an operation at the master that returns nothing (R88). -/
def masterLane (i : Instr) (k : OpKind) (x : Ctx) (s : State) (l : Nat) : LaneDo :=
  drawing x s l (fun s => .go (s.post { x.op s i l k with owner := .disp 0, size := 0 }))

/-- BER.PUB (R87, R88, R337): a release at `.h7`, then the map change; a nonzero bit outside its fields is ILLEGAL cause 8. -/
def execBerPub (a : VReg) (s : State) : Out :=
  let i := Instr.berPub a
  withIssueE i s (preRelease 7) (fun x ts s =>
    (eachLane x (fun s l =>
      let v := (x.rd s l a).toNat
      if bits v 3 5 != 0 || bits v 14 2 != 0 || bits v 22 10 != 0 then .trap ⟨l, cILLEGAL, 8, x.ent.pc⟩
      else masterLane i (.berPub (bits v 0 3) (bits v 8 6) (bits v 16 6 + 1)) x s l) s).map (fun r => finishSent x i s.ops.length (ts ++ r.2) r.1))

/-- ST.BERTH (R87, R337). -/
def execStBerth (o : Ord) (sc : BitVec 3) (d a : VReg) (s : State) : Out :=
  let i := Instr.stBerth o sc d a
  memInstr i o sc s (fun x s l =>
    let b := bits (x.rdi s l d 1).toNat 0 3
    queueLane i (.glob (x.ea s l a 0 4)) .berth 4 4 b .wr (.berth b) o sc (withData x (leBytes (x.rd s l d).toNat 4)) x s l)

/-- TAG.RETIRE (R87, R88, R337). -/
def execTagRetire (a : VReg) (s : State) : Out :=
  let i := Instr.tagRetire a
  withIssueE i s (fun _ _ => none) (fun x ts s =>
    (eachLane x (fun s l =>
      let v := (x.rd s l a).toNat
      if bits v 6 26 != 0 then .trap ⟨l, cILLEGAL, 8, x.ent.pc⟩ else masterLane i (.tagRetire v) x s l) s).map
    (fun r => finishSent x i s.ops.length (ts ++ r.2) r.1))

end Sys2Proof.Machine
end

