-- ==== Sys2Proof/Machine/Landing.lean ====
section
/-! DEFINITION. What lands at homes: pins and writer records (R69, R80), plain and staged writes with their marks (R72 to R77), and checked ranges (R33). -/

namespace Sys2Proof.Machine

-- pins and records (R69, R80) -----------------------------------------------------------------------------------------

/-- The lines that the home of die `d` holds pinned (R69): with a writer record, or for a journal entry that has not reached the stack. -/
def pinned (s : State) (d : Nat) : List Nat :=
  (((s.lines.map Prod.fst).filter (fun k => k / 2 ^ 29 == d && writersOf s k != [])) ++
    (s.journal.filter (fun e => e.owner == .die d && !e.kept)).flatMap (fun e => e.pins)).eraseDups

/-- The home of die `d` can pin these lines too: it pins at most half its lines (R69). -/
def pinsFit (s : State) (d : Nat) (ls : List Nat) : Bool :=
  let p := pinned s d
  let more := ls.eraseDups.filter (fun k => !p.contains k)
  more = [] || decide (p.length + more.length ≤ 524288)

/-- A line's writer record can name a node that writes it (R80). -/
def recordRoom (s : State) (n : Option Nat) (k : Nat) : Bool :=
  match n with
  | none => true
  | some w => let ws := writersOf s k; ws.contains w || !(s.node w).uncommitted || decide (ws.length < 4)

/-- The writer record that a write by an uncommitted node leaves (R80). -/
def addWriter (s : State) (n : Option Nat) (k : Nat) : List Nat :=
  match n with
  | some w => let ws := writersOf s k; if (s.node w).uncommitted && !ws.contains w then ws ++ [w] else ws
  | none => writersOf s k

-- writes -----------------------------------------------------------------------------------------------------------

/-- Bytes are written to memory: a whole line clears a poison mark, and `direct` writes of a node are recorded (R72, R80). -/
def State.put (s : State) (n : Option Nat) (direct : Bool) (cells : List (Nat × Byte)) : State :=
  let ls := (cells.map (fun c => c.1 / 128)).eraseDups
  let s := { s with mem := cells.foldl (fun m c => Memory.write m c.1 c.2) s.mem }
  let s := ls.foldl (fun s k =>
    let whole := decide (128 ≤ ((cells.map (fun c => c.1)).eraseDups.filter (fun a => a / 128 == k)).length)
    let ws := if direct then addWriter s n k else (s.line k).writers
    s.modLine k (fun x => { x with poison := x.poison && !whole, writers := ws })) s
  match n with
  | some w => if direct && (s.node w).uncommitted then s.modNode w (fun y => { y with direct := true }) else s
  | none => s

/-- Bytes land in memory, and watches on their lines fire. -/
def State.land (s : State) (n : Option Nat) (direct : Bool) (cells : List (Nat × Byte)) : State :=
  fire (s.put n direct cells) ((cells.map (fun c => c.1 / 128)).eraseDups)

/-- The place of offset `o` of a leaf's page in backing `b`. -/
def Leaf.at_ (l : Leaf) (b o : Nat) : Nat := ({ l with off := o } : Leaf).place b

/-- The first write of a node to a staged line copies the committed line to the other backing (R76). -/
def stageLine (s : State) (n : Option Nat) (l : Leaf) (o : Nat) : State :=
  let k := l.at_ 0 o / 128
  let x := s.line k
  if x.w then s
  else
    let src := l.at_ x.c.toNat (o / 128 * 128); let dst := l.at_ (1 - x.c.toNat) (o / 128 * 128)
    let s := decodeRange s src 128
    let s := { s with mem := Memory.writeN s.mem dst (Memory.readN s.mem src 128) }
    let s := s.modLine (dst / 128) (fun y => { y with poison := (s.line (src / 128)).poison })
    s.modLine k (fun y => { y with w := true, owner := n.getD 0 })

/-- The readers of a node's uncommitted staged writes: its own units, and those of its early consumers (R77, R142). -/
def seesStaged (s : State) (n : Option Nat) (y : UnitSt) : Bool :=
  match n with | some w => y.cfg.node == w || (s.node y.cfg.node).early.contains w | none => false

/-- Bytes land on the page of a leaf: `offs` are offsets in the page. -/
def landPage (s : State) (n : Option Nat) (l : Leaf) (b : Nat) (offs : List (Nat × Byte)) : State :=
  if entStaged l.ent then
    let s := ((offs.map (fun e => e.1 / 128)).eraseDups).foldl (fun s k => stageLine s n l (128 * k)) s
    let s := s.put n false (offs.map (fun e => (l.at_ (1 - (s.line (l.at_ 0 e.1 / 128)).c.toNat) e.1, e.2)))
    fireIn s (seesStaged s n) ((offs.map (fun e => l.at_ 0 e.1 / 128)).eraseDups)
  else s.land n true (offs.map (fun e => (l.at_ b e.1, e.2)))

-- ranges (R33) -------------------------------------------------------------------------------------------------------

/-- One sector-bounded piece of a checked range. -/
structure Piece where
  va : BitVec 64
  n : Nat
  leaf : Leaf
  back : Nat
  loc : Nat

/-- Check a range sector by sector in ascending order: its pieces, or the first failing byte's fault and address. -/
def checkRange (chk : BitVec 64 → Except Why Checked) : Nat → BitVec 64 → Nat → Except (Why × Addr) (List Piece)
  | 0, _, _ => .ok []
  | fuel + 1, va, n =>
    if n = 0 then .ok []
    else
      let k := min n (32 - va.toNat % 32)
      match chk va with
      | .error w => .error (w, va)
      | .ok c => (checkRange chk fuel (va + BitVec.ofNat 64 k) (n - k)).map (fun ps => ⟨va, k, c.leaf, c.back, c.loc⟩ :: ps)

/-- A range of `n` bytes needs at most this many pieces. -/
def pieceFuel (n : Nat) : Nat := n / 32 + 2

/-- The home reads of checked pieces (R68, R70). -/
def piecesRead (s : State) (ps : List Piece) : State := ps.foldl (fun s p => homeReads s p.loc p.n) s

/-- The bytes of checked pieces, each with whether its line is poisoned. -/
def piecesBytes (s : State) (ps : List Piece) : List (Byte × Bool) :=
  ps.flatMap (fun p => (s.load p.loc p.n).map (fun b => (b, s.poisonedAt p.loc p.n)))

/-- The pieces of a dispatcher's read through a job's translation (R210, R215): no node's, with no privilege, and with entry 0 of the job's berth map.
(DESIGN CHOICE, log entry 53.) -/
def jobPieces (s : State) (job n : Nat) (va : BitVec 64) : Except (Why × Addr) (List Piece) :=
  checkRange (fun a => checkGlobal s none none job (s.job job).root (berthEntry s job none 0) false false .ld a 0) (pieceFuel n) va n

/-- What a dispatcher's read makes homes read. -/
def jobReads (s : State) (job n : Nat) (va : BitVec 64) : State :=
  let s := (List.range (pieceFuel n)).foldl (fun s i => if 32 * i < n + 32 then translateReads s none job (s.job job).root (va + BitVec.ofNat 64 (32 * i)) else s) s
  match jobPieces s job n va with | .ok ps => piecesRead s ps | .error _ => s

/-- What a dispatcher then reads, and whether some of it is poisoned. Poison is not consumed. -/
def jobRead (s : State) (job n : Nat) (va : BitVec 64) : Except (Why × Addr) (List Byte × Bool) :=
  (jobPieces s job n va).map (fun ps =>
    let bs := piecesBytes s ps
    (bs.map Prod.fst, bs.any Prod.snd))

end Sys2Proof.Machine
end

