-- ==== Sys2Proof/Machine/Image.lean ====
section
/-! DEFINITION. The context image as the device writes it (R54 to R62): header fields, crew and fibre records, request log, result journal and engine
tables; and the entries of every journal as memory holds them (R114, R115). -/

namespace Sys2Proof.Machine

/-- STATUS [33:32] of the header. -/
def UStatus.code : UStatus → Nat | .never => 0 | .resident => 1 | .evictable => 2 | .saved => 3

/-- A unit's STATUS changes, in its image too. -/
def setStatus (s : State) (u : Nat) (st : UStatus) : State :=
  let s := s.modUnit u (fun y => { y with status := st })
  let y := s.unit u
  s.poke (y.base + 4) (pack [(st.code, 0), (y.engSaved.toNat, 2)]) 4

/-- The unit's gang holds the turn (R132). -/
def holdsTurn (s : State) (u : Nat) : Bool := let y := (s.unit u).cfg; (s.node y.node).turn == y.uidx - y.gidx

/-- The header's TURN (Table 2-5). -/
def writeTurn (s : State) (u : Nat) : State :=
  s.poke ((s.unit u).base + 140) (pack [((holdsTurn s u).toNat, 0), ((s.unit u).turnDrained.toNat, 1)]) 4

/-- The crew holds a lane. -/
def Crew.populated (x : Crew) : Bool := x.lanes.any (fun l => l.isSome)

/-- A crew's lanes all wait on what `on` names (R335). -/
def crewArrived (x : Crew) (on : BitVec 4) : Bool :=
  if x.serial then (List.range 32).all (fun l => let w := x.tab.getD l {}; (x.fibre l).isNone || (w.lst == .waiting && w.waitOn == on))
  else x.split.all (fun e => e.status == .empty || (e.status == .waiting && e.waitOn == on))

-- records ------------------------------------------------------------------------------------------------------------

def EStatus.code : EStatus → Nat | .empty => 0 | .runnable => 1 | .waiting => 2 | .parked => 3
def Lst.code : Lst → Nat | .runnable => 0 | .waiting => 1 | .gone => 2 | .parked => 3

/-- A split entry (Table 2-6). -/
def Entry.img (e : Entry) : Nat :=
  pack [(e.pc.toNat, 0), (e.mask.toNat, 64), (e.status.code, 96), (e.waitOn.toNat, 98), (e.handler.toNat, 102), (e.idx % 16, 103), (e.llDone.toNat, 107)]

/-- A serial lane word (Table 8-4); the running lane stands where its entry does. -/
def laneBits (x : Crew) (l : Nat) : Nat :=
  let w := x.word l
  w.pc.toNat % 2 ^ 32 / 4 * 4 + w.lst.code

/-- A stream record (Table 13-11). -/
def Strm.img (t : Strm) : Nat := pack [(t.bound.toNat, 0), (t.dr.toNat, 1), (t.dims.toNat, 8), (t.esz.toNat, 10)]

/-- FLAGCNT of a flag: engine commands in flight that are tied to it. -/
def flagCnt (s : State) (u c k : Nat) : Nat := min 255 (s.cmds.filter (fun m => m.u == u && m.crew == c && m.flag == some k)).length

/-- A crew record (Table 2-6), 256 bytes. -/
def crewRecord (s : State) (u c : Nat) : Nat :=
  let y := s.unit u
  let x := y.crew c
  let split := if x.serial then (List.range 32).map (fun l => (laneBits x l, 32 * l)) else (List.range 8).map (fun e => ((x.entry e).img, 128 * e))
  let loops := if y.loop then (List.range 32).map (fun l => ((x.loops.get 0 l).toNat, 1536 + 16 * l))
    else (List.range 4).map (fun k => ((x.streams.getD k {}).img, 1536 + 128 * k))
  pack (split ++ (List.range 12).map (fun k => ((x.masks.getD k 0).toNat, 1024 + 32 * k)) ++
    (List.range 12).map (fun k => (flagCnt s u c k, 1408 + 8 * k)) ++ [(x.serial.toNat, 1504), (x.slane, 1505)] ++ loops)

/-- An operation that the request log holds: sent and not yet answered (R62). -/
def logged (u : Nat) (o : Op) : Bool := o.u == some u && o.open_ && o.cmd.isNone && o.phase != .queued && !o.kind.own

/-- A fibre record (Table 2-7), 32 bytes. -/
def fibreRecord (s : State) (u f : Nat) : Nat :=
  let x := (s.unit u).fib f
  let out := (s.ops.filter (fun o => logged u o && o.fibre == f && o.key.isSome)).length + (s.cmds.filter (fun m => m.u == u && m.fibre == f)).length
  pack [(x.pred.toNat, 0), (x.wb, 16), (x.ended.toNat, 26), (x.inBasin.toNat, 27), (x.serial.toNat, 32), (x.low.toNat, 48), (min 256 out, 64),
    (x.fpmode.toNat, 80), (x.fpflags.toNat, 88), (x.amax.toNat, 96), (x.sat.toNat, 128), (x.code.toNat, 160), (x.cause.toNat, 168), (x.faddr.toNat, 192)]

/-- A request-log entry (R62), 32 bytes. -/
def logEntry (o : Op) : Nat :=
  let stamped : Bool := match o.kind with | .ldDs | .stDs _ | .addDs | .redDs => true | _ => false
  let operands := (o.data ++ if stamped then leBytes o.g.toNat 4 else []).take 16
  pack [(o.fibre, 0), (o.flag.getD 15, 12), (((o.key.map Key.serial).getD 0).toNat, 16), (o.word.toNat, 32),
    (if o.leaf.isSome || o.va != 0 then o.va.toNat else o.loc, 64), (leNat operands, 128)]

/-- Two result words as a number. -/
def wordVal (ws : List Word) : Nat := (ws.getD 0 0).toNat + 2 ^ 32 * (ws.getD 1 0).toNat

/-- A journal entry of a scratchpad owner (Table 5-4), 32 bytes, in STATE `st`. -/
def JEntry.img (e : JEntry) (st : Nat) : Nat :=
  pack [(e.key.serial.toNat, 0), (e.key.part, 16), (e.key.fibre, 32), (e.key.unit, 42), (st, 62), (wordVal (e.ret.getD []), 64),
    ((Config.digest e.word e.addr e.data).toNat, 128), (e.pa % 2 ^ 21, 192), (e.word.toNat / 2 ^ 26, 213), (e.ret.isSome.toNat, 221), (e.psn.toNat, 222)]

/-- A journal entry of a die-cache owner or a dispatcher (Table 5-3), 64 bytes, in STATE `st`. -/
def JEntry.record (e : JEntry) (st : Nat) : Nat :=
  let f := e.flt.getD (0, 0)
  pack [(e.key.num, 0), (e.pa % 2 ^ 64, 128), ((Config.digest e.word e.addr e.data).toNat, 192), (wordVal (e.ret.getD []), 256), (e.word.toNat / 2 ^ 26, 384),
    (st, 392), (e.ret.isSome.toNat, 396), (e.psn.toNat, 397), (f.1.toNat, 398), (f.2.toNat, 406), (e.flt.isSome.toNat, 410)]

/-- An entry is written to its place in memory: 1 live, 2 retired (Tables 5-3, 5-4). -/
def writeEntry (s : State) (e : JEntry) (st : Nat) : State :=
  match e.owner, journalPlace s e.owner e.slot with
  | .pool _, some a => s.poke a (e.img st) 32
  | _, some a => s.poke a (e.record st) 64
  | _, none => s

/-- Entries retire: their places may be used again (R123). Of a unit that has ended nothing is written to its image any more. -/
def State.retire (s : State) (p : JEntry → Bool) : State :=
  let gone := s.journal.filter (fun e => p e && e.kept && (match e.owner with | .pool u => !(s.unit u).ended | _ => true))
  gone.foldl (fun s e => writeEntry s e 2) { s with journal := s.journal.filter (fun e => !p e) }

/-- The entries of a journal that share an area (R114): a unit's, or a die's, with those of the dispatchers in die 0's. (DEDUCED, log entry 54.) -/
def sameArea (v w : Owner) : Bool :=
  let area := fun (w : Owner) => match w with | .disp _ => Owner.die 0 | w => w
  area v == area w

/-- The lowest free place of a journal. -/
def journalSlot (s : State) (w : Owner) : Nat :=
  let used := (s.journal.filter (fun e => sameArea e.owner w)).map (fun e => e.slot)
  ((List.range (used.length + 1)).find? (fun k => !used.contains k)).getD 0

/-- The owner has an entry to spare (R114, R126): 2,048 in a unit's journal, 4,194,304 in an area of Table 3-1. -/
def journalRoom (s : State) (w : Owner) : Bool :=
  let n := (s.journal.filter (fun e => sameArea e.owner w)).length
  match w with | .pool _ => decide (n < 2048) | _ => decide (n < 4194304)

/-- An entry joins its owner's journal. -/
def State.addEntry (s : State) (e : JEntry) : State := { s with journal := s.journal ++ [{ e with slot := journalSlot s e.owner }] }

/-- The n-th entry reaches the stack, or the image (R69, R115). -/
def keepEntry (s : State) (n : Nat) : State :=
  match s.journal[n]? with
  | none => s
  | some e => if e.kept then s else { writeEntry s e 1 with journal := s.journal.modify n (fun e => { e with kept := true }) }

/-- Write records of `n` bytes one after the other. -/
def pokeAll (s : State) (a n : Nat) (xs : List Nat) : State :=
  ((List.range xs.length).zip xs).foldl (fun s e => s.poke (a + n * e.1) e.2 n) s

/-- The result journal of a unit's scratchpad owner goes to the image (SJNB). -/
def writeJournal (s : State) (u : Nat) : State :=
  ((List.range s.journal.length).filter (fun k => (s.journal[k]?.map (fun e => e.owner)) == some (.pool u))).foldl keepEntry s

/-- The crew records. -/
def writeCrews (s : State) (u : Nat) : State := pokeAll s ((s.unit u).base + 256) 256 ((List.range (s.unit u).crews.length).map (crewRecord s u))

/-- Engine commands of a unit that is not resident change its flag counts in the image (R66). -/
def writeFlags (s : State) (u : Nat) : State := if (s.unit u).core.isSome || (s.unit u).ended then s else writeCrews s u

/-- The save of a unit (R64): crew records, fibre records, request log, journal, engine tables and header. (DESIGN CHOICE, log entry 7.) -/
def saveImage (s : State) (u : Nat) : State :=
  let y := s.unit u
  let log := (s.ops.filter (logged u)).map logEntry
  let s := writeCrews s u
  let s := pokeAll s (y.region 5) 32 ((List.range y.fibs.length).map (fibreRecord s u))
  let s := pokeAll s (y.region 7) 32 (log ++ if log.length < 4096 then [0] else [])
  let s := writeJournal s u
  let s := pokeAll s (y.region 9) 1 ((List.range 256).map (fun k => (y.rules.get 0 k).toNat))
  let s := pokeAll s (y.region 9 + 0x100) 2 ((List.range 256).map (fun k => (y.book.get 0 k).toNat))
  let s := s.poke (y.base + 124) y.staging.length 4
  let s := s.poke (y.base + 128) log.length 4
  let s := s.poke (y.base + 132) (usedSlots s u).length 4
  let arrived := ((List.range y.crews.length).filter (fun c => (y.crew c).populated && crewArrived (y.crew c) 15)).length
  let s := s.poke (y.base + 136) (pack [(arrived, 0), (y.ubarGen.toNat, 16)]) 4
  writeTurn s u

-- at launch ----------------------------------------------------------------------------------------------------------

/-- The crews that a unit starts with (R175). -/
def firstCrews (slots starting fibres : Nat) (code : Addr) : List Crew :=
  (List.range slots).map (fun c =>
    let lanes := (List.range 32).map (fun l => if c < starting ∧ 32 * c + l < fibres then some (32 * c + l) else none)
    let m := maskOf ((List.range 32).filter (fun l => (lanes.getD l none).isSome))
    { lanes := lanes, active := false
      split := (if m = 0 then {} else { pc := code, mask := m, status := .runnable }) :: List.replicate 7 {} })

/-- The fibres that a unit starts with (R172, R175). -/
def firstFibres (starting fibres : Nat) : List Fibre := (List.range fibres).map (fun f => { exists_ := decide (f < 32 * starting) })

/-- An image as at launch (R55 to R59, R384): fields marked D at reset, the presence bitmap clear. -/
def resetImage (s : State) (u : Nat) : State :=
  let y := s.unit u
  let n := y.cfg.fibres
  let s := s.modUnit u (fun y => { y with
    status := .never, engSaved := false, turnDrained := false, draining := false, ubarGen := 0, gbarGen := 0
    regs := [], scr := [], acc := [], book := [], rules := [], bas := [], rows := [], staging := []
    crews := firstCrews ((n + 31) / 32) y.cfg.crews n y.cfg.code, fibs := firstFibres y.cfg.crews n })
  let s := s.poke (y.base + 4) 0 4
  let s := s.poke (y.base + 124) 0 20
  let s := writeCrews s u
  let s := pokeAll s (y.region 5) 32 ((List.range n).map (fibreRecord s u))
  pokeAll s (y.region 6) 1 (List.replicate 6784 0)

end Sys2Proof.Machine
end

