-- ==== Sys2Proof/Machine/Cards.lean ====
section
/-! DEFINITION. Job cards and levels: acceptance (R207 to R211), graphs and phases (R202, R417), completion counters (R284) and cancelling (R222,
R223). -/

namespace Sys2Proof.Machine

-- the card (Table 9-1) and its block (Table 9-3) -------------------------------------------------------------------

/-- A field of a card. -/
def NodeSt.c (n : NodeSt) (lo k : Nat) : Nat := bits n.card.toNat lo k
/-- A field of a declaration block. -/
def NodeSt.d (n : NodeSt) (lo k : Nat) : Nat := bits n.decl.toNat lo k
def NodeSt.unitCount (n : NodeSt) : Nat := n.c 184 20
def NodeSt.fibres (n : NodeSt) : Nat := n.c 204 11
def NodeSt.crews (n : NodeSt) : Nat := n.c 215 6
def NodeSt.gang (n : NodeSt) : Nat := n.c 221 4 + 1
def NodeSt.lcoreCount (n : NodeSt) : Nat := n.c 225 12
def NodeSt.det (n : NodeSt) : Bool := n.card.toNat.testBit 237
def NodeSt.red (n : NodeSt) : Bool := n.card.toNat.testBit 238
def NodeSt.prot (n : NodeSt) : Bool := n.card.toNat.testBit 239
def NodeSt.prio (n : NodeSt) : Nat := n.c 240 2
def NodeSt.mb (n : NodeSt) : Nat := n.c 242 6
def NodeSt.phase (n : NodeSt) : Nat := n.c 172 12
def NodeSt.graph (n : NodeSt) : Nat := n.c 160 12
def NodeSt.code (n : NodeSt) : Nat := n.c 0 64
def NodeSt.part (n : NodeSt) : Nat := n.c 64 32
def NodeSt.bitmap (n : NodeSt) : Nat := n.d 64 64
def NodeSt.handler (n : NodeSt) : Nat := n.d 0 64
/-- Predecessor entry k: PNODE, KIND, PARAM (R208). -/
def NodeSt.pred (n : NodeSt) (k : Nat) : Nat × Nat × Nat := (n.c (256 + 48 * k) 32, n.c (288 + 48 * k) 4, n.c (292 + 48 * k) 12)
/-- Input entry k: BASE, STRIDE, LEN, SOFF (Table 9-4). -/
def NodeSt.input (n : NodeSt) (k : Nat) : Nat × Nat × Nat × Nat :=
  (n.d (512 + 256 * k) 64, n.d (576 + 256 * k) 64, n.d (640 + 256 * k) 32, n.d (672 + 256 * k) 32)
/-- D of R214. -/
def NodeSt.perDie (n : NodeSt) : Nat := 180 / n.gang * n.gang

/-- The node of an identifier in a job. -/
def State.nodeOf (s : State) (job id : Nat) : Option Nat := s.nodes.findIdx? (fun n => n.job == job && n.id == id)

-- acceptance -------------------------------------------------------------------------------------------------------

/-- The partition word of a card is valid (R42). -/
def partOk (n : NodeSt) : Bool :=
  let p := n.part
  bits p 20 12 == 0 && decide (1 ≤ bits p 0 6) && (!p.testBit 19 || decide (2 ≤ bits p 0 6)) &&
  decide (bits p 0 6 + bits p 6 6 + bits p 12 6 ≤ 64) && (!n.det || p.testBit 19)

/-- Shape (code 3). -/
def shapeOk (n : NodeSt) : Bool :=
  decide (1 ≤ n.unitCount ∧ n.unitCount ≤ 0xFFFFE ∧ 1 ≤ n.fibres ∧ n.fibres ≤ 1024 ∧ 1 ≤ n.crews ∧ n.crews ≤ 32 ∧
    n.crews ≤ (n.fibres + 31) / 32 ∧ n.gang ≤ n.unitCount)

/-- LCORES and RED (code 4). -/
def lcoresOk (n : NodeSt) : Bool :=
  if n.det then decide (1 ≤ n.lcoreCount ∧ n.lcoreCount ≤ 16 * n.perDie ∧ n.lcoreCount % n.gang = 0) &&
    (!n.red || decide (n.lcoreCount ≤ 8 * n.perDie))
  else n.lcoreCount == 0 && !n.red

/-- A predecessor entry's KIND, PARAM and self-dependency kind (code 5). -/
def predOk (n : NodeSt) (k : Nat) : Bool :=
  let (p, kind, par) := n.pred k
  decide (kind < 8) &&
  (match kind with | 3 => par != 0 | 4 => par != 0 | 6 => par != 0 | 7 => decide (par ≤ 3) | _ => par == 0) &&
  !(kind != 0 && p == n.id && kind != 4 && kind != 7)

/-- A self-dependency on a node without a bitmap (R208). -/
def selfBlind (n : NodeSt) : Bool := n.bitmap == 0 && (List.range 4).any (fun k => let (p, kind, _) := n.pred k; kind != 0 && p == n.id)

/-- The block's other fields (code 6). -/
def blockFieldsOk (n : NodeSt) : Bool :=
  let h := n.handler
  n.d 448 64 % 4096 == 0 && (h == 0 || (h / 2 ^ 32 == n.code / 2 ^ 32 && h % 4 == 0)) &&
  (List.range 4).all (fun k =>
    let (_, _, len, soff) := n.input k
    n.d (704 + 256 * k) 64 == 0 && (len == 0 || decide (soff + len ≤ bits n.part 6 6 * 32768)))

/-- The level of a phase, or of a graph of it. -/
def Job.level (j : Job) (phase : Nat) (graph : Option Nat) : Option Level := j.levels.find? (fun l => l.phase == phase && l.graph == graph)
/-- Change a level, which comes to exist where it does not. -/
def Job.modLevel (j : Job) (phase : Nat) (graph : Option Nat) (f : Level → Level) : Job :=
  { j with levels :=
      if (j.level phase graph).isSome then j.levels.map (fun l => if l.phase == phase && l.graph == graph then f l else l)
      else j.levels ++ [f { phase := phase, graph := graph }] }

/-- The node, its levels or its job are cancelled (code 7). -/
def cancelledAt (s : State) (n : NodeSt) : Bool :=
  let j := s.job n.job
  let gone := fun g => ((j.level n.phase g).map (fun l => l.cancelled)).getD false
  j.cancelled || j.cancelledNodes.contains n.id || gone none || gone (some n.graph)

/-- A closed level, or a completed graph of a phase that goes on (code 11). -/
def closedAt (s : State) (n : NodeSt) : Bool :=
  let j := s.job n.job
  match j.level n.phase none with
  | none => false
  | some p =>
    if p.complete then false
    else p.closed || (match j.level n.phase (some n.graph) with | some g => g.closed || g.complete | none => false)

/-- The acceptance code of a card that is read for a job at a die, and the node it makes (Table 9-5, in the order of R210), with what the reads do at homes.
(DEDUCED, log entry 35.) -/
def acceptCode (s : State) (job die : Nat) (va : BitVec 64) : State × Nat × NodeSt :=
  let none_ : NodeSt := { job := job, id := 0, card := 0, decl := 0, home := die }
  let s := jobReads s job 64 va
  match jobRead s job 64 va with
  | .error _ => (s, 9, none_)
  | .ok (cb, bad) =>
    if bad then (s, 9, none_)
    else
      let n : NodeSt := { job := job, id := bits (leNat cb) 96 32, card := BitVec.ofNat 512 (leNat cb), decl := 0, home := die, order := s.nodes.length }
      if n.c 504 8 != 0 || n.c 248 6 != 0 then (s, 6, n)
      else if n.c 128 32 != job then (s, 10, n)
      else if n.code / 2 ^ 56 != 0 || n.code % 4 != 0 then (s, 1, n)
      else if !partOk n then (s, 2, n)
      else if !shapeOk n then (s, 3, n)
      else if !lcoresOk n then (s, 4, n)
      else if !(List.range 4).all (predOk n) then (s, 5, n)
      else
        let dva := n.c 448 56
        if dva = 0 ∨ dva % 256 ≠ 0 then (s, 6, n)
        else
          let s := jobReads s job 256 (BitVec.ofNat 64 dva)
          match jobRead s job 256 (BitVec.ofNat 64 dva) with
          | .error _ => (s, 9, n)
          | .ok (db, bad) =>
            if bad then (s, 9, n)
            else
              let n := { n with decl := BitVec.ofNat 2048 (leNat db) }
              if selfBlind n then (s, 5, n)
              else if !blockFieldsOk n then (s, 6, n)
              else if cancelledAt s n then (s, 7, n)
              else if closedAt s n then (s, 11, n)
              else if 0xFFFE0000 ≤ n.id ∨ (s.nodeOf job n.id).isSome then (s, 8, n)
              else (s, 0, n)

/-- Queue an accepted node: its levels come to exist, a completed phase is used again, CLOSEG and CLOSEP close (R417). -/
def queueNode (s : State) (n : NodeSt) : State :=
  let again : Bool := ((((s.job n.job).level n.phase none).map (fun l => l.complete)).getD false)
  let s := s.modJob n.job (fun j =>
    let j := if again then { j with levels := j.levels.filter (fun l => l.phase != n.phase || l.cancelled) } else j
    let j := j.modLevel n.phase none (fun l => { l with closed := l.closed || n.card.toNat.testBit 254 })
    j.modLevel n.phase (some n.graph) (fun l => { l with closed := l.closed || n.card.toNat.testBit 255 }))
  { s with nodes := s.nodes ++ [n] }

/-- The queue of a die at a priority holds 1,024 cards (R211), or the device takes no card yet (R404). -/
def queueFull (s : State) (die prio : Nat) : Bool :=
  !s.ready || decide (1024 ≤ (s.nodes.filter (fun n => n.status == .queued && n.home == die && n.prio == prio)).length)

/-- CARD_ACCEPTANCE (R210): the state after it and the code, `none` where the queue refuses (R211). -/
def acceptCard (s : State) (job die : Nat) (va : BitVec 64) : State × Option Nat :=
  let (s, c, n) := acceptCode s job die va
  if queueFull s die n.prio then (s, none)
  else if c = 0 then (queueNode s n, some 0)
  else (s.tell (.accept job n.id c), some c)

-- levels -----------------------------------------------------------------------------------------------------------

/-- A committed node counts in its graph (Table 8-5). -/
def countNode (s : State) (job phase graph : Nat) : State :=
  s.modJob job (fun j => j.modLevel phase (some graph) (fun l => { l with count := l.count + 1 }))

/-- GRAPH_COMPLETE and PHASE_COMPLETE (R417): closed levels whose accepted nodes have all committed, or whose graphs have all completed. With AUTOSTEP the
job's step advances at the end of a phase, and the job waits for it (R101). -/
def completeLevels (s : State) (job phase graph : Nat) : State :=
  let j := s.job job
  let mine := s.nodes.filter (fun n => n.job == job && n.phase == phase)
  let gdone : Bool := match j.level phase (some graph) with
    | some g => g.closed && !g.complete && !g.cancelled && mine.all (fun n => n.graph != graph || n.status == .committed)
    | none => false
  let j := if gdone then (j.modLevel phase (some graph) (fun l => { l with complete := true })).modLevel phase none (fun l => { l with count := l.count + 1 }) else j
  let pdone : Bool := match j.level phase none with
    | some p => p.closed && !p.complete && !p.cancelled &&
        j.levels.all (fun l => l.phase != phase || l.complete || (match l.graph with | some g => !mine.any (fun n => n.graph == g) | none => true))
    | none => false
  if !pdone then s.modJob job (fun _ => j)
  else
    let s := s.modJob job (fun _ => { j.modLevel phase none (fun l => { l with complete := true }) with phases := j.phases + 1, waitStep := j.waitStep + j.autostep.toNat })
    if j.autostep then sendDisp s job 0 { id := 0, kind := .stepAdv, u := none, owner := .disp 0, word := (encode .stepAdv).getD 0 } else s

-- counters ---------------------------------------------------------------------------------------------------------

/-- An identifier of a level that names nothing (R283). -/
def badIdent (level v job : Nat) : Bool :=
  match level with
  | 0 => false
  | 1 => bits v 24 8 != 0
  | 2 => bits v 12 20 != 0
  | _ => v != job

/-- The value of CNT.RD (R284, Table 8-5). -/
def counterOf (s : State) (job level v : Nat) : Nat :=
  let j := s.job job
  let lv := fun (p : Nat) (g : Option Nat) => match j.level p g with | some l => if l.cancelled then 0xFFFFFFFF else l.count | none => 0
  match level with
  | 0 => if j.cancelledNodes.contains v then 0xFFFFFFFF else match s.nodeOf job v with | some k => (s.node k).launch | none => 0
  | 1 => lv (bits v 12 12) (some (bits v 0 12))
  | 2 => lv v none
  | _ => if j.cancelled then 0xFFFFFFFF else j.phases

-- stopping units and cancelling --------------------------------------------------------------------------------------

/-- The operations and commands of a unit are gone, but for requests that are in flight and what a dispatcher has begun and holds; responses that still
arrive are dropped (R125). -/
def dropOps (s : State) (u : Nat) : State :=
  let stays := fun (o : Op) => o.phase == .request || (o.phase == .held && (o.kind.holds || (match o.kind with | .cancel _ => true | _ => false)))
  { s with
    ops := (s.ops.filter (fun o => o.u != some u || stays o)).map (fun o => if o.u = some u then { o with cmd := none, flag := none } else o)
    cmds := s.cmds.filter (fun m => m.u != u) }

/-- The engine and grant of a unit are given up (R221). -/
def loseEngine (s : State) (u : Nat) : State :=
  let y := s.unit u
  let d := dieOf (y.core.getD 0)
  let s := if y.core.isSome && (s.core y.at_).engine == some u then
      (s.modCore y.at_ (fun c => { c with engine := none })).modDie d (fun e => { e with held := e.held.erase u }) else s
  let s := if y.core.isSome then s.modDie d (fun e => { e with queue := e.queue.filter (fun v => v != u), served := e.served.filter (fun v => v.1 != u) }) else s
  s.modUnit u (fun y => { y with engQueued := false })

/-- The crews of the units on a core. -/
def coreCrews (s : State) (k : Nat) : List (Nat × Nat) :=
  (s.onCore k).flatMap (fun u => ((List.range (s.unit u).crews.length).filter (fun c => ((s.unit u).crew c).populated)).map (fun c => (u, c)))

/-- The pending crew that has waited longest among a list. -/
def longest (s : State) (l : List (Nat × Nat)) : Option (Nat × Nat) :=
  l.foldl (fun b p => match b with
    | none => some p
    | some q => if ((s.unit p.1).crew p.2).since < ((s.unit q.1).crew q.2).since then some p else some q) none

/-- Places of active crews that stand free are taken by the crews that have waited longest (R219). -/
def fillActive (s : State) (k : Nat) : Nat → State
  | 0 => s
  | fuel + 1 =>
    let all := coreCrews s k
    let active := all.filter (fun p => ((s.unit p.1).crew p.2).active)
    match (if active.length < 8 then longest s (all.filter (fun p => !((s.unit p.1).crew p.2).active)) else none) with
    | none => s
    | some p => fillActive (s.modCrew p.1 p.2 (fun y => { y with active := true, since := s.now, passed := 0 })) k fuel

/-- A unit stops for good: nothing of it stays in the pool (R222). -/
def stopUnit (s : State) (u : Nat) : State :=
  let k := (s.unit u).core
  let s := loseEngine (dropOps s u) u
  let s := s.modUnit u (fun y => { y with cancelled := true, stopping := false, core := none, lastCore := none, sweeps := [], compare := [], crews := [], staging := [], rows := [] })
  match k with | some k => fillActive s k 8 | none => s

/-- Every home clears W on a node's staged lines and drops it from the writer records (R78, R80). -/
def dropWrites (s : State) (n : Nat) : State :=
  { s with lines := (s.lines.map (fun e => (e.1, { e.2 with w := e.2.w && e.2.owner != n, owner := if e.2.owner = n then 0 else e.2.owner
                                                            writers := e.2.writers.filter (fun w => w != n) }))).filter (fun e => e.2 != {}) }

/-- Every owner's entries of a node retire (R124, R125). -/
def retireNode (s : State) (job id : Nat) : State := s.retire (fun e => e.key.job == job && e.key.node == id)

/-- Nodes reached from a set through cards and consumed-from sets (R222). -/
def reachedFrom (s : State) : Nat → List Nat → List Nat
  | 0, set => set
  | fuel + 1, set =>
    let more := (List.range s.nodes.length).filter (fun k =>
      let n := s.node k
      !set.contains k && n.status != .committed && n.status != .committing && n.status != .cancelled &&
      set.any (fun m => n.consumed.contains m ||
        ((s.node m).job == n.job && (List.range 4).any (fun e => let (p, kind, _) := n.pred e; kind != 0 && p == (s.node m).id && m != k))))
    if more = [] then set else reachedFrom s fuel (set ++ more)

/-- A node that is being cancelled is cancelled once its units have stopped: its writes to staged lines and its entries go (R222, R125). -/
def settleNode (s : State) (k : Nat) : State :=
  let n := s.node k
  if n.stopping.isNone || s.units.any (fun y => y.cfg.node == k && !y.cancelled) then s
  else
    let s := retireNode (dropWrites s k) n.job n.id
    let s : State := { s with drains := s.drains.filter (fun d => d.node != k) }
    s.modNode k (fun y => { y with status := .cancelled, shadow := [], doom := 0, holds := false, stopping := none })

/-- A node is to be cancelled: it is recorded so, its card leaves the queue, and its units stop: those on a core with the waits of pre-emption. `m`: the CANCEL
that waits for it (R222). -/
def cancelNode (m : Option Nat) (s : State) (k : Nat) : State :=
  let n := s.node k
  let us := (List.range s.units.length).filter (fun u => (s.unit u).cfg.node == k && !(s.unit u).cancelled)
  let s := s.modNode k (fun y => { y with stopping := some (y.stopping.getD [] ++ m.toList) })
  let s := s.modJob n.job (fun j => { j with cancelledNodes := if j.cancelledNodes.contains n.id then j.cancelledNodes else j.cancelledNodes ++ [n.id] })
  settleNode (us.foldl (fun s u => if (s.unit u).core.isSome then s.modUnit u (fun y => { y with stopping := true }) else stopUnit s u) s) k

/-- Cancel the nodes that a test picks, and all that they reach. -/
def cancelNodes (s : State) (m : Option Nat) (pick : NodeSt → Bool) : State :=
  let first := (List.range s.nodes.length).filter (fun k => let n := s.node k; pick n && n.status != .committed && n.status != .committing && n.status != .cancelled)
  (reachedFrom s s.nodes.length first).foldl (cancelNode m) s

/-- CANCEL_APPLY (R222, R223): a level of a job, for the CANCEL `m`. A NODE that no accepted card carries is named by the cards that queue for it.
(DEDUCED, log entry 26.) -/
def cancelLevel (s : State) (m : Option Nat) (job level v : Nat) : State :=
  match level with
  | 0 =>
    let done : Bool := match s.nodeOf job v with | some k => (s.node k).status == .committed || (s.node k).status == .committing | none => false
    let names := fun (n : NodeSt) => (s.nodeOf job v).isNone && (List.range 4).any (fun e => let (p, kind, _) := n.pred e; kind != 0 && p == v)
    let s := cancelNodes s m (fun n => n.job == job && (n.id == v || names n))
    if done then s else s.modJob job (fun j => { j with cancelledNodes := if j.cancelledNodes.contains v then j.cancelledNodes else j.cancelledNodes ++ [v] })
  | 1 =>
    cancelNodes (s.modJob job (fun j => j.modLevel (bits v 12 12) (some (bits v 0 12)) (fun l => { l with cancelled := true }))) m
      (fun n => n.job == job && n.phase == bits v 12 12 && n.graph == bits v 0 12)
  | 2 => cancelNodes (s.modJob job (fun j => j.modLevel v none (fun l => { l with cancelled := true }))) m (fun n => n.job == job && n.phase == v)
  | _ => (cancelNodes (s.modJob job (fun j => { j with cancelled := true })) m (fun n => n.job == job)).retire (fun e => e.key.job == job)

/-- Some node waits for its units to stop before the CANCEL `m` is complete. -/
def cancelWaits (s : State) (m : Nat) : Bool := s.nodes.any (fun n => (n.stopping.getD []).contains m)

/-- Escalation (R386) of a phase of a job: every node of it is cancelled and the host told. (DEDUCED, log entry 26.) -/
def escalatePhase (s : State) (job ph : Nat) : State :=
  let mine := s.nodes.filter (fun n => n.job == job && n.status != .committed && n.status != .cancelled && n.phase == ph)
  (cancelNodes s none (fun m => m.job == job && m.phase == ph)).tell (.poison 1 (mine.map (fun m => m.id)))

/-- Escalation (R386) where no one node asks for it: the job's current phase is that of its latest uncommitted node. -/
def escalate (s : State) (job : Nat) : State :=
  match (s.nodes.filter (fun n => n.job == job && n.status != .committed && n.status != .cancelled)).getLast? with
  | none => s.tell (.poison 1 [])
  | some n => escalatePhase s job n.phase

end Sys2Proof.Machine
end

