-- ==== Sys2Proof/Machine/Home.lean ====
section
/-! DEFINITION. Owners (R114 to R128): the place and checks of an operation at its owner, its effect, journal entries, keyed requests, reads at the
home, paired arrivals and signatures (R388 to R390), and drained updates (R133, R134, R416). -/

namespace Sys2Proof.Machine

-- packets (R120, R393) -----------------------------------------------------------------------------------------------

/-- Ports that are up. -/
def upPorts (s : State) : List Nat := (List.range s.ports.length).filter (fun p => (s.ports.getD p {}).up)

/-- The port that a remote operation's packets pass (R393). (DESIGN CHOICE, log entry 8.) -/
def planeOf (s : State) (o : Op) : Option Nat :=
  match o.owner with
  | .remote _ => let up := upPorts s; up[Config.plane o.id up % up.length]?
  | _ => none

/-- A packet of an operation that left at a cycle is older than 100 µs, 70,000 cycles, and every router discards it (R120). -/
def Op.aged (o : Op) (s : State) (t : Nat) : Bool := decide (t + 70000 ≤ o.clock s)

/-- A packet in flight is lost. -/
def losePacket (s : State) (m : Nat) : State :=
  s.modOp m (fun q => match q.phase with | .request => { q with phase := .lost } | .response _ => { q with phase := .lost } | _ => q)

/-- The management region of a device, in its fabric node space (R394). -/
def mgmtPlace (loc : Nat) : Bool := decide (2 ^ 60 ≤ loc ∧ 0xF00000000000 ≤ loc % 2 ^ 48 ∧ loc % 2 ^ 48 < 0xF00001000000)

/-- What becomes of a request on its way: it comes to its owner, it waits for a plane that is up, or it is dropped: too old, or no access that the management
region answers, which takes 64-bit accesses only (R120, R393, R394). -/
inductive Way | comes | waits | dropped
  deriving DecidableEq, Repr

/-- That of an operation; no instruction makes a 64-bit access to the management region. (DEDUCED, log entry 68.) -/
def Op.way (o : Op) (s : State) : Way :=
  if o.aged s o.sentAt || (o.leaf.isSome && mgmtPlace o.loc) then .dropped
  else match o.owner with
    | .remote _ => if (planeOf s o).isSome then .comes else .waits
    | _ => .comes

-- checks at the owner ------------------------------------------------------------------------------------------------

/-- The class of access of an operation. -/
def OpKind.acc : OpKind → Acc
  | .store => .st | .tagSet => .tagSet | .berth _ => .berth | .rmw .. => .rmw | .cas => .rmw
  | .ldDs => .ldDs | .stDs _ => .stDs | .addDs => .rmwDs | .redDs => .rmwDs | .part => .dst | .collAdd _ => .dst | .tagGet => .tagGet
  | .window => .src
  | _ => .ld

/-- A request that reads its target (R117). -/
def OpKind.readsTarget : OpKind → Bool | .ldDs | .rmw .. | .cas | .addDs | .redDs | .collAdd _ => true | _ => false

/-- The node and job of an operation's unit. -/
def Op.node (o : Op) (s : State) : Option Nat := o.u.map (fun u => (s.unit u).cfg.node)
def Op.job (o : Op) (s : State) : Nat := match o.key, o.u with | some k, _ => k.job | none, some u => (s.unit u).cfg.job | none, none => 0

/-- The bytes that an operation writes, by offset from its place. -/
def Op.cells (o : Op) : List (Nat × Byte) :=
  ((List.range o.data.length).zip o.data).filter (fun c => o.mask = [] || o.mask.getD c.1 false)

/-- The sectors that an operation touches, by the offset of a byte of each. -/
def Op.sectorOffs (o : Op) (loc : Nat) : List Nat :=
  if o.mask = [] then (List.range ((loc + o.size - 1) / 32 - loc / 32 + 1)).map (fun i => 32 * (loc / 32 + i) - loc)
  else o.cells.foldl (fun (l : List Nat) c => match l.getLast? with
    | some k => if (loc + k) / 32 = (loc + c.1) / 32 then l else l ++ [c.1]
    | none => [c.1]) []

/-- The berth that ST.BERTH names. -/
def Op.named (o : Op) : Nat := match o.kind with | .berth b => b | _ => 0

/-- The backing of an operation, by the checks of kind, privilege, permission and backing at its home, on the translation that it carries (R31, R75, R86). -/
def homeBack (s : State) (o : Op) : Except Why Nat :=
  match o.leaf with
  | none => .ok 0
  | some l =>
    match permCause l.ent o.kind.acc o.priv with
    | some c => .error (cPERM, c)
    | none => match backing s (o.node s) o.berth o.va.toNat l o.kind.acc o.named with
      | none => .error (cPERM, 4)
      | some b => .ok b

/-- The place of the byte of an operation at an offset, in backing `b`; a write to a staged page goes to each line's own other backing (R76). -/
def Op.place (o : Op) (s : State) (b k : Nat) : Nat :=
  match o.leaf with
  | none => o.loc + k
  | some l =>
    if entStaged l.ent && o.kind.acc.writes then l.at_ (1 - (s.line (l.at_ 0 (l.off + k) / 128)).c.toNat) (l.off + k) else l.at_ b (l.off + k)

/-- A sector that an operation touches has another tag than its address (R28, R71). -/
def tagFails (s : State) (o : Op) (b : Nat) : Bool :=
  match o.leaf with
  | none => false
  | some l => entKind l.ent != 3 && o.kind.acc != .tagSet && o.kind.acc != .tagGet && decide (0 < o.size) &&
      (o.sectorOffs (o.place s b 0)).any (fun k => s.tag (o.place s b k) != o.va.extractLsb' 60 4)

/-- The checks of R31 again at the home (R71, R75, R86, R117): the backing and the place. The tag comes before the reserved area. (DESIGN CHOICE, log
entry 55.) -/
def homePlace (s : State) (o : Op) : Except Why (Nat × Nat) :=
  match homeBack s o with
  | .error w => .error w
  | .ok b => if tagFails s o b then .error (cTAG, 0) else .ok (b, o.place s b 0)

/-- Where the content lies that a read-modify-write at the home reads: on a staged line not yet written, the committed backing (R76). -/
def contentAt (s : State) (o : Op) (loc : Nat) : Nat :=
  match o.leaf with
  | some l => if entStaged l.ent then let x := s.line (l.at_ 0 l.off / 128); if x.w then l.at_ (1 - x.c.toNat) l.off else l.at_ x.c.toNat l.off else loc
  | none => loc

/-- A slot lies in an enabled dredge region of its stack (R108); a peer's regions are the peer's. (DESIGN CHOICE, log entry 9.) -/
def dredged (s : State) (loc : Nat) : Bool :=
  decide (2 ^ 60 ≤ loc) || (s.stack (loc / 2 ^ 36)).drgn.any (fun r =>
    r.getLsbD 63 && decide (bits r.toNat 0 20 * 65536 ≤ loc % 2 ^ 36 ∧ loc % 2 ^ 36 < (bits r.toNat 0 20 + bits r.toNat 20 20) * 65536))

/-- The owner reads what a request touches: the sectors decode (R37, R70), and of a staged line not yet written, those of the committed one. -/
def ownerReads (s : State) (o : Op) (b loc : Nat) : State :=
  match o.owner with
  | .die _ =>
    if s.sectors = [] || o.leaf.isNone then s
    else
      let s := (o.sectorOffs loc).foldl (fun s k => decodeSector s (o.place s b k / 32)) s
      if o.kind.readsTarget then decodeRange s (contentAt s o loc) o.size else s
  | .pool u => if o.kind.readsTarget || o.kind == .load then (readScr s u o.loc o.size).1 else s
  | _ => s

/-- The target of a request is poisoned (R72). -/
def targetPoisoned (s : State) (o : Op) (loc : Nat) : Bool :=
  match o.owner with
  | .pool u => scrPoisoned s u o.loc o.size
  | .die _ | .remote _ => s.poisonedAt (contentAt s o loc) o.size
  | .disp _ => false

-- effects ------------------------------------------------------------------------------------------------------------

/-- What performing an operation comes to. `hold`: it is not answered yet. -/
structure Did where
  s : State
  res : Option (List Word) := none
  ahead : Bool := false
  clamped : Bool := false
  hold : Bool := false
  fault : Option Why := none

/-- Write a word-sized or larger value back to the operation's place. -/
def putBack (s : State) (o : Op) (b : Nat) (bs : List Byte) : State :=
  match o.owner, o.leaf with
  | .pool u, _ => landScr s u o.loc ((List.range bs.length).zip bs) []
  | _, some l => landPage s (o.node s) l b (((List.range bs.length).zip bs).map (fun c => (l.off + c.1, c.2)))
  | _, none => s

/-- The bytes of the operation's place. -/
def getOld (s : State) (o : Op) (loc n : Nat) : List Byte :=
  match o.owner with
  | .pool u => (readScr s u o.loc n).2
  | _ => s.load (contentAt s o loc) n

/-- The race check over the sectors of an engine part (R158). -/
def partRace (s : State) (o : Op) (loc : Nat) (one : State → Nat → Option (BitVec 4) × State) : Option (BitVec 4) × State :=
  (o.sectorOffs loc).foldl (fun (a : Option (BitVec 4) × State) k => match a.1 with | some _ => a | none => one a.2 k) (none, s)

/-- An engine part lands: race-checked as it lands (R158), with the poison of its source (R72). A line that it poisons is not counted at its stack, whose
counter counts what the stack's own code finds (R73). (DESIGN CHOICE, log entry 56.) -/
def landPart (s : State) (o : Op) (b loc : Nat) : Did :=
  let u := o.u.getD 0
  match o.owner, o.leaf with
  | .pool v, _ =>
    match partRace s o loc (fun s k => raceScr s u o.crew v (o.loc + k) 1 .wr) with
    | (some c, _) => { s := s, fault := some (cDETRACE, c) }
    | (none, s) => { s := landScr s v o.loc o.cells o.bad }
  | _, some l =>
    match partRace s o loc (fun s k => raceGlobal s u o.crew { l with off := l.off + k } (o.place s b k) 1 .wr) with
    | (some c, _) => { s := s, fault := some (cDETRACE, c) }
    | (none, s) =>
      let at_ := o.bad.map (o.place s b)
      let s := landPage s (o.node s) l b (o.cells.map (fun c => (l.off + c.1, c.2)))
      { s := at_.foldl (fun s p => s.modLine (p / 128) (fun x => { x with poison := true })) s }
  | _, none => { s := s }

/-- The sector of a leaf in every backing of its page (R330). -/
def tagPlaces (l : Leaf) : List Nat :=
  (List.range (if entKind l.ent = 2 then entBerths l.ent + 1 else if entStaged l.ent then 2 else 1)).map (fun b => l.at_ b l.off)

/-- The tag of a sector is set in every backing of its page, and mirrors drop the lines (R29, R330). -/
def setTags (s : State) (l : Leaf) (t : BitVec 4) : State :=
  { s with
    tags := (tagPlaces l).foldl (fun m p => SMap.set 0 m (p / 32) t) s.tags
    cores := s.cores.map (fun e => (e.1, { e.2 with mirror := (tagPlaces l).foldl (fun m p => SMap.set 0 m (p / 128) 0) e.2.mirror })) }

/-- The lowest free berth of a job (R87). (DEDUCED, log entry 22.) -/
def freeBerth (j : Job) : Option Nat :=
  (List.range (j.kctx.toNat + 1)).find? (fun b =>
    !j.open_.getLsbD b && (List.range 64).all (fun t => let e := j.tagmap.get 8 t; !(e.getLsbD 3 && e.toNat % 8 == b)))

/-- BER.PUB at the master (Table 3-5). -/
def pubBerth (j : Job) (b t n : Nat) : Job :=
  { j with
    tagmap := (List.range n).foldl (fun m i => SMap.set 8 m ((t + i) % 64) (BitVec.ofNat 4 (8 + b))) j.tagmap
    open_ := j.open_ &&& ~~~(BitVec.twoPow 8 b) }

/-- A change of the map for an operation begins: replicas take it one by one (R85, R88). -/
def Job.remap (j : Job) (m : Nat) (f : Job → Job) : Job := { f j with mapOld := some j.tagmap, mapNew := [], mapping := some m }

/-- A STEP.ADV may begin (R100): none is in progress, and the dredge has finished the boundary before a new one. -/
def stepFree (s : State) (job : Nat) : Bool :=
  let j := s.job job
  let g := j.g + 1
  j.gOld.isNone && (g.toNat % 2 ^ 20 != 0 || (List.range 16).all (fun k => (s.stack k).due.all (fun e => e.1 != job)))

/-- The word that an operation carries. -/
def Op.arg (o : Op) : Word := BitVec.ofNat 32 (leNat (o.data.take 4))

/-- The effect of an operation at its owner. `b`, `loc`: its backing and place. -/
def perform (s : State) (o : Op) (b loc : Nat) : Did :=
  let x := o.arg
  let job := o.job s
  let slot := fun (_ : Unit) => slotOf (getOld s o loc 8)
  let word := fun (_ : Unit) => BitVec.ofNat 32 (leNat (getOld s o loc 4))
  match o.kind with
  | .store => match o.owner, o.leaf with
    | .pool u, _ => { s := landScr s u o.loc o.cells [] }
    | _, some l => { s := landPage s (o.node s) l b (o.cells.map (fun c => (l.off + c.1, c.2))) }
    | _, none => { s := s }
  | .part => landPart s o b loc
  | .tagSet => match o.leaf with | some l => { s := setTags s l (x.setWidth 4) } | none => { s := s }
  | .berth k => if (s.job job).open_.getLsbD k then { s := putBack s o b o.data } else { s := s, fault := some (cPERM, 4) }
  | .rmw op ty sat ret =>
    let old := word ()
    let r := rmwVal op ty sat old x
    { s := putBack s o b (leBytes r.1.toNat 4), res := if ret then some [old] else none, clamped := ret && r.2 }
  | .cas =>
    let old := word ()
    let new : Word := BitVec.ofNat 32 (leNat (o.data.drop 4))
    { s := if old = x then putBack s o b (leBytes new.toNat 4) else s, res := some [old] }
  | .ldDs => let r := (s.job job).loadSlot (slot ()) o.g; { s := s, res := some [r.1], ahead := r.2 }
  | .stDs c => { s := putBack s o b ({ value := x, stamp := o.g, cls := c } : Slot).toBytes }
  | .addDs => let r := (s.job job).merge (slot ()) x o.g; { s := putBack s o b r.toBytes, res := some [r.value] }
  | .redDs => { s := putBack s o b ((s.job job).merge (slot ()) x o.g).toBytes }
  | .berOpen => match freeBerth (s.job job) with
    | some k => { s := s.modJob job (fun j => { j with open_ := j.open_ ||| BitVec.twoPow 8 k }), res := some [BitVec.ofNat 32 k, 1] }
    | none => { s := s, res := some [0xFFFFFFFF, 0] }
  | .berPub k t n =>
    if (s.job job).open_.getLsbD k then { s := s.modJob job (fun j => j.remap o.id (fun j => pubBerth j k t n)), hold := true } else { s := s, fault := some (cPERM, 4) }
  | .tagRetire t => { s := s.modJob job (fun j => j.remap o.id (fun j => { j with tagmap := j.tagmap.upd 8 t (fun e => e &&& 7) })), hold := true }
  | .cancel level => let s := cancelLevel s (some o.id) job level o.loc; { s := s, res := some [0], hold := cancelWaits s o.id }
  | .stepAdv => { s := s.modJob job (fun j => { j with gOld := some j.g, g := j.g + 1, gNew := [], advancing := some o.id }), hold := true }
  | .arrive n => match o.owner with
    | .pool u => let r := readScr s u o.loc 16; { s := landScr r.1 u o.loc ((List.range 16).zip ((barOf r.2).arrive none n).1.toBytes) [] }
    | _ => { s := s }
  | .collAdd _ => landPart s o b loc
  | _ => { s := s }

/-- The places whose lines carry the effect of a request (R69, R115). -/
def Op.effect (o : Op) (s : State) (b loc : Nat) : List Nat :=
  match o.kind with
  | .store | .part | .collAdd _ | .berth _ => o.cells.map (fun c => o.place s b c.1)
  | .tagSet => match o.leaf with | some l => tagPlaces l | none => []
  | .rmw .. | .stDs _ | .addDs | .redDs => if o.kind.readsTarget && targetPoisoned s o loc then [] else [loc]
  | .cas => if targetPoisoned s o loc || BitVec.ofNat 32 (leNat (getOld s o loc 4)) != o.arg then [] else [loc]
  | _ => []

/-- Its lines. -/
def effectLines (s : State) (o : Op) (b loc : Nat) : List Nat := ((o.effect s b loc).map (fun p => p / 128)).eraseDups

/-- The home can pin the lines of the effect, and their writer records have room (R69, R80). -/
def pinRoom (s : State) (o : Op) (b loc : Nat) : Bool :=
  let records := fun (_ : Unit) => match o.leaf with
    | some l => entStaged l.ent || o.kind == .tagSet || (effectLines s o b loc).all (recordRoom s (o.node s))
    | none => true
  match o.owner with
  | .die d => reserved loc || (pinsFit s d (effectLines s o b loc) && records ())
  | .remote _ => records ()
  | _ => true

-- journal ------------------------------------------------------------------------------------------------------------

/-- The operands of a request that its data does not hold. -/
def OpKind.operands : OpKind → List Nat
  | .berth b => [b] | .stDs c => [c.toNat] | .berPub b t n => [b, t, n] | .tagRetire t => [t] | .post d => [d] | .cancel l => [l]
  | .arrive n => [n] | .collAdd ty => [ty] | _ => []

/-- The operand bytes that the digest covers: data and which of them an engine part carries, with G_req and the operands of the kind (R102, R116). -/
def Op.digestData (o : Op) : List Byte :=
  o.data ++ o.mask.map (fun b => if b then 1 else 0) ++ leBytes o.g.toNat 3 ++ o.kind.operands.flatMap (fun n => leBytes n 4)

/-- Where an operation points as its digest takes it: the address of the request. -/
def Op.digestAddr (o : Op) : Nat := if o.leaf.isSome then o.va.toNat else o.loc + 2 ^ 64 * o.va.toNat

/-- The digests of a request and an entry agree (R116): always where the parts do. (DESIGN CHOICE, log entry 14.) -/
def sameDigest (w : Word) (a : Nat) (d : List Byte) (e : JEntry) : Bool :=
  (e.word == w && e.addr == a && e.data == d) || Config.digest w a d == Config.digest e.word e.addr e.data

/-- ADDR of the entry of a request (Table 5-3), or OFFSET (Table 5-4): a device physical address. -/
def Op.target (o : Op) (s : State) (b : Nat) : Nat :=
  match o.owner, o.leaf with
  | .pool _, _ => o.loc
  | _, some l =>
    let b := if entStaged l.ent && o.kind.acc.writes then 1 - (s.line (l.at_ 0 l.off / 128)).c.toNat else b
    entPA l.ent + b * l.size + l.off
  | _, none => 0

/-- The journal entry of a request. -/
def Op.entry (o : Op) (k : Key) (d : Did) (pa : Nat) (pins : List Nat) : JEntry :=
  { owner := o.owner, key := k, word := o.word, addr := o.digestAddr, data := o.digestData, ret := d.res, ahead := d.ahead, clamped := d.clamped
    pa := pa, pins := match o.owner with | .die _ => pins | _ => [] }

/-- Serial x is older than serial y (R113). -/
def older (x y : BitVec 16) : Bool := decide (1 ≤ (y - x).toNat ∧ (y - x).toNat ≤ 32767)

/-- Two keys name one originator (R112). -/
def Key.sameOrigin (k j : Key) : Bool := k.job == j.job && k.node == j.node && k.unit == j.unit && k.fibre == j.fibre

/-- An owner's entries older than the low-water mark that a request carries retire (R117, R123). -/
def retireOlder (s : State) (o : Op) (k : Key) : State :=
  s.retire (fun e => e.owner == o.owner && e.key.sameOrigin k && older e.key.serial o.low)

/-- The entry of a key at its owner (R117). -/
def entryOfKey (s : State) (w : Owner) (k : Key) : Option JEntry := s.journal.find? (fun e => e.owner == w && e.key == k)

/-- Nodes that the line of a read names (R81). -/
def readWriters (s : State) (o : Op) (loc : Nat) : List Nat :=
  match o.owner with
  | .die _ | .remote _ => if o.dst = [] && o.pdst.isNone then [] else writersOf s (loc / 128)
  | _ => []

/-- What an owner does with a request. -/
inductive Verdict | answer (r : Resp) | hold | wait
  deriving DecidableEq, Repr

/-- An owner handles a request that has no entry (R117): the refusal for want of a pin, the checks, the reserved area, poison, and then the effect and the
entry as one. -/
def serveNew (s : State) (o : Op) (k : Key) : State × Verdict :=
  let back := homeBack s o
  let b := match back with | .ok b => b | .error _ => 0
  let loc := o.place s b 0
  let s := match back with | .ok _ => ownerReads s o b loc | .error _ => s
  if (match back with | .ok _ => !pinRoom s o b loc | .error _ => false) then (s, .answer .refused)
  else match homePlace s o with
  | .error w => (s, .answer (.fault w.1 w.2))
  | .ok _ =>
    let pa := o.target s b
    if o.leaf.isSome && reserved loc then
      let d : Did := { s := s, res := if o.dst = [] then none else some [0] }
      ((s.addEntry (o.entry k d pa [])).machineCheck 1 (loc / 2 ^ 36) (loc % 2 ^ 36), .answer (.done (d.res.getD []) [] false false))
    else if (match o.kind with | .ldDs | .stDs _ | .addDs | .redDs => !dredged s loc | _ => false) then (s, .answer (.fault cPERM 4))
    else if o.kind.readsTarget && targetPoisoned s o loc then (s.addEntry { o.entry k { s := s } pa [] with psn := true }, .answer .poison)
    else
      let ws := readWriters s o loc
      let pins := effectLines s o b loc
      let d := perform s o b loc
      match d.fault with
      | some w => (s, .answer (.fault w.1 w.2))
      | none => if d.hold then (d.s, .hold) else (d.s.addEntry (o.entry k d pa pins), .answer (.done (d.res.getD []) ws d.ahead d.clamped))

/-- A POST at its dispatcher (R210, R211, R282). -/
def servePost (s : State) (o : Op) (k : Key) (die : Nat) : State × Verdict :=
  match acceptCard s (o.job s) die o.va with
  | (s, none) => (s, .answer .refused)
  | (s, some c) =>
    let d : Did := { s := s, res := some [BitVec.ofNat 32 c] }
    (s.addEntry (o.entry k d 0 []), .answer (.done [BitVec.ofNat 32 c] [] false false))

/-- The answer that an entry holds for a request (R117). -/
def entryAnswer (s : State) (o : Op) (e : JEntry) : Resp :=
  if !sameDigest o.word o.digestAddr o.digestData e then .diverged
  else match e.flt with
    | some w => .fault w.1 w.2
    | none => if e.psn then .poison
      else .done (e.ret.getD []) (match homePlace s o with | .ok (_, loc) => readWriters s o loc | .error _ => []) e.ahead e.clamped

/-- A change of the job's step or of its berth map must wait for the one in progress (R88, R100). -/
def masterBusy (s : State) (o : Op) : Bool :=
  match o.kind with
  | .stepAdv => !stepFree s (o.job s)
  | .berPub .. | .tagRetire _ => (s.job (o.job s)).mapOld.isSome
  | _ => false

/-- An owner handles a keyed request (R117). -/
def serve (s : State) (o : Op) (k : Key) : State × Verdict :=
  let s := retireOlder s o k
  match entryOfKey s o.owner k with
  | some e => (s, .answer (entryAnswer s o e))
  | none =>
    if !journalRoom s o.owner then (s, .answer .refused)
    else match o.kind with
      | .post die => servePost s o k die
      | _ => if masterBusy s o then (s, .wait) else serveNew s o k

-- events at owners ---------------------------------------------------------------------------------------------------

/-- The operation with the same key of the other copy of a redundant unit (R387). -/
def otherCopy (s : State) (o : Op) : Option Op :=
  match o.u with
  | none => none
  | some u => if !(s.unit u).cfg.red then none
    else s.ops.find? (fun p => p.id != o.id && p.key == o.key && p.key.isSome && p.u == (s.unit u).cfg.twin && p.open_)

/-- Operations of the paired class (R389): of a redundant unit, and reading or returning at a home or a dispatcher. -/
def paired (s : State) (o : Op) : Bool :=
  (match o.u with | some u => (s.unit u).cfg.red | none => false) &&
  (match o.owner, o.kind with
   | .pool _, _ => false
   | _, .rmw .. | _, .cas | _, .addDs | _, .redDs | _, .ldDs | _, .post _ | _, .cancel _ | _, .berOpen => true
   | _, _ => false)

/-- An answer leaves an owner. The lane of an operation of unknown fate does not take it: the owner answers again when it is sent again (R121). -/
def State.reply (s : State) (m : Nat) (r : Resp) : State :=
  s.modOp m (fun q => { q with phase := if q.fated then .fate else .response r, respAt := q.clock s })

/-- The verdict on an operation takes effect. -/
def verdict (s : State) (o : Op) (v : Verdict) : State :=
  match v with
  | .answer r => s.reply o.id r
  | .hold => s.modOp o.id (fun q => { q with phase := .held })
  | .wait => s

/-- The same, for both copies of a paired operation of which the owner holds the other (R389). -/
def verdictBoth (s : State) (o : Op) (v : Verdict) : State :=
  let s := verdict s o v
  if paired s o then match otherCopy s o with | some t => if t.phase == .held then verdict s t v else s | none => s else s

/-- The owner of an operation takes requests now. -/
def ownerUp (s : State) (o : Op) : Bool := !s.restarting.contains o.owner && (match o.owner with | .remote _ => o.leaf.isSome | _ => true)

/-- The target unit of a scratchpad owner is resident. -/
def ownerHome (s : State) (o : Op) : Bool := match o.owner with | .pool u => (s.unit u).core.isSome | _ => true

/-- An older load of the operation's crew is not answered (R141). -/
def olderLoad (s : State) (o : Op) : Bool :=
  match o.u with | some u => (s.crewOps u o.crew).any (fun p => p.kind.load_ && decide (p.id < o.id)) | none => false

/-- An access passed the tag check and its home has not accepted it. -/
def Op.unaccepted (o : Op) : Bool := match o.phase with | .queued | .paired | .request | .lost | .backoff _ => true | _ => false

/-- A TAG.SET waits until every access that has been issued to its line is accepted (R29), but for one that stands behind a TAG.SET of its own crew to the
line. (DEDUCED, log entry 57.) -/
def tagWaits (s : State) (o : Op) : Bool :=
  o.kind == .tagSet && s.ops.any (fun p => p.id != o.id && p.kind != .tagSet && p.leaf.isSome && p.unaccepted && touchesLine o.owner o.leaf o.loc 1 p &&
    !s.ops.any (fun q => q.kind == .tagSet && q.open_ && q.u == p.u && q.crew == p.crew && decide (q.id < p.id) && touchesLine o.owner o.leaf o.loc 1 q) &&
    !(p.phase == .paired && (match p.u with | some u => (s.unit u).cfg.trailer | none => false)))

/-- A load waits at its home for its core's pending writes to the lines that it touches (R141); for a TAG.SET it has waited at its issue (R29). -/
def loadWaits (s : State) (o : Op) : Bool :=
  o.kind.load_ && o.owner != .disp 0 &&
  (match o.u.bind (fun u => (s.unit u).core) with
   | some k => (s.pendingSet k).any (fun p => p.id != o.id && p.kind != .tagSet && touchesLine o.owner o.leaf o.loc o.size p)
   | none => false)

/-- A keyed request that its owner can take now, in the plain way. -/
def keyedReady (s : State) (o : Op) : Bool :=
  o.phase == .request && ownerUp s o && o.number.isNone && !(match o.kind with | .retire _ => true | _ => false) && !paired s o &&
  !(o.kind == .ldDs && (olderLoad s o || loadWaits s o)) && !tagWaits s o

/-- A request on its way does `k` where it comes to its owner. -/
def onArrival (s : State) (o : Op) (k : State → State) : State :=
  match o.way s with
  | .comes => k s
  | .waits => s
  | .dropped => losePacket s o.id

/-- KEYED_REQUEST (R117), at an owner whose unit, where it is a scratchpad owner, is resident (`away` false) or not. -/
def keyedTurn (s : State) (m : Nat) (away : Bool) : State :=
  match s.op? m with
  | none => s
  | some o => match o.key with
    | none => s
    | some k =>
      if keyedReady s o && ownerHome s o != away then
        onArrival s o (fun s =>
          let r := serve s o k
          let s := match o.owner with | .pool v => if away then writeJournal r.1 v else r.1 | _ => r.1
          verdict s o r.2)
      else s

def execKeyedRequest (m : Nat) (s : State) : Out := .next (keyedTurn s m false)

/-- ENGINE_ARRIVAL (R66): the same for a unit that is not resident; its last core or its image takes the bytes, the journal goes with the image. -/
def execEngineArrival (m : Nat) (s : State) : Out := .next (keyedTurn s m true)

/-- The bytes that a read takes are poisoned (R72). -/
def readPoisoned (s : State) (o : Op) (loc : Nat) : Bool :=
  match o.owner with
  | .pool u => scrPoisoned s u o.loc o.size
  | _ => s.poisonedAt loc o.size

/-- A home answers a read at its place. -/
def readAt (s : State) (o : Op) : State :=
  match homePlace s o with
  | .error w => s.reply o.id (.fault w.1 w.2)
  | .ok (_, loc) =>
    let s := match o.owner with | .pool _ => ownerReads s o 0 o.loc | _ => homeReads s loc o.size
    if o.kind == .tagGet then s.reply o.id (.done [if reserved loc then 0 else (s.tag loc).setWidth 32] (readWriters s o loc) false false)
    else if o.kind != .window && readPoisoned s o loc then s.reply o.id .poison
    else
      let bs := match o.owner with | .pool u => (readScr s u o.loc o.size).2 | _ => s.load loc o.size
      s.reply o.id (.done (if o.kind == .window then wordsOf bs ((bs.length + 3) / 4) else loadWords bs) (readWriters s o loc) false false)

/-- HOME_READ_REQUEST (R111): a home or scratchpad owner answers an unkeyed read whole. -/
def readTurn (s : State) (m : Nat) : State :=
  match s.op? m with
  | none => s
  | some o =>
    if o.key.isSome || !(o.kind.load_ || o.kind == .window) || o.phase != .request || !ownerUp s o || (o.kind.load_ && olderLoad s o) || loadWaits s o then s
    else onArrival s o (fun s => match o.kind with
      | .cntRd level => s.reply m (.done [BitVec.ofNat 32 (counterOf s (o.job s) level o.loc)] [] false false)
      | _ => readAt s o)

def execHomeReadRequest (m : Nat) (s : State) : Out := .next (readTurn s m)

-- drained updates (R133, R134, R416) ---------------------------------------------------------------------------------

/-- The index of an operation's unit in its launch. -/
def Op.unitIdx (o : Op) (s : State) : Nat := (o.u.map (fun u => (s.unit u).cfg.uidx)).getD 0

/-- The drain record of an update, with its place in the list. -/
def drainOf (s : State) (o : Op) : Option Nat :=
  s.drains.findIdx? (fun d => d.owner == o.owner && d.addr == o.va.toNat && some d.node == o.node s && d.unit == o.unitIdx s)

/-- The race check of an update as it is applied (R158). -/
def drainRace (s : State) (o : Op) : Option (BitVec 4) × State :=
  match o.leaf, o.u with
  | some l, some u => raceGlobal s u o.crew l o.loc o.size (.red (match o.kind with | .rmw op ty sat _ => redCode op ty sat | _ => 63))
  | _, _ => (none, s)

/-- An update at its turn: applied and journalled, or journalled as a fault (R416); `false` where its home refuses it, so that NEXT stays. -/
def drainApply (s : State) (o : Op) (k : Key) : State × Bool :=
  let failed := fun (s : State) (w : Why) =>
    let pa := match homeBack s o with | .ok b => o.target s b | .error _ => o.target s 0
    (verdictBoth (s.addEntry { o.entry k { s := s } pa [] with flt := some w }) o (.answer (.fault w.1 w.2)), true)
  if !journalRoom s o.owner then (verdictBoth s o (.answer .refused), false)
  else match drainRace s o with
  | (some c, _) => failed s (cDETRACE, c)
  | (none, s') =>
    match serveNew s' o k with
    | (s, .answer (.fault c e)) => failed s (c, e)
    | (_, .answer .refused) => (verdictBoth s o (.answer .refused), false)
    | (s, v) => (verdictBoth s o v, true)

/-- Held updates that have come to their turn are treated likewise. -/
def drainHeld (s : State) (i : Nat) : Nat → State
  | 0 => s
  | fuel + 1 =>
    match s.drains[i]? with
    | none => s
    | some d =>
      match (d.held.filterMap s.op?).find? (fun o => (o.number.map Prod.fst) == some d.next) with
      | none => s
      | some o => match o.key with
        | none => s
        | some k =>
          let r := drainApply s o k
          let s : State := { r.1 with drains := r.1.drains.modify i (fun d => { d with
            next := if r.2 then d.next + 1 else d.next, held := d.held.filter (fun m => m != o.id) }) }
          if r.2 then drainHeld s i fuel else s

/-- How many updates a draining unit sends to an address. -/
def drainTotal (s : State) (o : Op) : Nat :=
  (s.ops.filter (fun p => p.number.isSome && p.u == o.u && p.va == o.va)).foldl (fun t p => match p.number with | some (n, true) => n + 1 | _ => t) 0

/-- A home handles a drained update (R134). `last` frees the record. (DEDUCED, log entry 27.) -/
def drainTurn (s : State) (o : Op) (k : Key) (num : Nat) : State :=
  let s := retireOlder s o k
  match entryOfKey s o.owner k with
  | some e => verdict s o (.answer (entryAnswer s o e))
  | none =>
    let mine := s.drains.filter (fun d => d.owner == o.owner)
    let s' : Option State := match drainOf s o with
      | some _ => some s
      | none => if 256 ≤ mine.length then none
        else some { s with drains := s.drains ++ [{ owner := o.owner, addr := o.va.toNat, unit := o.unitIdx s, node := (o.node s).getD 0, next := 0, held := [] }] }
    match s' with
    | none => verdictBoth s o (.answer .refused)
    | some s =>
      let i := (drainOf s o).getD 0
      match s.drains[i]? with
      | none => s
      | some d =>
        if d.held.contains o.id then s
        else if num = d.next then
          let r := drainApply s o k
          let s := if r.2 then drainHeld { r.1 with drains := r.1.drains.modify i (fun d => { d with next := num + 1 }) } i 17 else r.1
          { s with drains := match s.drains[i]? with | some d => if d.next = drainTotal s o then s.drains.eraseIdx i else s.drains | none => s.drains }
        else if d.held = [] && decide (64 ≤ (mine.filter (fun e => e.held != [])).length) then verdictBoth s o (.answer .refused)
        else if d.held.length < 16 then
          { verdictBoth s o .hold with drains := s.drains.modify i (fun d => { d with held := d.held ++ [o.id] }) }
        else
          let top := (d.held.filterMap s.op?).foldl (fun (b : Op) p => if (b.number.map Prod.fst).getD 0 < (p.number.map Prod.fst).getD 0 then p else b) o
          let s := { s with drains := s.drains.modify i (fun d => { d with held := (d.held ++ [o.id]).filter (fun m => m != top.id) }) }
          verdictBoth (verdictBoth s o .hold) top (.answer .refused)

/-- A drained update that waits for its fibre's limit of 256 in flight is sent (R113, R133). -/
def sendUpdate (s : State) (o : Op) : State :=
  if (s.ops.filter (fun p => p.u == o.u && p.fibre == o.fibre && p.number.isSome && p.open_ && p.phase != .queued)).length < 256
  then s.modOp o.id (fun q => { s.sent q with phase := .request }) else s

/-- DRAINED_UPDATE (R134). -/
def execDrainedUpdate (m : Nat) (s : State) : Out :=
  .next (match s.op? m with
    | some o => match o.key, o.number with
      | some k, some (n, _) =>
        if o.phase == .queued then sendUpdate s o
        else if o.phase == .request && ownerUp s o && !paired s o then onArrival s o (fun s => drainTurn s o k n) else s
      | _, _ => s
    | none => s)

-- redundant units (R388 to R390) -------------------------------------------------------------------------------------

/-- The node of an operation waits to be rolled back or cancelled: nothing of it is compared or sent any more (R390). -/
def doomed (s : State) (o : Op) : Bool := match o.node s with | some n => (s.node n).doom != 0 | none => false

/-- Two paired requests have equal digests (R116, R389). -/
def samePair (o t : Op) : Bool :=
  (o.word == t.word && o.digestAddr == t.digestAddr && o.digestData == t.digestData) ||
  Config.digest o.word o.digestAddr o.digestData == Config.digest t.word t.digestAddr t.digestData

/-- A paired request at its owner (R389, R414): answered from its entry where it has one; the first arrival of a key is held, unless 256 are, and the second
compared with it and, where they agree, performed for both. -/
def pairedTurn (s : State) (o : Op) (k : Key) : State :=
  let whole := fun (s : State) (both : Bool) => match o.number with
    | some (n, _) => drainTurn s o k n
    | none => let r := serve s o k; if both then verdictBoth r.1 o r.2 else verdict r.1 o r.2
  if (entryOfKey s o.owner k).isSome then whole s false
  else match (otherCopy s o).filter (fun t => t.phase == .held) with
    | some t => if doomed s o then s else if samePair o t then whole s true else pairMismatch s ((o.node s).getD 0)
    | none =>
      if 256 ≤ (s.ops.filter (fun p => p.phase == .held && p.owner == o.owner && paired s p)).length then s.reply o.id .refused
      else s.modOp o.id (fun q => { q with phase := .held })

/-- PAIRED_ARRIVAL (R389). -/
def execPairedArrival (m : Nat) (s : State) : Out :=
  .next (match s.op? m with
    | none => s
    | some o => match o.key with
      | none => s
      | some k =>
        if o.phase != .request || !paired s o || !ownerUp s o || (o.kind == .ldDs && (olderLoad s o || loadWaits s o)) then s
        else onArrival s o (fun s => pairedTurn s o k))

/-- The signature of an operation. -/
def Op.sig (o : Op) (k : Key) (trailer localClass : Bool) : Sig :=
  { op := o.id, key := k.num, trailer := trailer, word := o.word, addr := o.digestAddr, data := o.digestData, localClass := localClass }

/-- The entry that waits for an operation at its instruction, and what it does when the last of its operations is answered: its lanes with a trap
leave together, and the others go on (R32, R88, R122). `ts`: traps of this answer. -/
def releaseHold (s : State) (u c m : Nat) (ts : List Trap) : State :=
  match ((s.unit u).crew c).split.findIdx? (fun e => e.hold.contains m) with
  | none => s
  | some e =>
    let s := s.modEntry u c e (fun y => { y with hold := y.hold.filter (fun k => k != m) })
    let en := ((s.unit u).crew c).entry e
    let s := match ts with
      | [] => s
      | t :: _ => s.modFib u (((s.unit u).crew c).fib t.lane) (fun f => { f with pending := f.pending ++ [{ id := m, code := t.code, cause := t.cause, faddr := t.faddr, here := true }] })
    if en.hold = [] then
      let late := (lanesOf en.mask).filterMap (fun l =>
        (((s.unit u).fib (((s.unit u).crew c).fib l)).pending.find? (fun p => p.here)).map (fun p => (⟨l, p.code, p.cause, p.faddr⟩ : Trap)))
      let s := late.foldl (fun s t => s.modFib u (((s.unit u).crew c).fib t.lane) (fun f => { f with pending := f.pending.eraseP (fun p => p.here) })) s
      parkAndGo s u c e late false
    else s

/-- Both signatures of a key are there and agree: the leader's operation is sent, the trailer's is discarded (R388). -/
def sendMatched (s : State) (lead trail : Nat) : State :=
  let s := (s.modOp lead (fun q => { s.sent q with phase := .request })).modOp trail (fun q => { q with phase := .answered })
  match s.op? trail with
  | some t => releaseHold s (t.u.getD 0) t.crew trail []
  | none => s

/-- SIGNATURE_COMPARE (R388): of an operation that waits for the other copy's; once entered it waits in the buffer. -/
def execSignatureCompare (m : Nat) (s : State) : Out :=
  .next (match s.op? m with
    | none => s
    | some o => match o.key, o.u with
      | some k, some u =>
        if o.phase != .paired || doomed s o || (s.unit (leaderOf s u)).compare.any (fun e => e.op == m) then s
        else match meetSig s u (o.sig k (s.unit u).cfg.trailer false) with
          | .full => s
          | .mismatch => pairMismatch s (s.unit u).cfg.node
          | .first s => s
          | .second s lead trail => sendMatched s lead trail
      | _, _ => s)

-- the store queue (R141, R142) ---------------------------------------------------------------------------------------

/-- An older keyed write is sent and unanswered that this one follows: one of the same fibre to the line (R142), or one of a lower lane of the
same instruction to a byte that both write (R140). -/
def lineBusy (s : State) (o : Op) : Bool :=
  s.ops.any (fun p => p.u == o.u && decide (p.id < o.id) && p.open_ && p.phase != .queued && p.key.isSome && p.kind.write &&
    p.number.isNone && p.cmd.isNone && p.owner == o.owner &&
    (if p.fibre == o.fibre then touchesLine o.owner o.leaf o.loc o.size p
     else p.crew == o.crew && p.pc == o.pc && p.phase != .fate && overlap p.loc p.size o.loc o.size))

/-- A write of a crew to its own unit's scratchpad leaves the queue: it lands there (R141, R332). (DEDUCED, log entry 51.) -/
def landOwn (s : State) (u : Nat) (o : Op) : State :=
  match o.kind with
  | .barInit expect bytes =>
    let r := readScr s u o.loc 16
    let b := barOf r.2
    if b.unarmed then r.1 else landScr r.1 u o.loc ((List.range 16).zip (b.init expect bytes).toBytes) []
  | _ => landScr s u o.loc o.cells []

/-- The head of a crew's store queue is sent, or, where it goes to its own unit's scratchpad, applied (R141). -/
def sendHead (s : State) (u c : Nat) : State :=
  match ((s.unit u).crew c).fifo with
  | [] => s
  | m :: rest =>
    let s := s.modCrew u c (fun y => { y with fifo := rest })
    match s.op? m with
    | none => s
    | some o =>
      if o.kind.own then
        let s := landOwn s u o
        { s with ops := s.ops.filter (fun p => p.id != m) }
      else s.modOp m (fun q => s.sent q)

/-- A local-class operation of a redundant unit forms a signature as it is sent; where the buffer is full its copy stalls (R388). -/
def localSig (s : State) (u : Nat) (o : Op) : Option (State × Bool) :=
  match o.owner, o.key with
  | .pool _, some k => if (s.unit u).cfg.red then signLocal s u (o.sig k (s.unit u).cfg.trailer true) else some (s, true)
  | _, _ => some (s, true)

/-- STORE_QUEUE_SEND: the head leaves unless R142 holds it; a release has waited for everything older when it issued (R143). -/
def storeSend (s : State) (u c : Nat) : State :=
  match (((s.unit u).crew c).fifo.head?).bind s.op? with
  | none => s
  | some o =>
    if (s.unit u).core.isNone || doomed s o || (o.key.isSome && lineBusy s o) then s
    else match localSig s u o with
      | none => s
      | some (s, false) => s
      | some (s, true) => sendHead s u c

def execStoreQueueSend (u c : Nat) (s : State) : Out := .next (storeSend s u c)

end Sys2Proof.Machine
end

