-- ==== Sys2Proof/Machine/Respond.lean ====
section
/-! DEFINITION. Requesters: what each response does (R118, R122), timeouts and back-off (R119 to R121), packets lost on the way (R120, R393), LOW and
retire messages (R120, R123, R124), and owners that restart or lose their journal (R127, R128). -/

namespace Sys2Proof.Machine

/-- The entry of a crew that holds a lane. -/
def entryOf (x : Crew) (l : Nat) : Option Nat := x.split.findIdx? (fun e => e.status != .empty && e.mask.getLsbD l)

/-- A lane takes a trap at an instruction that it may have passed: it leaves its entry and parks there (R32, R122). (DEDUCED, log entry 24.) -/
def trapLane (s : State) (u c l : Nat) (pc : Addr) (t : Trap) : State :=
  let x := (s.unit u).crew c
  if x.serial && !(x.slane = l && x.chosen.isSome) then
    let s := writeTrapinfo s u c [t]
    let w := x.tab.getD l {}
    let can := canHandle s u w.handler [t]
    let s := if can then s else reportTrap s u c (BitVec.twoPow 32 l) [t]
    leaveSerial (s.modCrew u c (fun y => { y with tab := y.tab.set l { pc := pc, lst := .parked, handler := w.handler, held := !can } })) u c
  else
    match entryOf x l with
    | none => writeTrapinfo s u c [t]
    | some e =>
      let en := x.entry e
      let bit := BitVec.twoPow 32 l
      if en.mask = bit || x.serial then parkEntry (s.modEntry u c e (fun y => { y with pc := pc })) u c e [t]
      else
        let k := (x.split.findIdx? (fun y => y.status == .empty)).getD x.split.length
        let s := s.modCrew u c (fun y => { y with
          split := placeEntry (y.split.modify e (fun z => { z with mask := z.mask &&& ~~~bit })) { en with mask := bit, pc := pc } })
        parkEntry s u c k [t]

/-- The operation is answered: an unkeyed one is gone, a keyed one stays until LOW passes it (R120); a unit's own retire message is gone too, for the unit
takes no more serials (R124). -/
def answered (s : State) (o : Op) : State :=
  if (match o.key with | some k => o.u.isSome || k.unit == 0xFFFFF | none => false) then s.modOp o.id (fun q => { q with phase := .answered, flying := [] })
  else { s with ops := s.ops.filter (fun q => q.id != o.id) }

/-- The destination registers and predicate of an answered operation. -/
def deliverRes (s : State) (u : Nat) (o : Op) (res : List Word) : State :=
  let s := s.setRegs u o.crew o.lane o.dst res
  match o.pdst with
  | some p => s.modFib u o.fibre (fun f => { f with pred := setPred f.pred (BitVec.ofNat 4 p) (res.getD 1 0 != 0) })
  | none => s

/-- A response that comes to a unit that is not resident, or to a stopped one, is dropped (R129, R125). -/
def hears (s : State) (o : Op) : Bool :=
  match o.u with | some u => ((s.unit u).core.isSome || o.cmd.isSome || o.number.isSome) && !(s.unit u).cancelled | none => true

/-- The response that reaches a requester, where it is of a sort: the one in flight, or an earlier one that is still on its way; a packet that is too old
does not come (R119, R120). -/
def bring (s : State) (m : Nat) (p : Resp → Bool) : State :=
  match s.op? m with
  | none => s
  | some o =>
    let late := fun (_ : Unit) => match o.flying.find? (fun f => p f.1 && !o.aged s f.2) with
      | some f => s.modOp m (fun q => { q with phase := .response f.1, respAt := f.2, flying := q.flying.erase f })
      | none => s
    match o.phase with
    | .response _ => if o.aged s o.respAt then losePacket s m else s
    | .request | .lost | .backoff _ => late ()
    | _ => s

/-- A response lost on the way: the request is sent again when its timeout expires or its unit resumes. Of a stopped unit nothing is left. -/
def loseResponse (s : State) (m : Nat) : State :=
  match (s.op? m).bind (fun o => o.u) with
  | some u => if (s.unit u).cancelled then { s with ops := s.ops.filter (fun q => q.id != m) } else s.modOp m (fun q => { q with phase := .lost })
  | none => s.modOp m (fun q => { q with phase := .lost })

/-- Owners to which a node's retire messages go: the homes, the dispatchers, and the scratchpad owners of its units (R124). -/
def retireOwners (s : State) (n : Nat) : List Owner :=
  (List.range 16).map Owner.die ++ (List.range 16).map Owner.disp ++
    ((List.range s.units.length).filter (fun v => (s.unit v).cfg.node == n && !(s.unit v).cancelled)).map Owner.pool

/-- The retire messages of a node that has committed, from its die's dispatcher, each under a key of its own: `loc` holds the node and the job (R124). -/
def retireCommitted (s : State) (n : Nat) : State :=
  let y := s.node n
  (retireOwners s n).foldl (fun s w => sendDisp s y.job y.home { id := 0, kind := .retire none, u := none, owner := w, loc := y.id + y.job * 2 ^ 32 }) s

/-- The retire messages of a unit that has ended, from its core, under the next serial of its fibre 0 (R124). (DESIGN CHOICE, log entry 66.) -/
def retireUnit (s : State) (u : Nat) : State :=
  let y := s.unit u
  let k := fibreKey s u 0 (y.fib 0).serial 0
  (retireOwners s y.cfg.node).foldl (fun s w => s.send {
    id := 0, kind := .retire (some y.cfg.uidx), u := none, owner := w, loc := k.node + k.job * 2 ^ 32, key := some k, low := (y.fib 0).low, sentAt := s.now }) s

/-- The copies of unit `i` of a node: one, or a leader and a trailer. -/
def copiesOf (s : State) (n i : Nat) : List Nat :=
  (List.range s.units.length).filter (fun v => let y := s.unit v; y.cfg.node == n && y.cfg.uidx == i && !y.cancelled)

/-- Every copy of unit `i` is drained (R132). -/
def drainedAll (s : State) (n i : Nat) : Bool := (copiesOf s n i) != [] && (copiesOf s n i).all (fun v => (s.unit v).turnDrained)

/-- The dispatcher changes one byte of a job's memory through the job's translation; an unreadable place stays as it is. -/
def jobModByte (s : State) (job : Nat) (va : BitVec 64) (f : Byte → Byte) : State :=
  let s := translateReads s none job (s.job job).root va
  match checkGlobal s none none job (s.job job).root (berthEntry s job none 0) false false .ld va 0 with
  | .error _ => s
  | .ok c =>
    let s := homeReads s c.loc 1
    if reserved c.loc then s else s.land none false [(c.loc, f (Memory.read s.mem c.loc))]

/-- The bit of a unit in its node's completion bitmap is set (R215). -/
def setBitmap (s : State) (n u : Nat) : State :=
  let x := s.node n
  if x.bitmap = 0 then s else jobModByte s x.job (BitVec.ofNat 64 (x.bitmap + u / 8)) (fun b => b ||| BitVec.twoPow 8 (u % 8))

/-- The headers of a node's units say who holds the turn (R55, R132). -/
def writeTurns (s : State) (n low : Nat) : State :=
  ((List.range s.units.length).filter (fun v => let y := s.unit v; y.cfg.node == n && y.cfg.uidx - y.cfg.gidx == low && !y.cancelled)).foldl writeTurn s

/-- A draining unit whose updates have all been answered DONE is drained: its bit is set, its entries retire, and where its gang is drained the turn passes
(R124, R132, R410). -/
def turnUpdate (s : State) (u : Nat) : State :=
  let y := s.unit u
  let n := y.cfg.node
  if !y.draining || y.turnDrained || (s.node n).drainFault || y.staging.any (fun e => !e.local_) || s.ops.any (fun o => o.u == some u && o.number.isSome && o.open_) then s
  else
    let s := (writeTurn (s.modUnit u (fun y => { y with turnDrained := true })) u).poke (y.base + 124) y.staging.length 4
    let s := if drainedAll s n y.cfg.uidx then setBitmap s n y.cfg.uidx else s
    let s := if y.protect then s else retireUnit s u
    let low := y.cfg.uidx - y.cfg.gidx
    if (List.range y.cfg.gsize).all (fun i => drainedAll s n (low + i)) then
      let s := s.modNode n (fun m => { m with turn := low + y.cfg.gsize })
      writeTurns (writeTurns s n low) n (low + y.cfg.gsize)
    else s

/-- What a storage node has answered is there for its engine command (R397). -/
def gotGranule (s : State) (o : Op) (res : List Word) : State :=
  let bs := res.flatMap (fun w => leBytes w.toNat 4)
  match o.cmd with
  | some k => s.modCmd k (fun c => { c with got := (List.range o.size).foldl (fun m i => SMap.set 0 m (o.va.toNat + i) (1 + (bs.getD i 0).toNat)) c.got })
  | none => s

/-- RESPONSE_DONE (R118): result, flags (R105, R324), the nodes that an acquire records (R81), and the operation is answered. -/
def respondDone (s : State) (m : Nat) : State :=
  let s := bring s m (fun r => match r with | .done .. => true | _ => false)
  match s.op? m with
  | none => s
  | some o => match o.phase with
    | .response (.done res ws ahead clamped) =>
      if !hears s o then loseResponse s m
      else if o.kind == .window then gotGranule (answered s o) o res
      else match o.u with
        | none => answered s o
        | some u =>
          let n := (s.unit u).cfg.node
          let acq := o.order == .acq || o.order == .ar
          let named := o.dst != [] || o.pdst.isSome
          if acq && named && recordFull s n ws then s
          else
            let s := deliverRes s u o res
            let s := s.modFib u o.fibre (fun f =>
              { f with
                fpflags := f.fpflags ||| (if ahead then 0x80 else 0) ||| (if clamped then 0x20 else 0)
                seen := if named && !acq then (f.seen ++ ws).eraseDups else f.seen
                skip := f.skip || f.fate == some m
                fate := if f.fate = some m then none else f.fate })
            let s := if acq && named then record s n ws else s
            let s := releaseHold (answered s o) u o.crew m []
            if o.number.isSome then turnUpdate s u else s
    | _ => s

def execResponseDone (m : Nat) (s : State) : Out := .next (respondDone s m)

/-- The back-off after the r-th refusal (R119). -/
def backoffOf (r : Nat) : Nat := 64 * 2 ^ min r 10

/-- RESPONSE_REFUSED (R118, R119): sent again after the back-off; timeouts start anew. -/
def execResponseRefused (m : Nat) (s : State) : Out :=
  let s := bring s m (fun r => r == .refused)
  .next (match s.op? m with
    | some o => if o.phase == .response .refused then
        if hears s o then
          s.modOp m (fun q => { q with phase := .backoff (o.clock s + backoffOf q.refusals), refusals := q.refusals + 1, tries := 0 })
        else loseResponse s m
      else s
    | none => s)

/-- One engine command ends without its effect. -/
def failOne (s : State) (c : Cmd) (code : BitVec 8) (cause : BitVec 4) (faddr : Addr) : State :=
  let s : State := { s with
    cmds := s.cmds.filter (fun d => d.id != c.id)
    ops := s.ops.map (fun o => if o.cmd = some c.id then { o with cmd := none, kind := .part, flag := none, phase := .answered } else o) }
  let s := writeFlags s c.u
  s.modFib c.u c.fibre (fun f => { f with pending := f.pending ++ [{ id := c.id, code := code, cause := cause, faddr := faddr, flag := c.flag }] })

/-- An engine command ends without its effect: its flag is released (R33), and its issuing lane's trap waits (R122). The trailing copy of a
redundant unit that the command stands for ends with it (R388). (DEDUCED, log entry 36.) -/
def failCmd (s : State) (k : Nat) (code : BitVec 8) (cause : BitVec 4) (faddr : Addr) : State :=
  match s.cmd? k with
  | none => s
  | some c => (c :: s.cmds.filter (fun d => d.gate == 3 && d.key == c.key && d.id != k)).foldl (fun s d => failOne s d code cause faddr) s

/-- A part of an engine command, or a collective that waits for its members, meets an unknown fate (R121, R399): its lane is to trap once, and so that of the
trailing copy that it stands for; the command stays, to be sent again. (DEDUCED, log entry 36.) -/
def fateCmd (s : State) (k : Nat) (faddr : Addr) : State :=
  match s.cmd? k with
  | none => s
  | some c => (c :: s.cmds.filter (fun d => d.gate == 3 && d.key == c.key && d.id != k)).foldl (fun s d =>
      if d.fate then s
      else (s.modCmd d.id (fun e => { e with fate := true })).modFib d.u d.fibre (fun f =>
        { f with pending := f.pending ++ [{ id := d.id, code := cFATE, cause := 0, faddr := faddr, flag := d.flag }] })) s

/-- The trap of an operation (R122): at its instruction where its lane waits there, or waiting for its fibre's first instruction that waits for
it. The answer to an operation whose value is discarded is no trap (R121). -/
def trapOf (s : State) (o : Op) (code : BitVec 8) (cause : BitVec 4) : State :=
  match o.u with
  | none => s
  | some u =>
    match o.cmd with
    | some k => failCmd s k code cause o.va
    | none =>
      let addr := if o.kind.holds || (match o.owner with | .disp _ => true | _ => false) then o.pc else o.va
      let t : Trap := ⟨o.lane, code, cause, addr⟩
      if ((s.unit u).crew o.crew).split.any (fun e => e.hold.contains o.id) then releaseHold s u o.crew o.id [t]
      else if ((s.unit u).fib o.fibre).fate == some o.id then
        trapLane (s.modFib u o.fibre (fun f => { f with fate := none })) u o.crew o.lane o.pc t
      else if o.kind.returns && code != cFATE then s
      else s.modFib u o.fibre (fun f => { f with pending := f.pending ++ [{ id := o.id, code := code, cause := cause, faddr := addr, flag := o.flag }] })

/-- A drained update that came to nothing is reported, and keeps its unit from being drained (R416). -/
def drainReport (s : State) (o : Op) (code : BitVec 8) (cause : BitVec 4) : State :=
  let y := (s.unit (o.u.getD 0)).cfg
  (s.modNode y.node (fun n => { n with drainFault := true })).tell
    (.drainFault y.job (s.node y.node).id y.uidx o.fibre ((o.key.map Key.serial).getD 0) o.va code cause)

/-- A FAULT or DIVERGED response: the lane's trap, or the report of a drained update; the operation is answered and had no effect. -/
def respondTrap (s : State) (m : Nat) (code : BitVec 8) (cause : BitVec 4) : State :=
  match s.op? m with
  | none => s
  | some o =>
    if !hears s o then loseResponse s m
    else if o.number.isSome then answered (drainReport s o code cause) o
    else trapOf (answered s o) o code cause

def execResponseFault (m : Nat) (s : State) : Out :=
  let s := bring s m (fun r => match r with | .fault .. => true | _ => false)
  .next (match s.op? m with
    | some o => match o.phase with
      | .response (.fault code cause) => respondTrap s m code cause
      | _ => s
    | none => s)

/-- RESPONSE_DIVERGED (R118, R385). -/
def execResponseDiverged (m : Nat) (s : State) : Out :=
  let s := bring s m (fun r => r == .diverged)
  .next (match s.op? m with
    | some o => if o.phase == .response .diverged then respondTrap s m cDIVERGED 0 else s
    | none => s)

/-- RESPONSE_POISON (R72, R118): the node has consumed poison and is rolled back; no register is written. -/
def execResponsePoison (m : Nat) (s : State) : Out :=
  let s := bring s m (fun r => r == .poison)
  .next (match s.op? m with
    | some o => if o.phase == .response .poison then
        if hears s o then
          let s := answered s o
          match o.u with | some u => consumePoison s (s.unit u).cfg.node | none => s
        else loseResponse s m
      else s
    | none => s)

-- timeouts -----------------------------------------------------------------------------------------------------------

/-- STATE of CKPT (Table 17-4). -/
def ckptState (s : State) : Nat := bits s.ckptReg.toNat 14 2
def setCkpt (s : State) (st : BitVec 64) : State := { s with ckptReg := (s.ckptReg &&& ~~~(0xC000 : BitVec 64)) ||| (st <<< 14) }

/-- A copy engine's operation on the target of a job's checkpoint that is not answered. -/
def Op.copies (o : Op) (job : Nat) : Bool :=
  o.kind == .engine && o.open_ && (match o.owner, o.key with | .remote _, some k => k.job == job | _, _ => false)

/-- The target refused or did not answer (Table 17-4, STATE 11): dispatch goes on without a checkpoint. -/
def failCkpt (s : State) (job : Nat) : State :=
  if (s.job job).ckpt == 2 then
    (setCkpt { s with ops := s.ops.filter (fun o => !o.copies job) } 3).modJob job (fun j => { j with ckpt := 0 })
  else s

/-- The timeout after `tries` timeouts in a row (R119). -/
def timeoutOf (o : Op) : Nat :=
  let first := match o.owner with | .remote _ => 32768 | _ => 4096
  min (first * 2 ^ o.tries) 262144

/-- REQUEST_TIMEOUT (R119, R121): an unanswered request is sent again, a response that is still on its way with it; after 16 timeouts in a row its fate is
unknown and its lane traps. What no lane has issued is sent again for ever. (DEDUCED, log entry 39.) -/
def timeoutTurn (s : State) (m : Nat) : State :=
  match s.op? m with
  | none => s
  | some o =>
    let waits := match o.phase with | .request | .lost | .held | .response _ => true | _ => false
    if !waits || o.fated || !hears s o || decide (o.clock s < o.sentAt + timeoutOf o) then s
    else
      let again := fun (n : Nat) => s.modOp m (fun q => { q with
        phase := if q.phase = .held then .held else .request, tries := n, sentAt := o.clock s
        flying := match q.phase with | .response r => q.flying ++ [(r, q.respAt)] | _ => q.flying })
      if o.tries + 1 < 16 then again (o.tries + 1)
      else if o.kind == .engine && (match o.owner with | .remote _ => true | _ => false) then failCkpt s (o.job s)
      else if o.u.isNone || o.number.isSome then again o.tries
      else
        let s := if o.phase == .held then again 16 else s.modOp m (fun q => { q with phase := .fate, flying := [] })
        match o.cmd with
        | some k => fateCmd s k o.va
        | none => trapOf s o cFATE 0

def execRequestTimeout (m : Nat) (s : State) : Out := .next (timeoutTurn s m)

/-- REFUSAL_BACKOFF_EXPIRY (R119): the pseudo-random part is the event's. -/
def execRefusalBackoffExpiry (m jitter : Nat) (s : State) : Out :=
  .next (match s.op? m with
    | some o => match o.phase with
      | .backoff t => if hears s o && decide (jitter < 64 ∧ t + jitter ≤ o.clock s) then s.modOp m (fun q => { q with phase := .request, sentAt := o.clock s }) else s
      | _ => s
    | none => s)

/-- PACKET_AGE_DISCARD (R120): a packet older than 100 µs, 70,000 cycles. -/
def execPacketAgeDiscard (m : Nat) (s : State) : Out :=
  .next (match s.op? m with
    | some o => if o.aged s (match o.phase with | .response _ => o.respAt | _ => o.sentAt) then losePacket s m else s
    | none => s)

/-- FLIT_RECEIVE (R393): an uncorrectable flit goes with the packet that holds it. -/
def execFlitReceive (m : Nat) (correctable : Bool) (s : State) : Out := .next (if correctable then s else losePacket s m)

-- LOW and retiring -----------------------------------------------------------------------------------------------------

/-- A serial of a fibre that LOW may pass (R120): everything under it is answered and was last sent 70,000 cycles ago, and no staged reduction holds it. -/
def lowMayPass (s : State) (u f : Nat) (serial : BitVec 16) : Bool :=
  s.ops.all (fun o => o.u != some u || o.fibre != f || (o.key.map Key.serial) != some serial ||
    (o.phase == .answered && decide (o.sentAt + 70000 ≤ o.clock s))) &&
  s.cmds.all (fun c => c.u != u || c.fibre != f || c.key.serial != serial) &&
  (s.unit u).staging.all (fun e => e.fibre != f || e.seq != serial)

/-- LOW_ADVANCE (R120, R123). Under rollback protection LOW stays (R113). -/
def lowTurn (s : State) (u f : Nat) : State :=
  let x := (s.unit u).fib f
  if (s.unit u).protect || x.low == x.serial || !lowMayPass s u f x.low then s
  else
    let s := { s with ops := s.ops.filter (fun o => !(o.u == some u && o.fibre == f && (o.key.map Key.serial) == some x.low)) }
    s.modFib u f (fun y => { y with low := y.low + 1 })

/-- The same for an originator that is no fibre, by job and by 4*NODE + FIBRE (R112). -/
def originLow (s : State) (job g : Nat) : State :=
  let x := (s.job job).origins.get {} g
  let mine := fun (o : Op) => o.u.isNone && (match o.key with | some k => k.job == job && k.unit == 0xFFFFF && 4 * k.node + k.fibre == g && k.serial == x.low && o.phase != .queued | none => false)
  if x.low == x.serial || s.ops.any (fun o => mine o && !(o.phase == .answered && decide (o.sentAt + 70000 ≤ o.clock s))) then s
  else { s with ops := s.ops.filter (fun o => !mine o) }.modJob job (fun j => { j with origins := j.origins.upd {} g (fun x => { x with low := x.low + 1 }) })

/-- LOW_ADVANCE of fibre `f` of unit `u`; from 2^32 on, `u` names a job and `f` its originator. -/
def execLowAdvance (u f : Nat) (s : State) : Out := .next (if u < 2 ^ 32 then lowTurn s u f else originLow s (u - 2 ^ 32) f)

/-- A retire message at an owner (R124): the entries of its node, or of one of the node's units, retire there; a unit's own message leaves no entry of the
unit. It is never refused. (DESIGN CHOICE, log entry 66.) -/
def retireTurn (s : State) (o : Op) (k : Key) (unit : Option Nat) : State :=
  let s := retireOlder s o k
  match entryOfKey s o.owner k with
  | some e => s.reply o.id (entryAnswer s o e)
  | none =>
    let s := s.retire (fun e => e.owner == o.owner && e.key.job == bits o.loc 32 32 && e.key.node == bits o.loc 0 32 &&
      (match unit with | some v => e.key.unit == v | none => true))
    let s := if k.unit = 0xFFFFF then s.addEntry (o.entry k { s := s } 0 []) else s
    s.reply o.id (.done [] [] false false)

/-- RETIRE_MESSAGE (R124). -/
def execRetireMessage (m : Nat) (s : State) : Out :=
  .next (match s.op? m with
    | some o => match o.kind, o.key with
      | .retire unit, some k => if o.phase == .request && ownerUp s o then onArrival s o (fun s => retireTurn s o k unit) else s
      | _, _ => s
    | none => s)

/-- Owners by number: home d, dispatcher 16 + d, and the scratchpad owner of unit u at 32 + u. -/
def ownerNumber (n : Nat) : Owner := if n < 16 then .die n else if n < 32 then .disp (n - 16) else .pool (n - 32)

/-- The owner of an operation has begun its effect and answers it later. -/
def OpKind.begun : OpKind → Bool | .stepAdv | .berPub .. | .tagRetire _ | .cancel _ => true | _ => false

/-- OWNER_RESTART (R127): its request logic starts anew and it takes requests again once its journal is reloaded. Requests it held are not held any more; drain
records keep NEXT, without which an update could be applied out of its order. (DESIGN CHOICE, log entry 58.) -/
def execOwnerRestart (owner : Nat) (reloaded : Bool) (s : State) : Out :=
  let w := ownerNumber owner
  .next (if reloaded then { s with restarting := s.restarting.filter (fun x => x != w) }
    else if s.restarting.contains w then s
    else { s with
      restarting := s.restarting ++ [w]
      ops := s.ops.map (fun o => if o.owner = w && o.phase == .held && !o.kind.begun then { o with phase := if o.fated then .fate else .lost } else o)
      drains := s.drains.map (fun d => if d.owner = w then { d with held := [] } else d) })

/-- Every job that has lost journal entries is rolled back from its last checkpoint (R128, R386). -/
def lostTurn (s : State) : State := s.lost.foldl escalate { s with lost := [] }

/-- JOURNAL_LOSS (R128, R386): the entries of an owner's area are lost, a machine check is raised, and every job with an entry there escalates. -/
def execJournalLoss (owner : Nat) (s : State) : Out :=
  let w := ownerNumber owner
  let gone := s.journal.filter (fun e => sameArea e.owner w)
  let s := ({ s with journal := s.journal.filter (fun e => !sameArea e.owner w) } : State).machineCheck 4 owner 0
  .next (lostTurn { s with lost := (s.lost ++ gone.map (fun e => e.key.job)).eraseDups })

end Sys2Proof.Machine
end

