-- ==== Sys2Proof/Machine/Engines.lean ====
section
/-! DEFINITION. Engine commands: COPY and GATHER (R338 to R344), COLL (R370 to R372, R398, R399) and FRAME (R373, R374, R400 to R403): their blocks,
the checks at issue (R33, R342), the parts that an engine sends, arrivals, and completion (R150). -/

namespace Sys2Proof.Machine

-- blocks -------------------------------------------------------------------------------------------------------------

/-- Words as a number, the first lowest. -/
def wordsNat (ws : List Word) : Nat := ws.foldr (fun w n => w.toNat + 2 ^ 32 * n) 0

/-- The 256 bits of a command's block. -/
def Cmd.blk (m : Cmd) : Nat := wordsNat (m.block.take 8)

/-- Where an address of a block points (R339). -/
inductive Space | glob | scr | gang | regs | wrong
  deriving DecidableEq, Repr

/-- The space of an address: a local one has every bit beside its code and its place zero. -/
def spaceOf (a : Nat) : Space :=
  let fits := fun (k : Nat) => bits a 60 4 == 0 && decide (a % 2 ^ 56 < 2 ^ k)
  match bits a 56 4 with
  | 0 => .glob
  | 15 => if fits 21 then .scr else .wrong
  | 14 => if fits 25 then .gang else .wrong
  | 13 => if fits 7 then .regs else .wrong
  | _ => .wrong

/-- Addresses of a space wrap at its width (R341, R318). -/
def Space.wrap (p : Space) (x : Int) : Nat := (x % (if p = .glob then (2 ^ 64 : Nat) else (2 ^ 32 : Nat) : Int)).toNat

/-- Where an address of a block begins, without its space code. -/
def baseOf (a : Nat) : Nat := if spaceOf a = .glob then a else a % 2 ^ 56

/-- Fields of Table 14-11. -/
def bSrc (b : Nat) : Nat := bits b 0 64
def bDst (b : Nat) : Nat := bits b 64 64
def bLen (b : Nat) : Nat := bits b 128 20
def bRows (b : Nat) : Nat := bits b 148 12 + 1
def bSstr (b : Nat) : Int := sext 32 (bits b 160 32)
def bDstr (b : Nat) : Int := sext 32 (bits b 192 32)
def bBar (b : Nat) : Nat := 16 * bits b 224 10
def bBaren (b : Nat) : Bool := b.testBit 234
def bConv (b : Nat) : Nat := bits b 235 3
def bMcm (b : Nat) : Nat := bits b 238 2
def bMask (b : Nat) : Nat := bits b 240 16

/-- The plane format of CONV (Table 14-11). -/
def convFmt (c : Nat) : Option PlaneFmt :=
  match c with
  | 1 => some (pfmtPlanes .bf16) | 2 => some (pfmtPlanes .f16) | 3 => some (pfmtPlanes .e4m3) | 4 => some (pfmtPlanes .e5m2)
  | 5 => some (pfmtPlanes .e2m1) | 6 => some (pfmtPlanes .i8) | 7 => some (pfmtPlanes .i4) | _ => none

/-- Bytes of one destination row. -/
def rowOut (b : Nat) : Nat := match convFmt (bConv b) with | some p => 16 * p.count | none => bLen b

/-- The start of source row `r`; `idx`: GATHER's indices (R341). -/
def srcRow (gather : Bool) (b : Nat) (idx : Nat → Nat) (r : Nat) : Nat :=
  (spaceOf (bSrc b)).wrap ((baseOf (bSrc b) : Int) + (if gather then ((idx r * bLen b : Nat) : Int) else (r : Int) * bSstr b))

/-- The start of destination row `r`. -/
def dstRow (b : Nat) (r : Nat) : Nat := (spaceOf (bDst b)).wrap ((baseOf (bDst b) : Int) + (r : Int) * bDstr b)

/-- The 4 KiB granules that rows of `n` bytes touch, ascending. -/
def granulesOf (p : Space) (rows : List (Nat × Nat)) : List Nat :=
  ((rows.flatMap (fun e => (List.range ((e.1 + e.2 - 1) / 4096 - e.1 / 4096 + 1)).map (fun k => p.wrap ((e.1 / 4096 + k) * 4096 : Nat) / 4096))).eraseDups).mergeSort
    (fun a b => a ≤ b)

/-- The number of granules from the lowest to the highest (R343). -/
def spanOf (gs : List Nat) : Nat := match gs.head?, gs.getLast? with | some a, some b => b - a + 1 | _, _ => 0

/-- The destination rows of a COPY or GATHER block. -/
def copyRows (b : Nat) : List (Nat × Nat) := (List.range (bRows b)).map (fun r => (dstRow b r, rowOut b))

/-- R340: a valid block of COPY (`gather` false) or GATHER. -/
def copyValid (gather : Bool) (b gsize : Nat) : Bool :=
  let s := spaceOf (bSrc b); let d := spaceOf (bDst b); let len := bLen b
  decide (len ≠ 0) && s != .wrong && s != .regs && d != .wrong && (d != .regs || gather) &&
  (match bMcm b with
   | 0 => bMask b == 0
   | 1 => decide (bMask b ≠ 0 ∧ bMask b < 2 ^ gsize)
   | 2 => decide (bMask b ≠ 0 ∧ bMask b < 16)
   | _ => false) &&
  (bMcm b == 0 || d == .scr) &&
  (match convFmt (bConv b) with
   | some p => (d == .scr || d == .gang) && decide (len = 16 * p.width ∧ baseOf (bDst b) % 16 = 0 ∧ bDstr b % 16 = 0)
   | none => true) &&
  (if d = .regs then
     bConv b == 0 && bMcm b == 0 && !bBaren b && decide (len % 4 = 0 ∧ bRows b * len ≤ 128 ∧ bDst b % 128 + bRows b * len / 4 ≤ 128)
   else decide (spanOf (granulesOf d (copyRows b)) ≤ (if bMcm b = 0 then 65535 else 512)))

-- checks at issue (R33, R342) ----------------------------------------------------------------------------------------

/-- A failing byte: its fault and its address. -/
abbrev Failing := Option (Why × Addr)

/-- The failing byte with the least address. -/
def least (fs : List Failing) : Failing :=
  fs.foldl (fun a f => match a, f with
    | some x, some y => if y.2.toNat < x.2.toNat then some y else some x
    | some x, none => some x
    | none, y => y) none

/-- A range of a scratchpad. -/
def poolFails (y : UnitSt) (addr n : Nat) : Failing :=
  if addr / 2 ^ 21 != 0 then some ((cXLATE, 3), BitVec.ofNat 64 addr)
  else if y.scrSize < addr + n then some ((cXLATE, 3), BitVec.ofNat 64 (max addr y.scrSize)) else none

/-- A range of the gang window. -/
def gangFails (s : State) (u addr n : Nat) : Failing :=
  match (if addr / 2 ^ 25 != 0 || decide ((s.unit u).cfg.gsize ≤ bits addr 21 4) then none else gangUnit s u (bits addr 21 4)) with
  | none => some ((cXLATE, 4), BitVec.ofNat 64 addr)
  | some v => (poolFails (s.unit v) (addr % 2 ^ 21) n).map (fun f => (f.1, f.2 + BitVec.ofNat 64 (addr / 2 ^ 21 * 2 ^ 21)))

/-- A sector of a command's global range, for a class of access: checked at the home, with the issuing unit's root (R33). `t`: the entry of the berth map
that the command uses (R88). -/
def cmdCheck (s : State) (u : Nat) (t : BitVec 4) (priv : Bool) (a : Acc) (va : BitVec 64) : Except Why Checked :=
  let x := s.unit u
  checkGlobal s none (some x.cfg.node) x.cfg.job x.xroot t priv false a va 0

/-- A range of a command in a space; `v` is the unit whose scratchpad is meant. -/
def rangeFails (s : State) (u v : Nat) (priv : Bool) (a : Acc) (p : Space) (addr n : Nat) : Failing :=
  match p with
  | .glob => match checkRange (cmdCheck s u ((s.unit u).berth s) priv a) (pieceFuel n) (BitVec.ofNat 64 addr) n with | .error f => some f | .ok _ => none
  | .gang => gangFails s u addr n
  | _ => poolFails (s.unit v) addr n

/-- The barrier object of a receiver (R342). -/
def barFails (s : State) (v off : Nat) : Failing := if (s.unit v).scrSize < off + 16 then some ((cXLATE, 3), BitVec.ofNat 64 off) else none

/-- The receivers of a COPY or GATHER (R339, R341): units by position; of a gang-window destination each member to whose window DSTR carries a row. -/
def receivers (s : State) (u b : Nat) : Except (Why × Addr) (List Nat) :=
  let x := s.unit u
  let away : Why × Addr := ((cXLATE, 4), BitVec.ofNat 64 (baseOf (bDst b)))
  let all := fun (vs : List (Option Nat)) => vs.foldr (fun v r => match v, r with
    | some v, .ok l => .ok (v :: l)
    | _, _ => .error away) (.ok [])
  let named := (List.range 16).filter (fun k => (bMask b).testBit k)
  match bMcm b with
  | 1 => all (named.map (gangUnit s u))
  | 2 => all (named.map (fun c => ((List.range x.cfg.gsize).filterMap (gangUnit s u)).find? (fun v => (s.unit v).core == some (x.at_ / 4 * 4 + c))))
  | _ => .ok (if spaceOf (bDst b) = .gang then (((copyRows b).map (fun e => bits e.1 21 4)).eraseDups).filterMap (gangUnit s u) else [u])

/-- GATHER's indices, from the issuer's scratchpad (R341). -/
def indices (s : State) (u b : Nat) : List Word := wordsOf ((s.unit u).scrN (bits b 160 32) (4 * bRows b)) (bRows b)

/-- The checks of R340 and R342 on a COPY or GATHER: the receivers, or the fault and the address it reports. -/
def copyChecks (s : State) (u : Nat) (priv gather : Bool) (pc : Addr) (b : Nat) : Except (Why × Addr) (List Nat) :=
  let x := s.unit u
  if !copyValid gather b x.cfg.gsize then .error ((cILLEGAL, 8), pc)
  else
    let at_ := bits b 160 32
    let first : Failing := if !gather then none else if at_ % 4 != 0 then some ((cALIGN, 0), BitVec.ofNat 64 at_) else poolFails x at_ (4 * bRows b)
    match first with
    | some f => .error f
    | none =>
      let idx := indices s u b
      match least ((List.range (bRows b)).map (fun r => rangeFails s u u priv .src (spaceOf (bSrc b)) (srcRow gather b (fun k => (idx.getD k 0).toNat) r) (bLen b))) with
      | some f => .error f
      | none =>
        match receivers s u b with
        | .error f => .error f
        | .ok vs =>
          let d := spaceOf (bDst b)
          let dst := if d = .regs then none
            else least ((if d = .gang then [u] else vs).map (fun v => least ((copyRows b).map (fun e => rangeFails s u v priv .dst d e.1 e.2))))
          match dst.or (if bBaren b then least (vs.map (fun v => barFails s v (bBar b))) else none) with
          | some f => .error f
          | none => .ok vs

-- collectives --------------------------------------------------------------------------------------------------------

/-- Fields of Table 15-6. -/
def lLen (b : Nat) : Nat := bits b 128 16 + 1
def lChunk (b : Nat) : Nat := bits b 144 16
def lGroup (b : Nat) : Nat := bits b 160 6
def lTy (b : Nat) : Nat := bits b 166 1
def lMode (b : Nat) : Nat := bits b 167 1
def lBaren (b : Nat) : Bool := b.testBit 168
def lBar (b : Nat) : Nat := 16 * bits b 169 10
def lElem (b : Nat) : Nat := if lTy b = 0 then 4 else 2

/-- The member list of a group (R398): words in rank order. An entry whose list cannot be read names nobody. (DEDUCED, log entry 37.) -/
def members (s : State) (job group : Nat) : List Nat :=
  let e := (s.job job).groups.get (0, 0) group
  if e.1 = 0 then []
  else match jobRead s job (8 * (e.2.toNat + 1)) e.1 with
    | .error _ => []
    | .ok (bs, _) => (pieces 8 (e.2.toNat + 1) bs).map leNat

/-- The word that names a unit of this device in a member list. -/
def memberWord (s : State) (u : Nat) : Nat :=
  let x := (s.unit u).cfg
  x.uidx + s.devId % 4096 * 2 ^ 20 + (s.node x.node).id * 2 ^ 32

/-- The rank of a unit in a group. -/
def rankOf (s : State) (u group : Nat) : Option Nat := (members s (s.unit u).cfg.job group).findIdx? (fun w => w == memberWord s u)

/-- A local or global operand of COLL or FRAME: its space and its alignment, then its range. -/
def operandFails (s : State) (u : Nat) (priv : Bool) (a : Acc) (addr n align : Nat) : Failing :=
  if baseOf addr % align != 0 then some ((cALIGN, 0), BitVec.ofNat 64 (baseOf addr)) else rangeFails s u u priv a (spaceOf addr) (baseOf addr) n

/-- The checks of R371 on a COLL. -/
def collChecks (s : State) (u : Nat) (priv : Bool) (pc : Addr) (b : Nat) : Except (Why × Addr) (List Nat) :=
  let bad : Except (Why × Addr) (List Nat) := .error ((cILLEGAL, 8), pc)
  let space := fun (a : Nat) => spaceOf a == .glob || spaceOf a == .scr
  match rankOf s u (lGroup b) with
  | none => bad
  | some k =>
    let writes := lMode b == 0 || k == 0
    if b / 2 ^ 179 != 0 || !space (bSrc b) || (writes && !space (bDst b)) || lLen b % lElem b != 0 || (!writes && lBaren b) then bad
    else match ((operandFails s u priv .src (bSrc b) (lLen b) (lElem b)).or
        (if writes then operandFails s u priv .dst (bDst b) (lLen b) (lElem b) else none)).or (if lBaren b then barFails s u (lBar b) else none) with
      | some f => .error f
      | none => .ok [u]

-- frames -------------------------------------------------------------------------------------------------------------

/-- Fields of Table 15-7. -/
def fPrm (b : Nat) : Nat := bits b 128 64
def fSlen (b : Nat) : Nat := bits b 192 24
def fBaren (b : Nat) : Bool := b.testBit 216
def fBar (b : Nat) : Nat := 16 * bits b 217 10
def fSlot (b : Nat) : Nat := bits b 227 4

/-- Fields of the pipeline record (Table 17-8), from its bytes as one number. -/
def rB (r at_ n : Nat) : Nat := bits r (8 * at_) (8 * n)

/-- Resize and colour matrix are on. -/
def rResize (r : Nat) : Bool := r.testBit 16
def rMatrix (r : Nat) : Bool := r.testBit 17

/-- The limits of Table 17-8. -/
def recordOk (r : Nat) : Bool :=
  decide (rB r 0 1 ≤ 2 ∧ rB r 1 1 ≤ 3 ∧ rB r 2 1 < 4 ∧ rB r 3 1 = 0) &&
  decide (rB r 4 2 % 2 = 0 ∧ rB r 6 2 % 2 = 0 ∧ rB r 8 2 % 2 = 0 ∧ rB r 10 2 % 2 = 0 ∧ 2 ≤ rB r 8 2 ∧ 2 ≤ rB r 10 2) &&
  decide (1 ≤ rB r 12 2 ∧ rB r 12 2 ≤ 4096 ∧ 1 ≤ rB r 14 2 ∧ rB r 14 2 ≤ 4096) &&
  (decide (rB r 1 1 < 2) || rB r 12 2 % 128 == 0) &&
  (rResize r || (rB r 12 2 == rB r 8 2 && rB r 14 2 == rB r 10 2)) &&
  rB r 16 8 % 2 == 0 && rB r 0x50 0xA0 == 0

/-- The rows that the destination takes: address and length (R403). -/
def frameExtent (r dst : Nat) : List (Nat × Nat) :=
  let p := spaceOf dst
  let w := rB r 12 2; let h := rB r 14 2; let o := rB r 1 1
  (List.range 3).flatMap (fun (c : Nat) => (List.range h).flatMap (fun (y : Nat) =>
    if o < 2 then [(p.wrap ((baseOf dst : Int) + ((c * rB r 28 4 : Nat) : Int) + (y : Int) * sext 32 (rB r 24 4)), if o = 0 then 2 * w else w)]
    else
      let size := 16 * (pfmtPlanes (if o = 2 then .bf16 else .e4m3)).count
      (List.range (w / 128)).map (fun (b : Nat) => (p.wrap (Int.ofNat (baseOf dst + c * rB r 28 4 + (y * (w / 128) + b) * size)), size))))

/-- The pipeline record of a FRAME as it stands: 240 bytes, and whether they come from a poisoned line; read once as the command starts (R374). -/
def readRecord (s : State) (u : Nat) (priv : Bool) (b : Nat) : List (Byte × Bool) :=
  match checkRange (cmdCheck s u ((s.unit u).berth s) priv .src) (pieceFuel 240) (BitVec.ofNat 64 (fPrm b)) 240 with
  | .error _ => []
  | .ok ps => piecesBytes s ps

/-- The checks of R33 and R373 on a FRAME; where its record is a good one, also those of the coefficient table and of the destination that the record fixes
(R401, R403). -/
def frameChecks (s : State) (u : Nat) (priv : Bool) (pc : Addr) (b : Nat) : Except (Why × Addr) (List Nat) :=
  if b / 2 ^ 231 != 0 || fSlen b == 0 || spaceOf (bSrc b) != .glob || spaceOf (fPrm b) != .glob ||
     (spaceOf (bDst b) != .glob && spaceOf (bDst b) != .scr) then .error ((cILLEGAL, 8), pc)
  else match (operandFails s u priv .src (bSrc b) (fSlen b) 1).or (operandFails s u priv .src (fPrm b) 256 256) with
    | some f => .error f
    | none =>
      let r := leNat ((readRecord s u priv b).map Prod.fst)
      let more : Failing := if !recordOk r then none
        else (rangeFails s u u priv .src .glob (rB r 16 8) 1536).or
          (least ((frameExtent r (bDst b)).map (fun e => rangeFails s u u priv .dst (spaceOf (bDst b)) e.1 e.2)))
      match (more.or (operandFails s u priv .dst (fPrm b) 256 256)).or (if fBaren b then barFails s u (fBar b) else none) with
      | some f => .error f
      | none => .ok [u]

-- issue (R338) -------------------------------------------------------------------------------------------------------

/-- The checks of a command at issue. -/
def cmdChecks (k : CmdKind) (s : State) (u : Nat) (priv : Bool) (pc : Addr) (b : Nat) : Except (Why × Addr) (List Nat) :=
  match k with
  | .copy => copyChecks s u priv false pc b
  | .gather => copyChecks s u priv true pc b
  | .coll => collChecks s u priv pc b
  | .frame => frameChecks s u priv pc b

/-- The limits of R338 on a crew's issue. -/
def preCmd (x : Ctx) (s : State) : Option State :=
  let n := (lanesOf x.act).length
  let tied := match x.flag with | some k => (s.cmds.filter (fun m => m.u == x.u && m.crew == x.c && m.flag == some k)).length | none => 0
  let queued := (s.cmds.filter (fun m => m.core == (s.unit x.u).at_)).length
  if 255 < tied + n || 64 < queued + n then some s else none

/-- A member's COLL for a chunk whose first has not completed (R372). -/
def chunkOpen (s : State) (u b : Nat) : Bool :=
  s.cmds.any (fun m => m.kind == .coll && m.u == u && lGroup m.blk == lGroup b && lChunk m.blk == lChunk b)

/-- What a command keeps beside its block: GATHER's indices, FRAME's record. -/
def blockTail (k : CmdKind) (s : State) (u : Nat) (priv : Bool) (b : Nat) : List Word :=
  match k with
  | .gather => indices s u b
  | .frame => let r := readRecord s u priv b; wordsOf (r.map Prod.fst) 60 ++ [if r.any Prod.snd then 1 else 0]
  | _ => []

/-- What a command's issue makes homes and the pool read: GATHER's indices, FRAME's record (R37, R68, R70). -/
def issueReads (k : CmdKind) (s : State) (u : Nat) (priv : Bool) (b : Nat) : State :=
  match k with
  | .gather => (readScr s u (bits b 160 32) (4 * bRows b)).1
  | .frame => match checkRange (cmdCheck s u ((s.unit u).berth s) priv .src) (pieceFuel 240) (BitVec.ofNat 64 (fPrm b)) 240 with
    | .error _ => s
    | .ok ps => piecesRead s ps
  | _ => s

/-- The command of a lane. -/
def Ctx.command (x : Ctx) (s : State) (k : CmdKind) (i : Instr) (l : Nat) (ws : List Word) (vs : List Nat) : Cmd :=
  let b := wordsNat ws
  let f := x.f s l
  { id := s.nextId, kind := k, u := x.u, crew := x.c, lane := l, fibre := f, key := fibreKey s x.u f ((s.unit x.u).fib f).serial 0
    word := (encode i).getD 0, pc := x.ent.pc, priv := x.ent.handler, block := ws ++ blockTail k s x.u x.ent.handler b, flag := x.flag
    core := (s.unit x.u).at_, recv := vs, gate := if (s.unit x.u).cfg.red then 1 else 0, berth := (s.unit x.u).berth s, askedAt := s.cyc (s.unit x.u).at_
    dst := if (k == .copy || k == .gather) && spaceOf (bDst b) == .regs
      then (List.range (bRows b * bLen b / 4)).map (fun j => (s.unit x.u).wb x.c l + bDst b % 128 + j) else [] }

/-- One lane's command (R338): checked, then under one serial. -/
def cmdLane (k : CmdKind) (i : Instr) (a : VReg) (x : Ctx) (s : State) (l : Nat) : LaneDo :=
  let ws := (List.range 8).map (fun j => x.rdi s l a j)
  let b := wordsNat ws
  match cmdChecks k s x.u x.ent.handler x.ent.pc b with
  | .error f => .trap ⟨l, f.1.1, f.1.2, f.2⟩
  | .ok vs =>
    let s := issueReads k s x.u x.ent.handler b
    drawing x s l (fun s => .go (spend { s with cmds := s.cmds ++ [x.command s k i l ws vs], nextId := s.nextId + 1 } x.u (x.f s l)))

/-- An engine command instruction. -/
def issueCmd (k : CmdKind) (i : Instr) (a : VReg) (s : State) : Out :=
  withIssueE i s preCmd (fun x ts s => (eachLane x (cmdLane k i a x) s).map (fun r => finish x i (ts ++ r.2) r.1))

/-- COPY (R338 to R344). -/
def execCopy (a : VReg) (s : State) : Out := issueCmd .copy (.copy a) a s
/-- GATHER (R338 to R344). -/
def execGather (a : VReg) (s : State) : Out := issueCmd .gather (.gather a) a s

/-- One lane of COLL: it has issued its command already, or it finds its chunk open and waits, or it issues. -/
def collLane (i : Instr) (a : VReg) (x : Ctx) (s : State) (l : Nat) : LaneDo :=
  if x.ent.arrived.getLsbD l then .go s
  else if chunkOpen s x.u (wordsNat ((List.range 8).map (fun j => x.rdi s l a j))) && (rankOf s x.u (lGroup (wordsNat ((List.range 8).map (fun j => x.rdi s l a j))))).isSome
    then .wait id else cmdLane .coll i a x s l

/-- The lanes of a COLL in order, each where it can: those that cannot wait; lanes with a trap park. -/
def collLanes (i : Instr) (a : VReg) (x : Ctx) (s : State) : State × List Trap × Bool :=
  (lanesOf x.act).foldl (fun (r : State × List Trap × Bool) l => match collLane i a x r.1 l with
    | .trap t => (r.1, r.2.1 ++ [t], r.2.2)
    | .trapIn s t => (s, r.2.1 ++ [t], r.2.2)
    | .wait _ => (r.1, r.2.1, true)
    | .go s => (s.modEntry x.u x.c x.e (fun en => { en with arrived := en.arrived ||| BitVec.twoPow 32 l }), r.2)) (s, [], false)

/-- COLL (R370 to R372). A lane that names a chunk whose first COLL is not complete stalls the crew at the instruction, which then goes on for the lanes that
have not issued. -/
def execColl (a : VReg) (s : State) : Out :=
  withIssueE (.coll a) s preCmd (fun x ts s =>
    let r := collLanes (.coll a) a x s
    .ok (if r.2.2 then parkHere x (ts ++ r.2.1) r.1 else finish x (.coll a) (ts ++ r.2.1) r.1))
/-- FRAME (R370, R373, R374). -/
def execFrame (a : VReg) (s : State) : Out := issueCmd .frame (.frame a) a s

-- parts --------------------------------------------------------------------------------------------------------------

/-- Bytes that come by granule requests (R397): of a storage window, or of a management region, which answers none. -/
def Piece.apart (p : Piece) : Bool := entKind p.leaf.ent == 3 || mgmtPlace p.loc

/-- The bytes of a piece of a command's source, each with whether its line is poisoned. -/
def pieceBytes (s : State) (m : Cmd) (p : Piece) : List (Byte × Bool) :=
  if p.apart then (List.range p.n).map (fun i => (BitVec.ofNat 8 (m.got.get 0 (p.va.toNat + i) - 1), false))
  else (s.load p.loc p.n).map (fun b => (b, s.poisonedAt p.loc p.n))

/-- Bytes of a unit's scratchpad as an engine reads them, each with whether its row is poisoned (R37, R72). -/
def scrBytes (s : State) (v off n : Nat) : State × List (Byte × Bool) :=
  let r := readScr s v off n
  (r.1, ((List.range n).zip r.2).map (fun e => (e.2, scrPoisoned r.1 v (off + e.1) 1)))

/-- The checked pieces of a range of a command's global source. -/
def srcPieces (s : State) (m : Cmd) (addr n : Nat) : Except (Why × Addr) (List Piece) :=
  checkRange (cmdCheck s m.u m.berth m.priv .src) (pieceFuel n) (BitVec.ofNat 64 addr) n

/-- The walks of a range of a command's source read the page tables (R70). -/
def srcWalks (s : State) (m : Cmd) (addr n : Nat) : State :=
  if s.sectors = [] then s
  else (List.range (pieceFuel n)).foldl (fun s i => translateReads s none (s.unit m.u).cfg.job (s.unit m.u).xroot (BitVec.ofNat 64 (addr + 32 * i))) s

/-- What an engine reads from a range of its source. -/
def rangeBytes (s : State) (m : Cmd) (p : Space) (addr n : Nat) : State × Except (Why × Addr) (List (Byte × Bool)) :=
  match p with
  | .glob =>
    let s := srcWalks s m addr n
    match srcPieces s m addr n with
    | .error f => (s, .error f)
    | .ok ps =>
      let s := piecesRead s (ps.filter (fun p => !p.apart))
      (s, .ok (ps.flatMap (pieceBytes s m)))
  | .gang => match gangUnit s m.u (bits addr 21 4) with
    | some v => let r := scrBytes s v (addr % 2 ^ 21) n; (r.1, .ok r.2)
    | none => (s, .error ((cXLATE, 4), BitVec.ofNat 64 addr))
  | _ => let r := scrBytes s m.u addr n; (r.1, .ok r.2)

/-- The parts of a range that lie in one 4 KiB granule each: address and length. -/
def granuleParts (addr n : Nat) : List (Nat × Nat) :=
  (List.range ((addr + n - 1) / 4096 - addr / 4096 + 1)).map (fun k =>
    let lo := max addr ((addr / 4096 + k) * 4096)
    (lo, min (addr + n) ((addr / 4096 + k + 1) * 4096) - lo))

/-- A granule of a command's source that must be asked for and has not come: its address, length and translation. -/
def granuleGap (s : State) (m : Cmd) (e : Nat × Nat) : Option (Nat × Nat × Checked) :=
  match cmdCheck s m.u m.berth m.priv .src (BitVec.ofNat 64 e.1) with
  | .error _ => none
  | .ok k =>
    let p : Piece := ⟨BitVec.ofNat 64 e.1, e.2, k.leaf, k.back, k.loc⟩
    if p.apart && (List.range e.2).any (fun i => m.got.get 0 (e.1 + i) = 0) then some (e.1, e.2, k) else none

/-- A command waits for granules of its source that it must ask for; it sends the requests that are not on their way (R397). `none`: all are there. -/
def fetchSource (s : State) (m : Cmd) (p : Space) (ranges : List (Nat × Nat)) : Option State :=
  if p != .glob then none
  else match ranges.flatMap (fun e => (granuleParts e.1 e.2).filterMap (granuleGap s m)) with
  | [] => none
  | gaps => some (gaps.foldl (fun s (g : Nat × Nat × Checked) =>
      if s.ops.any (fun o => o.cmd == some m.id && o.kind == .window && o.va.toNat == g.1) then s
      else s.send {
        id := 0, kind := .window, u := some m.u, crew := m.crew, lane := m.lane, fibre := m.fibre, word := m.word, pc := m.pc, va := BitVec.ofNat 64 g.1
        leaf := some g.2.2.leaf, loc := g.2.2.loc, owner := ownerOf g.2.2.loc, size := g.2.1, priv := m.priv, cmd := some m.id, berth := m.berth
        sentAt := s.cyc m.core }) s)

/-- One row as it is written, converted to planes where CONV says so (R341). -/
def convRow (b : Nat) (bs : List (Byte × Bool)) : List (Byte × Bool) :=
  match convFmt (bConv b) with
  | none => bs
  | some p =>
    let w := leNat (bs.map Prod.fst)
    (p.pack (fun n => bits w (p.width * n) p.width)).map (fun y => (y, bs.any Prod.snd))

/-- The source of row `r` of a COPY or GATHER. -/
def Cmd.srcRange (m : Cmd) (r : Nat) : Nat × Nat := (srcRow (m.kind == .gather) m.blk (fun k => (m.block.getD (8 + k) 0).toNat) r, bLen m.blk)

/-- Destination rows of a COPY or GATHER, read in order: where each goes and its bytes. -/
def copyRowsOf (s : State) (m : Cmd) (rs : List Nat) : State × Except (Why × Addr) (List (Nat × List (Byte × Bool))) :=
  rs.foldl (fun a r => match a with
    | (s, .error f) => (s, .error f)
    | (s, .ok l) => match rangeBytes s m (spaceOf (bSrc m.blk)) (m.srcRange r).1 (m.srcRange r).2 with
      | (s, .error f) => (s, .error f)
      | (s, .ok bs) => (s, .ok (l ++ [(dstRow m.blk r, convRow m.blk bs)]))) (s, .ok [])

/-- The bytes that rows write into a granule, by address: 1 + byte, with 256 for poison. A later row replaces an earlier one's bytes (R343). -/
def granuleCells (p : Space) (g : Nat) (rows : List (Nat × List (Byte × Bool))) : SMap Nat :=
  rows.foldl (fun c e => ((List.range e.2.length).zip e.2).foldl (fun c y =>
    let a := p.wrap ((e.1 + y.1 : Nat) : Int)
    if a / 4096 = g then SMap.set 0 c a (1 + y.2.1.toNat + 256 * y.2.2.toNat) else c) c) []

/-- One byte of each line among the poisoned bytes of a part. -/
def badLines (lo : Nat) (cells : SMap Nat) : List Nat :=
  (cells.filter (fun e => decide (256 < e.2))).foldl (fun (l : List Nat) e => if l.any (fun k => (lo + k) / 128 == e.1 / 128) then l else l ++ [e.1 - lo]) []

/-- The part that carries these bytes to a granule of the destination: of unit `v`'s scratchpad where the space is local (R343). -/
def partOf (s : State) (m : Cmd) (p : Space) (v part : Nat) (kind : OpKind) (cells : SMap Nat) : Except (Why × Addr) (Option Op) :=
  match cells.head?, cells.getLast? with
  | some (lo, _), some (hi, _) =>
    let n := hi - lo + 1
    let at_ := (List.range n).map (fun i => cells.get 0 (lo + i))
    let o : Op := {
      id := s.nextId, kind := kind, u := some m.u, crew := m.crew, lane := m.lane, fibre := m.fibre, key := some { m.key with part := part }
      word := m.word, pc := m.pc, va := BitVec.ofNat 64 lo, size := n, data := at_.map (fun c => BitVec.ofNat 8 (c - 1))
      mask := if at_.all (fun c => c != 0) then [] else at_.map (fun c => c != 0), bad := badLines lo cells, priv := m.priv, cmd := some m.id
      sentAt := s.cyc m.core, low := ((s.unit m.u).fib m.fibre).low, berth := m.berth }
    if p = .glob then
      (match cmdCheck s m.u m.berth m.priv .dst (BitVec.ofNat 64 lo) with
       | .error w => .error (w, BitVec.ofNat 64 lo)
       | .ok k => .ok (some { o with leaf := some k.leaf, loc := k.loc, owner := ownerOf k.loc }))
    else .ok (some { o with owner := .pool v, loc := lo % 2 ^ 21 })
  | _, _ => .ok none

/-- A part goes on its way. -/
def sendPart (s : State) (m : Cmd) (r : Except (Why × Addr) (Option Op)) : State :=
  match r with
  | .error f => failCmd s m.id f.1.1 f.1.2 f.2
  | .ok none => s
  | .ok (some o) => s.send o

/-- The signature of a command (R388): its key, opcode and block. It is local where every destination is scratchpad or registers. -/
def signCmd (s : State) (m : Cmd) : State :=
  let local_ := m.kind != .coll && spaceOf (bDst m.blk) != .glob
  let g : Sig := { op := m.id, key := m.key.num, trailer := (s.unit m.u).cfg.trailer, word := m.word, addr := 0
                   data := (m.block.take 8).flatMap (fun w => leBytes w.toNat 4), localClass := local_ }
  match meetSig s m.u g with
  | .full => s
  | .mismatch => pairMismatch s (s.unit m.u).cfg.node
  | .first s => s.modCmd m.id (fun c => { c with gate := if local_ then 0 else 2 })
  | .second s lead trail =>
    if local_ then s.modCmd m.id (fun c => { c with gate := 0 })
    else (s.modCmd lead (fun c => { c with gate := 0 })).modCmd trail (fun c => { c with gate := 3 })

/-- The command of the trailing copy that a leader's command stands for. -/
def trailCmd (s : State) (m : Cmd) : Option Cmd := s.cmds.find? (fun d => d.gate == 3 && d.key == m.key && d.id != m.id)

/-- A gather into registers: all at once; poisoned bytes are consumed (R72). The registers land as any late arrival does (R66, R344). -/
def gatherRegs (s : State) (m : Cmd) : State :=
  let rs := List.range (bRows m.blk)
  match fetchSource s m (spaceOf (bSrc m.blk)) (rs.map m.srcRange) with
  | some s => s
  | none => match copyRowsOf s m rs with
    | (s, .error f) => failCmd s m.id f.1.1 f.1.2 f.2
    | (s, .ok rows) =>
      let bs := rows.flatMap (fun e => e.2)
      if bs.any Prod.snd then consumePoison s (s.unit m.u).cfg.node
      else
        let vs := (m.dst.zip (wordsOf (bs.map Prod.fst) m.dst.length)).map (fun e => (e.1, m.lane, e.2))
        (landRegs s m.u m.crew vs []).modCmd m.id (fun c => { c with sent := true })

/-- The member whose window holds a granule of the gang window. -/
def granuleMember (g : Nat) : Nat := bits (4096 * g) 21 4

/-- The next destination granule of a COPY or GATHER goes out, to one receiver; one of the gang window to the member whose window holds it (R341, R343).
(DEDUCED, log entry 36.) -/
def copyTurn (s : State) (m : Cmd) : State :=
  let b := m.blk
  let p := spaceOf (bDst b)
  if p = .regs then gatherRegs s m
  else
    let gs := granulesOf p (copyRows b)
    let rounds := if p = .gang then 1 else m.recv.length
    if rounds * gs.length ≤ m.next then s.modCmd m.id (fun c => { c with sent := true })
    else
      let g := gs.getD (m.next % gs.length) 0
      let v := if p = .gang then (gangUnit s m.u (granuleMember g)).getD m.u else m.recv.getD (m.next / gs.length) 0
      let hit := (List.range (bRows b)).filter (fun r => (granulesOf p [(dstRow b r, rowOut b)]).contains g)
      match fetchSource s m (spaceOf (bSrc b)) (hit.map m.srcRange) with
      | some s => s
      | none => match copyRowsOf s m hit with
        | (s, .error f) => failCmd s m.id f.1.1 f.1.2 f.2
        | (s, .ok rows) =>
          let cells := granuleCells p g rows
          let part := (if bMcm b = 0 then 0 else 4096 * (s.unit v).cfg.gidx) + (g - gs.headD 0)
          let s := s.modCmd m.id (fun c => { c with next := c.next + 1 })
          sendPart s m (partOf s m p v part .part cells)

/-- The bytes that rows write to the granules of a sort. -/
def coverOf (p : Space) (rows : List (Nat × Nat)) (pick : Nat → Bool) : Nat :=
  (((granulesOf p rows).filter pick).map (fun g => (granuleCells p g (rows.map (fun e => (e.1, List.replicate e.2 (0, false))))).length)).sum

/-- The bytes that a command writes to a receiver (R341). -/
def Cmd.count (m : Cmd) (s : State) (v : Nat) : Nat :=
  match m.kind with
  | .copy | .gather =>
    let p := spaceOf (bDst m.blk)
    coverOf p (copyRows m.blk) (fun g => p != .gang || granuleMember g == (s.unit v).cfg.gidx)
  | _ => m.bytes

/-- All granules of assembled rows go out to one unit. -/
def sendRows (s : State) (m : Cmd) (addr : Nat) (kind : OpKind) (rows : List (Nat × List (Byte × Bool))) : State :=
  let p := spaceOf addr
  let gs := granulesOf p (rows.map (fun e => (e.1, e.2.length)))
  let s := gs.foldl (fun s g => if (s.cmd? m.id).isNone then s
    else sendPart s m (partOf s m p m.u (g - gs.headD 0) kind (granuleCells p g rows))) s
  s.modCmd m.id (fun c => { c with sent := true, bytes := (gs.map (fun g => (granuleCells p g rows).length)).foldl (fun a b => a + b) 0 })

-- the collective engine (R372) ---------------------------------------------------------------------------------------

/-- What a member brings: its rank, its command where it is on this device, and its block's LEN, TY and MODE with its bytes. -/
structure Member where
  rank : Nat
  cmd : Option Cmd
  len : Nat
  ty : Nat
  mode : Nat
  data : List (Byte × Bool)

/-- The COLL by which a member of this device, named by its word, brings its part of a chunk. -/
def memberCmd (s : State) (job group chunk word : Nat) : Option Cmd :=
  s.cmds.find? (fun c => c.kind == .coll && c.gate == 0 && !c.sent && !c.fate && (s.unit c.u).cfg.job == job && lGroup c.blk == group && lChunk c.blk == chunk &&
    memberWord s c.u == word)

/-- The contribution of rank `k` to a chunk has come. -/
def contributed (s : State) (job group chunk k word : Nat) : Bool :=
  (memberCmd s job group chunk word).isSome || s.gifts.any (fun g => g.job == job && g.group == group && g.chunk == chunk && g.rank == k)

/-- The contribution of rank `k`, read as it is summed: `none` where a check of its source fails now, and its command ends (R33). -/
def contribution (s : State) (job group chunk k word : Nat) : State × Option Member :=
  match memberCmd s job group chunk word with
  | some c => match rangeBytes s c (spaceOf (bSrc c.blk)) (baseOf (bSrc c.blk)) (lLen c.blk) with
    | (s, .ok bs) => (s, some { rank := k, cmd := some c, len := lLen c.blk, ty := lTy c.blk, mode := lMode c.blk, data := bs })
    | (s, .error f) => (failCmd s c.id f.1.1 f.1.2 f.2, none)
  | none => (s, (s.gifts.find? (fun g => g.job == job && g.group == group && g.chunk == chunk && g.rank == k)).map (fun g =>
      { rank := k, cmd := none, len := g.data.length, ty := g.ty, mode := g.mode, data := g.data.map (fun y => (y, false)) }))

/-- Element `i` of a contribution as FP32: BF16 is widened exactly. -/
def Member.elem (m : Member) (i : Nat) : Word :=
  if m.ty = 0 then BitVec.ofNat 32 (leNat (((m.data.drop (4 * i)).take 4).map Prod.fst))
  else BitVec.ofNat 32 (leNat (((m.data.drop (2 * i)).take 2).map Prod.fst) * 65536)

/-- The sum, in rank order. -/
def collSum (ms : List Member) : List (Byte × Bool) :=
  match ms with
  | [] => []
  | m :: rest =>
    let w := if m.ty = 0 then 4 else 2
    (List.range (m.len / w)).flatMap (fun i =>
      let sum := rest.foldl (fun a k => addF a (k.elem i)) (m.elem i)
      let bad := ms.any (fun k => ((k.data.drop (w * i)).take w).any Prod.snd)
      let v := if rest = [] then (if (f32 sum).isNaN then nan32 else sum) else sum
      (if m.ty = 0 then leBytes v.toNat 4 else leBytes (toFloatFmt fBF16 .rne true (f32 v)).1 2).map (fun y => (y, bad)))

/-- The sources of a chunk's members that lie in storage windows come first (R370, R397). -/
def collSource (s : State) (m : Cmd) (ranks : List (Nat × Nat)) : Option State :=
  (ranks.filterMap (fun e => memberCmd s (s.unit m.u).cfg.job (lGroup m.blk) (lChunk m.blk) e.2)).findSome? (fun c =>
    fetchSource s c (spaceOf (bSrc c.blk)) [(baseOf (bSrc c.blk), lLen c.blk)])

/-- A COLL whose members have all come is performed (R372): results go out, other ranks under MODE 1 complete, and differing members are refused.
(DEDUCED, log entry 37.) -/
def collTurn (s : State) (m : Cmd) : State :=
  let job := (s.unit m.u).cfg.job
  let b := m.blk
  let words := members s job (lGroup b)
  let ranks := (List.range words.length).zip words
  if !ranks.all (fun e => contributed s job (lGroup b) (lChunk b) e.1 e.2) then s
  else match collSource s m ranks with
  | some s => s
  | none =>
    let (s, all) := ranks.foldl (fun (a : State × List (Option Member)) e =>
      let r := contribution a.1 job (lGroup b) (lChunk b) e.1 e.2
      (r.1, a.2 ++ [r.2])) (s, [])
    if all.any (fun c => c.isNone) then s
    else
    let ms := all.filterMap id
    let same := ms.all (fun k => match ms.head? with | some r => k.len == r.len && k.ty == r.ty && k.mode == r.mode | none => true)
    if !same then ms.foldl (fun s k => match k.cmd with | some c => failCmd s c.id cILLEGAL 8 c.pc | none => s) s
    else
      let sum := collSum ms
      let give := fun (s : State) (c : Cmd) (writes : Bool) =>
        if !writes then s.modCmd c.id (fun d => { d with sent := true })
        else sendRows s c (bDst c.blk) (.collAdd (lTy c.blk)) [(baseOf (bDst c.blk), sum)]
      let s := ms.foldl (fun s k => match k.cmd with
        | none => s
        | some c =>
          let writes := lMode c.blk == 0 || k.rank == 0
          let s := give s c writes
          match trailCmd s c with
          | some d => give s d (writes && spaceOf (bDst d.blk) != .glob)
          | none => s) s
      { s with gifts := s.gifts.filter (fun g => !(g.job == job && g.group == lGroup b && g.chunk == lChunk b)) }

-- turns --------------------------------------------------------------------------------------------------------------

/-- Every part of the command is answered. -/
def partsDone (s : State) (m : Cmd) : Bool := s.ops.all (fun o => o.cmd != some m.id || !o.open_)

/-- BAREN and the barrier's place, by the block's table. -/
def Cmd.baren (m : Cmd) : Bool := match m.kind with | .coll => lBaren m.blk | .frame => fBaren m.blk | _ => bBaren m.blk
def Cmd.bar (m : Cmd) : Nat := match m.kind with | .coll => lBar m.blk | .frame => fBar m.blk | _ => bBar m.blk

/-- Everything is written: the arrivals go out (R49, R341), and a trailing copy that the command stands for sends its own. -/
def ringTurn (s : State) (m : Cmd) : State :=
  let s := s.modCmd m.id (fun c => { c with rung := true })
  let s := match trailCmd s m with
    | some d => if d.sent then s else s.modCmd d.id (fun c => { c with sent := true, bytes := m.bytes })
    | none => s
  if !m.baren then s
  else m.recv.foldl (fun s v => s.send {
    id := 0, kind := .arrive (m.count s v), u := some m.u, crew := m.crew, lane := m.lane, fibre := m.fibre, key := some { m.key with part := 0xFFFF }
    word := m.word, pc := m.pc, va := BitVec.ofNat 64 m.bar, loc := m.bar, owner := .pool v, size := 16, cmd := some m.id, sentAt := s.cyc m.core, low := ((s.unit m.u).fib m.fibre).low }) s

/-- An engine takes its turn on a command: its signature first in a redundant unit (R388), then its parts, then its arrivals. -/
def engineTurn (s : State) (k : Nat) : State :=
  match s.cmd? k with
  | none => s
  | some m =>
    if (s.node (s.unit m.u).cfg.node).doom != 0 then s
    else if m.gate = 1 then signCmd s m
    else if m.gate = 2 then s
    else if m.sent then (if !m.rung && partsDone s m then ringTurn s m else s)
    else if m.gate = 3 then s
    else match m.kind with
      | .copy => copyTurn s m
      | .gather => copyTurn s m
      | .coll => collTurn s m
      | .frame => s

/-- ENGINE_COMMAND_COMPLETE (R150, R344): every write and arrival is accepted; the flag is released, its registers are written. -/
def completeCmd (s : State) (k : Nat) : State :=
  match s.cmd? k with
  | none => s
  | some m => if m.sent && m.rung && partsDone s m then writeFlags { s with cmds := s.cmds.filter (fun d => d.id != k) } m.u else s

def execEngineCommandComplete (m : Nat) (s : State) : Out := .next (completeCmd s m)

/-- The timeout of a collective after some timeouts in a row, counted anew once the tree is rebuilt (R119, R399). (DEDUCED, log entry 37.) -/
def collTimeout (s : State) (m : Cmd) : Nat :=
  let away := (members s (s.unit m.u).cfg.job (lGroup m.blk)).any (fun w => bits w 20 12 != s.devId % 4096)
  min ((if away then 32768 else 4096) * 2 ^ (m.tries % 16)) 262144

/-- TREE_REBUILD (R399): a chunk that some member leaves incomplete times out. After 16 timeouts the tree is laid anew and what is lost of the chunk is sent
again under its keys, which the collective engines of the members' dies learn of; after 16 further ones the lane of every waiting member has
ATOMIC_FATE_UNKNOWN. -/
def rebuildTree (s : State) (k : Nat) : State :=
  match s.cmd? k with
  | none => s
  | some m =>
    if m.kind != .coll then s
    else if m.sent then { s with ops := s.ops.map (fun o =>
        if o.cmd = some k && o.phase == .lost then { o with phase := .request, tries := 0, sentAt := s.cyc m.core } else o) }
    else if m.gate != 0 || m.fate || decide (s.cyc m.core < m.askedAt + collTimeout s m) then s
    else
      let job := (s.unit m.u).cfg.job
      let mine := s.cmds.filter (fun c => c.kind == .coll && !c.sent && (s.unit c.u).cfg.job == job && lGroup c.blk == lGroup m.blk && lChunk c.blk == lChunk m.blk)
      let s := s.modCmd k (fun c => { c with tries := c.tries + 1, askedAt := s.cyc m.core })
      if m.tries + 1 = 16 then
        (((mine.map (fun c => dieOf c.core)).eraseDups).filter (fun d => d != dieOf m.core)).foldl (fun s d =>
          sendOrigin s job (dispNode s (dieOf m.core)) 2 { id := 0, kind := .engine, u := none, owner := .disp d }) s
      else if m.tries + 1 < 32 then s
      else mine.foldl (fun s c => fateCmd s c.id c.pc) s

def execTreeRebuild (m : Nat) (s : State) : Out := .next (rebuildTree s m)

end Sys2Proof.Machine
end

