-- ==== Sys2Proof/Machine/Exchange.lean ====
section
/-! DEFINITION. Exchanges within a crew: majors 0x1E to 0x20 (R305 to R308). -/

namespace Sys2Proof.Machine

/-- What a source lane supplies for register `r` (R305): its register in its own window, or zero where it holds no fibre. -/
def Ctx.supply (x : Ctx) (s : State) (l : Nat) (r : VReg) : Word :=
  if (((s.unit x.u).crew x.c).fibre l).isSome then x.rd s l r else 0

/-- A PICK with the source lane of lane `l` given by `src`; outside the crew the lane receives its own register (R306). -/
def pick (i : Instr) (d a : VReg) (src : Ctx → State → Nat → Option Nat) (s : State) : Out :=
  laneInstr i s (fun x s l => wr d (match src x s l with
    | some k => if k < 32 then x.supply s k a else x.rd s l a
    | none => x.rd s l a))

/-- PICK.AT (R306). -/
def execPickAt (d a b : VReg) (s : State) : Out :=
  pick (.pickAt d a b) d a (fun x s l => some ((x.rd s l b).toNat % 32)) s

/-- PICK.LEAD (R306). -/
def execPickLead (d a b : VReg) (s : State) : Out :=
  pick (.pickLead d a b) d a (fun x s _ => some ((x.rd s x.low b).toNat % 32)) s

/-- PICK.BACK (R306). -/
def execPickBack (d a b : VReg) (s : State) : Out :=
  pick (.pickBack d a b) d a (fun x s l => let n := (x.rd s l b).toNat; if l < n then none else some (l - n)) s

/-- PICK.FWD (R306). -/
def execPickFwd (d a b : VReg) (s : State) : Out :=
  pick (.pickFwd d a b) d a (fun x s l => some (l + (x.rd s l b).toNat)) s

/-- PICK.MIR (R306). -/
def execPickMir (d a b : VReg) (s : State) : Out :=
  pick (.pickMir d a b) d a (fun x s l => some (l ^^^ (x.rd s l b).toNat % 32)) s

/-- The place that element (l, c) comes from in stage `st` (R307). -/
def flySrc (st l c : Nat) : Nat × Nat :=
  if bits l st 1 != bits c st 1 then (l ^^^ 2 ^ st, c ^^^ 2 ^ st) else (l, c)

/-- Element `c` of a lane in an XBFLY mode (R307). -/
def flyElem (x : Ctx) (s : State) (m : XMode) (a : VReg) (l c : Nat) : Nat :=
  match m with
  | .bit => bits (x.supply s l a).toNat c 1
  | .half => bits (x.supply s l (a + BitVec.ofNat 7 (c / 2))).toNat (16 * (c % 2)) 16
  | .word => (x.supply s l (a + BitVec.ofNat 7 c)).toNat

/-- XBFLY (R307). -/
def execXbfly (st : BitVec 3) (m : XMode) (d a : VReg) (s : State) : Out :=
  laneInstr (.xbfly st m d a) s (fun x s l =>
    let el := fun c => let k := flySrc st.toNat l c; flyElem x s m a k.1 k.2
    match m with
    | .bit => wr d (BitVec.ofNat 32 ((List.range 32).foldl (fun n c => n + el c * 2 ^ c) 0))
    | .half => { regs := (List.range 16).map (fun j => (d.toNat + j, BitVec.ofNat 32 (el (2 * j) + el (2 * j + 1) * 65536))) }
    | .word => { regs := (List.range 32).map (fun c => (d.toNat + c, BitVec.ofNat 32 (el c))) })

/-- POLL.EVERY (R308). -/
def execPollEvery (d a : Nib) (s : State) : Out :=
  laneInstr (.pollEvery d a) s (fun x s _ => wp d ((lanesOf x.act).all (fun k => x.p s k a)))

/-- POLL.SOME (R308). -/
def execPollSome (d a : Nib) (s : State) : Out :=
  laneInstr (.pollSome d a) s (fun x s _ => wp d ((lanesOf x.act).any (fun k => x.p s k a)))

/-- POLL.MAP (R308). -/
def execPollMap (d : VReg) (a : Nib) (s : State) : Out :=
  laneInstr (.pollMap d a) s (fun x s _ => wr d (maskOf ((lanesOf x.act).filter (fun k => x.p s k a))))

/-- A register combined over the active lanes (R308). -/
def foldLanes (i : Instr) (d a : VReg) (f : Word → Word → Word) (s : State) : Out :=
  laneInstr i s (fun x s _ => wr d (((lanesOf x.act).drop 1).foldl (fun v k => f v (x.rd s k a)) (x.rd s x.low a)))

/-- FOLD.ADD (R308). -/
def execFoldAdd (d a : VReg) (s : State) : Out := foldLanes (.foldAdd d a) d a (fun v w => v + w) s

/-- FOLD.MINI (R308). -/
def execFoldMinI (d a : VReg) (s : State) : Out := foldLanes (.foldMinI d a) d a (fun v w => if w.toInt < v.toInt then w else v) s

/-- FOLD.MINN (R308). -/
def execFoldMinN (d a : VReg) (s : State) : Out := foldLanes (.foldMinN d a) d a (fun v w => if w.toNat < v.toNat then w else v) s

/-- FOLD.MAXI (R308). -/
def execFoldMaxI (d a : VReg) (s : State) : Out := foldLanes (.foldMaxI d a) d a (fun v w => if v.toInt < w.toInt then w else v) s

/-- FOLD.MAXN (R308). -/
def execFoldMaxN (d a : VReg) (s : State) : Out := foldLanes (.foldMaxN d a) d a (fun v w => if v.toNat < w.toNat then w else v) s

/-- FOLD.AND (R308). -/
def execFoldAnd (d a : VReg) (s : State) : Out := foldLanes (.foldAnd d a) d a (fun v w => v &&& w) s

/-- FOLD.OR (R308). -/
def execFoldOr (d a : VReg) (s : State) : Out := foldLanes (.foldOr d a) d a (fun v w => v ||| w) s

/-- FOLD.XOR (R308). -/
def execFoldXor (d a : VReg) (s : State) : Out := foldLanes (.foldXor d a) d a (fun v w => v ^^^ w) s

end Sys2Proof.Machine
end

