-- ==== Sys2Proof/Machine/Float.lean ====
section
/-! DEFINITION. Floating point and conversion: majors 0x18 to 0x1D (R294 to R304). -/

namespace Sys2Proof.Machine

/-- FADD (R294). -/
def execFadd (rm : Rm) (d a b : VReg) (s : State) : Out :=
  laneInstr (.fadd rm d a b) s (fun x s l => wrf d (fpAdd (x.round s l rm) (x.rd s l a) (x.rd s l b)))

/-- FSUB (R294). -/
def execFsub (rm : Rm) (d a b : VReg) (s : State) : Out :=
  laneInstr (.fsub rm d a b) s (fun x s l => wrf d (fpSub (x.round s l rm) (x.rd s l a) (x.rd s l b)))

/-- FMUL (R294). -/
def execFmul (rm : Rm) (d a b : VReg) (s : State) : Out :=
  laneInstr (.fmul rm d a b) s (fun x s l => wrf d (fpMul (x.round s l rm) (x.rd s l a) (x.rd s l b)))

/-- FMIN (R295). -/
def execFmin (d a b : VReg) (s : State) : Out :=
  laneInstr (.fmin d a b) s (fun x s l => wrf d (fpMin (x.rd s l a) (x.rd s l b)))

/-- FMAX (R295). -/
def execFmax (d a b : VReg) (s : State) : Out :=
  laneInstr (.fmax d a b) s (fun x s l => wrf d (fpMax (x.rd s l a) (x.rd s l b)))

/-- FFMA and its negated forms (R296). -/
def execFfma (np nc : Bool) (rm : Rm) (d a b : VReg) (s : State) : Out :=
  laneInstr (.ffma np nc rm d a b) s (fun x s l => wrf d (fpFma (x.round s l rm) np nc (x.rd s l a) (x.rd s l b) (x.rd s l d)))

/-- FRCP (R230, R297). -/
def execFrcp (rm : Rm) (d a : VReg) (s : State) : Out :=
  laneInstr (.frcp rm d a) s (fun x s l => wrf d (fpRcp (x.round s l rm) (x.rd s l a)))

/-- FRSQ (R230, R297). -/
def execFrsq (rm : Rm) (d a : VReg) (s : State) : Out :=
  laneInstr (.frsq rm d a) s (fun x s l => wrf d (fpRsq (x.round s l rm) (x.rd s l a)))

/-- FSQRT (R230, R297). -/
def execFsqrt (rm : Rm) (d a : VReg) (s : State) : Out :=
  laneInstr (.fsqrt rm d a) s (fun x s l => wrf d (fpSqrt (x.round s l rm) (x.rd s l a)))

/-- FEXP2 (R230, R297). -/
def execFexp2 (rm : Rm) (d a : VReg) (s : State) : Out :=
  laneInstr (.fexp2 rm d a) s (fun x s l => wrf d (fpExp2 (x.round s l rm) (x.rd s l a)))

/-- FLOG2 (R230, R297). -/
def execFlog2 (rm : Rm) (d a : VReg) (s : State) : Out :=
  laneInstr (.flog2 rm d a) s (fun x s l => wrf d (fpLog2 (x.round s l rm) (x.rd s l a)))

/-- FRINT (R298). -/
def execFrint (rm : Rm) (d a : VReg) (s : State) : Out :=
  laneInstr (.frint rm d a) s (fun x s l => wrf d (fpInt (x.round s l rm) (x.rd s l a)))

/-- FABS (R298). -/
def execFabs (d a : VReg) (s : State) : Out :=
  laneInstr (.fabs d a) s (fun x s l => wrf d (fpSign (x.rd s l a) (x.rd s l a &&& 0x7FFFFFFF)))

/-- FNEG (R298). -/
def execFneg (d a : VReg) (s : State) : Out :=
  laneInstr (.fneg d a) s (fun x s l => wrf d (fpSign (x.rd s l a) (x.rd s l a ^^^ 0x80000000)))

/-- FFLOOR (R298). -/
def execFfloor (d a : VReg) (s : State) : Out :=
  laneInstr (.ffloor d a) s (fun x s l => wrf d (fpInt .rdn (x.rd s l a)))

/-- FCEIL (R298). -/
def execFceil (d a : VReg) (s : State) : Out :=
  laneInstr (.fceil d a) s (fun x s l => wrf d (fpInt .rup (x.rd s l a)))

/-- FCLASS (R299). -/
def execFclass (d a : VReg) (s : State) : Out := laneInstr (.fclass d a) s (fun x s l => wr d (fpClass (x.rd s l a)))

/-- FCMP (R300). -/
def execFcmp (c : FCond) (p : Nib) (a b : VReg) (s : State) : Out :=
  laneInstr (.fcmp c p a b) s (fun x s l => let r := fpCmp c (x.rd s l a) (x.rd s l b); { preds := [(p, r.1)], flags := r.2 })

/-- CVT (R301, R302): between integer formats RM holds the overflow modifier, 1 for `.s`. -/
def execCvt (src dst : Fmt) (inf : Bool) (rm : Rm) (d a : VReg) (s : State) : Out :=
  laneInstr (.cvt src dst inf rm d a) s (fun x s l => wrf d (cvtVal src dst inf (x.round s l rm) (rm == .rtz) (x.rd s l a)))

/-- The effect of CVT.S in a lane (R242, R243, R304). -/
def cvtSLane (dst : SFmt) (inf fpm : Bool) (d a : VReg) (k : Nat) (rm : BitVec 2) (x : Ctx) (s : State) (l : Nat) : LaneFx :=
  let r := if fpm then x.round s l .fpm else roundOf rm
  let y := cvtS (x.rd s l a) (x.rd s l (BitVec.ofNat 7 k)) (x.rd s l (BitVec.ofNat 7 (k + 1))) dst r inf (x.fibre s l).amax
  { regs := [(d.toNat, y.res)], flags := y.flags, amax := some y.amax, sats := if y.sat then 1 else 0 }

/-- CVT.S (R304). -/
def execCvtS (dst : SFmt) (inf fpm : Bool) (d a : VReg) (sc : BitVec 5) (rm : BitVec 2) (s : State) : Out :=
  let i := Instr.cvtS dst inf fpm d a sc rm
  laneInstr i s (fun x s l => cvtSLane dst inf fpm d a (scaleReg s x sc) rm x s l)

end Sys2Proof.Machine
end

