-- ==== Sys2Proof/Machine/Frames.lean ====
section
/-! DEFINITION. Frame engines (R374, R400 to R403): the pipeline record, the picture that comes out of it, and FRAME_DECODE. What a codec makes
of its bytes is outside the spec: `Config.sample` and `Config.pictureShape`. -/

namespace Sys2Proof.Machine

/-- One picture's samples, by plane, row and column; and width, height and depth of its luma. -/
structure Picture where
  at_ : Nat → Int → Int → Nat
  w : Nat
  h : Nat
  depth : Nat

/-- A sample with the edges of the decoded picture repeated (R402). -/
def Picture.sample (p : Picture) (c : Nat) (y x : Int) : Nat :=
  let w : Int := if c = 0 then p.w else ((p.w + 1) / 2 : Nat)
  let h : Int := if c = 0 then p.h else ((p.h + 1) / 2 : Nat)
  p.at_ c (max 0 (min y (h - 1))) (max 0 (min x (w - 1)))

/-- One pass of the resizer for output position `x` of `nout`, over `nin` input positions (R402). `coef f t`: the coefficient of a phase and a tap. -/
def resizeAt (coef : Nat → Nat → Int) (taps nin nout depth : Nat) (f : Int → Nat) (x : Nat) : Nat :=
  let step := nin * 2 ^ 16 / nout
  let p2 : Int := ((2 * x + 1) * step : Nat) - (2 ^ 16 : Nat)
  let i := p2 / (2 ^ 17 : Nat)
  let ph := ((p2 % (2 ^ 17 : Nat)) / (2 ^ 11 : Nat)).toNat
  let acc := (List.range taps).foldl (fun (a : Int) t => a + coef ph t * (f (i - (taps / 2 : Nat) + 1 + (t : Nat)) : Int)) 0
  (max 0 (min ((acc + (2 ^ 13 : Nat)) / (2 ^ 14 : Nat)) ((2 ^ depth : Nat) - 1 : Int))).toNat

/-- A coefficient of the table: luma, or chroma (R401). -/
def coefOf (tab : List Byte) (c f t : Nat) : Int :=
  let o := if c = 0 then 16 * f + 2 * t else 1024 + 8 * f + 2 * t
  sext 16 (leNat ((tab.drop o).take 2))

/-- The sample of a channel at an output position: cropped, and resized where the record says so (R402). -/
def channelAt (r : Nat) (tab : List Byte) (p : Picture) (c y x : Nat) : Nat :=
  let half := fun (n : Nat) => if c = 0 then n else n / 2
  let cx := half (rB r 4 2); let cy := half (rB r 6 2); let cw := half (rB r 8 2); let ch := half (rB r 10 2)
  if rResize r then
    let taps := if c = 0 then 8 else 4
    let row := fun (j : Int) => resizeAt (coefOf tab c) taps cw (rB r 12 2) p.depth (fun i => p.sample c ((cy : Int) + j) ((cx : Int) + i)) x
    resizeAt (coefOf tab c) taps ch (rB r 14 2) p.depth row y
  else p.sample c ((cy : Int) + (half y : Nat)) ((cx : Int) + (half x : Nat))

/-- Output channel `k` at a position, rounded once to the output format (R402). -/
def outputAt (r : Nat) (tab : List Byte) (p : Picture) (k y x : Nat) : Nat :=
  let f := if rB r 1 1 % 2 = 0 then fBF16 else fE4M3
  let s := fun (c : Nat) => Num.fin false (channelAt r tab p c y x) 0
  let v := if rMatrix r then
      (List.range 3).foldl (fun (a : Num) c => a.add .rne ((f32 (BitVec.ofNat 32 (rB r (0x20 + 12 * k + 4 * c) 4))).mul (s c)))
        (f32 (BitVec.ofNat 32 (rB r (0x44 + 4 * k) 4)))
    else s k
  (toFloatFmt f .rne false v).1

/-- The bytes of those rows, in the same order. -/
def frameRows (r : Nat) (tab : List Byte) (p : Picture) : List (List Byte) :=
  let w := rB r 12 2; let h := rB r 14 2; let o := rB r 1 1
  (List.range 3).flatMap (fun (c : Nat) => (List.range h).flatMap (fun (y : Nat) =>
    if o < 2 then [(List.range w).flatMap (fun x => leBytes (outputAt r tab p c y x) (if o = 0 then 2 else 1))]
    else (List.range (w / 128)).map (fun b =>
      (pfmtPlanes (if o = 2 then .bf16 else .e4m3)).pack (fun n => outputAt r tab p c y (128 * b + n)))))

/-- The slot of a frame command: of the two engines of its core's die (Table 15-7). -/
def slotKey (m : Cmd) : Nat := 16 * dieOf m.core + fSlot m.blk

/-- The command is the next that its slot's engine decodes (R374). -/
def frameNext (s : State) (m : Cmd) : Bool :=
  m.kind == .frame && m.gate == 0 && !m.sent &&
  s.cmds.all (fun d => d.kind != .frame || d.sent || d.gate == 3 || slotKey d != slotKey m || decide (m.id ≤ d.id))

/-- The result word goes to PRM + 0xF0 (R373). (DESIGN CHOICE, log entry 15.) -/
def resultPart (s : State) (m : Cmd) (result : Nat) : State :=
  let a := fPrm m.blk + 0xF0
  let cells : SMap Nat := ((List.range 4).zip (leBytes result 4)).map (fun e => (a + e.1, 1 + e.2.toNat))
  let s := sendPart s m (partOf s m .glob m.u 0xFFFE .part cells)
  s.modCmd m.id (fun c => { c with sent := true })

/-- The access units that the slot of a command has taken, oldest first. -/
def slotPast (s : State) (m : Cmd) : List (List Byte) := ((s.slots.find? (fun e => e.1 = slotKey m)).map Prod.snd).getD []

/-- The picture of an access unit: 8 bits deep where the codec is H.264, else 8 or 10 (R400, R402). -/
def pictureOf (codec : Nat) (bytes : List Byte) (past : List (List Byte)) : Picture :=
  let shape := Config.pictureShape codec bytes past
  let depth := if codec = 0 ∨ shape.2.2 % 2 = 0 then 8 else 10
  { at_ := fun c y x => Config.sample codec bytes past c y.toNat x.toNat % 2 ^ depth, w := shape.1, h := shape.2.1, depth := depth }

/-- FRAME_DECODE (R374): with the record read at the start, the coded data and the coefficients are read, the picture goes out by granules, then the result
word; the result follows from the codec, the bytes and the slot, and a decode that is to end with another, `named`, does not take place. (DESIGN CHOICE,
log entry 15.) -/
def decodeFrame (s0 : State) (m : Cmd) (named : Nat) : State :=
  let b := m.blk
  let tail := m.block.drop 8
  let r := wordsNat (tail.take 60)
  if !recordOk r then failCmd s0 m.id cILLEGAL 8 m.pc
  else match fetchSource s0 m .glob [(baseOf (bSrc b), fSlen b), (rB r 16 8, 1536)] with
  | some s => s
  | none => match rangeBytes s0 m .glob (bSrc b) (fSlen b) with
  | (s, .error f) => failCmd s m.id f.1.1 f.1.2 f.2
  | (s, .ok src) => match rangeBytes s m .glob (rB r 16 8) 1536 with
  | (s, .error f) => failCmd s m.id f.1.1 f.1.2 f.2
  | (s, .ok tab) =>
    let rows := frameExtent r (bDst b)
    if 65534 < spanOf (granulesOf (spaceOf (bDst b)) rows) then failCmd s m.id cILLEGAL 8 m.pc
    else
      let bytes := src.map Prod.fst
      let past := slotPast s m
      let result := Config.frameResult (rB r 0 1) bytes past % 4
      let s : State := { s with slots := s.slots.filter (fun e => e.1 != slotKey m) ++ [(slotKey m, past ++ [bytes])] }
      if result != named then s0
      else if 2 ≤ result then resultPart s m result
      else
        let bad := (src ++ tab).any Prod.snd || tail.getD 60 0 != 0
        let out := (rows.map Prod.fst).zip ((frameRows r (tab.map Prod.fst) (pictureOf (rB r 0 1) bytes past)).map (fun l => l.map (fun y => (y, bad))))
        let s := sendRows s m (bDst b) .part out
        if (s.cmd? m.id).isNone then s else resultPart s m result

/-- The decode of a command that its slot's engine takes next. -/
def frameTurn (s : State) (m named : Nat) : State :=
  match s.cmd? m with
  | some c => if frameNext s c && (s.node (s.unit c.u).cfg.node).doom == 0 then decodeFrame s c named else s
  | none => s

/-- FRAME_DECODE, with the result that it ends with. -/
def execFrameDecode (m result : Nat) (s : State) : Out := .next (frameTurn s m result)

end Sys2Proof.Machine
end

