-- ==== Sys2Proof/Machine/Loops.lean ====
section
/-! DEFINITION. REPT and the stream registers: majors 0x08 and 0x09 (R309 to R317). The reads of bound streams stand in Issue.lean, the end of
a pass in Crews.lean. -/

namespace Sys2Proof.Machine

/-- The header that follows a clause whose header stands at `pc`: that address itself where no header can be read there, so that starting the
clause reports what stands there (R248, R34). -/
def afterBody (s : State) (u : Nat) (handler : Bool) (pc : Addr) : Addr :=
  match fetchWord s u handler pc with
  | .error _ => pc
  | .ok w => if isMarker w then pcAdd pc (BitVec.ofNat 32 (4 * (hdrN w + 2))) else pc

/-- REPT (R309 to R312): the pass count comes from the lowest active lane, the lanes that are not active split off to the body header. -/
def execRept (cr : VReg) (id ia ib iacc : BitVec 2) (ar : VReg) (ae : Bool) (s : State) : Out :=
  let i := Instr.rept cr id ia ib iacc ar ae
  withIssue i s (fun x ts s =>
    let n := (x.rd s x.low cr).toNat
    if 255 < n then finish x i (trapAll x.act x.ent.pc (cILLEGAL, 7)) s
    else
      let s := parkOnly x ts s
      let body := x.ent.after
      let s := if n = 0 then fetchReads s x.u x.ent.handler body.pc else s
      let rest := x.ent.mask &&& ~~~x.act
      let here : Entry := { body with mask := x.act, pc := if n = 0 then afterBody s x.u x.ent.handler body.pc else body.pc }
      s.modCrew x.u x.c (fun y =>
        let y := { y with
          loops := if n = 0 then y.loops
            else (lanesOf x.act).foldl (fun m l => SMap.set 0 m l (BitVec.ofNat 16 (n * 256))) y.loops
          split := y.split.set x.e here }
        if rest = 0 then mergeAt y x.e
        else settle (mergeAll { y with split := placeEntry y.split { body with mask := rest } })))

/-- STRM binds a stream register of the crew (R313). -/
def execStrm (sr : BitVec 2) (dr : VReg) (dims esz : BitVec 2) (s : State) : Out :=
  withIssue (.strm sr dr dims esz) s (fun x ts s =>
    finish x (.strm sr dr dims esz) ts (s.modCrew x.u x.c (fun y => { y with
      streams := y.streams.set sr.toNat { bound := true, dr := dr, dims := dims, esz := esz } })))

/-- STRM.OFF unbinds it (R313). -/
def execStrmOff (sr : BitVec 2) (s : State) : Out :=
  withIssue (.strmOff sr) s (fun x ts s =>
    finish x (.strmOff sr) ts (s.modCrew x.u x.c (fun y => { y with streams := y.streams.set sr.toNat {} })))

end Sys2Proof.Machine
end

