-- ==== Sys2Proof/Machine/Work.lean ====
section
/-! DEFINITION. Work instructions: POST, CANCEL, CNT.RD and STEP.ADV (R281 to R285). -/

namespace Sys2Proof.Machine

/-- A POST target that names a die of this device, or of a device that the chart holds (R282). -/
def targetOk (s : State) (t : Nat) : Bool :=
  t / 2 ^ 17 == 0 && (if t.testBit 16 then s.chart.contains (bits t 4 12) else bits t 4 12 == 0)

/-- The register of a lane written at once. -/
def setNow (x : Ctx) (l : Nat) (d : VReg) (v : Word) (s : State) : LaneDo := .go (s.setRegs x.u x.c l (x.dst s l [d.toNat]) [v])

/-- Where every lane had its result at once, a register line written whole is sound (R72). -/
def wroteNow (x : Ctx) (i : Instr) (n : Nat) (r : State × List Trap) : State :=
  if r.2 = [] && r.1.ops.length == n then wroteRegs x i r.1 else r.1

/-- What POST waits for: a release at `.h7` where some lane sends a card (R282). -/
def prePost (b : VReg) (x : Ctx) (s : State) : Option State :=
    if (lanesOf x.act).any (fun l => targetOk s (x.rd s l b).toNat) || streamsOf s x (.post b b b) != [] then preRelease 7 x s else none

/-- One lane of POST. -/
def postLane (d a b : VReg) (x : Ctx) (s : State) (l : Nat) : LaneDo :=
  let va := x.pair s l a
  let t := (x.rd s l b).toNat
  if va.toNat % 64 != 0 then .trap ⟨l, cALIGN, 0, va⟩
  else if bits va.toNat 56 4 != 0 then .trap ⟨l, cXLATE, 0, va⟩
  else if !targetOk s t then setNow x l d 0xFFFFFFFF s
  else drawing x s l (fun s =>
    .go (s.post { x.op s (.post d a b) l (.post (t % 16)) with
      owner := if t.testBit 16 then .remote (bits t 4 12) else .disp (t % 16)
      va := va, size := 0, data := leBytes va.toNat 8 ++ leBytes t 4, dst := x.dst s l [d.toNat] }))

/-- POST (R281, R282). -/
def execPost (d a b : VReg) (s : State) : Out :=
  withIssueE (.post d a b) s (prePost b) (fun x ts s => (eachLane x (postLane d a b x) s).map (fun r =>
    finishSent x (.post d a b) s.ops.length (ts ++ r.2) (wroteNow x (.post d a b) s.ops.length r)))

/-- One lane of CANCEL. -/
def cancelLane (d a : VReg) (level : BitVec 2) (x : Ctx) (s : State) (l : Nat) : LaneDo :=
  let v := (x.rd s l a).toNat
  if badIdent level.toNat v (s.unit x.u).cfg.job then setNow x l d 0xFFFFFFFF s
  else drawing x s l (fun s =>
    .go (s.post { x.op s (.cancel d a level) l (.cancel level.toNat) with owner := .disp 0, loc := v, size := 0, dst := x.dst s l [d.toNat] }))

/-- CANCEL (R283). -/
def execCancel (d a : VReg) (level : BitVec 2) (s : State) : Out :=
  withIssueE (.cancel d a level) s (fun _ _ => none) (fun x ts s =>
    (eachLane x (cancelLane d a level x) s).map (fun r => finishSent x (.cancel d a level) s.ops.length (ts ++ r.2) (wroteNow x (.cancel d a level) s.ops.length r)))

/-- One lane of CNT.RD: a read at the holder of the counter. -/
def cntLane (d a : VReg) (level : BitVec 2) (x : Ctx) (s : State) (l : Nat) : LaneDo :=
  let v := (x.rd s l a).toNat
  let job := (s.unit x.u).cfg.job
  if badIdent level.toNat v job then setNow x l d 0xFFFFFFFE s
  else
    let die := if level = 0 then (match s.nodeOf job v with | some k => (s.node k).home | none => 0) else 0
    if !s.logRoom x.u then .wait id else .go (s.send { x.op s (.cntRd d a level) l (.cntRd level.toNat) with owner := .disp die, loc := v, size := 0, dst := x.dst s l [d.toNat] })

/-- CNT.RD (R284). -/
def execCntRd (d a : VReg) (level : BitVec 2) (s : State) : Out :=
  withIssueE (.cntRd d a level) s (fun _ _ => none) (fun x ts s =>
    (eachLane x (cntLane d a level x) s).map (fun r => finishSent x (.cntRd d a level) s.ops.length (ts ++ r.2) (wroteNow x (.cntRd d a level) s.ops.length r)))

/-- STEP.ADV (R285): one operation, for the lowest active lane; the entry waits for it. -/
def execStepAdv (s : State) : Out :=
  withIssueE .stepAdv s (preRelease 7) (fun x ts s =>
    match masterLane .stepAdv .stepAdv x s x.low with
    | .trap t => .ok (finish x .stepAdv (ts ++ [t]) s)
    | .trapIn s t => .ok (finish x .stepAdv (ts ++ [t]) s)
    | .wait f => .error f
    | .go s1 => .ok (finishSent x .stepAdv s.ops.length ts s1))

end Sys2Proof.Machine
end

