-- ==== Sys2Proof/Machine/Schedule.lean ====
section
/-! DEFINITION. Crews as their core runs them: choosing an entry, starting a clause, fetching an instruction (R178, R190, R246, R248, R311), swaps
(R219, R220), the lock (R197 to R199), and the completion of waits: UNIT.SYNC, GANG.SYNC, counted barriers and MWAIT (R156, R332, R335, R336). -/

namespace Sys2Proof.Machine

-- choosing and fetching ----------------------------------------------------------------------------------------------

/-- A serial crew's next lane exists (R190). -/
def serialReady (x : Crew) : Bool :=
  (List.range 32).any (fun l => let w := x.tab.getD l {}; w.lst == .runnable || (w.lst == .parked && !w.held))

/-- The crew has something to run: a chosen entry, or one to choose. -/
def Crew.canRun (x : Crew) : Bool :=
  x.chosen.isSome || (if x.serial then serialReady x else (chooseEntry x.split).isSome)

/-- The crew chooses where nothing is chosen (R178, R190). -/
def choose (s : State) (u c : Nat) : State :=
  let x := (s.unit u).crew c
  match x.chosen with
  | some _ => s
  | none => if x.serial then serialChoose s u c else s.modCrew u c (fun y => { y with chosen := chooseEntry y.split })

/-- A runnable lane of a serial crew stands at a header or directly after a WAIT (R193). -/
def laneQuiet (s : State) (u : Nat) (w : LaneWord) : Bool :=
  !(openAt s u w.handler w.pc 1).started ||
  (match fetchWord s u w.handler (pcAdd w.pc 0xFFFFFFFC) with
   | .ok v => (match decodeWord v with | .ok (.wait _) => true | _ => false)
   | .error _ => false)

/-- A crew stands where it can be saved (R193): no trap waits for serial mode, and in serial mode no clause is partly executed in a runnable lane, and the
running lane is not in handler mode. -/
def crewQuiet (s : State) (u c : Nat) : Bool :=
  let x := (s.unit u).crew c
  decide (x.split.length ≤ 8) &&
  (!x.serial || ((List.range 32).all (fun l => let w := x.word l; w.lst != .runnable || laneQuiet s u w) &&
    !(x.chosen.isSome && (x.word x.slane).handler)))

/-- Every crew of a unit stands so. -/
def crewsQuiet (s : State) (u : Nat) : Bool := (List.range (s.unit u).crews.length).all (crewQuiet s u)

/-- The unit is asked to leave its core, by pre-emption or by a cancel (R222, R380). -/
def UnitSt.leaving (y : UnitSt) : Bool := y.preempting || y.stopping

/-- The crew has stopped for that. Crews of a deterministic unit go on to the next UNIT.SYNC (R160). -/
def crewStopped (s : State) (u c : Nat) : Bool := (s.unit u).leaving && !(s.unit u).cfg.det && crewQuiet s u c

/-- The crew may take a turn: its unit is resident, goes on, and it is one of the core's active crews. -/
def mayRun (s : State) (u c : Nat) : Bool :=
  let x := s.unit u
  decide (u < s.units.length ∧ c < x.crews.length) && x.core.isSome && !x.cancelled && (s.node x.cfg.node).doom == 0 && (x.crew c).active &&
  (x.crew c).canRun && !crewStopped s u c

/-- What the fetch of an entry's next instruction word yields. -/
inductive Fetched | fault (w : Why) | wrong (cause : BitVec 4) (word : Word) | ok (i : Instr)

/-- A word as it stands in a REPT body, its fields stepped for the pass (Table 13-7). -/
def stepped (s : State) (u c : Nat) (en : Entry) (i : Instr) (w : Word) : Option Word :=
  if bodyOf s u c en then
    match reptOf s u en.handler en.header with
    | some (.rept _ d a b acc _ _) => stepWord i w (((s.unit u).crew c).loopK (lowLane en.mask)) (stepOf d) (stepOf a) (stepOf b) (stepOf acc)
    | _ => some w
  else some w

/-- Fetch and decode the instruction that an entry stands at (R34, R245): checks 1 to 5 of Table 11-15, those from check 4 on with the fields that the pass
steps. -/
def fetchAt (s : State) (u c : Nat) (en : Entry) : Fetched :=
  match fetchWord s u en.handler en.pc with
  | .error w => .fault w
  | .ok w =>
    if isMarker w then .wrong 6 w
    else match rawOf w with
      | none => .wrong 0 w
      | some r =>
        if !(r.res && r.i.resOk) then .wrong 1 w
        else match stepped s u c en r.i w with
          | none => .wrong 2 w
          | some w' => match decodeWord w' with
            | .error b => .wrong b.cause w
            | .ok i => .ok i

-- starting a clause --------------------------------------------------------------------------------------------------

/-- The fault of a word at a clause start (R34, R248). -/
def headerFault (s : State) (u : Nat) (en : Entry) : Except Why Word :=
  match fetchWord s u en.handler en.pc with
  | .error w => .error w
  | .ok w =>
    if !isMarker w then .error (cHEADER, 0)
    else if decide (12 ≤ bits w.toNat 13 4 ∧ bits w.toNat 13 4 ≤ 14) then .error (cHEADER, 1)
    else if decide (12 ≤ bits w.toNat 9 4 ∧ bits w.toNat 9 4 ≤ 14) then .error (cHEADER, 2)
    else .ok w

/-- The flags that a header's W names. -/
def waitFlags (w : Word) : List Nat := (List.range 12).filter (fun k => w.getLsbD (17 + k))

/-- An entry begins the clause at its header: it waits for the flags of W, and lanes with a trap that waits for one of them park, once nothing but operations of
unknown fate keeps the flags busy (R121, R122, R246). -/
def startClause (s : State) (u c e : Nat) : State :=
  let en := ((s.unit u).crew c).entry e
  let s := fetchReads s u en.handler en.pc
  match headerFault s u en with
  | .error w => parkEntry s u c e (trapAll en.mask en.pc w)
  | .ok w =>
    let ks := waitFlags w
    if ks.any (flagDue s u c) then s
    else
      let x : Ctx := { u := u, c := c, e := e, ent := en, act := en.mask }
      let due := fun (p : Pend) => match p.flag with | some k => ks.contains k | none => false
      match pendOf s x en.mask due with
      | t :: ts => parkHere x (t :: ts) (dropPend s x en.mask due)
      | [] =>
        if ks.any (flagBusy s u c) then s
        else s.modEntry u c e (fun y => { y with started := true, idx := 0, llDone := false, hdr := w, stale := false, pc := pcAdd y.pc 4 })

/-- A resumed entry whose header could not be read then reads it again (R56): its fault, and the state after the read. -/
def freshen (s : State) (u c e : Nat) : Option Why × State :=
  let en := ((s.unit u).crew c).entry e
  if !en.stale then (none, s)
  else
    let s := fetchReads s u en.handler en.header
    match fetchWord s u en.handler en.header with
    | .error w => (some w, s)
    | .ok h => (none, s.modEntry u c e (fun y => { y with hdr := h, stale := false }))

/-- The entry stands at the header of a body that its lanes have passes of (R311). -/
def atBody (s : State) (u c : Nat) (en : Entry) : Bool := bodyOf s u c { en with pc := pcAdd en.pc 4, idx := 0 }

/-- A turn of a crew whose entry stands at a header; `body`: only where it begins a pass of a loop. -/
def headerTurn (s : State) (u c : Nat) (body : Bool) : State :=
  if !mayRun s u c then s
  else
    let s' := choose s u c
    match ((s'.unit u).crew c).chosen with
    | none => s'
    | some e =>
      let en := ((s'.unit u).crew c).entry e
      if en.started || atBody s' u c en != body then s else startClause s' u c e

/-- CLAUSE_START (R246). -/
def execClauseStart (u c : Nat) (s : State) : Out := .next (headerTurn s u c false)
/-- REPT_PASS (R311): a pass begins as a clause does. -/
def execReptPass (u c : Nat) (s : State) : Out := .next (headerTurn s u c true)

-- swaps (R219, R220) -------------------------------------------------------------------------------------------------

/-- The crew waits: it has nothing to run, or its next instruction waits for a flag, for a register of an operation in flight, or for a row. -/
def crewWaits (s : State) (u c : Nat) : Bool :=
  let x := (s.unit u).crew c
  if !x.canRun then true
  else
    let s := choose s u c
    match ((s.unit u).crew c).chosen with
    | none => true
    | some e =>
      let en := ((s.unit u).crew c).entry e
      if !en.started then (match headerFault s u en with | .ok w => (waitFlags w).any (flagBusy s u c) | .error _ => false)
      else if en.hold != [] then true
      else match fetchAt s u c en with
        | .ok i =>
          let cx := ({ s with cur := (u, c, e) } : State).ctx
          scoreboard s cx i || rowsAre s u (readRows s cx i) (walkRows s cx i ++ destRows s cx i) == .absent
        | _ => false

/-- The crew is one of the core's active crews, of at most 8, or waits to be one. -/
def crewReady (s : State) (u c : Nat) : Bool := !((s.unit u).crew c).active && !crewWaits s u c

/-- The crew that a swap takes for a crew of unit `u` (R220). -/
def swapChoice (s : State) (k u : Nat) : Option (Nat × Nat) :=
  let ready := (coreCrews s k).filter (fun p => crewReady s p.1 p.2)
  let due := ready.filter (fun p => decide (8 ≤ ((s.unit p.1).crew p.2).passed))
  if due != [] then longest s due
  else match longest s (ready.filter (fun p => p.1 == u)) with
    | some p => some p
    | none => longest s ready

/-- One crew gives its place to another. -/
def swapCrews (s : State) (k u c u' c' : Nat) : State :=
  let others := (coreCrews s k).filter (fun p => crewReady s p.1 p.2 && p != (u', c'))
  let s := others.foldl (fun s p => s.modCrew p.1 p.2 (fun y => { y with passed := y.passed + 1 })) s
  (s.modCrew u c (fun y => { y with active := false, since := s.now, passed := 0 })).modCrew u' c'
    (fun y => { y with active := true, since := s.now, passed := 0 })

/-- CREW_SWAP (R220). -/
def execCrewSwap (u c u' c' : Nat) (s : State) : Out :=
  .next (match (s.unit u).core with
    | none => s
    | some k => if ((s.unit u).crew c).active && crewWaits s u c && swapChoice s k u == some (u', c') then swapCrews s k u c u' c' else s)

/-- FORCED_SWAP (R220): a ready pending crew that has waited 65,536 cycles displaces the crew that has been active longest. -/
def execForcedSwap (u c u' c' : Nat) (s : State) : Out :=
  .next (match (s.unit u).core with
    | none => s
    | some k =>
      let active := (coreCrews s k).filter (fun p => ((s.unit p.1).crew p.2).active)
      if longest s active == some (u, c) && (coreCrews s k).contains (u', c') && crewReady s u' c' &&
         decide (((s.unit u').crew c').since + 65536 ≤ s.now) then swapCrews s k u c u' c' else s)

-- the lock (R197 to R199) --------------------------------------------------------------------------------------------

/-- The register lines of a crew slot are discarded: dropped from the pool without write-back, and their presence bits cleared (R59, R197). -/
def clearCrewRows (s : State) (u c : Nat) : State :=
  let mine := fun (row : Nat) => decide (row < 32768 ∧ row / 1024 = c)
  let s : State := { s with mem := Memory.writeN s.mem (bitPlace (s.unit u) (1024 * c)) (List.replicate 128 0) }
  s.modUnit u (fun y => { y with
    regs := y.regs.filter (fun e => decide (e.1 / 32768 ≠ c))
    rows := y.rows.filter (fun e => !mine e.1) })

/-- The lines of a basin slot that hold something: its header, and its live registers. -/
def liveRows (k : Nat) (b : BasinSlot) : List Nat := (slotRows k).take (1 + (b.live + 31) / 32)

/-- The lock reads basin slots (R197): their lines come in and decode. Where one of them is poisoned the unit's node has consumed poison. -/
def readSlots (s : State) (u : Nat) (bs : List (Nat × BasinSlot)) : Bool × State :=
  let rows := bs.flatMap (fun b => liveRows b.1 b.2)
  let s := rows.foldl (fun s r => touchRow (fetchRow s u r) u r) s
  if rows.any (fun r => ((s.unit u).row r).poison) then (false, consumePoison s (s.unit u).cfg.node) else (true, s)

/-- A crew of these basin slots stands in crew slot `c` (R197). -/
def formCrew (s : State) (u c : Nat) (bs : List (Nat × BasinSlot)) : State :=
  match readSlots s u bs with
  | (false, s) => s
  | (true, s) =>
    let bs := (bs.map (fun b => (b.1, slotAt s u b.1))).mergeSort (fun a b => a.2.fibre ≤ b.2.fibre)
    let m := maskOf (List.range bs.length)
    let s := clearCrewRows s u c
    let s := s.modUnit u (fun y => { y with
      crews := y.crews.set c {
        split := { pc := (bs.map (fun b => b.2.pc)).headD 0, mask := m, status := .runnable } :: List.replicate 7 {}
        lanes := (List.range 32).map (fun l => (bs[l]?).map (fun b => b.2.fibre))
        active := false, since := s.now } })
    let s := landRegs s u c (((List.range bs.length).zip bs).flatMap (fun e => (List.range e.2.2.live).map (fun r => (r, e.1, e.2.2.regs.getD r 0)))) []
    bs.foldl (fun s b => (freeSlot s u b.1).modFib u b.2.fibre (fun f => { f with pred := b.2.pred, wb := 0, serial := b.2.serial, inBasin := false })) s

/-- Free crew slots among those that a unit reserves, ascending. -/
def freeCrewSlots (y : UnitSt) : List Nat := (List.range (min y.crews.length ((y.cfg.fibres + 31) / 32))).filter (fun c => !(y.crew c).populated)

/-- What stands in the basin of a unit. -/
def basin (s : State) (u : Nat) : List (Nat × BasinSlot) := (usedSlots s u).map (fun k => (k, slotAt s u k))

/-- The PCs at which fibres wait in the basin, ascending. -/
def basinPcs (b : List (Nat × BasinSlot)) : List Nat := ((b.map (fun e => e.2.pc.toNat)).eraseDups).mergeSort (fun a b => a ≤ b)

/-- The fibres that wait at a PC, in ascending index. -/
def waitingAt (b : List (Nat × BasinSlot)) (pc : Nat) : List (Nat × BasinSlot) :=
  (b.filter (fun e => e.2.pc.toNat == pc)).mergeSort (fun a b => a.2.fibre ≤ b.2.fibre)

/-- The PC at which the lock of a launch that is not deterministic releases a crew (R198). -/
def lockPc (y : UnitSt) (b : List (Nat × BasinSlot)) : Option Nat :=
  match (basinPcs b).find? (fun p => decide (32 ≤ (waitingAt b p).length)) with
  | some p => some p
  | none =>
    if y.crews.any (fun x => x.populated && (x.canRun || x.split.any (fun e => e.status == .runnable))) then none
    else (basinPcs b).foldl (fun a p => match a with
      | none => some p
      | some q => if (waitingAt b q).length < (waitingAt b p).length then some p else some q) none

/-- The crews of a deterministic launch, in the order of R199. -/
def detCrews (b : List (Nat × BasinSlot)) : List (List (Nat × BasinSlot)) :=
  (basinPcs b).flatMap (fun p => let w := waitingAt b p; (List.range ((w.length + 31) / 32)).map (fun k => (w.drop (32 * k)).take 32))

/-- LOCK_FORM_CREW (R197 to R199). -/
def lockTurn (s : State) (u : Nat) : State :=
  let y := s.unit u
  match y.core with
  | none => s
  | some k =>
    let b := basin s u
    if y.cancelled || (y.leaving && !y.cfg.det) || (s.node y.cfg.node).doom != 0 || b = [] then s
    else if y.cfg.det then
      if y.crews.any (fun x => x.populated) then s
      else fillActive (((freeCrewSlots y).zip (detCrews b)).foldl (fun s e => formCrew s u e.1 e.2) s) k 8
    else match lockPc y b, freeCrewSlots y with
      | some p, c :: _ => fillActive (formCrew s u c ((waitingAt b p).take 32)) k 8
      | _, _ => s

def execLockFormCrew (u : Nat) (s : State) : Out := .next (lockTurn s u)

-- deferred reductions (R131) -----------------------------------------------------------------------------------------

/-- A held reduction is applied to its target in unit `v`; a poisoned target takes nothing, and the node consumes poison (R72). -/
def applyStaged (s : State) (u v : Nat) (e : Staged) : State :=
  let off := e.target.toNat % 2 ^ 21
  match decodeWord e.word with
  | .ok (.red _ _ _ op ty sat _ _) =>
    let (s, old) := readScr s v off 4
    if scrPoisoned s v off 4 then consumePoison s (s.unit u).cfg.node
    else landScr s v off ((List.range 4).zip (leBytes (rmwVal op ty sat (BitVec.ofNat 32 (leNat old)) e.value).1.toNat 4)) []
  | _ => s

/-- Entries in ascending fibre index and, within a fibre, in order of issue. -/
def byFibre (l : List Staged) : List Staged := l.mergeSort (fun a b => a.fibre ≤ b.fibre)

/-- The own-scratchpad reductions of a unit are applied (R131). -/
def applyOwn (s : State) (u : Nat) : State :=
  let s' := (byFibre ((s.unit u).staging.filter Staged.own)).foldl (fun s e => applyStaged s u u e) s
  s'.modUnit u (fun y => { y with staging := y.staging.filter (fun e => !e.own) })

/-- The members of a unit's gang, ascending, on its side of a redundant pair. -/
def gangOf (s : State) (u : Nat) : List Nat := (List.range (s.unit u).cfg.gsize).filterMap (gangUnit s u)

/-- Every held gang-window reduction of a gang is applied, own ones included (R131). -/
def applyGang (s : State) (g : List Nat) : State :=
  g.foldl (fun s u =>
    let s' := (byFibre ((s.unit u).staging.filter Staged.local_)).foldl (fun s e =>
      if e.own then applyStaged s u u e
      else match gangUnit s u (bits e.target.toNat 21 4) with | some v => applyStaged s u v e | none => s) s
    let s' := s'.modUnit u (fun y => { y with staging := y.staging.filter (fun e => !e.local_) })
    if (s'.unit u).core.isNone then s'.poke ((s'.unit u).base + 124) (s'.unit u).staging.length 4 else s') s

-- synchronisation completes ------------------------------------------------------------------------------------------

/-- The crews of a unit that hold lanes. -/
def liveCrews (y : UnitSt) : List Nat := (List.range y.crews.length).filter (fun c => (y.crew c).populated)

/-- Every crew has arrived, and every fibre outside the basin therefore waits. -/
def unitArrived (y : UnitSt) (on : BitVec 4) : Bool := liveCrews y != [] && (liveCrews y).all (fun c => crewArrived (y.crew c) on)

/-- Everything that a release of the unit's crews at a scope waits for is done (R149). -/
def unitReleased (s : State) (u scope : Nat) : Bool :=
  (liveCrews (s.unit u)).all (fun c => !s.ops.any (relBlocks s u c scope)) && (scope = 0 || answeredAll s (s.unit u).barWaits)

/-- The lanes of a serial crew that wait on what `on` names go on (R191, R335). -/
def passSerial (s : State) (u c : Nat) (on : BitVec 4) : State :=
  let x := (s.unit u).crew c
  leaveSerial (((List.range 32).filter (fun l => let w := x.tab.getD l {}; w.lst == .waiting && w.waitOn == on)).foldl (fun s l => serialNext s u c l) s) u c

/-- The waiting entries of a crew go on, and those with equal PCs merge, but for lanes in a loop (R182, R312, R335). Where the split table overflows on the
way, the lanes that still wait go on from the lane table. -/
def passCrew (s : State) (u c : Nat) (on : BitVec 4) : State :=
  let x := (s.unit u).crew c
  if x.serial then passSerial s u c on
  else
    let es := (List.range x.split.length).filter (fun e => (x.entry e).status == .waiting && (x.entry e).waitOn == on)
    -- entries that wait at one instruction go on as one (R182)
    let s := es.foldl (fun s e =>
      let y := (s.unit u).crew c
      let me := y.entry e
      let like := fun (z : Entry) => z.pc == me.pc && z.handler == me.handler && z.status == .waiting && !y.inLoop z.mask && !y.inLoop me.mask
      match (es.filter (fun j => j < e)).find? (fun j => like (y.entry j)) with
      | some j => s.modCrew u c (fun z => { z with split := (z.split.modify j (fun a => { a with mask := a.mask ||| me.mask })).set e {} })
      | none => s) s
    let s := es.foldl (fun s e => if (((s.unit u).crew c).entry e).status == .waiting
      then goNext (s.modEntry u c e (fun y => { y with status := .runnable, waitOn := 0 })) u c e false else s) s
    if ((s.unit u).crew c).serial then passSerial s u c on else s

/-- All crews of a unit pass. -/
def passUnit (s : State) (u : Nat) (on : BitVec 4) : State := (liveCrews (s.unit u)).foldl (fun s c => passCrew s u c on) s

/-- UNIT.SYNC completes (R131, R149, R335): no access of an earlier interval is left in the shadow state (R157, R160). (DEDUCED, log entry 19.) -/
def unitSync (s : State) (u : Nat) : State :=
  let y := s.unit u
  if y.core.isNone || y.cancelled || !unitArrived y 15 || !unitReleased s u 0 then s
  else
    let s := (applyOwn s u).modUnit u (fun y => { y with ubarGen := y.ubarGen + 1, shadow := [] })
    passUnit s u 15

/-- GANG.SYNC completes (R131, R149, R336). -/
def gangSync (s : State) (u : Nat) : State :=
  let g := gangOf s u
  let live := g.filter (fun v => !(s.unit v).ended)
  if live = [] || live.any (fun v => (s.unit v).core.isNone || (s.unit v).cancelled || !unitArrived (s.unit v) 14 || !unitReleased s v 3) then s
  else
    let s := applyGang s g
    let s := g.foldl (fun s v => s.modUnit v (fun y => { y with gbarGen := y.gbarGen + 1, shadow := [] })) s
    live.foldl (fun s v => passUnit s v 14) s

def execGangSyncComplete (u : Nat) (s : State) : Out := .next (gangSync s u)

/-- The entry that runs in a crew and the instruction at which it stands. -/
def running (s : State) (u c : Nat) : Option (Nat × Instr) :=
  if !mayRun s u c then none
  else match ((s.unit u).crew c).chosen with
    | none => none
    | some e =>
      if !standing { s with cur := (u, c, e) } then none
      else match fetchAt s u c (((s.unit u).crew c).entry e) with | .ok i => some (e, i) | _ => none

/-- BAR_WAIT_COMPLETE (R332): a BAR.WAIT or BAR.ARRW that has stalled issues again and completes where its object has. -/
def execBarWaitComplete (u c : Nat) (s : State) : Out :=
  match running s u c with
  | some (e, .barWait sc a) => execBarWait sc a { s with cur := (u, c, e) }
  | some (e, .barArrw sc p a) => execBarArrw sc p a { s with cur := (u, c, e) }
  | _ => .next s

/-- MWAIT_WAKE (R156, R329): the entry, or in serial mode the lane, `e` goes on as an acquire; where a fibre takes a trap of an operation, it
stands at the MWAIT again, at which that trap is taken (R122). -/
def wakeTurn (s : State) (u c e : Nat) : State :=
  let y := s.unit u
  let x := y.crew c
  if y.core.isNone || y.cancelled then s
  else
    let m := if x.serial then BitVec.twoPow 32 e else (x.entry e).mask
    let waits : Bool := if x.serial then (x.tab.getD e {}).lst == .waiting && (x.tab.getD e {}).waitOn == 13
      else (x.entry e).status == .waiting && (x.entry e).waitOn == 13
    let cx : Ctx := { u := u, c := c, e := e, ent := x.entry e, act := m }
    if waits && pendOf s cx m (fun _ => true) != [] then
      if x.serial then
        leaveSerial (s.modCrew u c (fun y => { y with tab := y.tab.set e { (y.tab.getD e {}) with lst := .runnable, waitOn := 0 } })) u c
      else s.modEntry u c e (fun z => { z with status := .runnable, waitOn := 0 })
    else if !waits || !mwaitReady s cx m || recordFull s y.cfg.node (watchedWriters s cx m) then s
    else
      let s := mwaitRecord s cx m
      if x.serial then leaveSerial (serialNext s u c e) u c
      else goNext (s.modEntry u c e (fun z => { z with status := .runnable, waitOn := 0 })) u c e false

def execMwaitWake (u c e : Nat) (s : State) : Out := .next (wakeTurn s u c e)

end Sys2Proof.Machine
end

