-- ==== Sys2Proof/Machine/Launch.lean ====
section
/-! DEFINITION. Dispatch (R43, R203, R208, R212 to R217, R387): which unit of which card may start, where, and what starting it does. -/

namespace Sys2Proof.Machine

-- predecessors (R208, R215) ------------------------------------------------------------------------------------------

/-- The units that a grid entry names about unit `u`: rows and columns as offsets. -/
def gridUnits (w u : Nat) (offs : List (Int × Int)) : List Nat :=
  offs.filterMap (fun o =>
    let i := Int.ofNat (u / w) + o.1
    let j := Int.ofNat (u % w) + o.2
    if 0 ≤ i ∧ 0 ≤ j ∧ j < Int.ofNat w then some (i.toNat * w + j.toNat) else none)

/-- The indices of a TABLE entry (Table 9-2). -/
def tableUnits (e : Nat) : List Nat := (List.range (bits e 60 2)).map (fun k => bits e (20 * k) 20)

/-- The units of the producer that an entry of kind 2 to 6 names for unit `u`. -/
def namedUnits (kind par u units : Nat) : List Nat :=
  match kind with
  | 2 => [u]
  | 3 => gridUnits par u [(0, -1), (0, 0), (0, 1)]
  | 4 => gridUnits par u [(-1, 0), (0, -1)]
  | 5 => List.range units
  | 6 => (List.range par).map (fun k => par * u + k)
  | _ => []

/-- The dispatcher's read of a TABLE entry of node `n` for unit `u` (R215): what the read does at homes, and what it yields. -/
def readTable (s : State) (n : NodeSt) (par u : Nat) : State × Except (Why × Addr) Nat :=
  let va := BitVec.ofNat 64 (n.d (128 + 64 * par) 64 + 8 * u)
  let s := jobReads s n.job 8 va
  (s, match jobRead s n.job 8 va with
    | .error e => .error e
    | .ok (bs, bad) => if bad then .error ((cPOISON, 0), va) else .ok (leNat bs))

/-- The dispatcher's read of bit `v` of a completion bitmap. -/
def bitmapBit (s : State) (p : NodeSt) (v : Nat) : State × Bool :=
  let va := BitVec.ofNat 64 (p.bitmap + v / 8)
  let s := jobReads s p.job 1 va
  (s, match jobRead s p.job 1 va with
    | .ok ([b], _) => b.getLsbD (v % 8)
    | _ => false)

/-- The producer of entry `e` of a node's card that the entry still waits for, and its bitmap where it may satisfy the entry (R215). -/
def producer (s : State) (n e : Nat) : Option NodeSt :=
  let x := s.node n
  (s.nodeOf x.job (x.pred e).1).map s.node

/-- A TABLE entry of unit `u` that the dispatcher is to read: its producer is accepted and not committed, has a bitmap, and the read has not failed. -/
def tableAsked (s : State) (n u e : Nat) : Bool :=
  let x := s.node n
  (x.pred e).2.1 == 7 && !x.badTables.contains (4 * u + e) &&
  (match producer s n e with | some y => y.status != .committed && y.bitmap != 0 | none => false)

/-- The units of its producer that entry `e` names for unit `u`; `none` where a TABLE read fails or has failed. -/
def entryUnits (s : State) (n u e : Nat) (y : NodeSt) : State × Option (List Nat) :=
  let x := s.node n
  let (_, kind, par) := x.pred e
  if kind != 7 then (s, some (namedUnits kind par u y.unitCount))
  else if x.badTables.contains (4 * u + e) then (s, none)
  else match readTable s x par u with
    | (s, .ok w) => (s, some (tableUnits w))
    | (s, .error _) => (s, none)

/-- Predecessor entry `e` of node `n` is satisfied for unit `u` (R215), with what the dispatcher reads for it. -/
def predMet (s : State) (n u e : Nat) : State × Bool :=
  let x := s.node n
  let (p, kind, _) := x.pred e
  if kind = 0 then (s, true)
  else match s.nodeOf x.job p with
    | none => (s, false)
    | some m =>
      let y := s.node m
      if y.status == .committed then (s, true)
      else if kind = 1 || y.bitmap = 0 then (s, false)
      else match entryUnits s n u e y with
        | (s, none) => (s, false)
        | (s, some vs) => (vs.filter (fun v => decide (v < y.unitCount) && (m != n || decide (v < u)))).foldl
            (fun a v => let r := bitmapBit a.1 y v; (r.1, a.2 && r.2)) (s, true)

/-- Every entry is satisfied. -/
def predsMet (s : State) (n u : Nat) : Bool := (List.range 4).all (fun e => (predMet s n u e).2)

/-- What the dispatcher reads for unit `u`; each TABLE read that fails is kept, and the host is told once (R215). -/
def readPreds (s : State) (n u : Nat) : State :=
  (List.range 4).foldl (fun s e =>
    let x := s.node n
    let (_, _, par) := x.pred e
    if tableAsked s n u e then match readTable s x par u with
      | (s, .error (w, a)) => (s.modNode n (fun x => { x with badTables := x.badTables ++ [4 * u + e] })).tell (.table x.job x.id u w.1 w.2 a)
      | _ => (predMet s n u e).1
    else (predMet s n u e).1) s

/-- A TABLE read of unit `u` fails and is not yet kept. -/
def tableFails (s : State) (n u : Nat) : Bool :=
  (List.range 4).any (fun e => tableAsked s n u e && (match (readTable s (s.node n) ((s.node n).pred e).2.2 u).2 with | .ok _ => false | .error _ => true))

-- what may start -----------------------------------------------------------------------------------------------------

/-- Declared outputs of two nodes of one job overlap (R75). -/
def outputsMeet (a b : NodeSt) : Bool :=
  a.job == b.job && (List.range 4).any (fun i => (List.range 4).any (fun k =>
    overlap (a.output i).1 (a.output i).2 (b.output k).1 (b.output k).2))

/-- A node's outputs are free: no other node that holds its pages declares them (R75). -/
def outputsFree (s : State) (n : Nat) : Bool :=
  let x := s.node n
  x.status == .running || (List.range s.nodes.length).all (fun m => m == n || !(s.node m).holding || !outputsMeet x (s.node m))

/-- The job stands at a phase boundary (R92): none of its nodes has begun and not committed, one rolled back among them, and every phase that has begun is
complete. (DEDUCED, log entry 43.) -/
def atBoundary (s : State) (job : Nat) : Bool :=
  let mine := s.nodes.filter (fun n => n.job == job)
  !mine.any NodeSt.holding &&
  (s.job job).levels.all (fun l => l.graph.isSome || l.complete || l.cancelled || !mine.any (fun n => n.phase == l.phase && n.status == .committed))

/-- Dispatch of a job waits: for the STEP.ADVs of AUTOSTEP (R101), or for a checkpoint at its boundary (R92). -/
def jobWaits (s : State) (job : Nat) : Bool :=
  let j := s.job job
  j.waitStep != 0 || j.ckpt == 2 || (j.ckpt == 1 && atBoundary s job)

/-- The size of the gang whose lowest unit is `low` (R201). -/
def NodeSt.gangAt (n : NodeSt) (low : Nat) : Nat := min n.gang (n.unitCount - low)

/-- Gangs of a node by their lowest units. -/
def NodeSt.gangs (n : NodeSt) : List Nat := (List.range ((n.unitCount + n.gang - 1) / n.gang)).map (fun g => g * n.gang)

/-- The units of one side that have started: leaders, or trailers. -/
def NodeSt.started (n : NodeSt) (trailer : Bool) : List Nat := if trailer then n.tdispatched else n.dispatched

/-- Every unit of the gang may start by its predecessors and, in a deterministic launch, by the order of its core (R203, R215). -/
def gangMay (s : State) (n : Nat) (trailer : Bool) (low : Nat) : Bool :=
  let x := s.node n
  let st := x.started trailer
  (List.range (x.gangAt low)).all (fun i =>
    let u := low + i
    !st.contains u && predsMet s n u &&
    (!x.det || (List.range u).all (fun v => v % x.lcoreCount != u % x.lcoreCount || st.contains v)))

/-- The gang that a card would start next: the lowest that may start, in a deterministic launch any that may. -/
def nextGangs (s : State) (n : Nat) (trailer : Bool) : List Nat :=
  let x := s.node n
  if (x.status != .queued && x.status != .running) || x.doom != 0 || x.stopping.isSome || jobWaits s x.job || !outputsFree s n then []
  else
    let may := x.gangs.filter (gangMay s n trailer)
    if x.det then may else may.take 1

-- capacity (R43, R214, R387) -----------------------------------------------------------------------------------------

/-- Pool blocks of a partition word. -/
def sharesOf (part : Nat) : Nat := bits part 0 6 + bits part 6 6 + bits part 12 6

/-- Crew slots that a unit of `f` fibres reserves. -/
def slotsOf (f : Nat) : Nat := (f + 31) / 32

/-- A core has capacity for a further unit (R43). -/
def coreRoom (s : State) (k part fibres : Nat) : Bool :=
  let us := (s.onCore k).map s.unit
  decide (k < 2880 ∧ (us.map (fun y => sharesOf y.cfg.part.toNat)).sum + sharesOf part ≤ 64 ∧
    (us.map (fun y => slotsOf y.cfg.fibres)).sum + slotsOf fibres ≤ 64)

/-- A core offers less than these split entries, masks, flags or pool blocks, or is offline (R382, CAPLIM of Table 17-6). -/
def offersLess (s : State) (k split masks flags blocks : Nat) : Bool :=
  let lim := (s.core k).caplim.toNat
  lim.testBit 23 || decide (bits lim 16 7 < blocks ∨ bits lim 12 4 < flags ∨ bits lim 8 4 < masks ∨ bits lim 4 4 < split)

/-- The core that the service processor has bound an image to, by the image's address (R382). -/
def boundCore (s : State) (image : Nat) : Option Nat := match s.bound.get 0 image with | 0 => none | k + 1 => some k

/-- The image of unit `u` of a node (Table 9-3). -/
def NodeSt.imageOf (n : NodeSt) (u : Nat) : Nat := (n.d 384 64 + u * n.d 448 64) % 2 ^ 40

/-- A core of a list can take a unit that has not started: where its image is bound, its bound core alone, where that offers what the image needs (R382). -/
def boundTo (s : State) (n : NodeSt) (u : Nat) (others cs : List Nat) : List Nat :=
  match boundCore s (n.imageOf u) with
  | none => cs.filter (fun k => !others.contains k)
  | some k => if cs.contains k && !offersLess s k 1 0 0 (sharesOf n.part) then [k] else []

/-- The cores of a die that have capacity for a unit of a node. -/
def dieRoom (s : State) (n : NodeSt) (d : Nat) : List Nat := ((List.range 180).map (fun i => 180 * d + i)).filter (fun k => coreRoom s k n.part n.fibres)

/-- The logical core of a unit as `lcores` numbers it. -/
def NodeSt.lcore (n : NodeSt) (u : Nat) (trailer : Bool) : Nat := u % n.lcoreCount + if trailer then 65536 else 0

/-- The die of a unit in a deterministic launch (R214, R387). -/
def NodeSt.detDie (n : NodeSt) (u : Nat) (trailer : Bool) : Nat := (n.home + u % n.lcoreCount / n.perDie + if trailer then 8 else 0) % 16

/-- Cores that may take unit `u` of a deterministic launch: the bound one, else a free one of its die that no other logical core is bound to. -/
def detCores (s : State) (n : NodeSt) (u : Nat) (trailer : Bool) : List Nat :=
  match n.lcores.get 0 (n.lcore u trailer) with
  | 0 => (dieRoom s n (n.detDie u trailer)).filter (fun k => !n.lcores.any (fun e => e.2 == k + 1))
  | k => if coreRoom s (k - 1) n.part n.fibres then [k - 1] else []

/-- Distinct cores for the units of a list, given the candidates of each, the first unit's being `first`. -/
def assign (first : Nat) : List (List Nat) → List Nat → Option (List Nat)
  | [], got => some got
  | cs :: rest, got =>
    match (if got = [] then (if cs.contains first then some first else none) else cs.find? (fun k => !got.contains k)) with
    | none => none
    | some k => assign first rest (got ++ [k])

/-- Distinct cores exist for all of these units. -/
def fits : List (List Nat) → Bool
  | [] => false
  | c :: cs => c.any (fun k => (assign k (c :: cs) []).isSome)

/-- The candidates of each unit of a gang, on the die that takes it: in a launch that is not deterministic the first die from home that can take it whole. -/
def gangCores (s : State) (n : Nat) (trailer : Bool) (low : Nat) : List (List Nat) :=
  let x := s.node n
  let us := (List.range (x.gangAt low)).map (fun i => low + i)
  let named := us.filterMap (fun u => boundCore s (x.imageOf u))
  if x.det then us.map (fun u => boundTo s x u named (detCores s x u trailer))
  else (((List.range 16).map (fun i => let cs := dieRoom s x ((x.home + i) % 16); us.map (fun u => boundTo s x u named cs))).find? fits).getD []

/-- The gang has capacity somewhere. -/
def gangRoom (s : State) (n : Nat) (trailer : Bool) (low : Nat) : Bool := fits (gangCores s n trailer low)

/-- Sides of a card: leaders, and with RED trailers. -/
def NodeSt.sides (n : NodeSt) : List Bool := if n.red then [false, true] else [false]

/-- The card is eligible (R212). -/
def eligible (s : State) (n : Nat) : Bool := (s.node n).sides.any (fun t => (nextGangs s n t).any (gangRoom s n t))

/-- One of its units may start, but no permitted core has capacity. -/
def starved (s : State) (n : Nat) : Bool := !eligible s n && (s.node n).sides.any (fun t => nextGangs s n t != [])

/-- Card `a` is considered before card `b` (R212). -/
def ahead (a b : NodeSt) : Bool := decide (b.prio < a.prio ∨ (a.prio = b.prio ∧ a.order < b.order))

/-- A card that has been passed over for too long holds a die against this card (R212). -/
def heldBack (s : State) (n die : Nat) : Bool :=
  let x := s.node n
  s.nodes.any (fun m => m.blocking && m.home == die && decide (x.prio ≤ m.prio ∧ m.order < x.order) && (m.status == .queued || m.status == .running))

/-- The image of a unit is of a format that the device accepts (Table 2-5, VER). (DEDUCED, log entry 43.) -/
def imageOk (s : State) (n u : Nat) : Bool := s.mem.nat ((s.node n).imageOf u) 4 == 1

/-- A gang of the card can start now: there is room on a die that no card is held back from, and its images are in order. -/
def gangStarts (s : State) (n : Nat) (trailer : Bool) (low : Nat) : Bool :=
  gangRoom s n trailer low && !heldBack s n (dieOf (((gangCores s n trailer low).headD []).headD 0)) &&
  (List.range ((s.node n).gangAt low)).all (fun i => imageOk s n (low + i))

/-- The dispatcher's turn is this card's: no eligible card of its queues that can start a unit is ahead of it (R212). -/
def cardTurn (s : State) (n : Nat) : Bool :=
  let x := s.node n
  (List.range s.nodes.length).all (fun m => !((s.node m).home == x.home && ahead (s.node m) x &&
    (s.node m).sides.any (fun t => (nextGangs s m t).any (gangStarts s m t))))

-- starting -----------------------------------------------------------------------------------------------------------

/-- The producers of unit `u` that are not committed: the node becomes their early consumer (R79, R215). -/
def earlyOf (s : State) (n : Nat) : List Nat :=
  let x := s.node n
  (List.range 4).filterMap (fun e =>
    let (p, kind, _) := x.pred e
    if kind < 2 then none
    else match s.nodeOf x.job p with
      | some m => if m != n && (s.node m).status != .committed then some m else none
      | none => none)

/-- The fields that a unit starts with, from its card, block and image header (R55, R207, R209). -/
def cfgOf (s : State) (n u : Nat) (trailer : Bool) : UnitCfg :=
  let x := s.node n
  let image := x.imageOf u
  let low := u / x.gang * x.gang
  let word := fun (a k : Nat) => s.mem.nat (image + a) k
  { node := n, job := x.job, uidx := u, gsize := x.gangAt low, gidx := u - low, part := BitVec.ofNat 32 x.part, fibres := x.fibres
    crews := x.crews, det := x.det, red := x.red, prot := x.prot, prio := x.prio, mb := BitVec.ofNat 6 x.mb
    card := BitVec.ofNat 64 (word 32 8), image := image, bases := (List.range 10).map (fun k => word (40 + 8 * k) 8), stglen := word 120 4
    code := BitVec.ofNat 64 x.code, handler := BitVec.ofNat 64 x.handler, trailer := trailer
    twin := s.units.findIdx? (fun y => y.cfg.node == n && y.cfg.uidx == u && y.cfg.trailer != trailer && !y.cancelled && x.red) }

/-- A unit that has just started on a core. -/
def freshUnit (s : State) (c : UnitCfg) (core : Nat) : UnitSt :=
  { cfg := c, core := some core, startedAt := s.now, xroot := (s.job c.job).root
    crews := (firstCrews ((c.fibres + 31) / 32) c.crews c.fibres c.code).map (fun x => { x with since := s.now }), fibs := firstFibres c.crews c.fibres }

/-- One input tile is copied into the scratchpad, where its lines are dirty, and its poison with it; the fault of a read that fails (R217). -/
def copyTile (s : State) (u k : Nat) : State × Option (Why × Addr) :=
  let y := s.unit u
  let x := s.node y.cfg.node
  let (base, stride, len, soff) := x.input k
  let va := BitVec.ofNat 64 (base + y.cfg.uidx * stride)
  if len = 0 then (s, none)
  else
    let s := (List.range (pieceFuel len)).foldl (fun s i => if 32 * i < len + 32 then translateReads s y.core y.cfg.job y.xroot (va + BitVec.ofNat 64 (32 * i)) else s) s
    match checkRange (fun a => checkGlobal s y.core (some y.cfg.node) y.cfg.job y.xroot (y.berth s) false false .src a 0) (pieceFuel len) va len with
    | .error e => (s, some e)
    | .ok ps =>
      let s := piecesRead s ps
      let bs := (List.range len).zip (piecesBytes s ps)
      (landScr s u soff (bs.map (fun e => (e.1, e.2.1))) (bs.filterMap (fun e => if e.2.2 then some e.1 else none)), none)

/-- The input tiles in order; where one fails, crew 0 parks at the code address with the fault (R217). -/
def copyTiles (s : State) (u : Nat) : State :=
  match (List.range 4).foldl (fun a k => match a with
      | (s, none) => copyTile s u k
      | a => a) ((s, none) : State × Option (Why × Addr)) with
  | (s, none) => s
  | (s, some (w, a)) =>
    let m := (((s.unit u).crew 0).entry 0).mask
    parkEntry s u 0 0 ((lanesOf m).map (fun l => ⟨l, w.1, w.2, a⟩))

/-- The replicas that a core which takes a unit of a job loads are the masters': of STEP.G (R99) and of the berth map (R85). -/
def loadReplicas (s : State) (job core : Nat) : State :=
  s.modJob job (fun j => { j with
    gNew := if j.gOld.isSome && !j.gNew.contains core then j.gNew ++ [core] else j.gNew
    mapNew := if j.mapOld.isSome && !j.mapNew.contains core then j.mapNew ++ [core] else j.mapNew })

/-- A unit of a card starts on a core (R175, R212 to R217, R387). It is a new owner, with an empty result journal, where its node is retried too. (DESIGN
CHOICE, log entry 59.) -/
def startUnit (s : State) (n u : Nat) (trailer : Bool) (core : Nat) : State :=
  let c := cfgOf s n u trailer
  let p := s.units.length
  let early := earlyOf s n
  let s := { s with units := s.units ++ [freshUnit s c core] }
  let s := match c.twin with | some t => s.modUnit t (fun y => { y with cfg := { y.cfg with twin := some p } }) | none => s
  let s := s.modNode n (fun x => { x with
    status := .running, holds := false, passedAt := none, blocking := false, early := (x.early ++ early).eraseDups
    dispatched := if trailer then x.dispatched else x.dispatched ++ [u]
    tdispatched := if trailer then x.tdispatched ++ [u] else x.tdispatched
    lcores := if x.det then x.lcores.set 0 (x.lcore u trailer) (core + 1) else x.lcores })
  let s := loadReplicas s c.job core
  let s := writeTurn (setStatus s p .resident) p
  fillActive (copyTiles s p) core 8

/-- Cards ahead of one that starts, and with a unit that only capacity holds, are passed over (R212). -/
def passOver (s : State) (n : Nat) : State :=
  let x := s.node n
  let over_ := (List.range s.nodes.length).filter (fun m => m != n && (s.node m).home == x.home && ahead (s.node m) x && (s.node m).passedAt.isNone && starved s m)
  over_.foldl (fun t m => t.modNode m (fun y => { y with passedAt := some s.now })) s

/-- The unit of a node whose image is at an address. -/
def NodeSt.unitAt (n : NodeSt) (image : Nat) : Option Nat :=
  let stride := n.d 448 64 % 2 ^ 40
  let d := (image + 2 ^ 40 - n.imageOf 0) % 2 ^ 40
  let u := if stride = 0 then 0 else d / stride
  if n.imageOf u = image && decide (u < n.unitCount) then some u else none

/-- What the image of a unit that has left its core needs of a core (R382): split entries, masks, flags and pool blocks. -/
def imageShort (s : State) (u core : Nat) : Bool :=
  let y := s.unit u
  let most := fun (f : Nat → Nat) => ((List.range y.crews.length).map f).foldl max 0
  let split := most (fun c => if (y.crew c).serial then 8 else ((y.crew c).split.filter (fun e => e.status != .empty)).length)
  let masks := most (fun c => ((y.crew c).masks.filter (fun m => m != 0)).length)
  let flags := most (fun c => ((List.range 12).filter (flagBusy s u c)).length)
  offersLess s core split masks flags (sharesOf y.cfg.part.toNat)

/-- RESUME_CAPACITY (R382): the host is told once of each image that waits for a bound core which cannot take it, of a unit that has left its core or of one that
has not started. -/
def tellShort (s : State) : State :=
  s.bound.foldl (fun s e =>
    let k := e.2 - 1
    let s := ((List.range s.units.length).filter (fun u => let y := s.unit u
        y.cfg.image == e.1 && y.status == .saved && !y.cancelled && !y.ended && !y.told && imageShort s u k)).foldl (fun s u =>
      let y := s.unit u
      (s.modUnit u (fun y => { y with told := true })).tell (.capacity y.cfg.job (s.node y.cfg.node).id y.cfg.uidx)) s
    ((List.range s.nodes.length).filter (fun n => (s.node n).status == .queued || (s.node n).status == .running)).foldl (fun s n =>
      let x := s.node n
      match x.unitAt e.1 with
      | some u =>
        let m := HostMsg.capacity x.job x.id u
        if !(x.dispatched.contains u || x.tdispatched.contains u) && offersLess s k 1 0 0 (sharesOf x.part) && !s.hostLog.contains m then s.tell m else s
      | none => s) s) s

/-- The service processor binds an image to a core, or frees it (R382). -/
def bindImage (s : State) (image core : Nat) : State :=
  tellShort { s with
    bound := s.bound.set 0 image (if core < 2880 then core + 1 else 0)
    units := s.units.map (fun y => if y.cfg.image = image then { y with told := false } else y) }

/-- UNIT_DISPATCH: the gang of unit `u` of card `n` starts, its lowest unit on `core` (R201, R213). -/
def dispatchTurn (s : State) (n u core : Nat) : State :=
  let x := s.node n
  if s.nodes.length ≤ n then s
  else
    let s := tellShort ((List.range (x.gangAt u)).foldl (fun s i => decodeRange (readPreds s n (u + i)) (x.imageOf (u + i)) 256) s)
    let trailer := x.red && x.detDie u true == dieOf core
    if !(nextGangs s n trailer).contains u || !cardTurn s n || heldBack s n (dieOf core) ||
       !(List.range (x.gangAt u)).all (fun i => imageOk s n (u + i)) then s
    else match assign core (gangCores s n trailer u) [] with
      | none => s
      | some [] => s
      | some cores =>
        let s := passOver s n
        ((List.range cores.length).zip cores).foldl (fun s e => startUnit s n (u + e.1) trailer e.2) s

def execUnitDispatch (n u core : Nat) (s : State) : Out := .next (dispatchTurn s n u core)

/-- PASSED_OVER_LIMIT (R212). -/
def execPassedOverLimit (n : Nat) (s : State) : Out :=
  .next (match (s.node n).passedAt with
    | some t => if t + 2 ^ 20 ≤ s.now && (s.node n).doom == 0 then s.modNode n (fun y => { y with blocking := true }) else s
    | none => s)

end Sys2Proof.Machine
end

