-- ==== Sys2Proof/Machine/Tile.lean ====
section
/-! DEFINITION. The tile engine: products, accumulators, planes, the codebook, and ENG.ACQ and ENG.REL (R345 to R359). -/

namespace Sys2Proof.Machine

-- what the engine's instructions share -------------------------------------------------------------------------------

/-- How a tile-engine instruction fails: it waits, or lanes trap and nothing of it happens. -/
inductive TileStop
  | wait (f : State → State)
  | trap (ts : List Trap)

/-- A step of a tile-engine instruction. -/
abbrev TileM (α : Type) := Except TileStop α

/-- The unit's sweep-class instructions come first: its tile-engine instructions are performed in issue order (R151, R345). -/
def preTile (x : Ctx) (s : State) : Option State := if (s.unit x.u).sweeps = [] then none else some s

/-- A tile-engine instruction that first waits as `pre` says. -/
def tileWith (pre : Ctx → State → Option State) (i : Instr) (s : State) (body : Ctx → State → TileM (State × List Trap)) : Out :=
  withIssueE i s pre (fun x ts s =>
    match body x s with
    | .ok r => .ok (finish x i (ts ++ r.2) r.1)
    | .error (.trap us) => .ok (finish x i (ts ++ us) s)
    | .error (.wait f) => .error f)

/-- A tile-engine instruction that acts at issue. -/
def tileInstr (i : Instr) (s : State) (body : Ctx → State → TileM (State × List Trap)) : Out := tileWith preTile i s body

/-- Every active lane traps. -/
def tileTrap {α : Type} (x : Ctx) (w : Why) (a : Addr) : TileM α := .error (.trap ((lanesOf x.act).map (fun l => ⟨l, w.1, w.2, a⟩)))

/-- Every active lane traps ILLEGAL cause 8 where an operand value is outside its limits (R345). -/
def limits (x : Ctx) (ok : Bool) : TileM Unit := if ok then .ok () else tileTrap x (cILLEGAL, 8) x.ent.pc

/-- The fault of a scratchpad operand of `n` bytes, aligned to 16, with its first failing byte (R345). (DEDUCED, log entry 31.) -/
def scrFault (y : UnitSt) (addr n : Nat) : Option (Why × Addr) :=
  if addr % 16 != 0 then some ((cALIGN, 0), BitVec.ofNat 64 addr)
  else if addr / 2 ^ 21 != 0 then some ((cXLATE, 3), BitVec.ofNat 64 addr)
  else if y.scrSize < addr + n then some ((cXLATE, 3), BitVec.ofNat 64 (max addr y.scrSize)) else none

/-- A crew-wide scratchpad operand: its checks and its race check (R158, R345). -/
def tileAt (x : Ctx) (s : State) (addr n : Nat) (k : RKind) : TileM State :=
  match scrFault (s.unit x.u) addr n with
  | some f => tileTrap x f.1 f.2
  | none => match raceScr s x.u x.c x.u addr n k with
    | (some c, _) => tileTrap x (cDETRACE, c) (BitVec.ofNat 64 addr)
    | (none, s) => .ok s

/-- The engine asks for lines that it reads, writes in part or writes whole (R46, R47, R72). -/
def tileAsk (x : Ctx) (s : State) (reads part whole : List Nat) : TileM State :=
  match askRows s x.u x.c reads part whole with
  | (.ok, s) => .ok s
  | (_, _) => .error (.wait (fun s => (askRows s x.u x.c reads part whole).2))

/-- Lines that the engine reads. -/
def tileRows (x : Ctx) (s : State) (rows : List Nat) : TileM State := tileAsk x s rows [] []

/-- Rows that lie wholly in a scratchpad range. -/
def wholeRows (off n : Nat) : List Nat :=
  (scrRows off n).filter (fun r => decide (off ≤ (r - 32768) * 128 ∧ (r - 32768) * 128 + 128 ≤ off + n))

/-- A crew-wide read. -/
def tileRead (x : Ctx) (s : State) (addr n : Nat) : TileM (List Byte × State) :=
  (tileAt x s addr n .rd).bind (fun s => (tileRows x s (scrRows addr n)).map (fun s => ((s.unit x.u).scrN addr n, s)))

/-- A crew-wide write. -/
def tileWrite (x : Ctx) (s : State) (addr : Nat) (bs : List Byte) : TileM State :=
  let whole := wholeRows addr bs.length
  (tileAt x s addr bs.length .wr).bind (fun s =>
    (tileAsk x s [] ((scrRows addr bs.length).filter (fun r => !whole.contains r)) whole).map (fun s =>
      cleanRows (s.modUnit x.u (fun y => y.setScr addr bs)) x.u whole))

/-- An accumulator tile: absent tiles trap XLATE cause 5 (R22), and a deterministic launch checks the access (R347). -/
def tileAcc (x : Ctx) (s : State) (t : Nat) (k : RKind) : TileM State :=
  let y := s.unit x.u
  if y.tiles ≤ t then tileTrap x (cXLATE, 5) x.ent.pc
  else if !y.cfg.det then .ok s
  else
    let p := scrParty s x.u x.c x.u
    match raceIn y.shadow (2 ^ 20 + t) p k (fun q => q.gen == p.gen && q.ggen == p.ggen) with
    | (some _, _) => tileTrap x (cDETRACE, 3) x.ent.pc
    | (none, l) => .ok (s.modUnit x.u (fun y => { y with shadow := l }))

/-- Pool rows of columns [n, n + k) of accumulator rows of the active lanes. -/
def accRows (x : Ctx) (t n k : Nat) : List Nat := (lanesOf x.act).flatMap (fun i => (List.range (k / 32)).map (fun j => rowAcc t i n + j))

/-- An accumulator element. -/
def UnitSt.accAt (y : UnitSt) (t i n : Nat) : Word := y.acc.get 0 (accKey t i n)

/-- Write accumulator elements of a row. -/
def UnitSt.setAcc (y : UnitSt) (t i n : Nat) (vs : List Word) : UnitSt :=
  ({ y with acc := SMap.setAll 0 y.acc ((List.range vs.length).zip vs |>.map (fun e => (accKey t i (n + e.1), e.2))) } : UnitSt).soil
    (rowsFrom 49152 (16384 * t + 512 * i + 4 * n) (4 * vs.length))

/-- The extent of an accumulator instruction (R356): first column and number of columns. -/
def extent (sub : Bool) (q : BitVec 2) : Nat × Nat := if sub then (32 * q.toNat, 32) else (0, 128)

/-- The lowest active lane's register (R345). -/
def Ctx.lowRd (x : Ctx) (s : State) (r : VReg) (i : Nat) : Nat := (x.rdi s x.low r i).toNat

-- products -----------------------------------------------------------------------------------------------------------

/-- The codebook as a function (R234). -/
def UnitSt.bookAt (y : UnitSt) (i : Nat) : Nat := (y.book.get 0 i).toNat

/-- A product (R348 to R355): `rows` gives the k-rows of B from its address, `groups` their number by 16, `part` the partial form of MMA.P. -/
def product (i : Instr) (c : Nib) (a b : VReg) (af : MFmt) (am : AccM) (groups : Nat) (part : Bool)
    (rows : Ctx → State → Nat → TileM (List (List (Option Num)) × State)) (s : State) : Out :=
  tileInstr i s (fun x s =>
    (tileAcc x s c.toNat .wr).bind (fun s =>
    (rows x s (x.lowRd s b 0)).bind (fun r =>
    (if part then tileAsk x r.2 [] [] (accRows x c.toNat 0 128) else tileRows x r.2 (accRows x c.toNat 0 128)).map (fun s =>
      let cols := (List.range 128).map (fun n => r.1.map (fun row => row.getD n none))
      let one := fun (st : State × List Trap) (l : Nat) =>
        let av := (List.range (16 * groups)).map (aElem af (fun j => x.rdi st.1 l a j))
        let old := fun n => if part then 0 else (st.1.unit x.u).accAt c.toNat l n
        let res : List (Word × Bool) := (List.range 128).zip cols |>.map (fun nc =>
          match am with
          | .f32 => (mmaF32 (old nc.1) av nc.2 groups, false)
          | .i32w => mmaI32 false (old nc.1) av nc.2
          | .i32s => mmaI32 true (old nc.1) av nc.2)
        let s := st.1.modUnit x.u (fun y => y.setAcc c.toNat l 0 (res.map Prod.fst))
        (if res.any Prod.snd then s.modFib x.u (x.f s l) (fun f => { f with fpflags := f.fpflags ||| fISAT }) else s, st.2)
      let st := (lanesOf x.act).foldl one (s, [])
      (cleanRows st.1 x.u (accRows x c.toNat 0 128), st.2)))))

/-- The rows of a dense tile of `k` k-rows. -/
def denseAt (bf : MFmt) (k : Nat) (x : Ctx) (s : State) (addr : Nat) : TileM (List (List (Option Num)) × State) :=
  (tileRead x s addr (k * mfmtRowBytes bf)).map (fun r => (denseRows bf (r.2.unit x.u).bookAt k r.1, r.2))

/-- The rows of a sparse tile: its header byte gives its size. -/
def sparseAt (bf : MFmt) (x : Ctx) (s : State) (addr : Nat) : TileM (List (List (Option Num)) × State) :=
  (tileRead x s addr 16).bind (fun h =>
    (tileRead x h.2 addr (sparseSize bf (leNat (h.1.take 1)))).map (fun r => (sparseRows bf r.1, r.2)))

/-- MMA (R348 to R351). -/
def execMma (c : Nib) (a b : VReg) (af bf : MFmt) (am : AccM) (s : State) : Out :=
  product (.mma c a b af bf am) c a b af am 4 false (denseAt bf 64) s

/-- MMA.SP (R353, R354). -/
def execMmaSp (c : Nib) (a b : VReg) (af bf : MFmt) (am : AccM) (s : State) : Out :=
  product (.mmaSp c a b af bf am) c a b af am 4 false (sparseAt bf) s

/-- MMA.P (R355). -/
def execMmaP (c : Nib) (a b : VReg) (af bf : MFmt) (am : AccM) (s : State) : Out :=
  product (.mmaP c a b af bf am) c a b af am 2 true (denseAt bf 32) s

/-- SCACC (R241, R355): every element reads P before it writes C. -/
def execScacc (c p : Nib) (b : VReg) (s : State) : Out :=
  tileInstr (.scacc c p b) s (fun x s =>
    (tileAcc x s c.toNat .wr).bind (fun s =>
    (tileAcc x s p.toNat .rd).bind (fun s =>
    (tileRead x s (x.lowRd s b 1) 512).bind (fun r =>
    (tileRows x r.2 (accRows x c.toNat 0 128 ++ accRows x p.toNat 0 128)).map (fun s =>
      let col := wordsOf r.1 128
      (s.modUnit x.u (fun y => (lanesOf x.act).foldl (fun y l =>
        y.setAcc c.toNat l 0 ((List.range 128).zip col |>.map (fun nk =>
          scaccVal (y.accAt c.toNat l nk.1) (y.accAt p.toNat l nk.1) (x.rd s l b) nk.2))) y), []))))))

-- accumulator rows ---------------------------------------------------------------------------------------------------

/-- What a lane of an accumulator instruction with a per-lane address comes to. -/
def laneOf (r : TileM State) : LaneDo :=
  match r with
  | .ok s => .go s
  | .error (.wait f) => .wait f
  | .error (.trap ts) => match ts with | t :: _ => .trap t | [] => .wait id

/-- Per-lane accesses of a tile-engine instruction: a fault parks only its lane (R345). -/
def tileLanes (x : Ctx) (s : State) (step : Ctx → State → Nat → TileM State) : TileM (State × List Trap) :=
  match eachLane x (fun s l => laneOf (step { x with act := BitVec.twoPow 32 l } s l)) s with
  | .ok r => .ok r
  | .error f => .error (.wait f)

/-- ACC.LD (R356). -/
def execAccLd (t : Nib) (a : VReg) (sub : Bool) (q : BitVec 2) (s : State) : Out :=
  let e := extent sub q
  tileInstr (.accLd t a sub q) s (fun x s =>
    (tileAcc x s t.toNat .wr).bind (fun s => tileLanes x s (fun x s l =>
      (tileRead x s (x.rd s l a).toNat (4 * e.2)).bind (fun r =>
        (tileAsk x r.2 [] [] (accRows x t.toNat e.1 e.2)).map (fun s =>
          cleanRows (s.modUnit x.u (fun y => y.setAcc t.toNat l e.1 (wordsOf r.1 e.2))) x.u (accRows x t.toNat e.1 e.2))))))

/-- ACC.ST (R356). -/
def execAccSt (t : Nib) (a : VReg) (sub : Bool) (q : BitVec 2) (s : State) : Out :=
  let e := extent sub q
  tileInstr (.accSt t a sub q) s (fun x s =>
    (tileAcc x s t.toNat .rd).bind (fun s => tileLanes x s (fun x s l =>
      (tileRows x s (accRows x t.toNat e.1 e.2)).bind (fun s =>
        tileWrite x s (x.rd s l a).toNat
          ((List.range e.2).flatMap (fun n => leBytes ((s.unit x.u).accAt t.toNat l (e.1 + n)).toNat 4))))))

/-- ACC.ZERO (R356). -/
def execAccZero (t : Nib) (sub : Bool) (q : BitVec 2) (s : State) : Out :=
  let e := extent sub q
  tileInstr (.accZero t sub q) s (fun x s =>
    (tileAcc x s t.toNat .wr).bind (fun s =>
    (tileAsk x s [] [] (accRows x t.toNat e.1 e.2)).map (fun s =>
      (cleanRows (s.modUnit x.u (fun y => (lanesOf x.act).foldl (fun y l => y.setAcc t.toNat l e.1 (List.replicate e.2 0)) y)) x.u
        (accRows x t.toNat e.1 e.2), []))))

/-- Bits of an element of a CVT.S destination in memory (R232). -/
def sfmtBits : SFmt → Nat | .bf16 | .f16 => 16 | .e2m1 | .i4 => 4 | _ => 8

/-- Elements packed in memory, element 0 lowest (R232). -/
def packElems (w : Nat) (vs : List Word) : List Byte :=
  leBytes (((List.range vs.length).zip vs).foldl (fun n e => n + e.2.toNat % 2 ^ w * 2 ^ (w * e.1)) 0) (vs.length * w / 8)

/-- One lane of ACC.CVT (R242, R243, R357). -/
def accCvtLane (dst : SFmt) (t : Nib) (a : VReg) (inf fpm : Bool) (rm : BitVec 2) (e : Nat × Nat) (x : Ctx) (s : State) (l : Nat) : TileM State :=
  (tileRows x s (accRows x t.toNat e.1 e.2)).bind (fun s =>
    let r := if fpm then x.round s l .fpm else roundOf rm
    let one := fun (st : List Word × LaneFx) (n : Nat) =>
      let y := cvtS ((s.unit x.u).accAt t.toNat l (e.1 + n)) (x.rdi s l a 1) (x.rdi s l a 2) dst r inf (st.2.amax.getD (x.fibre s l).amax)
      (st.1 ++ [y.res], { st.2 with flags := st.2.flags ||| y.flags, amax := some y.amax, sats := st.2.sats + y.sat.toNat })
    let st := (List.range e.2).foldl one ([], {})
    (tileWrite x s (x.rd s l a).toNat (packElems (sfmtBits dst) st.1)).map (fun s => applyLanes x (fun _ => st.2) s))

/-- ACC.CVT (R357). -/
def execAccCvt (dst : SFmt) (t : Nib) (a : VReg) (inf fpm : Bool) (rm : BitVec 2) (sub : Bool) (q : BitVec 2) (s : State) : Out :=
  tileInstr (.accCvt dst t a inf fpm rm sub q) s (fun x s =>
    (tileAcc x s t.toNat .rd).bind (fun s => tileLanes x s (accCvtLane dst t a inf fpm rm (extent sub q))))

-- planes and the codebook --------------------------------------------------------------------------------------------

/-- Element `n` of a k-row as the lanes hold it (R358): lane n / 4, and its place there. -/
def planeReg (w n : Nat) : Nat × Nat := if w = 16 then (n % 4 / 2, 16 * (n % 2)) else (0, w * (n % 4))

/-- PLANE (R358). -/
def execPlane (d a : VReg) (f : PFmt) (s : State) : Out :=
  tileInstr (.plane d a f) s (fun x s =>
    let p := pfmtPlanes f
    let code := fun n => let k := planeReg p.width n; bits (x.supply s (n / 4) (d + BitVec.ofNat 7 k.1)).toNat k.2 p.width
    (tileWrite x s (x.lowRd s a 0) (p.pack code)).map (fun s => (s, [])))

/-- UNPLANE (R358). -/
def execUnplane (d a : VReg) (f : PFmt) (s : State) : Out :=
  let i := Instr.unplane d a f
  tileInstr i s (fun x s =>
    let p := pfmtPlanes f
    (tileRead x s (x.lowRd s a 0) (16 * p.count)).map (fun r =>
      let ps := planesOf r.1 p.count
      let word := fun l j => BitVec.ofNat 32 ((List.range 4).foldl (fun v c =>
        let k := planeReg p.width (4 * l + c)
        if k.1 = j then v + p.gather (column ps (4 * l + c)) * 2 ^ k.2 else v) 0)
      (wroteRegs x i (applyLanes x (fun l =>
        { regs := (List.range (if p.width = 16 then 2 else 1)).map (fun j => (d.toNat + j, word l j)) }) r.2), [])))

/-- CB.LD (R359). -/
def execCbLd (a : VReg) (s : State) : Out :=
  tileInstr (.cbLd a) s (fun x s =>
    (tileRead x s (x.lowRd s a 0) 512).map (fun r =>
      (r.2.modUnit x.u (fun y => { y with
        book := (List.range 256).foldl (fun m k => SMap.set 0 m k (BitVec.ofNat 16 (leNat ((r.1.drop (2 * k)).take 2)))) y.book }), [])))

-- holding the engine -------------------------------------------------------------------------------------------------

/-- The governor of a die would grant to a unit now (R221): its served grant, or a free grant with no earlier request queued. -/
def grants (d : Die) (u : Nat) : Bool :=
  d.served.any (fun e => e.1 == u) || (decide (d.held.length + d.served.length < d.hcap) && (d.queue = [] || d.queue.head? == some u))

/-- Take the grant and the engine (R221, R346). -/
def takeEngine (s : State) (u : Nat) : State :=
  let k := (s.unit u).at_
  let s := s.modDie (dieOf k) (fun d => { d with held := d.held ++ [u], served := d.served.filter (fun e => e.1 != u), queue := d.queue.filter (fun v => v != u) })
  let s := s.modCore k (fun c => { c with engine := some u })
  s.modUnit u (fun y => { y with engQueued := false, engPower := false, engBusy := false })

/-- Give up the engine and the grant (R221, R346). -/
def freeEngine (s : State) (u : Nat) : State :=
  let k := (s.unit u).at_
  if (s.core k).engine = some u && (s.unit u).core.isSome then
    (s.modCore k (fun c => { c with engine := none })).modDie (dieOf k) (fun d => { d with held := d.held.erase u })
  else s

/-- ENG.ACQ for a unit (Table 9-7): the state after it, and whether it succeeded. -/
def engAcq (s : State) (u : Nat) : State × Bool :=
  let k := (s.unit u).at_
  match (s.core k).engine with
  | some v =>
    if v = u then (s.modUnit u (fun y => { y with engPower := false, engBusy := false }), true)
    else (s.modUnit u (fun y => { y with engBusy := true, engPower := false }), false)
  | none =>
    if grants (s.die (dieOf k)) u then (takeEngine s u, true)
    else (((s.modDie (dieOf k) (fun d => if d.queue.contains u then d else { d with queue := d.queue ++ [u] })).modUnit u
      (fun y => { y with engQueued := true, engPower := true, engBusy := false })), false)

/-- ENG.ACQ (R221, R346): in a deterministic launch it waits until it succeeds. -/
def execEngAcq (p : Nib) (s : State) : Out :=
  withIssueE (.engAcq p) s (fun _ _ => none) (fun x ts s =>
    let r := engAcq s x.u
    if !r.2 && (s.unit x.u).cfg.det then .error (fun s => (engAcq s x.u).1)
    else .ok (finish x (.engAcq p) ts (applyLanes x (fun _ => wp p r.2) r.1)))

/-- ENG.REL (R346): after the unit's tile-engine instructions. -/
def execEngRel (s : State) : Out := withIssueE .engRel s preTile (fun x ts s => .ok (finish x .engRel ts (freeEngine s x.u)))

end Sys2Proof.Machine
end

