-- ==== Sys2Proof/Machine/Preempt.lean ====
section
/-! DEFINITION. Pre-emption and resume (R63 to R66, R155, R160, R193, R224, R380 to R382), and the synchronisation at which a deterministic unit may be
pre-empted. -/

namespace Sys2Proof.Machine

-- requests (R224) ----------------------------------------------------------------------------------------------------

/-- Dies that a card may use for the gang of unit `low`. -/
def diesFor (n : NodeSt) (trailer : Bool) (low : Nat) : List Nat := if n.det then [n.detDie low trailer] else List.range 16

/-- Resident units that a starved card may displace, in the order in which they are chosen: the lowest priority first, then the most recently started. -/
def victims (s : State) (n : Nat) : List Nat :=
  let x := s.node n
  let dies := x.sides.flatMap (fun t => (nextGangs s n t).flatMap (diesFor x t))
  let vs := (List.range s.units.length).filter (fun u =>
    let y := s.unit u
    (match y.core with | some k => dies.contains (dieOf k) | none => false) && !y.cancelled && !y.stopping && decide (y.cfg.prio < x.prio))
  vs.foldl (fun l u =>
    let y := s.unit u
    let before := l.takeWhile (fun v => let z := s.unit v; decide (z.cfg.prio < y.cfg.prio ∨ (z.cfg.prio = y.cfg.prio ∧ y.startedAt < z.startedAt)))
    before ++ u :: l.drop before.length) []

/-- Some starved card asks for this unit next. -/
def wanted (s : State) (u : Nat) : Bool :=
  (List.range s.nodes.length).any (fun n => starved s n &&
    ((victims s n).find? (fun v => !(s.unit v).preempting)) == some u && !(victims s n).any (fun v => (s.unit v).preempting))

/-- Resident members of a unit's gang. -/
def liveGang (s : State) (u : Nat) : List Nat := (gangOf s u).filter (fun v => !(s.unit v).ended)

/-- A whole gang is asked to leave. -/
def askGang (s : State) (u : Nat) : State := (liveGang s u).foldl (fun s v => s.modUnit v (fun y => { y with preempting := true })) s

-- when it takes effect -----------------------------------------------------------------------------------------------

/-- Store queues are emptied in order as far as R142 lets them (R155, R380). -/
def flushQueue (s : State) (u c : Nat) : Nat → State
  | 0 => s
  | fuel + 1 => if ((s.unit u).crew c).fifo = [] then s else flushQueue (storeSend s u c) u c fuel

/-- The queues of a unit's crews. -/
def flushUnit (s : State) (u : Nat) : State :=
  (List.range (s.unit u).crews.length).foldl (fun s c => flushQueue s u c ((s.unit u).crew c).fifo.length) s

/-- A unit that has stopped can be saved now. -/
def unitQuiet (s : State) (u : Nat) : Bool :=
  let y := s.unit u
  y.core.isSome && !y.cancelled && y.sweeps = [] && crewsQuiet s u && y.crews.all (fun x => x.fifo = [])

/-- A unit is saved and leaves its core (R64, R155, R221, R380). -/
def saveUnit (s : State) (u : Nat) : State :=
  let y := s.unit u
  match y.core with
  | none => s
  | some k =>
    let others := ((s.pendingSet k).filter (fun o => o.u != some u)).map (fun o => o.id)
    let s := s.modUnit u (fun y => { y with engSaved := (s.core k).engine == some u, barWaits := (y.barWaits ++ others).eraseDups })
    let s := setStatus (saveImage s u) u .evictable
    let s := loseEngine s u
    let s := s.modUnit u (fun y => { y with
      core := none, lastCore := some k, preempting := false, leftAt := s.now
      crews := y.crews.map (fun x => { x with active := false, since := s.now }) })
    fillActive s k 8

/-- A gang that has stopped leaves whole (R201, R380). -/
def saveGang (s : State) (g : List Nat) : State := if g != [] && g.all (unitQuiet s) then g.foldl saveUnit s else s

/-- A CANCEL that a node's units kept waiting is complete where no other node does: its dispatcher journals and answers it (R222). -/
def answerCancel (s : State) (m : Nat) : State :=
  match s.op? m with
  | none => s
  | some o => match o.key with
    | some k => if o.phase == .held && !cancelWaits s m then
        verdictBoth (s.addEntry (o.entry k { s := s, res := some [0] } 0 [])) o (.answer (.done [0] [] false false)) else s
    | none => s

/-- A node that is being cancelled is settled where its units have stopped, and the CANCELs that wait for it are answered. -/
def settleTurn (s : State) (n : Nat) : State :=
  let ms := (s.node n).stopping.getD []
  let s := settleNode s n
  if (s.node n).stopping.isSome then s else ms.foldl answerCancel s

/-- A unit that a cancel stops stops now (R222). -/
def stopNow (s : State) (u : Nat) : State := settleTurn (stopUnit s u) (s.unit u).cfg.node

/-- A unit with a lane that stands parked for good: a deterministic one does not come to a UNIT.SYNC any more. (DEDUCED, log entry 26.) -/
def syncless (y : UnitSt) : Bool :=
  y.crews.any (fun x => x.split.any (fun e => e.status == .parked && !e.toHandler) || x.tab.any (fun w => w.lst == .parked && w.held))

/-- PREEMPT (R380): the request of the dispatcher where there is none yet, then the steps that its units are ready for. A deterministic unit waits for its
next UNIT.SYNC (R160). A unit that a cancel stops waits in the same way (R222). -/
def preemptTurn (s : State) (u : Nat) : State :=
  let y := s.unit u
  if y.core.isNone || y.cancelled then s
  else if y.stopping then
    if y.sweeps = [] && ((s.node y.cfg.node).doom != 0 || (if y.cfg.det then syncless y else crewsQuiet s u)) then stopNow s u else s
  else
    let s := if y.preempting then s else if wanted s u then askGang s u else s
    if !(s.unit u).preempting || y.cfg.det then s
    else
      let g := liveGang s u
      if g.any (fun v => !crewsQuiet s v) then s else saveGang (g.foldl flushUnit s) g

def execPreempt (u : Nat) (s : State) : Out := .next (preemptTurn s u)

/-- PREEMPT_SAVED (R64): the image writes are accepted. -/
def execPreemptSaved (u : Nat) (s : State) : Out :=
  .next (if (s.unit u).status == .evictable && !(s.unit u).cancelled then setStatus s u .saved else s)

/-- UNIT_SYNC_COMPLETE (R335); a unit that is asked to leave, and its gang, leave where UNIT.SYNC completes for all of them (R160, R201), and one that a
cancel stops stops there (R222). (DEDUCED, log entry 41.) -/
def unitSyncTurn (s : State) (u : Nat) : State :=
  let y := s.unit u
  let g := liveGang s u
  if y.cfg.det && y.stopping then
    if unitArrived y 15 && unitReleased s u 0 && y.sweeps = [] then stopNow (unitSync s u) u else s
  else if y.cfg.det && y.preempting && g.all (fun v => unitArrived (s.unit v) 15 && unitReleased s v 0) then
    if g.any (fun v => (s.unit v).sweeps != []) then s
    else saveGang (g.foldl unitSync s) g
  else unitSync s u

def execUnitSyncComplete (u : Nat) (s : State) : Out := .next (unitSyncTurn s u)

-- resuming (R381, R382) ----------------------------------------------------------------------------------------------

/-- Another core takes the unit: the last core writes its dirty lines back and drops the rest (R65). -/
def leaveLastCore (s : State) (u : Nat) : State :=
  (((s.unit u).rows.filter (fun e => e.2.here)).foldl (fun s e => evictRow s u e.1) s).modUnit u (fun y => { y with lastCore := none })

/-- A split entry as the image holds it (Table 2-6). -/
def Entry.ofImg (n : Nat) : Entry :=
  { pc := BitVec.ofNat 64 (bits n 0 64), mask := BitVec.ofNat 32 (bits n 64 32)
    status := (match bits n 96 2 with | 0 => .empty | 1 => .runnable | 2 => .waiting | _ => .parked)
    waitOn := BitVec.ofNat 4 (bits n 98 4), handler := n.testBit 102, idx := bits n 103 4, llDone := n.testBit 107 }

/-- The clause header of a started entry is read again from PC - 4 × (index + 1) (R56); where that fetch fails the entry, when it runs, reads it again. -/
def readHeader (s : State) (u : Nat) (e : Entry) : State × Entry :=
  if !e.started then (s, e)
  else (fetchReads s u e.handler e.header, match fetchWord s u e.handler e.header with
    | .ok h => { e with hdr := h, stale := false }
    | .error _ => { e with hdr := 0xE00001E0, stale := true })

/-- A split entry is read from the image. What the image has no place for stays where the entry is the one that was saved; of any other, the text says whether
it stands at a header (R189). -/
def readEntry (s : State) (u : Nat) (n : Nat) (old : Entry) : State × Entry :=
  let e := Entry.ofImg n
  if e.status == .empty then (s, {})
  else if old.img = e.img then readHeader s u old
  else readHeader s u { e with started := (match fetchWord s u e.handler e.pc with | .ok w => !isMarker w | .error _ => false) }

/-- What a waiting lane waits on, as the instruction at its place names it (Table 8-4). -/
def waitAt (s : State) (u : Nat) (pc : Addr) : BitVec 4 :=
  match fetchWord s u false pc with
  | .ok w => (match decodeWord w with | .ok (.wait m) => m | .ok .unitSync => 15 | .ok .gangSync => 14 | _ => 13)
  | .error _ => 13

/-- A serial lane word is read from the image (Table 8-4). -/
def readLane (s : State) (u : Nat) (n : Nat) (old : LaneWord) : LaneWord :=
  let pc := (s.unit u).cfg.code.extractLsb' 32 32 ++ BitVec.ofNat 32 (n / 4 * 4)
  let lst : Lst := match n % 4 with | 0 => .runnable | 1 => .waiting | 2 => .gone | _ => .parked
  if old.pc == pc && old.lst == lst then old
  else { pc := pc, lst := lst, held := lst == .parked, waitOn := if lst == .waiting then waitAt s u pc else 0 }

/-- A stream record (Table 13-11). -/
def Strm.ofImg (n : Nat) : Strm := { bound := n.testBit 0, dr := BitVec.ofNat 7 (bits n 1 7), dims := BitVec.ofNat 2 (bits n 8 2), esz := BitVec.ofNat 2 (bits n 10 2) }

/-- A crew record is read from the image (Table 2-6). The choice of an entry stays (R179). -/
def readCrew (s : State) (u c : Nat) : State × Crew :=
  let y := s.unit u
  let x := y.crew c
  let n := s.mem.nat (y.base + 256 + 256 * c) 256
  let x' : Crew := { x with
    masks := (List.range 12).map (fun k => BitVec.ofNat 32 (bits n (1024 + 32 * k) 32))
    serial := n.testBit 1504
    loops := if y.loop then (List.range 32).foldl (fun m l => SMap.set 0 m l (BitVec.ofNat 16 (bits n (1536 + 16 * l) 16))) [] else []
    streams := if y.loop then List.replicate 4 {} else (List.range 4).map (fun k => Strm.ofImg (bits n (1536 + 128 * k) 128)) }
  if n.testBit 1504 then
    let l := bits n 1505 5
    let tab := (List.range 32).map (fun l => readLane s u (bits n (32 * l) 32) (x.word l))
    let runs := x.serial && x.chosen.isSome && x.slane == l && tab.getD l {} == x.word l
    let r := readHeader s u (x.entry 0)
    (r.1, { x' with slane := l, tab := tab, chosen := if runs then some 0 else none
                    split := if runs then r.2 :: List.replicate 7 {} else List.replicate 8 {} })
  else
    let r := (List.range 8).foldl (fun (a : State × List Entry) e =>
      let r := readEntry a.1 u (bits n (128 * e) 128) (x.entry e)
      (r.1, a.2 ++ [r.2])) (s, [])
    (r.1, ({ x' with slane := bits n 1505 5, tab := [], split := r.2 } : Crew).dropChoice)

/-- A fibre record is read from the image (Table 2-7). -/
def Fibre.ofImg (n : Nat) (f : Fibre) : Fibre :=
  { f with
    pred := BitVec.ofNat 16 (bits n 0 16) ||| 1, wb := bits n 16 10, ended := n.testBit 26, inBasin := n.testBit 27
    serial := BitVec.ofNat 16 (bits n 32 16), low := BitVec.ofNat 16 (bits n 48 16)
    fpmode := BitVec.ofNat 8 (bits n 80 8), fpflags := BitVec.ofNat 8 (bits n 88 8), amax := BitVec.ofNat 32 (bits n 96 32)
    sat := BitVec.ofNat 32 (bits n 128 32), code := BitVec.ofNat 8 (bits n 160 8), cause := BitVec.ofNat 4 (bits n 168 4), faddr := BitVec.ofNat 64 (bits n 192 64) }

/-- The image of a unit that becomes resident is read (R24, R56, R57): header, crew and fibre records, and the engine tables. Poison in them is consumed. What the
image has no place for stays. (DESIGN CHOICE, log entry 7.) -/
def readImage (s : State) (u : Nat) : State :=
  let y := s.unit u
  let places := [(y.base, 256 + 256 * y.crews.length), (y.region 5, 32 * y.fibs.length), (y.region 9, 768)]
  let s := places.foldl (fun s p => decodeRange s p.1 p.2) s
  let s := if places.any (fun p => s.poisonedAt p.1 p.2) then consumePoison s y.cfg.node else s
  let s := (List.range y.crews.length).foldl (fun s c => let r := readCrew s u c; r.1.modCrew u c (fun _ => r.2)) s
  s.modUnit u (fun y => { y with
    engSaved := (Memory.read s.mem (y.base + 4)).getLsbD 2
    ubarGen := BitVec.ofNat 16 (s.mem.nat (y.base + 138) 2)
    turnDrained := (Memory.read s.mem (y.base + 140)).getLsbD 1
    fibs := (List.range y.fibs.length).map (fun f => Fibre.ofImg (s.mem.nat (y.region 5 + 32 * f) 32) (y.fib f))
    rules := Memory.writeN [] 0 (Memory.readN s.mem (y.region 9) 256)
    book := (List.range 256).foldl (fun m k => SMap.set 0 m k (BitVec.ofNat 16 (s.mem.nat (y.region 9 + 0x100 + 2 * k) 2))) [] })

/-- Unanswered operations are sent again; clocks start anew on the new core (R129). -/
def resendLog (s : State) (u core : Nat) : State :=
  let t := s.cyc core
  { s with ops := s.ops.map (fun o =>
      if o.u != some u || o.cmd.isSome then o
      else match o.phase with
        | .answered => { o with sentAt := t }
        | .request | .response _ | .lost | .backoff _ => { o with phase := .request, tries := 0, low := s.lowOf o, sentAt := t, flying := [] }
        | _ => { o with sentAt := t }) }

/-- One member becomes resident; `none` where it must wait for the engine or a grant (R221). (DEDUCED, log entry 28.) -/
def resumeUnit (s : State) (u core : Nat) : Option State :=
  let y := s.unit u
  let s := if y.lastCore = some core then s else leaveLastCore s u
  let s := readImage (s.modUnit u (fun y => { y with core := some core, lastCore := none, told := false })) u
  let s := loadReplicas s y.cfg.job core
  let eng : Option State := if (s.unit u).engSaved then (let r := engAcq s u; if r.2 then some r.1 else none) else some s
  eng.map (fun s =>
    let s := s.modNode y.cfg.node (fun n => if n.det then { n with lcores := n.lcores.set 0 (n.lcore y.cfg.uidx y.cfg.trailer) (core + 1) } else n)
    let s := resendLog s u core
    let s := s.modUnit u (fun y => { y with
      engSaved := false, fibs := y.fibs.map (fun f => if f.watch.isSome then { f with fired := true } else f)
      crews := y.crews.map (fun x => { x with since := s.now }) })
    fillActive (setStatus s u .resident) core 8)

/-- The cores of a gang that resumes: the first on `core`, distinct, on one die, or where they are bound (R381, R382). -/
def resumeCores (s : State) (g : List Nat) (core : Nat) : Option (List Nat) :=
  let named := g.filterMap (fun u => boundCore s (s.unit u).cfg.image)
  let can := fun (u : Nat) =>
    let y := (s.unit u).cfg
    match boundCore s y.image with
    | none => ((List.range 180).map (fun i => 180 * dieOf core + (core % 180 + i) % 180)).filter (fun k => !named.contains k && coreRoom s k y.part.toNat y.fibres)
    | some k => if coreRoom s k y.part.toNat y.fibres && !imageShort s u k then [k] else []
  match g with
  | [] => none
  | u :: _ => assign ((boundCore s (s.unit u).cfg.image).getD core) (g.map can) []

/-- A request for a grant that a unit needs before it resumes waits at the governor (R221). -/
def askGrant (s : State) (u core : Nat) : State :=
  if (s.unit u).engSaved && (s.core core).engine.isNone then
    (s.modDie (dieOf core) (fun d => if d.queue.contains u || d.served.any (fun e => e.1 == u) then d else { d with queue := d.queue ++ [u] })).modUnit u
      (fun y => { y with engQueued := true })
  else s

/-- RESUME (R381): the whole gang of a saved unit, the lowest member on `core`. -/
def resumeTurn (s : State) (u core : Nat) : State :=
  let g := liveGang s u
  if g.head? != some u || g.any (fun v => (s.unit v).status != .saved || (s.unit v).cancelled || (s.unit v).core.isSome) ||
     (s.node (s.unit u).cfg.node).doom != 0 || (s.node (s.unit u).cfg.node).stopping.isSome then s
  else
    let s := tellShort s
    match resumeCores s g core with
    | none => s
    | some cores =>
      match (g.zip cores).foldl (fun (a : Option State) e => a.bind (fun s => resumeUnit s e.1 e.2)) (some s) with
      | some t => t
      | none => (g.zip cores).foldl (fun s e => askGrant s e.1 e.2) s

def execResume (u core : Nat) (s : State) : Out := .next (resumeTurn s u core)

-- the governor (R221) ------------------------------------------------------------------------------------------------

/-- GRANT_SERVED: a free grant goes to the oldest request. -/
def execGrantServed (die : Nat) (s : State) : Out :=
  let d := s.die die
  .next (match d.queue with
    | [] => s
    | u :: rest =>
      if d.held.length + d.served.length < d.hcap then s.modDie die (fun d => { d with queue := rest, served := d.served ++ [(u, s.now)] }) else s)

/-- GRANT_HOLD_EXPIRY: a served grant that its unit has not taken within 8,192 cycles. -/
def execGrantHoldExpiry (die u : Nat) (s : State) : Out :=
  .next (if (s.die die).served.any (fun e => e.1 == u && decide (e.2 + 8192 ≤ s.now)) then
      (s.modDie die (fun d => { d with served := d.served.filter (fun e => e.1 != u) })).modUnit u (fun y => { y with engQueued := false })
    else s)

end Sys2Proof.Machine
end

