-- ==== Sys2Proof/Machine/Ending.lean ====
section
/-! DEFINITION. The end of a unit (R131, R200, R202, R216), the drain of its staged reductions (R132, R133), and the commit of a node (R78, R124, R417). -/

namespace Sys2Proof.Machine

-- the completion bitmap ----------------------------------------------------------------------------------------------

/-- Rollback clears every bit of a node's bitmap (R215). -/
def clearBitmap (s : State) (n : Nat) : State :=
  let x := s.node n
  if x.bitmap = 0 then s
  else (List.range ((x.unitCount + 7) / 8)).foldl (fun s k =>
    jobModByte s x.job (BitVec.ofNat 64 (x.bitmap + k)) (fun b =>
      (List.range 8).foldl (fun b i => if 8 * k + i < x.unitCount then b &&& ~~~(BitVec.twoPow 8 i) else b) b)) s

-- the end of a unit --------------------------------------------------------------------------------------------------

/-- Everything that a unit's end waits for (R200, R216): every started or forked fibre has ended, the basin is empty, and nothing it issued is open. -/
def unitDone (s : State) (u : Nat) : Bool :=
  let y := s.unit u
  y.core.isSome && !y.cancelled && (s.node y.cfg.node).doom == 0 && usedSlots s u = [] && y.sweeps = [] &&
  y.fibs.all (fun f => !f.exists_ || f.ended) && y.crews.all (fun x => x.fifo = []) &&
  !s.ops.any (fun o => o.u == some u && o.open_) && !s.cmds.any (fun m => m.u == u)

/-- A unit leaves its core for good; its scratchpad stays for its gang (R131). -/
def leaveCore (s : State) (u : Nat) : State :=
  let y := s.unit u
  match y.core with
  | none => s
  | some k =>
    let s := loseEngine s u
    let s := s.modUnit u (fun y => { y with ended := true, core := none, lastCore := some k, preempting := false, leftAt := s.now, crews := [] })
    fillActive s k 8

/-- Both copies, or the one, of a unit have ended: it is counted (R202), and its bitmap bit is set where it has staged nothing that is still to drain (R215,
R410). The last unit is counted at the commit. -/
def countEnd (s : State) (n u : Nat) : State :=
  let x := s.node n
  let need := if x.red then 2 else 1
  if ((copiesOf s n u).filter (fun v => (s.unit v).ended)).length < need || x.done.contains u then s
  else
    let s := s.modNode n (fun x => { x with done := x.done ++ [u], launch := if x.launch + 1 < x.unitCount then x.launch + 1 else x.launch })
    if (copiesOf s n u).any (fun v => (s.unit v).staging.any (fun e => !e.local_)) then s else setBitmap s n u

/-- UNIT_END (R200). Deferred scratchpad reductions are applied first (R131). A unit that ends while a cancel stops it is stopped (R223). -/
def endTurn (s : State) (u : Nat) : State :=
  if !unitDone s u then s
  else if (s.unit u).stopping then stopNow s u
  else
    let y := s.unit u
    let g := gangOf s u
    let s := applyOwn s u
    let s := if g.all (fun v => v == u || (s.unit v).ended) then applyGang s g else s
    let s := countEnd (leaveCore s u) y.cfg.node y.cfg.uidx
    if y.protect || y.cfg.det then s else retireUnit s u

def execUnitEnd (u : Nat) (s : State) : Out := .next (endTurn s u)

-- the drain ----------------------------------------------------------------------------------------------------------

/-- Staged updates in the order in which an address takes them (R133). -/
def drainOrder (l : List Staged) : List Staged :=
  l.mergeSort (fun a b => decide (a.target.toNat < b.target.toNat ∨ (a.target = b.target ∧ a.fibre ≤ b.fibre)))

/-- What an update asks of its home. -/
def Staged.kind (e : Staged) : OpKind :=
  match decodeWord e.word with
  | .ok (.red _ _ _ op ty sat _ _) => .rmw op ty sat false
  | _ => .redDs

/-- One staged update becomes a keyed operation with its number; one without a translation is reported (R133, R416). -/
def drainOne (s : State) (u : Nat) (e : Staged) (k : Nat) (last : Bool) : State :=
  let y := s.unit u
  let s := translateReads s none y.cfg.job y.xroot e.target
  let o : Op := {
    id := 0, kind := e.kind, u := some u, crew := e.crew, fibre := e.fibre, key := some (fibreKey s u e.fibre e.seq 0), word := e.word
    va := e.target, data := leBytes e.value.toNat 4, size := if e.kind = .redDs then 8 else 4, g := e.g, phase := .queued, number := some (k, last), berth := y.berth s }
  match translate s none y.cfg.job y.xroot e.target with
  | .error w => drainReport s o w.1 w.2
  | .ok l =>
    let b := (backing s (some y.cfg.node) o.berth e.target.toNat l o.kind.acc 0).getD 0
    let loc := l.place b
    s.send { o with leaf := some l, loc := loc, owner := ownerOf loc }

/-- The unit may drain now: it has ended, its gang holds the turn, and lower members are drained (R132). -/
def mayDrain (s : State) (u : Nat) : Bool :=
  let y := s.unit u
  let n := y.cfg.node
  y.ended && !y.cancelled && y.cfg.det && !y.draining && (s.node n).doom == 0 && holdsTurn s u &&
  (List.range y.cfg.gidx).all (fun i => drainedAll s n (y.cfg.uidx - y.cfg.gidx + i))

/-- DRAIN_BEGIN (R132, R133). Gang-window reductions stay held until the gang's last member ends (R131). -/
def drainBegin (s : State) (u : Nat) : State :=
  if !mayDrain s u then s
  else
    let es := drainOrder ((s.unit u).staging.filter (fun e => !e.local_))
    let s := writeTurn (s.modUnit u (fun y => { y with draining := true, staging := y.staging.filter Staged.local_ })) u
    let at_ := fun (e : Staged) => es.filter (fun f => f.target == e.target)
    let s := ((List.range es.length).zip es).foldl (fun s p =>
      let k := ((es.take p.1).filter (fun f => f.target == p.2.target)).length
      drainOne s u p.2 k (k + 1 == (at_ p.2).length)) s
    turnUpdate s u

def execDrainBegin (u : Nat) (s : State) : Out := .next (drainBegin s u)

-- the commit ---------------------------------------------------------------------------------------------------------

/-- The conditions of R78 and R79. -/
def mayCommit (s : State) (n : Nat) : Bool :=
  let x := s.node n
  decide (n < s.nodes.length) && x.status == .running && x.doom == 0 && x.stopping.isNone && !x.drainFault && decide (x.done.length = x.unitCount) &&
  !s.ops.any (fun o => o.node s == some n && o.open_) && !s.cmds.any (fun m => (s.unit m.u).cfg.node == n) &&
  (!x.det || decide (x.unitCount ≤ x.turn)) &&
  (List.range 4).all (fun e =>
    let (p, kind, _) := x.pred e
    kind = 0 || p == x.id || (match s.nodeOf x.job p with | some m => (s.node m).status == .committed | none => false)) &&
  (x.consumed ++ x.early).all (fun m => m == n || (s.node m).status == .committed)

/-- A home that still holds lines of the node with W = 1. (DEDUCED, log entry 40.) -/
def homeLeft (s : State) (n : Nat) : Option Nat :=
  ((s.lines.filter (fun e => e.2.w && e.2.owner == n)).map (fun e => e.1 / 2 ^ 29)).foldl (fun b d => match b with | none => some d | some c => some (min c d)) none

/-- A home flips the node's lines: what it had written is the committed content (R78). -/
def flipHome (s : State) (n d : Nat) : State :=
  let mine := (s.lines.filter (fun e => e.2.w && e.2.owner == n && e.1 / 2 ^ 29 == d)).map (fun e => e.1)
  fire (mine.foldl (fun s k => s.modLine k (fun x => { x with c := !x.c, w := false, owner := 0 })) s) mine

/-- Every home has finished: the node is committed and counted (R78, R202, R417), and its entries retire (R124). -/
def committed (s : State) (n : Nat) : State :=
  let x := s.node n
  let s := dropWrites { s with ops := s.ops.filter (fun o => o.node s != some n) } n
  let s := s.modNode n (fun x => { x with status := .committed, launch := x.unitCount, shadow := [] })
  let s := completeLevels (countNode s x.job x.phase x.graph) x.job x.phase x.graph
  if x.prot || x.red then retireCommitted s n else s

/-- NODE_COMMIT (R78): first the decision, then home by home, then the count. -/
def commitTurn (s : State) (n : Nat) : State :=
  if mayCommit s n then s.modNode n (fun x => { x with status := .committing })
  else if (s.node n).status != .committing then s
  else match homeLeft s n with
    | some d => flipHome s n d
    | none => committed s n

def execNodeCommit (n : Nat) (s : State) : Out := .next (commitTurn s n)

end Sys2Proof.Machine
end

