-- ==== Sys2Proof/Machine/Rollback.lean ====
section
/-! DEFINITION. Rollback (R383, R384, R386, R390). -/

namespace Sys2Proof.Machine

/-- The rollback set of a node (R383): the closure, through consumed-from sets and early consumers, over nodes that have not committed. -/
def rollbackSet (s : State) : Nat → List Nat → List Nat
  | 0, set => set
  | fuel + 1, set =>
    let more := (List.range s.nodes.length).filter (fun k =>
      let n := s.node k
      !set.contains k && n.status == .running && n.stopping.isNone && set.any (fun m => n.consumed.contains m || n.early.contains m))
    if more = [] then set else rollbackSet s fuel (set ++ more)

/-- A node can be rolled back in place (R384). -/
def rollable (n : NodeSt) : Bool := (n.prot || n.red) && (n.det || !n.direct)

/-- The units of a node that have not stopped for good. -/
def unitsOf (s : State) (n : Nat) : List Nat := (List.range s.units.length).filter (fun u => (s.unit u).cfg.node == n && !(s.unit u).cancelled)

/-- The nodes of a set stop, and nothing of them is sent any more (R384). -/
def stopSet (s : State) (set : List Nat) : State :=
  set.foldl (fun s n => ((unitsOf s n).foldl stopUnit s).modNode n (fun x => { x with doom := 4, passedAt := some s.now })) s

/-- ROLLBACK_IN_PLACE (R383 to R386, R390): a node that has consumed poison, or met a PAIR_MISMATCH, and its set. Their units stop at once. (DESIGN CHOICE, log entry 67.) -/
def rollbackTurn (s : State) (n : Nat) : State :=
  let x := s.node n
  if decide (s.nodes.length ≤ n) || x.status != .running || x.stopping.isSome || (x.doom != 1 && x.doom != 2) then s
  else if x.doom = 2 ∧ 3 ≤ x.retries then
    (cancelNodes s none (fun y => y.job == x.job && y.id == x.id)).tell (.pair 1 x.job x.id)
  else
    let set := rollbackSet s s.nodes.length [n]
    if !set.all (fun k => rollable (s.node k)) then escalatePhase s x.job x.phase
    else
      let s := stopSet s set
      if x.doom = 2 then (s.modNode n (fun y => { y with retries := y.retries + 1 })).tell (.pair 0 x.job x.id)
      else s.tell (.poison 0 (set.map (fun k => (s.node k).id)))

def execRollbackInPlace (n : Nat) (s : State) : Out := .next (rollbackTurn s n)

/-- The card goes back to its queue, ahead of its priority's other cards, as it was accepted (R384). -/
def requeue (s : State) (n : Nat) : State :=
  let s : State := { s with nodes := s.nodes.map (fun x => { x with order := x.order + 1 }) }
  s.modNode n (fun x => { x with
    status := .queued, order := 0, launch := 0, dispatched := [], tdispatched := [], done := [], consumed := [], early := [], direct := false
    first := false, lcores := [], turn := 0, passedAt := none, blocking := false, drainFault := false, doom := 0, holds := true, shadow := [] })

/-- ROLLBACK_REQUEUE (R384): 70,000 cycles after the last send, the homes, the bitmap, the images and the card are as at launch. -/
def requeueTurn (s : State) (n : Nat) : State :=
  let x := s.node n
  match x.passedAt with
  | none => s
  | some t =>
    if x.doom != 4 || x.status != .running || x.stopping.isSome || decide (s.now < t + 70000) then s
    else
      let us := (List.range s.units.length).filter (fun u => (s.unit u).cfg.node == n && (s.unit u).cancelled)
      let s : State := { s with
        ops := s.ops.filter (fun o => match o.u with | some u => !us.contains u || (o.phase == .held && o.kind.begun) | none => true)
        drains := s.drains.map (fun d => if d.node = n then { d with held := [] } else d) }
      let s := clearBitmap (dropWrites s n) n
      requeue (us.foldl resetImage s) n

def execRollbackRequeue (n : Nat) (s : State) : Out := .next (requeueTurn s n)

end Sys2Proof.Machine
end

