-- ==== Sys2Proof/Machine/Steps.lean ====
section
/-! DEFINITION. The step (R96 to R102) and the dredge (R108 to R110), and what the management region sets of them (R97, R108, R396). -/

namespace Sys2Proof.Machine

/-- A node of the job has started and has neither committed nor been rolled back (R97, R108, R396). -/
def jobRuns (s : State) (job : Nat) : Bool := s.nodes.any (fun n => n.job == job && n.uncommitted && n.doom != 4)

/-- The job that the management registers act on (Table 17-2). -/
def State.ctlJob (s : State) : Nat := s.jobctl.toNat % 2 ^ 32

/-- The stamped operations. -/
def OpKind.stamped : OpKind → Bool | .ldDs | .stDs _ | .addDs | .redDs => true | _ => false

/-- A stamped operation that has been sent and that its home has not applied (R100): one that has been refused, or is of unknown fate, among them. (DEDUCED, log
entry 42.) (DEDUCED, log entry 42.) -/
def unapplied (s : State) (o : Op) : Bool :=
  o.kind.stamped && o.open_ && o.phase != .queued && !s.journal.any (fun e => e.owner == o.owner && some e.key == o.key)

/-- Cores with resident units of a job. -/
def coresOf (s : State) (job : Nat) : List Nat := (s.units.filterMap (fun y => if y.cfg.job = job then y.core else none)).eraseDups

/-- What a STEP.ADV in progress waits for (R100): every replica, and every stamped operation that was sampled before and sent. -/
def stepDone (s : State) (job : Nat) : Bool :=
  let j := s.job job
  (coresOf s job).all j.gNew.contains && s.ops.all (fun o => o.job s != job || o.number.isSome || o.g == j.g || !unapplied s o)

/-- The master journals and answers an operation that it has held (R88, R100). -/
def answerHeld (s : State) (o : Op) : State :=
  match o.key with
  | some k => (s.addEntry (o.entry k { s := s } 0 [])).reply o.id (.done [] [] false false)
  | none => s

/-- STEP_ADV_COMPLETE (R100): the master journals and answers the operation; a new boundary makes a dredge pass due on every stack (R109). -/
def stepComplete (s : State) (m : Nat) : State :=
  match s.op? m with
  | none => s
  | some o =>
    let job := o.job s
    if o.kind != .stepAdv || o.phase != .held || (s.job job).advancing != some m || !stepDone s job then s
    else
      let g := (s.job job).g
      let s := s.modJob job (fun j => { j with gOld := none, gNew := [], advancing := none, waitStep := if o.u.isSome then j.waitStep else j.waitStep - 1 })
      let s := if g.toNat % 2 ^ 20 = 0 then (List.range 16).foldl (fun s k => s.modStack k (fun x => { x with due := x.due ++ [(job, g)] })) s else s
      answerHeld s o

def execStepAdvComplete (m : Nat) (s : State) : Out := .next (stepComplete s m)

/-- A core's replica takes the master's step (R99, R100). -/
def adoptStep (s : State) (job core : Nat) : State :=
  s.modJob job (fun j => if j.gOld.isSome && !j.gNew.contains core then { j with gNew := j.gNew ++ [core] } else j)

/-- A core's replica takes the master's berth map; where every replica has it, the BER.PUB or TAG.RETIRE completes (R85, R88). -/
def adoptMap (s : State) (job core : Nat) : State :=
  let s := s.modJob job (fun j => if j.mapOld.isSome && !j.mapNew.contains core then { j with mapNew := j.mapNew ++ [core] } else j)
  let j := s.job job
  match j.mapping with
  | none => s
  | some m =>
    if !(coresOf s job).all j.mapNew.contains then s
    else
      let s := s.modJob job (fun j => { j with mapOld := none, mapNew := [], mapping := none })
      match s.op? m with | some o => answerHeld s o | none => s

-- the dredge ---------------------------------------------------------------------------------------------------------

/-- A RED.DS of the job, staged or on its way, was sampled before the boundary (R109). -/
def earlierRed (s : State) (job : Nat) (b : BitVec 24) : Bool :=
  let before := fun (g : BitVec 24) => decide (0 < (b - g).toInt)
  s.units.any (fun y => y.cfg.job == job && !y.cancelled && y.staging.any (fun e => e.type == 0x3F && before e.g)) ||
  s.ops.any (fun o => o.kind == .redDs && o.open_ && o.job s == job && before o.g && !s.journal.any (fun e => e.owner == o.owner && some e.key == o.key))

/-- DREDGE_PASS_BEGIN (R109). -/
def execDredgePassBegin (stack : Nat) (s : State) : Out :=
  .next (match (s.stack stack).due with
    | (job, b) :: _ =>
      if (s.stack stack).busy || earlierRed s job b then s
      else s.modStack stack (fun x => { x with busy := true, target := b, zeroed := 0 })
    | [] => s)

/-- The dredge visits one slot, by its offset in the stack: an old stamp is carried to the boundary (R109). (DEDUCED, log entry 42.) -/
def dredgeSlot (s : State) (stack off : Nat) : State :=
  let x := s.stack stack
  let loc := stack * 2 ^ 36 + off
  match x.due with
  | (job, b) :: _ =>
    if !x.busy || off % 8 != 0 || !dredged s loc || reserved loc then s
    else
    let s := decodeRange s loc 8
    if (s.line (loc / 128)).poison then s.modStack stack (fun x => { x with skipped := true })
    else match (s.job job).dredge (slotOf (Memory.readN s.mem loc 8)) b with
      | none => s
      | some v =>
        let s := s.land none false ((List.range 8).map (fun i => (loc + i, v.toBytes.getD i 0)))
        if v.value.toNat % 2 ^ 31 = 0 then s.modStack stack (fun x => { x with zeroed := if x.zeroed.toNat + 1 < 2 ^ 32 then x.zeroed + 1 else x.zeroed }) else s
  | [] => s

/-- The slots of a region register, as offsets in the stack. -/
def regionSlots (r : BitVec 64) : List Nat :=
  if r.getLsbD 63 then (List.range (bits r.toNat 20 20 * 8192)).map (fun k => bits r.toNat 0 20 * 65536 + 8 * k) else []

/-- DREDGE_PASS_END (R109): the slots not visited yet are visited, and the pass finishes. -/
def execDredgePassEnd (stack : Nat) (s : State) : Out :=
  .next (if !(s.stack stack).busy then s
    else
      let s := ((s.stack stack).drgn.flatMap regionSlots).foldl (fun s o => dredgeSlot s stack o) s
      s.modStack stack (fun x => { x with busy := false, doneAt := x.target, due := x.due.tail }))

-- management registers of the step and the dredge --------------------------------------------------------------------

/-- DCLS_LOAD (R96, R97, Table 4-2). -/
def execDclsLoad (v : BitVec 64) (s : State) : Out :=
  let cls := bits v.toNat 32 8
  let beta := v.setWidth 32
  .next (if jobRuns s s.ctlJob then { s with dcls := 1 }
    else if cls = 0 ∨ 0x3F800000 < beta.toNat then { s with dcls := 2 }
    else { s.modJob s.ctlJob (fun j => { j with classes := j.classes.set 0x3F800000 cls beta }) with dcls := 0 })

/-- STEPSET (R99, R396): every replica takes the step, and no pass is due for what was jumped over: one of the job's that is in progress ends where it stands.
(DESIGN CHOICE, log entry 65.) -/
def execStepset (v : BitVec 64) (s : State) : Out :=
  let g := v.setWidth 24
  let job := s.ctlJob
  .next (if jobRuns s job then s
    else
      let s := s.modJob job (fun j => { j with g := g, gOld := none, gNew := [] })
      (List.range 16).foldl (fun s k => s.modStack k (fun x =>
        { x with doneAt := BitVec.ofNat 24 (g.toNat / 2 ^ 20 * 2 ^ 20), busy := x.busy && (x.due.head?.map Prod.fst) != some job, due := x.due.filter (fun e => e.1 != job) })) s)

/-- DRGN_WRITE (R108, Table 4-5). -/
def execDrgnWrite (stack n : Nat) (v : BitVec 64) (s : State) : Out :=
  .next (if jobRuns s s.ctlJob || decide (16 ≤ stack ∨ 16 ≤ n) then s
    else s.modStack stack (fun x => { x with drgn := x.drgn.set n (v &&& 0x800000FFFFFFFFFF) }))

end Sys2Proof.Machine
end

