-- ==== Sys2Proof/Machine/Parts.lean ====
section
/-! DEFINITION. Events of the parts: pool misses (R46), symbol errors (R37), tag mirrors (R29), scrubbing (R73), failed banks (R38), timing replays (R391), a core's reset (R289), ports
and flits (R393), power-on (R404), translations that a core caches (R25, R26). -/

namespace Sys2Proof.Machine

-- the pool (R46) -----------------------------------------------------------------------------------------------------

def execPoolMissFill (u line : Nat) (victim : Option (Nat × Nat)) (s : State) : Out := .next (missFill s u line victim)

/-- Symbols of a pool row go bad; a read that finds them at once treats them (R37). (DEDUCED, log entry 38.) -/
def hitSymbols (s : State) (u row : Nat) (syms : List Nat) (found : Bool) : State :=
  if !((s.unit u).row row).here then s
  else
    let s := s.modUnit u (fun y => y.modRow row (fun r => { r with bad := (r.bad ++ syms.filter (fun k => decide (k < 18))).eraseDups }))
    if found then touchRow s u row else s

/-- The device declares a bank failed (R38). -/
def failBank (s : State) (core bank : Nat) : State :=
  (s.modCore core (fun c => { c with bank := some bank, bankErrs := [] })).machineCheck 0 core bank

/-- BANK_FAILURE (R38): corrections on 64 distinct rows of one bank within 2^20 cycles. -/
def execBankFailure (core bank : Nat) (s : State) : Out :=
  let c := s.core core
  let rows := ((c.bankErrs.filter (fun e => e.1 == bank && decide (s.now < e.2.2.2 + 2 ^ 20))).map (fun e => (e.2.1, e.2.2.1))).eraseDups
  .next (if c.bank.isNone && decide (64 ≤ rows.length) then failBank s core bank else s)

-- tag mirrors (R29) --------------------------------------------------------------------------------------------------

/-- TAG_MIRROR_FILL (R29): the mirror of 1,024 lines takes a line's four tags. -/
def execTagMirrorFill (core line : Nat) (s : State) : Out :=
  .next (if 1024 ≤ (s.core core).mirror.length ∧ (s.core core).mirror.get 0 line = 0 then s
    else s.modCore core (fun c => { c with mirror := c.mirror.set 0 line (1 + (List.range 4).foldl (fun n k => n + (s.tags.get 0 (4 * line + k)).toNat * 16 ^ k) 0) }))

-- stacks -------------------------------------------------------------------------------------------------------------

/-- SCRUB_READ (R73). -/
def execScrubRead (stack sector : Nat) (s : State) : Out := .next (if sector < 2 ^ 31 then decodeSector s (stack * 2 ^ 31 + sector) else s)

-- timing (R391), reset of a core (R289) ------------------------------------------------------------------------------

/-- TIMING_REPLAY (R391): the core counts it; nothing else differs. -/
def execTimingReplay (core : Nat) (s : State) : Out :=
  .next (s.modCore core (fun c => { c with replayed := c.replayed + 1, replays := c.replays ++ [s.now] }))

/-- REPLAY_LIMIT (R391): more than 65,536 replays within 2^24 cycles. -/
def execReplayLimit (core : Nat) (s : State) : Out :=
  .next (if 65536 < ((s.core core).replays.filter (fun t => decide (s.now < t + 2 ^ 24))).length
    then (s.modCore core (fun c => { c with replays := [] })).machineCheck 3 core 0 else s)

/-- CORE_RESET (R38, R289), of a core without resident units. -/
def execCoreReset (core : Nat) (s : State) : Out :=
  .next (if s.onCore core != [] then s else s.modCore core (fun c => { c with base := s.now + c.skew, bank := none, bankErrs := [], tlb := [], mirror := [] }))

-- ports (R393) -------------------------------------------------------------------------------------------------------

/-- A port trains (R393): it comes up at 224 or 112 Gb/s, or stays down. -/
def trainPort (s : State) (port rate : Nat) : State :=
  if (s.ports.getD port {}).up || (rate != 224 && rate != 112) then s else { s with ports := s.ports.set port { up := true, rate := rate } }

/-- PORT_LINK_TRAINING (R393). -/
def execPortLinkTraining (port rate : Nat) (s : State) : Out := .next (trainPort s port rate)

/-- PORT_DOWN (R393): packets on it are lost. -/
def execPortDown (port : Nat) (s : State) : Out :=
  let lost := s.ops.filter (fun o => planeOf s o == some port)
  .next { lost.foldl (fun s o => losePacket s o.id) s with ports := s.ports.set port {} }

/-- POWER_ON (R404): banks that fail their self-test, ports, and the chart, in this order, as the service processor finds them; then it reports ready, and
cards are accepted from then on. -/
def powerOn (s : State) : State :=
  if s.ready then s
  else
    let f := s.found
    let s := f.banks.foldl (fun s b => failBank s b.1 b.2) s
    let s := f.ports.foldl (fun s p => trainPort s p.1 p.2) s
    { s with devId := f.own, chart := f.devices, found := {}, ready := true }.tell .ready

def execPowerOn (s : State) : Out := .next (powerOn s)

/-- The service processor's telemetry (R404): power, temperature, and its counters: corrections of each core's pool, and of each stack. -/
def telemetryOf (s : State) (power temperature : Nat) : List Nat :=
  power :: temperature :: s.cores.map (fun k => k.2.corrected) ++ s.stks.map (fun k => k.2.corrected.toNat)

-- translations (R25, R26) --------------------------------------------------------------------------------------------

/-- A core's walker brings a leaf entry into its TLB of 512 entries. -/
def fillTlb (s : State) (core job va : Nat) : State :=
  let root := (s.job job).root
  let a := va % 2 ^ 56
  if bits root.toNat 40 20 != 0 || decide (512 ≤ (s.core core).tlb.length) || (tlbHit (s.core core).tlb job a).isSome then s
  else
    let s := walkReads s (root.toNat % 2 ^ 40) a 4
    match walk s.mem (root.toNat % 2 ^ 40) a 4 with
    | .error _ => s
    | .ok l =>
      match (List.range 4).find? (fun k => pageSize k == l.size) with
      | none => s
      | some level => s.modCore core (fun c => { c with tlb := c.tlb ++ [(job, a / l.size * l.size, level, l.ent)] })

/-- A core drops a cached translation. -/
def dropTlb (s : State) (core job va : Nat) : State :=
  s.modCore core (fun c => { c with tlb := c.tlb.filter (fun e => !(e.1 == job && va % 2 ^ 56 / pageSize e.2.2.1 * pageSize e.2.2.1 == e.2.1)) })

/-- An invalidation covers a cached entry (Table 17-3): the same job, and a page that meets the named one. -/
def tlbCovers (v : BitVec 64) (job : Nat) (e : Nat × Nat × Nat × BitVec 64) : Bool :=
  let size := bits v.toNat 22 2
  e.1 == job && (size == 3 ||
    let n := pageSize (3 - size)
    overlap (bits v.toNat 24 40 * 65536 / n * n) n e.2.1 (pageSize e.2.2.1))

end Sys2Proof.Machine
end

