-- ==== Sys2Proof/Machine/Manage.lean ====
section
/-! DEFINITION. The management region (R394 to R396, Tables 17-1 to 17-12), checkpoints and restores (R92, R94), and hosts (R112, R222, R380). -/

namespace Sys2Proof.Machine

-- translations -------------------------------------------------------------------------------------------------------

/-- A write of TLBINV; one while DONE = 0 is dropped (R395). -/
def startInv (s : State) (v : BitVec 64) : State :=
  if s.tlbinv.getLsbD 0 then { s with tlbinv := v &&& 0xFFFFFFFFFFC00000, tlbinvJob := s.ctlJob } else s

/-- TLBINV_PAGE (R395): SIZE 0 to 2. -/
def execTlbinvPage (v : BitVec 64) (s : State) : Out := .next (if bits v.toNat 22 2 = 3 then s else startInv s v)
/-- TLBINV_JOB (R395): SIZE 3. -/
def execTlbinvJob (v : BitVec 64) (s : State) : Out := .next (if bits v.toNat 22 2 = 3 then startInv s v else s)

/-- TLBINV_DONE (R26, R395): no core holds the translations any more. -/
def execTlbinvDone (s : State) : Out :=
  .next (if s.tlbinv.getLsbD 0 then s
    else { s with tlbinv := s.tlbinv ||| 1, cores := s.cores.map (fun c => (c.1, { c.2 with tlb := c.2.tlb.filter (fun e => !tlbCovers s.tlbinv s.tlbinvJob e) })) })

-- registers of a job (R396) ------------------------------------------------------------------------------------------

/-- BMCLR (Table 17-9): it starts to clear where FRAMES is not 0. -/
def execBmclr (v : BitVec 64) (s : State) : Out :=
  .next (if jobRuns s s.ctlJob || !s.bmclr.getLsbD 63 then s
    else { s with bmclr := (v &&& 0x00000FFFFFFFFFFF) ||| (if bits v.toNat 24 20 = 0 then 0x8000000000000000 else 0) })

/-- BMCLR_DONE (R74, R396): C and W of every line of the range, as far as the stack goes, are 0. -/
def execBmclrDone (s : State) : Out :=
  let v := s.bmclr.toNat
  let lo := bits v 20 4 * 2 ^ 29 + bits v 0 20 * 512
  .next (if s.bmclr.getLsbD 63 then s
    else { s with
      bmclr := s.bmclr ||| 0x8000000000000000
      lines := (s.lines.map (fun (e : Nat × LineSt) => if lo ≤ e.1 ∧ e.1 < lo + bits v 24 20 * 512 ∧ e.1 / 2 ^ 29 = bits v 20 4 then (e.1, { e.2 with c := false, w := false, owner := 0 }) else e)).filter
        (fun e => e.2 != {}) })

/-- BERTHK (Table 17-10): the master and every replica. -/
def execBerthk (v : BitVec 64) (s : State) : Out := .next (if jobRuns s s.ctlJob then s else s.modJob s.ctlJob (fun j => { j with kctx := v.setWidth 3 }))

/-- ROOT (Table 17-12): dropped too while a unit of the job is resident. -/
def execRoot (v : BitVec 64) (s : State) : Out :=
  .next (if jobRuns s s.ctlJob || coresOf s s.ctlJob != [] then s else s.modJob s.ctlJob (fun j => { j with root := v &&& 0x0FFFFFFFFFFFE000 }))

/-- A group entry's half is written (Table 17-7): MM1 in the low half, LIST in the high one. -/
def writeGroup (j : Job) (g : Nat) (high : Bool) (v : BitVec 64) : Job :=
  let e := j.groups.get (0, 0) g
  { j with groups := j.groups.set (0, 0) g (if high then (v, e.2) else (e.1, v.setWidth 10)) }

/-- MANAGEMENT_REGISTER_WRITE (R394, Tables 17-1, 17-2, 17-5 to 17-7); accesses that are not aligned to 8 are dropped. A core that offers less may leave a
bound image without a place (R382). -/
def regWrite (s : State) (off : Nat) (v : BitVec 64) : State :=
  if off % 8 != 0 then s
  else if off = 0 then
    ({ s with jobctl := v &&& 0x3FFFFFFFF } : State).modJob (v.toNat % 2 ^ 32) (fun j => { j with autostep := v.getLsbD 32 })
  else if 0x100 ≤ off ∧ off < 0x100 + 8 * 16 then s.modDie ((off - 0x100) / 8) (fun d => { d with hcap := min 180 (bits v.toNat 0 8) })
  else if 0x10000 ≤ off ∧ off < 0x10000 + 8 * 2880 then tellShort (s.modCore ((off - 0x10000) / 8) (fun c => { c with caplim := v &&& 0xFFFFF0 }))
  else if 0x20000 ≤ off ∧ off < 0x20000 + 16 * 64 then s.modJob s.ctlJob (fun j => writeGroup j ((off - 0x20000) / 16) (off % 16 == 8) v)
  else s

def execManagementRegisterWrite (off : Nat) (v : BitVec 64) (s : State) : Out := .next (regWrite s off v)

/-- MACHINE_CHECK_QUEUE (R394): a read pops one record, or returns 0. -/
def execMachineCheckQueue (s : State) : Out := .next ({ s with mchecks := s.mchecks.tail }.tell (.popped s.mchecks.head?))

/-- What a read of a register of Table 17-1 returns, for those that no other field of the state shows. -/
def dstat (x : Stack) : Nat := x.zeroed.toNat * 2 ^ 32 + x.skipped.toNat * 2 ^ 25 + x.busy.toNat * 2 ^ 24 + x.doneAt.toNat
def diectl (d : Die) : Nat := d.held.length * 256 + d.hcap
/-- (DEDUCED, log entry 44.) -/
def stackCounters (x : Stack) : Nat := x.corrected.toNat + x.misdirected.toNat * 2 ^ 21 + x.poisoned.toNat * 2 ^ 42

/-- A 64-bit read of the management region (Table 17-1). -/
def regRead (s : State) (off : Nat) : Nat :=
  let j := s.job s.ctlJob
  if off = 0 then s.jobctl.toNat
  else if off = 8 then s.dcls.toNat * 2 ^ 62
  else if off = 0x10 then s.tlbinv.toNat
  else if off = 0x18 then s.ckptReg.toNat
  else if off = 0x20 then s.bmclr.toNat
  else if off = 0x28 then j.kctx.toNat
  else if off = 0x30 then j.g.toNat
  else if off = 0x38 then j.root.toNat
  else if 0x100 ≤ off ∧ off < 0x180 then diectl (s.die ((off - 0x100) / 8))
  else if 0x1000 ≤ off ∧ off < 0x2000 then
    let x := s.stack ((off - 0x1000) / 256)
    let r := off % 256
    if r < 128 then (x.drgn.getD (r / 8) 0).toNat else if r = 128 then dstat x else if r = 136 then stackCounters x else 0
  else if 0x10000 ≤ off ∧ off < 0x10000 + 8 * 2880 then (s.core ((off - 0x10000) / 8)).caplim.toNat
  else if 0x20000 ≤ off ∧ off < 0x20000 + 16 * 64 then
    let e := j.groups.get (0, 0) ((off - 0x20000) / 16)
    if off % 16 = 8 then e.1.toNat else e.2.toNat
  else 0

-- checkpoints (R92, R94) ---------------------------------------------------------------------------------------------

/-- CKPT_START (R92, Table 17-4): BASE and TARGET take their values; a START while STATE is 01 or 10 is ignored. -/
def execCkptStart (v : BitVec 64) (s : State) : Out :=
  let busy := decide (ckptState s = 1 ∨ ckptState s = 2)
  let s : State := { s with ckptReg := (v &&& 0xFFFFFFFFFFFF0FFF) ||| (s.ckptReg &&& 0xC000) }
  .next (if v.getLsbD 13 && !busy then (setCkpt s 1).modJob s.ctlJob (fun j => { j with ckpt := 1 }) else s)

/-- CHECKPOINT (R92, R101): at the phase boundary, once AUTOSTEP's STEP.ADV has completed, the copying begins: the copy engines of each die send what they
hold to the target under keys of their own (Table 5-8). (DEDUCED, log entry 44.) -/
def execCheckpoint (job : Nat) (s : State) : Out :=
  .next (if (s.job job).ckpt == 1 && atBoundary s job && (s.job job).waitStep == 0 then
      (List.range 16).foldl (fun s d => sendOrigin s job (dispNode s d) 1
        { id := 0, kind := .engine, u := none, owner := .remote (s.ckptReg.toNat % 4096) }) ((setCkpt s 2).modJob job (fun j => { j with ckpt := 2 }))
    else s)

/-- The leaf entries of a table and of those under it. -/
def leavesUnder (m : Memory) (tbl : Nat) : Nat → List Leaf
  | 0 => []
  | fuel + 1 =>
    (List.range 1024).flatMap (fun (i : Nat) =>
      let e := BitVec.ofNat 64 (m.nat (tbl + 8 * i) 8)
      if !e.getLsbD 0 || malformed e (3 - fuel) then [] else if e.getLsbD 1 then [⟨e, pageSize (3 - fuel), 0⟩] else leavesUnder m (entPA e) fuel)

/-- A page's backings: one, two where it is staged, K where it is versioned (R18). -/
def backingsOf (l : Leaf) : Nat := if entKind l.ent = 2 then entBerths l.ent + 1 else if entStaged l.ent then 2 else 1

/-- A job's pages on this device. -/
def jobPages (s : State) (job : Nat) : List Leaf := (leavesUnder s.mem ((s.job job).root.toNat % 2 ^ 40) 4).filter (fun l => entKind l.ent != 3)

/-- The offsets of a page's lines. -/
def lineOffs (l : Leaf) : List Nat := (List.range (l.size / 128)).map (fun k => 128 * k)

/-- Lines of a job that a checkpoint holds, as the places it is read from and the places it is named by: of a staged page only backing C, under the name of
backing 0 (R92). -/
def savedLines (s : State) (job : Nat) : List (Nat × Nat) :=
  (jobPages s job).flatMap (fun (l : Leaf) => (lineOffs l).flatMap (fun (o : Nat) =>
    if entStaged l.ent then [(l.at_ (s.line (l.at_ 0 o / 128)).c.toNat o, l.at_ 0 o)]
    else (List.range (backingsOf l)).map (fun b => (l.at_ b o, l.at_ b o))))

/-- Sectors of a job, in every backing. -/
def savedSectors (s : State) (job : Nat) : List Nat :=
  (jobPages s job).flatMap (fun (l : Leaf) => (lineOffs l).flatMap (fun (o : Nat) => (List.range (backingsOf l)).flatMap (fun (b : Nat) =>
    (List.range 4).map (fun i => l.at_ b o / 32 + i))))

/-- What a checkpoint of a job holds (R92): a snapshot (DEDUCED, log entry 44), with the poison marks of its lines (DESIGN CHOICE, log entry 64).
(DEDUCED, log entry 44.) (DESIGN CHOICE, log entry 64.) -/
def takeCkpt (s : State) (job : Nat) : Ckpt :=
  let j := s.job job
  let ls := savedLines s job
  { job := job
    mem := ls.foldl (fun m p => Memory.writeN m p.2 (Memory.readN s.mem p.1 128)) []
    poison := (ls.filter (fun p => (s.line (p.1 / 128)).poison)).map (fun p => p.2 / 128)
    tags := (savedSectors s job).foldl (fun m k => SMap.set 0 m k (s.tags.get 0 k)) []
    g := j.g, classes := j.classes, open_ := j.open_, kctx := j.kctx, tagmap := j.tagmap
    journal := s.journal.filter (fun e => e.key.job == job) }

/-- CHECKPOINT_DONE (R92): the target has acknowledged every byte. What was read has decoded (R70). -/
def execCheckpointDone (job : Nat) (s : State) : Out :=
  .next (if (s.job job).ckpt == 2 && !s.ops.any (fun o => o.copies job) then
      let s := if s.sectors = [] then s else (savedLines s job).foldl (fun s p => decodeRange s p.1 128) s
      (setCkpt { s with ckpts := s.ckpts ++ [takeCkpt s job] } 0).modJob job (fun j => { j with ckpt := 0 })
    else s)

/-- The memory of a job as a checkpoint holds it is written back (R94): bytes, tags, and W of staged lines (DEDUCED, log entry 44), and poison marks (DESIGN
CHOICE, log entry 64). (DESIGN CHOICE, log entry 64.) -/
def restoreMem (s : State) (job : Nat) (c : Ckpt) : State :=
  let ls := savedLines s job
  let ks := savedSectors s job
  let staged := ((jobPages s job).filter (fun l => entStaged l.ent)).flatMap (fun (l : Leaf) => (lineOffs l).map (fun o => l.at_ 0 o / 128))
  let s := ls.foldl (fun s p =>
    let s : State := { s with mem := Memory.writeN s.mem p.1 (Memory.readN c.mem p.2 128) }
    s.modLine (p.1 / 128) (fun x => { x with poison := c.poison.contains (p.2 / 128) })) s
  let s : State := { s with tags := ks.foldl (fun m k => SMap.set 0 m k (c.tags.get 0 k)) s.tags }
  staged.foldl (fun s k => s.modLine k (fun x => { x with w := false, owner := 0 })) s

/-- RESTORE (R94): the last checkpoint of a job, while none of its nodes runs: memory, the journals, and the job's masters and replicas. The copy engines of
each die write it under a key of their own (Table 5-8). -/
def restoreTurn (s : State) (job : Nat) : State :=
  match (s.ckpts.filter (fun c => c.job == job)).getLast? with
  | none => s
  | some c =>
    if jobRuns s job then s
    else
      let s := restoreMem s job c
      let s : State := { s with journal := s.journal.filter (fun e => e.key.job != job) }
      let s := (c.journal.filter (fun e => e.key.job == job)).foldl (fun s e => s.addEntry { e with pins := [], kept := false }) s
      let s := s.modJob job (fun j => { j with
        g := c.g, gOld := none, gNew := [], classes := c.classes, open_ := c.open_, kctx := c.kctx, tagmap := c.tagmap, mapOld := none, mapNew := [] })
      (List.range 16).foldl (fun s d =>
        sendOrigin s job (dispNode s d) 1 { id := 0, kind := .engine, u := none, owner := .die d }) s

def execRestore (job : Nat) (s : State) : Out := .next (restoreTurn s job)

-- hosts --------------------------------------------------------------------------------------------------------------

/-- A host sends a keyed operation for a job (R112, Table 5-8). -/
def sendHost (s : State) (host job : Nat) (o : Op) : State := sendOrigin s job (hostNode host) 0 o

/-- A host posts a card (R210), and cancels (R222). -/
def hostPost (s : State) (host job die : Nat) (card : Addr) : State :=
  sendHost s host job { id := 0, kind := .post die, u := none, owner := .disp die, va := card, size := 0 }
def hostCancel (s : State) (host job level id : Nat) : State :=
  sendHost s host job { id := 0, kind := .cancel level, u := none, owner := .disp 0, loc := id, size := 0 }

/-- A host reads a register of the management region; a read that is not aligned to 8 is dropped without reply (R394). -/
def hostRead (s : State) (off : Nat) : State := if off % 8 != 0 then s else s.tell (.read off (regRead s off))

end Sys2Proof.Machine
end

