-- ==== Sys2Proof/Machine/Plan.lean ====
section
/-! DEFINITION. What a step does (notes/assumptions/1.md): the head of `State.inputs` moves, or, where there is none, a default turn. A crew's turn
starts a clause, takes a fetch or decode trap, or comes to an instruction. -/

namespace Sys2Proof.Machine

/-- What the turn comes to: an instruction or event whose meaning is still to be applied, or a state. -/
inductive Plan | exec (i : Instr) (s : State) | done (s : State)

-- a crew's turn ------------------------------------------------------------------------------------------------------

/-- An entry stands at a word that is no instruction it can decode (R248, R259, R260, Table 11-15). -/
def wrongWord (s : State) (u c e : Nat) (cause : BitVec 4) (w : Word) : State :=
  let en := ((s.unit u).crew c).entry e
  if cause = 6 then parkEntry s u c e (trapAll en.mask en.pc (cILLEGAL, 6))
  else
    let act := activeLanes (s.unit u) c en
    parkAndGo s u c e (trapAll act en.pc (cILLEGAL, cause)) (longWord w)

/-- The turn of the entry that is chosen. -/
def entryTurn (s : State) (u c e : Nat) : Plan :=
  let en := ((s.unit u).crew c).entry e
  if !en.started then .done (startClause s u c e)
  else match freshen s u c e with
    | (some w, s) => .done (parkEntry s u c e (trapAll en.mask en.header w))
    | (none, s) =>
      let en := ((s.unit u).crew c).entry e
      let s := fetchReads s u en.handler en.pc
      match fetchAt s u c en with
      | .fault w => .done (parkEntry s u c e (trapAll en.mask en.pc w))
      | .wrong cause w => .done (wrongWord s u c e cause w)
      | .ok i =>
        let s : State := { s with cur := (u, c, e) }
        if standing s then .exec i s else .done s

/-- The turn of a crew (R178, R190, R219). -/
def runTurn (s : State) (u c : Nat) : Plan :=
  if !mayRun s u c then .done s
  else
    let s := choose s u c
    match ((s.unit u).crew c).chosen with
    | none => .done s
    | some e => entryTurn s u c e

-- inputs -------------------------------------------------------------------------------------------------------------

/-- Rows of the opcode table that are no instruction words. -/
def isEvent (i : Instr) : Bool := (encode i).isNone

/-- Bytes written from outside the device land together (R397). -/
def remoteWrite (s : State) (a : Nat) (bs : List Byte) : State :=
  if reserved a then s else s.land none false ((List.range bs.length).zip bs |>.map (fun c => (a + c.1, c.2)))

/-- Another device answers an operation. -/
def remoteAnswer (s : State) (m : Nat) (v : Word) : State :=
  s.modOp m (fun o => match o.owner, o.phase with
    | .remote _, .request => { o with phase := .response (.done [v] [] false false), respAt := o.clock s }
    | _, _ => o)

/-- An input takes place. -/
def take (x : Input) (s : State) : Plan :=
  match x with
  | .run u c => runTurn s u c
  | .event i => if isEvent i then .exec i s else .done s
  | .time n => .done { s with now := s.now + n }
  | .drift k n => .done (s.modCore k (fun c => { c with skew := c.skew + n }))
  | .engine m => .done (engineTurn s m)
  | .tlbFill k j va => .done (fillTlb s k j va)
  | .tlbDrop k j va => .done (dropTlb s k j va)
  | .mirrorDrop k l => .done (s.modCore k (fun c => { c with mirror := c.mirror.set 0 l 0 }))
  | .adopt j k => .done (adoptStep s j k)
  | .adoptMap j k => .done (adoptMap s j k)
  | .journal n => .done (keepEntry s n)
  | .origin m => .done (originTurn s m)
  | .telemetry p t => .done { s with telemetry := s.telemetry ++ [telemetryOf s p t] }
  | .trains p r => .done { s with found := { s.found with ports := s.found.ports ++ [(p, r)] } }
  | .drop m => .done (losePacket s m)
  | .hostPost h j d a => .done (hostPost s h j d a)
  | .hostCancel h j l v => .done (hostCancel s h j l v)
  | .hostPreempt u => .done (if (s.unit u).core.isSome then askGang s u else s)
  | .dram st k y => .done { s with sectors := SMap.put s.sectors (st * 2 ^ 31 + k) y }
  | .symbols _ u r l f => .done (hitSymbols s u r l f)
  | .poisonLine l => .done (poisonLine s l)
  | .remoteWrite a bs => .done (remoteWrite s a bs)
  | .bankFail k b => .done (if s.ready then s else { s with found := { s.found with banks := s.found.banks ++ [(k, b)] } })
  | .bind a k => .done (bindImage s a k)
  | .chart d l => .done (if s.ready then { s with devId := d, chart := l } else { s with found := { s.found with own := d, devices := l } })
  | .answer m v => .done (remoteAnswer s m v)
  | .gift g => .done { s with gifts := s.gifts ++ [g] }
  | .dredge st o => .done (dredgeSlot s st o)
  | .ckptFail j => .done (failCkpt s j)
  | .hostRead o => if o = 0x30000 then .exec .machineCheckQueue s else .done (hostRead s o)

-- the default turn ---------------------------------------------------------------------------------------------------

/-- The event in which a response comes. -/
def respTurn (m : Nat) (r : Resp) : Input :=
  .event (match r with
    | .done .. => .responseDone m
    | .refused => .responseRefused m
    | .fault .. => .responseFault m
    | .poison => .responsePoison m
    | .diverged => .responseDiverged m)

/-- The event that an operation's packet is due for. -/
def opTurns (o : Op) : List Input :=
  o.flying.map (fun f => respTurn o.id f.1) ++
  match o.phase with
  | .request =>
    .event (.requestTimeout o.id) ::
    (match o.kind with
      | .retire _ => [.event (.retireMessage o.id)]
      | _ => if o.key.isNone then [.event (.homeReadRequest o.id)]
        else if o.number.isSome then [.event (.drainedUpdate o.id), .event (.pairedArrival o.id)]
        else [.event (.keyedRequest o.id), .event (.pairedArrival o.id), .event (.engineArrival o.id)])
  | .response r => [respTurn o.id r]
  | .paired => [.event (.signatureCompare o.id)]
  | .lost => [.event (.requestTimeout o.id)]
  | .backoff _ => [.event (.refusalBackoffExpiry o.id 0)]
  | .held => [.event (.stepAdvComplete o.id), .event (.requestTimeout o.id)]
  | .queued => if o.number.isSome then [.event (.drainedUpdate o.id)] else if o.u.isNone then [.origin o.id] else []
  | _ => []

/-- Forced swaps that are due on a core (R220). -/
def forcedTurns (s : State) (k : Nat) : List Input :=
  match longest s ((coreCrews s k).filter (fun p => ((s.unit p.1).crew p.2).active)) with
  | none => []
  | some a => ((coreCrews s k).filter (fun p => crewReady s p.1 p.2 && decide (((s.unit p.1).crew p.2).since + 65536 ≤ s.now))).map (fun p =>
      .event (.forcedSwap a.1 a.2 p.1 p.2))

/-- The turns of a crew of a unit on core `k`: it runs, its queue sends, its lanes wake, it gives its place to another, and lines that it waits for come. -/
def crewTurns (s : State) (k u c : Nat) : List Input :=
  let y := s.unit u
  let x := y.crew c
  (if mayRun s u c then [Input.run u c] else []) ++
  (if x.fifo != [] then [.event (.storeQueueSend u c)] else []) ++
  ((List.range 32).filter (fun e => (x.entry e).waitOn == 13 || (x.tab.getD e {}).waitOn == 13)).map (fun e => .event (.mwaitWake u c e)) ++
  (if x.active && crewWaits s u c then (swapChoice s k u).toList.map (fun p => .event (.crewSwap u c p.1 p.2)) else []) ++
  (x.miss.filter (fun r => !(y.row r).here)).map (fun r => .event (.poolMissFill u r (victimOf s k u r).join))

/-- Some member of a unit's gang waits for a bound core that cannot take it, and the host is to be told. -/
def shortGang (s : State) (u : Nat) : Bool :=
  (liveGang s u).any (fun v => !(s.unit v).told && (match boundCore s (s.unit v).cfg.image with | some k => imageShort s v k | none => false))

/-- The turns of a unit. -/
def unitTurns (s : State) (u : Nat) : List Input :=
  let y := s.unit u
  if y.cancelled then []
  else match y.core with
    | none => (match y.status with
        | .evictable => [.event (.preemptSaved u)]
        | .saved => (((List.range 2880).find? (fun k => (resumeCores s (liveGang s u) k).isSome)).or (if shortGang s u then some 0 else none)).toList.map (fun k => .event (.resume u k))
        | _ => []) ++ (if y.ended then [.event (.drainBegin u)] else [])
    | some k =>
      (List.range y.crews.length).flatMap (crewTurns s k u) ++
      [.event (.sweepComplete u), .event (.unitSyncComplete u), .event (.gangSyncComplete u), .event (.lockFormCrew u), .event (.preempt u), .event (.unitEnd u)] ++
      ((List.range y.fibs.length).filter (fun f => (y.fib f).low != (y.fib f).serial)).map (fun f => .event (.lowAdvance u f))

/-- Units of a node that have not started and of which a host is to be told something: a TABLE entry cannot be read (R215), or its bound core cannot take it (R382). -/
def newsOf (s : State) (n : Nat) : List Nat :=
  let x := s.node n
  (List.range x.unitCount).filter (fun u => tableFails s n u ||
    (match boundCore s (x.imageOf u) with
     | some k => !(x.dispatched.contains u || x.tdispatched.contains u) && offersLess s k 1 0 0 (sharesOf x.part) && !s.hostLog.contains (.capacity x.job x.id u)
     | none => false))

/-- The turns of a node. -/
def nodeTurns (s : State) (n : Nat) : List Input :=
  match (s.node n).status with
  | .committed => [] | .cancelled => []
  | _ =>
    [.event (.nodeCommit n), .event (.rollbackInPlace n), .event (.rollbackRequeue n), .event (.passedOverLimit n)] ++
    (s.node n).sides.flatMap (fun (t : Bool) => (nextGangs s n t).flatMap (fun (low : Nat) =>
      match gangCores s n t low with
      | [] => []
      | c :: cs => ((c.find? (fun k => (assign k (c :: cs) []).isSome)).toList).map (fun k => Input.event (.unitDispatch n low k)))) ++
    (newsOf s n).map (fun u => .event (.unitDispatch n u 0))

/-- The turns of an engine command. -/
def cmdTurns (m : Cmd) : List Input :=
  [.engine m.id, .event (.engineCommandComplete m.id)] ++
  (match m.kind with | .frame => (List.range 4).map (fun r => .event (.frameDecode m.id r)) | .coll => [.event (.treeRebuild m.id)] | _ => [])

/-- The turns of a job: replicas that take a new step or map, its checkpoint, and its originators' low-water marks. -/
def jobTurns (s : State) (job : Nat) (j : Job) : List Input :=
  (if j.gOld.isSome then (coresOf s job).map (fun k => .adopt job k) else []) ++
  (if j.mapping.isSome then (coresOf s job ++ [0]).map (fun k => .adoptMap job k) else []) ++
  (if j.ckpt != 0 then [.event (.checkpoint job), .event (.checkpointDone job)] else []) ++
  (j.origins.filter (fun g => g.2.low != g.2.serial)).map (fun g => .event (.lowAdvance (2 ^ 32 + job) g.1))

/-- Turns that something is due for. -/
def dueTurns (s : State) : List Input :=
  s.ops.flatMap opTurns ++ s.cmds.flatMap cmdTurns ++
  ((List.range s.journal.length).filter (fun n => (s.journal[n]?.map (fun e => e.kept)) == some false)).map (fun n => .journal n) ++
  (List.range s.units.length).flatMap (unitTurns s) ++ (List.range s.nodes.length).flatMap (nodeTurns s) ++
  ((s.units.filterMap (fun y => y.core)).eraseDups).flatMap (forcedTurns s) ++
  (s.dies.filter (fun d => d.2.queue != [])).map (fun d => .event (.grantServed d.1)) ++
  s.dies.flatMap (fun d => (d.2.served.filter (fun e => decide (e.2 + 8192 ≤ s.now))).map (fun e => .event (.grantHoldExpiry d.1 e.1))) ++
  (s.stks.filter (fun d => d.2.due != [])).flatMap (fun d => [.event (.dredgePassBegin d.1), .event (.dredgePassEnd d.1)]) ++
  s.jobs.flatMap (fun j => jobTurns s j.1 j.2) ++
  (if s.tlbinv.getLsbD 0 then [] else [.event .tlbinvDone]) ++ (if s.bmclr.getLsbD 63 then [] else [.event .bmclrDone])

/-- The turn that is taken where no input is listed: the service processor's first, then each due turn in rotation. (DESIGN CHOICE, log entry 1.) -/
def auto (s : State) : Input :=
  if !s.ready then .event .powerOn
  else
    let ts := dueTurns s
    ts.getD ((s.now + s.now / 61) % ts.length) (.time 0)

/-- The plan of a step: time passes, jobs that have lost journal entries are rolled back (R128), and the next input takes place. (DESIGN CHOICE, log entry 1.) -/
def plan (s : State) : Plan :=
  let s := lostTurn { s with now := s.now + s.pace }
  match s.inputs with
  | [] => take (auto s) s
  | x :: rest => take x { s with inputs := rest }

-- placing an instruction ---------------------------------------------------------------------------------------------

/-- Bytes of the program that `State.withFetchWord` places: page tables that map the first 64 GiB to stack 0, a clause header of one instruction, and
the instruction word. -/
def fetchBytes (s : State) (w : Nat) : Memory :=
  let m := Memory.writeN s.mem 0x2000 (leBytes 0x40001 8)
  let m := Memory.writeN m 0x4000 (leBytes 0x201F 8)
  let m := Memory.writeN m 0xFFC (leBytes 0xE001FE00 4)
  Memory.writeN m 0x1000 (leBytes w 4)

/-- The lines of its image that the pool holds: 128 register lines of crew 0, 256 of the scratchpad, two accumulator tiles, and a basin slot. -/
def fetchRows : SMap Row :=
  ((List.range 128) ++ (List.range 256).map (fun i => 32768 + i) ++ (List.range 256).map (fun i => 49152 + i) ++ [51200, 51201, 51202]).map (fun r => (r, { here := true }))

/-- The unit that fetches it: one fibre in lane 0 of crew 0, with the clause open at the instruction. -/
def fetchUnit : UnitSt :=
  { cfg := { fibres := 1, crews := 1, part := 0x44610, code := 0xFFC }
    status := .resident
    core := some 0
    xroot := 0x2000
    rows := fetchRows
    crews := [{ split := { pc := 0x1000, mask := 1, status := .runnable, started := true, hdr := 0xE001FE00 } :: List.replicate 7 {}
                lanes := some 0 :: List.replicate 31 none
                chosen := some 0 }]
    fibs := [{ exists_ := true }] }

/-- A state whose next step runs the word: the unit of one fibre stands alone on core 0, and its turn is next. -/
def placeFetch (s : State) (w : Nat) : State :=
  { s with
    inputs := [.run 0 0], cur := (0, 0, 0), mem := fetchBytes s w, units := [fetchUnit]
    nodes := [{ job := 0, id := 0, card := 0, decl := 0, home := 0, status := .running }]
    cores := s.cores.set {} 0 {} }

end Sys2Proof.Machine
end

