-- ==== Sys2Proof/Machine/Sweep.lean ====
section
/-! DEFINITION. Sweeps, their adjoint, tracebacks, rules and boundaries (R360 to R369). A sweep-class instruction is checked and latches its
operands at issue; what it computes is done when it completes. -/

namespace Sys2Proof.Machine

-- rules --------------------------------------------------------------------------------------------------------------

/-- A rule descriptor (Table 15-3) as a number. -/
abbrev Rule := Nat

def Rule.semi (r : Rule) : Nat := bits r 0 4
def Rule.fp (r : Rule) : Bool := r.testBit 4
def Rule.wsrc (r : Rule) : Nat := bits r 5 3
def Rule.flooren (r : Rule) : Bool := r.testBit 8
/-- A 32-bit field of a rule by its low bit: MATCH 32, MISMATCH 64, WU 96, WL 128, FLOOR 160, TAU 192, WD 224, CL 320, K2 352. -/
def Rule.f (r : Rule) (lo : Nat) : Word := BitVec.ofNat 32 (bits r lo 32)
def Rule.table (r : Rule) : Nat := bits r 256 32

/-- A positive normal FP32 number. -/
def posNormal (w : Word) : Bool := decide (0x00800000 ≤ w.toNat ∧ w.toNat ≤ 0x7F7FFFFF)

/-- A descriptor that RULE.LD accepts (R361). -/
def Rule.ok (r : Rule) : Bool :=
  decide (r.semi ≤ 3) && decide (r.wsrc ≤ 4) && bits r 9 23 == 0 && bits r 288 32 == 0 && bits r 384 128 == 0 &&
  !(r.semi == 2 && (!r.fp || !posNormal (r.f 192))) && !(r.flooren && r.semi == 3) &&
  !((r.wsrc == 1 || r.wsrc == 4) && r.table % 16 != 0)

/-- log2 e / τ and τ × ln 2, each from the exact real and rounded once (Table 15-3). -/
def lseConsts (tau : Word) : Word × Word :=
  match f32 tau with
  | .fin _ m e =>
    let l := ln2LoHi
    ((roundBoth 2 tau .rne false (2 ^ (2 * workP + 64) / (l.2 * m)) (2 ^ (2 * workP + 64) / (l.1 * m) + 1) (-(workP + 64 : Nat) - e)).1,
     (roundBoth 3 tau .rne false (m * l.1) (m * l.2) (e - workP)).1)
  | _ => (0, 0)

/-- The descriptor as a slot stores it: CL and K2 written by the device (R361). -/
def Rule.stored (r : Rule) : Rule :=
  let k := if r.semi = 2 then lseConsts (r.f 192) else (0, 0)
  r % 2 ^ 320 + k.1.toNat * 2 ^ 320 + k.2.toNat * 2 ^ 352

/-- RULE.LD (R361). -/
def execRuleLd (slot : BitVec 2) (a : VReg) (s : State) : Out :=
  tileInstr (.ruleLd slot a) s (fun x s =>
    (tileRead x s (x.lowRd s a 0) 64).bind (fun r =>
      let d : Rule := leNat r.1
      (limits x d.ok).map (fun _ =>
        (r.2.modUnit x.u (fun y => { y with rules := Memory.writeN y.rules (64 * slot.toNat) (leBytes d.stored 64) }), []))))

/-- The rule in a slot. -/
def UnitSt.rule (y : UnitSt) (slot : Nat) : Rule := leNat (Memory.readN y.rules (64 * slot) 64)

-- cells --------------------------------------------------------------------------------------------------------------

/-- The sum of two elements, rounded once or clamped (R363). -/
def elemSum (fp : Bool) (a b : Word) : Word := if fp then (((f32 a).add .rne (f32 b)).toF32 .rne).1 else (clamp32 (a.toInt + b.toInt)).1

/-- The magnitude of a value. -/
def Num.mag : Num → Num | .fin _ m e => .fin false m e | .inf _ => .inf false | y => y

/-- The weight source (R362). `tab`: the rule's table. -/
def weight (r : Rule) (tab : List Word) (ri cj : Word) (i j : Nat) : Word :=
  let diff := (f32 ri).add .rne (f32 cj).neg
  match r.wsrc with
  | 0 => if ri = cj then r.f 32 else r.f 64
  | 1 => tab.getD (32 * (ri.toNat % 32) + cj.toNat % 32) 0
  | 2 => if r.fp then (diff.mag.toF32 .rne).1 else (clamp32 ((ri.toInt - cj.toInt).natAbs : Nat)).1
  | 3 => if r.fp then ((diff.mul diff).toF32 .rne).1 else (clamp32 ((ri.toInt - cj.toInt) * (ri.toInt - cj.toInt))).1
  | _ => tab.getD (32 * i + j) 0

/-- The terms of a cell in the order diag, up, left, floor (R363). -/
def terms (r : Rule) (hd hu hl w : Word) : List Word :=
  [elemSum r.fp hd w, elemSum r.fp hu (r.f 96), elemSum r.fp hl (r.f 128)] ++ (if r.flooren then [r.f 160] else [])

/-- The order of elements: as integers, or of FP32 with -0 below +0; `top` for the greatest. -/
def before (r : Rule) (top : Bool) (a b : Word) : Bool :=
  let lt := fun (a b : Word) => if r.fp then decide (ord32 a < ord32 b) else decide (a.toInt < b.toInt)
  if top then lt b a else lt a b

/-- The first least (or greatest) term and its code; a NaN term gives the canonical NaN with code 00. -/
def pickTerm (r : Rule) (top : Bool) (ts : List Word) : Word × Nat :=
  if r.fp && ts.any (fun t => (f32 t).isNaN) then (nan32, 0)
  else match ts with
    | [] => (0, 0)
    | t :: us => (us.zip (List.range us.length)).foldl (fun b u => if before r top u.1 b.1 then (u.1, u.2 + 1) else b) (t, 0)

/-- exp2(−RNE(RNE(x − m) × CL)) (R363, R369). -/
def expShare (r : Rule) (x m : Word) : Word := (fpExp2 .rne (negF (mulF (subF x m) (r.f 320)))).1

/-- The procedure lse of R363. -/
def lse (r : Rule) (ts : List Word) : Word :=
  let mn := (pickTerm r false ts).1
  match f32 mn with
  | .nan _ => nan32
  | .inf _ => mn
  | _ =>
    let sum := ts.foldl (fun a x => addF a (expShare r x mn)) 0
    subF mn (mulF (fpLog2 .rne sum).1 (r.f 352))

/-- The SUMPROD cell (R363). -/
def sumProd (r : Rule) (hd hu hl w : Word) : Word :=
  if r.fp then
    let p := fun (k h : Word) => (f32 k).mul (f32 h)
    (((((p (r.f 224) hd).add .rne (p (r.f 96) hu)).add .rne (p (r.f 128) hl)).add .rne (f32 w)).toF32 .rne).1
  else (clamp32 ((r.f 224).toInt * hd.toInt + (r.f 96).toInt * hu.toInt + (r.f 128).toInt * hl.toInt + w.toInt)).1

/-- A cell's value and traceback code (R363). -/
def cell (r : Rule) (hd hu hl w : Word) : Word × Nat :=
  let ts := terms r hd hu hl w
  match r.semi with
  | 0 => pickTerm r false ts
  | 1 => pickTerm r true ts
  | 2 => (lse r ts, (pickTerm r false ts).2)
  | _ => (sumProd r hd hu hl w, 0)

/-- Row `i` of a region: from the row above with its element of column -1, the row's own column -1, and the weights. -/
def sweepRow (r : Rule) (up : List Word) (corner left : Word) (ws : List Word) : List (Word × Nat) :=
  ((up.zip ws).foldl (fun (st : Word × Word × List (Word × Nat)) uw =>
    let c := cell r st.1 uw.1 st.2.1 uw.2
    (uw.1, c.1, st.2.2 ++ [c])) (corner, left, [])).2.2

/-- The rows of a region, first row first. `lefts` is column -1 of its rows. -/
def sweepRows (r : Rule) (up : List Word) (corner : Word) : List Word → List (List Word) → List (List (Word × Nat))
  | l :: ls, w :: ws =>
    let row := sweepRow r up corner l w
    row :: sweepRows r (row.map Prod.fst) l ls ws
  | _, _ => []

/-- The traceback tile (R365): computed cells hold their codes, every other cell 11. -/
def tracebackTile (rows : List (List (Word × Nat))) : List Byte :=
  (List.range 32).flatMap (fun i =>
    leBytes ((List.range 32).foldl (fun n j => n + (((rows.getD i [])[j]?).map Prod.snd).getD 3 * 4 ^ j) 0) 8)

/-- Cell (i, j) of a traceback tile. -/
def tileCode (tile : List Byte) (i j : Nat) : Nat := bits (leNat ((tile.drop (8 * i)).take 8)) (2 * j) 2

-- the adjoint --------------------------------------------------------------------------------------------------------

/-- A swept region as SWEEP.R reads it: H with its boundary, indexes moved up by one, the weights, and the codes. -/
structure Region where
  r : Rule
  nr : Nat
  nc : Nat
  h : Nat → Nat → Word
  w : Nat → Nat → Word
  code : Nat → Nat → Nat

/-- An element in FP32 (R369). -/
def toF (r : Rule) (w : Word) : Word := if r.fp then w else (round32 .rne (decide (w.toInt < 0)) w.toInt.natAbs 0).1

/-- The share of cell (i, j) by term `k`: 0 diag, 1 up, 2 left (R369). -/
def Region.share (g : Region) (i j k : Nat) : Word :=
  match g.r.semi with
  | 2 => let ts := terms g.r (g.h i j) (g.h i (j + 1)) (g.h (i + 1) j) (g.w i j)
         expShare g.r (ts.getD k 0) (g.h (i + 1) (j + 1))
  | 3 => toF g.r (g.r.f (if k = 0 then 224 else if k = 1 then 96 else 128))
  | _ => if g.code i j = k then 0x3F800000 else 0

/-- A term of a gradient sum: G(s) × the share, +0 outside the region. -/
def Region.part (g : Region) (below : List Word) (i j k : Nat) : Word :=
  if i < g.nr ∧ j < g.nc then mulF (below.getD j 0) (g.share i j k) else 0

/-- Row `i` of G from row i + 1, column by column from the last. -/
def Region.gRow (g : Region) (gbot gright below : List Word) (i : Nat) : Nat → List Word → List Word
  | 0, row => row
  | j + 1, row =>
    let add := fun (v : Word) (ok : Bool) (u : Word) => if ok then addF v u else v
    let v := addF (if i + 1 = g.nr then gbot.getD j 0 else 0) (if j + 1 = g.nc then gright.getD i 0 else 0)
    let v := add v (decide (i + 1 < g.nr ∧ j + 1 < g.nc)) (g.part below (i + 1) (j + 1) 0)
    let v := add v (decide (i + 1 < g.nr)) (g.part below (i + 1) j 1)
    let v := add v (decide (j + 1 < g.nc)) (mulF (row.headD 0) (g.share i (j + 1) 2))
    Region.gRow g gbot gright below i j (v :: row)

/-- All rows of G, first row first. -/
def Region.gRows (g : Region) (gbot gright : List Word) : Nat → List Word → List (List Word) → List (List Word)
  | 0, _, rows => rows
  | i + 1, below, rows =>
    let row := g.gRow gbot gright below i g.nc []
    Region.gRows g gbot gright i row (row :: rows)

/-- The outputs of the adjoint block: GTOP, GLEFT, GCORNER and zeros (R369). -/
def Region.outputs (g : Region) (G : List (List Word)) : List Byte :=
  let at_ := fun i => G.getD i []
  let gtop := (List.range 32).map (fun j => if j < g.nc then addF (g.part (at_ 0) 0 (j + 1) 0) (g.part (at_ 0) 0 j 1) else 0)
  let gleft := (List.range 32).map (fun i => if i < g.nr then addF (g.part (at_ (i + 1)) (i + 1) 0 0) (g.part (at_ i) i 0 2) else 0)
  (gtop ++ gleft ++ [g.part (at_ 0) 0 0 0, 0, 0, 0]).flatMap (fun v => leBytes v.toNat 4)

-- issue --------------------------------------------------------------------------------------------------------------

/-- Sweep slots in use on a core (R366). -/
def slotsUsed (s : State) (k : Nat) : Nat :=
  ((s.onCore k).flatMap (fun u => (s.unit u).sweeps.filter (fun w => w.kind != 2))).length

/-- SWEEP and SWEEP.R wait for one of the core's 16 slots. -/
def preSlots (x : Ctx) (s : State) : Option State := if 16 ≤ slotsUsed s (s.unit x.u).at_ then some s else none

/-- The rule's table, which must lie in the scratchpad share (R362). -/
def tableAt (x : Ctx) (s : State) (r : Rule) : TileM State := if r.wsrc = 1 ∨ r.wsrc = 4 then tileAt x s r.table 4096 .rd else .ok s

/-- The operands that SWEEP and SWEEP.R latch: symbols of every lane, five or six words of the lowest active lane, and the rule. -/
def sweepRegs (x : Ctx) (s : State) (a : VReg) (r : Rule) : List Word :=
  (List.range 32).map (fun l => x.supply s l a) ++ (List.range 32).map (fun l => x.supply s l (a + 1)) ++
  (List.range 4).map (fun k => x.rdi s x.low a (k + 2)) ++ (List.range 16).map (fun k => r.f (32 * k))

/-- The instruction joins the unit's sweeps in flight. (DEDUCED, log entry 33.) -/
def startSweep (x : Ctx) (s : State) (kind sub : Nat) (a d : VReg) (slot : Nat) (regs : List Word) : State :=
  s.modUnit x.u (fun y => { y with
    sweeps := y.sweeps ++ [{ kind := kind, crew := x.c, sub := sub, a := a, d := d, slot := slot, active := x.act, flag := x.flag, regs := regs }] })

/-- SWEEP (R366). -/
def execSweep (t : Nib) (q : BitVec 2) (a : VReg) (slot : BitVec 2) (s : State) : Out :=
  tileWith preSlots (.sweep t q a slot) s (fun x s =>
    let r := (s.unit x.u).rule slot.toNat
    (limits x (decide (x.lowRd s a 2 < 1024))).bind (fun _ =>
    (tileAcc x s t.toNat .wr).bind (fun s =>
    (tileAt x s (x.lowRd s a 3) 256 .wr).bind (fun s =>
    (tileAt x s (x.lowRd s a 4) 272 .rd).bind (fun s =>
    (tableAt x s r).map (fun s => (startSweep x s 0 (4 * t.toNat + q.toNat) a 0 slot.toNat (sweepRegs x s a r), [])))))))

/-- The adjoint block: 256 bytes that SWEEP.R reads and 272 that it writes (R369). -/
def adjAt (x : Ctx) (s : State) (addr : Nat) : TileM State :=
  match scrFault (s.unit x.u) addr 528 with
  | some f => tileTrap x f.1 f.2
  | none => (tileAt x s addr 256 .rd).bind (fun s => tileAt x s (addr + 256) 272 .wr)

/-- SWEEP.R (R369). -/
def execSweepR (t : Nib) (q : BitVec 2) (a : VReg) (slot : BitVec 2) (s : State) : Out :=
  tileWith preSlots (.sweepR t q a slot) s (fun x s =>
    let r := (s.unit x.u).rule slot.toNat
    let ctl := x.lowRd s a 2
    let src := bits ctl 10 6
    (limits x (decide (ctl < 65536) && src != 4 * t.toNat + q.toNat)).bind (fun _ =>
    (tileAcc x s t.toNat .wr).bind (fun s =>
    (tileAcc x s (src / 4) .rd).bind (fun s =>
    (tileAt x s (x.lowRd s a 3) 256 .rd).bind (fun s =>
    (tileAt x s (x.lowRd s a 4) 272 .rd).bind (fun s =>
    (adjAt x s (x.lowRd s a 5)).bind (fun s =>
    (tableAt x s r).map (fun s => (startSweep x s 1 (4 * t.toNat + q.toNat) a 0 slot.toNat (sweepRegs x s a r), [])))))))))

/-- TRACE (R368): per-lane tile addresses; a start cell outside its limits stops the whole instruction (R345). -/
def execTrace (d a : VReg) (s : State) : Out :=
  withIssueE (.trace d a) s (fun _ _ => none) (fun x ts s =>
    if (lanesOf x.act).any (fun l => decide (1024 ≤ (x.rdi s l a 1).toNat)) then
      .ok (finish x (.trace d a) (ts ++ trapAll x.act x.ent.pc (cILLEGAL, 8)) s)
    else
      match tileLanes x s (fun x s l => tileAt x s (x.rd s l a).toNat 256 .rd) with
      | .error (.wait f) => .error f
      | .error (.trap us) => .ok (finish x (.trace d a) (ts ++ us) s)
      | .ok r =>
        let act := x.act &&& ~~~(maskOf (r.2.map (fun t => t.lane)))
        let regs := (List.range 32).flatMap (fun l => [x.rd s l a, x.rdi s l a 1, BitVec.ofNat 32 ((s.unit x.u).wb x.c l)])
        .ok (finish x (.trace d a) (ts ++ r.2) (if act = 0 then r.1 else startSweep { x with act := act } r.1 2 0 a d 0 regs)))

/-- BND.IN (R364). -/
def execBndIn (a b : VReg) (s : State) : Out :=
  tileInstr (.bndIn a b) s (fun x s =>
    let col := fun (k : VReg) => (List.range 32).flatMap (fun l => leBytes (x.supply s l k).toNat 4)
    let bs := col b ++ col (b + 1) ++ leBytes (x.lowRd s b 2) 4 ++ List.replicate 12 0
    (tileWrite x s (x.lowRd s a 0) bs).map (fun s => (s, [])))

/-- BND.OUT (R367). -/
def execBndOut (t : Nib) (q : BitVec 2) (a : VReg) (s : State) : Out :=
  tileInstr (.bndOut t q a) s (fun x s =>
    let ctl := x.lowRd s a 1
    let nr := bits ctl 0 5 + 1; let nc := bits ctl 5 5 + 1
    let c := 32 * q.toNat
    (limits x (decide (ctl < 1024))).bind (fun _ =>
    (tileAcc x s t.toNat .rd).bind (fun s =>
    (tileRows x s ((List.range 32).map (fun i => rowAcc t.toNat i c))).bind (fun s =>
      let y := s.unit x.u
      let bottom := (List.range 32).map (fun j => y.accAt t.toNat (nr - 1) (c + j))
      let right := (List.range 32).map (fun i => y.accAt t.toNat i (c + nc - 1))
      (tileWrite x s (x.lowRd s a 0) ((bottom ++ right).flatMap (fun v => leBytes v.toNat 4))).map (fun s => (s, []))))))

-- completion ---------------------------------------------------------------------------------------------------------

/-- The latched words of a sweep. -/
def SweepCmd.word (w : SweepCmd) (k : Nat) : Word := w.regs.getD k 0
def SweepCmd.rule (w : SweepCmd) : Rule := (List.range 16).foldl (fun n k => n + (w.word (68 + k)).toNat * 2 ^ (32 * k)) 0
def SweepCmd.nr (w : SweepCmd) : Nat := bits (w.word 64).toNat 0 5 + 1
def SweepCmd.nc (w : SweepCmd) : Nat := bits (w.word 64).toNat 5 5 + 1
def SweepCmd.src (w : SweepCmd) : Nat := bits (w.word 64).toNat 10 6
def SweepCmd.tb (w : SweepCmd) : Nat := (w.word 65).toNat
def SweepCmd.bnd (w : SweepCmd) : Nat := (w.word 66).toNat
def SweepCmd.adj (w : SweepCmd) : Nat := (w.word 67).toNat

/-- Rows of sub-tile `sub`. -/
def subRows (sub : Nat) : List Nat := (List.range 32).map (fun i => rowAcc (sub / 4) i (32 * (sub % 4)))

/-- Pool rows that a sweep-class instruction reads, and those it writes. -/
def SweepCmd.reads (w : SweepCmd) : List Nat :=
  let tab := if w.rule.wsrc = 1 ∨ w.rule.wsrc = 4 then scrRows w.rule.table 4096 else []
  match w.kind with
  | 0 => scrRows w.bnd 272 ++ tab
  | 1 => scrRows w.bnd 272 ++ tab ++ scrRows w.tb 256 ++ scrRows w.adj 256 ++ subRows w.src
  | _ => (lanesOf w.active).flatMap (fun l => scrRows (w.word (3 * l)).toNat 256)

def SweepCmd.writes (w : SweepCmd) : List Nat :=
  match w.kind with
  | 0 => scrRows w.tb 256 ++ subRows w.sub
  | 1 => scrRows (w.adj + 256) 272 ++ subRows w.sub
  | _ => (lanesOf w.active).flatMap (fun l => (List.range 5).map (fun k => rowReg w.crew ((w.word (3 * l + 2)).toNat + w.d.toNat + k)))

/-- The weights of a sweep's rows. -/
def SweepCmd.weights (w : SweepCmd) (y : UnitSt) : List (List Word) :=
  let tab := if w.rule.wsrc = 1 ∨ w.rule.wsrc = 4 then wordsOf (y.scrN w.rule.table 4096) 1024 else []
  (List.range w.nr).map (fun i => (List.range w.nc).map (fun j => weight w.rule tab (w.word i) (w.word (32 + j)) i j))

/-- Write the first elements of rows of a sub-tile. -/
def UnitSt.setSub (y : UnitSt) (sub : Nat) (rows : List (List Word)) : UnitSt :=
  ((List.range rows.length).zip rows).foldl (fun y r => y.setAcc (sub / 4) r.1 (32 * (sub % 4)) r.2) y

/-- What SWEEP computes (R366). -/
def runSweep (w : SweepCmd) (y : UnitSt) : UnitSt :=
  let b := wordsOf (y.scrN w.bnd 260) 65
  let rows := sweepRows w.rule (b.take w.nc) (b.getD 64 0) ((b.drop 32).take w.nr) (w.weights y)
  (y.setSub w.sub (rows.map (fun r => r.map Prod.fst))).setScr w.tb (tracebackTile rows)

/-- What SWEEP.R computes (R369). -/
def runSweepR (w : SweepCmd) (y : UnitSt) : UnitSt :=
  let b := wordsOf (y.scrN w.bnd 260) 65
  let tile := y.scrN w.tb 256
  let ws := w.weights y
  let g : Region := {
    r := w.rule, nr := w.nr, nc := w.nc
    h := fun i j => match i, j with
      | 0, 0 => b.getD 64 0
      | 0, j + 1 => b.getD j 0
      | i + 1, 0 => b.getD (32 + i) 0
      | i + 1, j + 1 => y.accAt (w.src / 4) i (32 * (w.src % 4) + j)
    w := fun i j => (ws.getD i []).getD j 0
    code := fun i j => tileCode tile i j }
  let adj := wordsOf (y.scrN w.adj 256) 64
  let G := g.gRows (adj.take 32) (adj.drop 32) w.nr [] []
  let dest := ((List.range w.nr).zip G).map (fun r => ((List.range w.nc).zip r.2).map (fun e =>
    if w.rule.semi = 3 then e.2 else mulF e.2 (g.share r.1 e.1 0)))
  (y.setSub w.sub dest).setScr (w.adj + 256) (g.outputs G)

/-- A walk (R368): the move record, the cell it ends at, the number of moves, and whether the exit is the floor cell. -/
def walkTile (tile : List Byte) : Nat → Int → Int → Nat → Nat → Nat × Int × Int × Nat × Bool
  | 0, i, j, n, m => (m, i, j, n, false)
  | fuel + 1, i, j, n, m =>
    let c := tileCode tile i.toNat j.toNat
    if c = 3 then (m, i, j, n, true)
    else
      let m := m + c * 4 ^ n
      let i := if c = 2 then i else i - 1
      let j := if c = 1 then j else j - 1
      if i < 0 ∨ j < 0 then (m, i, j, n + 1, false) else walkTile tile fuel i j (n + 1) m

/-- What TRACE writes in one lane. -/
def runTrace (w : SweepCmd) (y : UnitSt) (l : Nat) : UnitSt :=
  let st := (w.word (3 * l + 1)).toNat
  let k := walkTile (y.scrN (w.word (3 * l)).toNat 256) 64 (bits st 0 5 : Nat) (bits st 5 5 : Nat) 0 0
  let d := (w.word (3 * l + 2)).toNat + w.d.toNat
  let last := (BitVec.ofInt 6 k.2.1).toNat + (BitVec.ofInt 6 k.2.2.1).toNat * 64 + k.2.2.2.1 * 4096 + k.2.2.2.2.toNat * 2 ^ 19
  ((List.range 4).map (fun i => (d + i, BitVec.ofNat 32 (bits k.1 (32 * i) 32))) ++ [(d + 4, BitVec.ofNat 32 last)]).foldl
    (fun y e => y.setReg w.crew l e.1 e.2) y

/-- Complete a sweep-class instruction: its writes. -/
def SweepCmd.run (w : SweepCmd) (y : UnitSt) : UnitSt :=
  match w.kind with
  | 0 => runSweep w y
  | 1 => runSweepR w y
  | _ => (lanesOf w.active).foldl (runTrace w) y

/-- SWEEP_COMPLETE (R366, R368, R345): the oldest of the unit's sweep-class instructions is performed; absent lines come in, and a poisoned one that it
reads is consumed. (DEDUCED, log entry 33.) -/
def completeSweep (s : State) (u : Nat) : State :=
  match (s.unit u).sweeps with
  | [] => s
  | w :: rest =>
    let whole := if w.kind = 0 then wholeRows w.tb 256 else []
    let s := (w.reads ++ w.writes).foldl (fun s r => fetchRow s u r) s
    let s := (w.reads ++ w.writes.filter (fun r => !whole.contains r)).foldl (fun s r => touchRow s u r) s
    if rowsAre s u w.reads [] = .poison then consumePoison s (s.unit u).cfg.node
    else cleanRows (useRows (s.modUnit u (fun y => { w.run y with sweeps := rest })) u (w.reads ++ w.writes)) u whole

/-- SWEEP_COMPLETE. -/
def execSweepComplete (u : Nat) (s : State) : Out := .next (completeSweep s u)

end Sys2Proof.Machine
end

