-- ==== Sys2Proof/Machine/Dispatch.lean ====
section
/-! DEFINITION. The meaning of every row of the opcode table: one arm per constructor of `Instr`. -/

namespace Sys2Proof.Machine

def exec (i : Instr) (s : State) : Host.Outcome State Fault Refusal :=
  match i with
  | .br p sense off => Sys2Proof.Machine.execBr p sense off s
  | .bra off => Sys2Proof.Machine.execBra off s
  | .call d off => Sys2Proof.Machine.execCall d off s
  | .callReg d a => Sys2Proof.Machine.execCallReg d a s
  | .ret a => Sys2Proof.Machine.execRet a s
  | .jr a => Sys2Proof.Machine.execJr a s
  | .brFar lm1 off => Sys2Proof.Machine.execBrFar lm1 off s
  | .fork lm1 d a b => Sys2Proof.Machine.execFork lm1 d a b s
  | .endFibre => Sys2Proof.Machine.execEndFibre s
  | .join m => Sys2Proof.Machine.execJoin m s
  | .leave m => Sys2Proof.Machine.execLeave m s
  | .wait m => Sys2Proof.Machine.execWait m s
  | .mread d m => Sys2Proof.Machine.execMread d m s
  | .rept cr id ia ib iacc ar ae => Sys2Proof.Machine.execRept cr id ia ib iacc ar ae s
  | .strm sr dr dims esz => Sys2Proof.Machine.execStrm sr dr dims esz s
  | .strmOff sr => Sys2Proof.Machine.execStrmOff sr s
  | .wbase b => Sys2Proof.Machine.execWbase b s
  | .wbaseRel b => Sys2Proof.Machine.execWbaseRel b s
  | .wbaseReg a => Sys2Proof.Machine.execWbaseReg a s
  | .sread d r => Sys2Proof.Machine.execSread d r s
  | .swrite r a => Sys2Proof.Machine.execSwrite r a s
  | .iadd d a b => Sys2Proof.Machine.execIadd d a b s
  | .iaddS d a b => Sys2Proof.Machine.execIaddS d a b s
  | .isub d a b => Sys2Proof.Machine.execIsub d a b s
  | .isubS d a b => Sys2Proof.Machine.execIsubS d a b s
  | .iminI d a b => Sys2Proof.Machine.execIminI d a b s
  | .iminN d a b => Sys2Proof.Machine.execIminN d a b s
  | .imaxI d a b => Sys2Proof.Machine.execImaxI d a b s
  | .imaxN d a b => Sys2Proof.Machine.execImaxN d a b s
  | .iand d a b => Sys2Proof.Machine.execIand d a b s
  | .ior d a b => Sys2Proof.Machine.execIor d a b s
  | .ixor d a b => Sys2Proof.Machine.execIxor d a b s
  | .iandn d a b => Sys2Proof.Machine.execIandn d a b s
  | .shl d a b => Sys2Proof.Machine.execShl d a b s
  | .shrN d a b => Sys2Proof.Machine.execShrN d a b s
  | .shrI d a b => Sys2Proof.Machine.execShrI d a b s
  | .rot d a b => Sys2Proof.Machine.execRot d a b s
  | .sel d a b => Sys2Proof.Machine.execSel d a b s
  | .iabs d a => Sys2Proof.Machine.execIabs d a s
  | .ineg d a => Sys2Proof.Machine.execIneg d a s
  | .imul d a b => Sys2Proof.Machine.execImul d a b s
  | .imulhI d a b => Sys2Proof.Machine.execImulhI d a b s
  | .imulhN d a b => Sys2Proof.Machine.execImulhN d a b s
  | .imad d a b => Sys2Proof.Machine.execImad d a b s
  | .imadS d a b => Sys2Proof.Machine.execImadS d a b s
  | .idivI d a b => Sys2Proof.Machine.execIdivI d a b s
  | .idivN d a b => Sys2Proof.Machine.execIdivN d a b s
  | .iremI d a b => Sys2Proof.Machine.execIremI d a b s
  | .iremN d a b => Sys2Proof.Machine.execIremN d a b s
  | .popc d a => Sys2Proof.Machine.execPopc d a s
  | .clz d a => Sys2Proof.Machine.execClz d a s
  | .ctz d a => Sys2Proof.Machine.execCtz d a s
  | .brev d a => Sys2Proof.Machine.execBrev d a s
  | .bfx d a b => Sys2Proof.Machine.execBfx d a b s
  | .bfi d a b => Sys2Proof.Machine.execBfi d a b s
  | .addi d a imm => Sys2Proof.Machine.execAddi d a imm s
  | .andi d a imm => Sys2Proof.Machine.execAndi d a imm s
  | .ori d a imm => Sys2Proof.Machine.execOri d a imm s
  | .xori d a imm => Sys2Proof.Machine.execXori d a imm s
  | .shli d a c => Sys2Proof.Machine.execShli d a c s
  | .shriN d a c => Sys2Proof.Machine.execShriN d a c s
  | .shriI d a c => Sys2Proof.Machine.execShriI d a c s
  | .roti d a c => Sys2Proof.Machine.execRoti d a c s
  | .movi d imm => Sys2Proof.Machine.execMovi d imm s
  | .movh d imm => Sys2Proof.Machine.execMovh d imm s
  | .icmp c n p a b => Sys2Proof.Machine.execIcmp c n p a b s
  | .plop op na nb d a b => Sys2Proof.Machine.execPlop op na nb d a b s
  | .lea k d a b => Sys2Proof.Machine.execLea k d a b s
  | .fadd rm d a b => Sys2Proof.Machine.execFadd rm d a b s
  | .fsub rm d a b => Sys2Proof.Machine.execFsub rm d a b s
  | .fmul rm d a b => Sys2Proof.Machine.execFmul rm d a b s
  | .fmin d a b => Sys2Proof.Machine.execFmin d a b s
  | .fmax d a b => Sys2Proof.Machine.execFmax d a b s
  | .ffma np nc rm d a b => Sys2Proof.Machine.execFfma np nc rm d a b s
  | .frcp rm d a => Sys2Proof.Machine.execFrcp rm d a s
  | .frsq rm d a => Sys2Proof.Machine.execFrsq rm d a s
  | .fsqrt rm d a => Sys2Proof.Machine.execFsqrt rm d a s
  | .fexp2 rm d a => Sys2Proof.Machine.execFexp2 rm d a s
  | .flog2 rm d a => Sys2Proof.Machine.execFlog2 rm d a s
  | .fabs d a => Sys2Proof.Machine.execFabs d a s
  | .fneg d a => Sys2Proof.Machine.execFneg d a s
  | .ffloor d a => Sys2Proof.Machine.execFfloor d a s
  | .fceil d a => Sys2Proof.Machine.execFceil d a s
  | .frint rm d a => Sys2Proof.Machine.execFrint rm d a s
  | .fclass d a => Sys2Proof.Machine.execFclass d a s
  | .fcmp c p a b => Sys2Proof.Machine.execFcmp c p a b s
  | .cvt src dst inf rm d a => Sys2Proof.Machine.execCvt src dst inf rm d a s
  | .cvtS dst inf fpm d a sc rm => Sys2Proof.Machine.execCvtS dst inf fpm d a sc rm s
  | .pickAt d a b => Sys2Proof.Machine.execPickAt d a b s
  | .pickLead d a b => Sys2Proof.Machine.execPickLead d a b s
  | .pickBack d a b => Sys2Proof.Machine.execPickBack d a b s
  | .pickFwd d a b => Sys2Proof.Machine.execPickFwd d a b s
  | .pickMir d a b => Sys2Proof.Machine.execPickMir d a b s
  | .xbfly stage mode d a => Sys2Proof.Machine.execXbfly stage mode d a s
  | .pollEvery d a => Sys2Proof.Machine.execPollEvery d a s
  | .pollSome d a => Sys2Proof.Machine.execPollSome d a s
  | .pollMap d a => Sys2Proof.Machine.execPollMap d a s
  | .foldAdd d a => Sys2Proof.Machine.execFoldAdd d a s
  | .foldMinI d a => Sys2Proof.Machine.execFoldMinI d a s
  | .foldMinN d a => Sys2Proof.Machine.execFoldMinN d a s
  | .foldMaxI d a => Sys2Proof.Machine.execFoldMaxI d a s
  | .foldMaxN d a => Sys2Proof.Machine.execFoldMaxN d a s
  | .foldAnd d a => Sys2Proof.Machine.execFoldAnd d a s
  | .foldOr d a => Sys2Proof.Machine.execFoldOr d a s
  | .foldXor d a => Sys2Proof.Machine.execFoldXor d a s
  | .ldW o sc d a off => Sys2Proof.Machine.execLdW o sc d a off s
  | .ldQ o sc d a off => Sys2Proof.Machine.execLdQ o sc d a off s
  | .ldB o sc d a off => Sys2Proof.Machine.execLdB o sc d a off s
  | .ldH o sc d a off => Sys2Proof.Machine.execLdH o sc d a off s
  | .stW o sc d a off => Sys2Proof.Machine.execStW o sc d a off s
  | .stQ o sc d a off => Sys2Proof.Machine.execStQ o sc d a off s
  | .stB o sc d a off => Sys2Proof.Machine.execStB o sc d a off s
  | .stH o sc d a off => Sys2Proof.Machine.execStH o sc d a off s
  | .ldS o sc d a z off => Sys2Proof.Machine.execLdS o sc d a z off s
  | .stS o sc d a z off => Sys2Proof.Machine.execStS o sc d a z off s
  | .ldG o sc d a z off => Sys2Proof.Machine.execLdG o sc d a z off s
  | .stG o sc d a z off => Sys2Proof.Machine.execStG o sc d a z off s
  | .atom o sc gang op ty sat a b => Sys2Proof.Machine.execAtom o sc gang op ty sat a b s
  | .red o sc gang op ty sat a b => Sys2Proof.Machine.execRed o sc gang op ty sat a b s
  | .atomc o sc gang a b => Sys2Proof.Machine.execAtomc o sc gang a b s
  | .ldDs o sc d a => Sys2Proof.Machine.execLdDs o sc d a s
  | .stDs o sc d a => Sys2Proof.Machine.execStDs o sc d a s
  | .addDs o sc d a => Sys2Proof.Machine.execAddDs o sc d a s
  | .redDs o sc d a => Sys2Proof.Machine.execRedDs o sc d a s
  | .fence o sc => Sys2Proof.Machine.execFence o sc s
  | .fenceX src dst => Sys2Proof.Machine.execFenceX src dst s
  | .monitor a => Sys2Proof.Machine.execMonitor a s
  | .mwait sc => Sys2Proof.Machine.execMwait sc s
  | .tagSet o sc d a => Sys2Proof.Machine.execTagSet o sc d a s
  | .tagGet o sc d a => Sys2Proof.Machine.execTagGet o sc d a s
  | .pref a => Sys2Proof.Machine.execPref a s
  | .barInit d a bytes => Sys2Proof.Machine.execBarInit d a bytes s
  | .barArr sc a => Sys2Proof.Machine.execBarArr sc a s
  | .barWait sc a => Sys2Proof.Machine.execBarWait sc a s
  | .barArrw sc p a => Sys2Proof.Machine.execBarArrw sc p a s
  | .unitSync => Sys2Proof.Machine.execUnitSync s
  | .gangSync => Sys2Proof.Machine.execGangSync s
  | .berOpen d p => Sys2Proof.Machine.execBerOpen d p s
  | .berPub a => Sys2Proof.Machine.execBerPub a s
  | .stBerth o sc d a => Sys2Proof.Machine.execStBerth o sc d a s
  | .tagRetire a => Sys2Proof.Machine.execTagRetire a s
  | .mma c a b af bf am => Sys2Proof.Machine.execMma c a b af bf am s
  | .mmaSp c a b af bf am => Sys2Proof.Machine.execMmaSp c a b af bf am s
  | .mmaP c a b af bf am => Sys2Proof.Machine.execMmaP c a b af bf am s
  | .scacc c p b => Sys2Proof.Machine.execScacc c p b s
  | .accLd t a sub q => Sys2Proof.Machine.execAccLd t a sub q s
  | .accSt t a sub q => Sys2Proof.Machine.execAccSt t a sub q s
  | .accZero t sub q => Sys2Proof.Machine.execAccZero t sub q s
  | .accCvt dst t a inf fpm rm sub q => Sys2Proof.Machine.execAccCvt dst t a inf fpm rm sub q s
  | .plane d a f => Sys2Proof.Machine.execPlane d a f s
  | .unplane d a f => Sys2Proof.Machine.execUnplane d a f s
  | .cbLd a => Sys2Proof.Machine.execCbLd a s
  | .ruleLd slot a => Sys2Proof.Machine.execRuleLd slot a s
  | .sweep t q a slot => Sys2Proof.Machine.execSweep t q a slot s
  | .sweepR t q a slot => Sys2Proof.Machine.execSweepR t q a slot s
  | .trace d a => Sys2Proof.Machine.execTrace d a s
  | .bndIn a b => Sys2Proof.Machine.execBndIn a b s
  | .bndOut t q a => Sys2Proof.Machine.execBndOut t q a s
  | .engAcq p => Sys2Proof.Machine.execEngAcq p s
  | .engRel => Sys2Proof.Machine.execEngRel s
  | .copy a => Sys2Proof.Machine.execCopy a s
  | .gather a => Sys2Proof.Machine.execGather a s
  | .coll a => Sys2Proof.Machine.execColl a s
  | .frame a => Sys2Proof.Machine.execFrame a s
  | .post d a b => Sys2Proof.Machine.execPost d a b s
  | .cancel d a level => Sys2Proof.Machine.execCancel d a level s
  | .cntRd d a level => Sys2Proof.Machine.execCntRd d a level s
  | .trap c => Sys2Proof.Machine.execTrap c s
  | .eret skip => Sys2Proof.Machine.execEret skip s
  | .cyc d => Sys2Proof.Machine.execCyc d s
  | .rednCtlCount d => Sys2Proof.Machine.execRednCtlCount d s
  | .finj d a kind => Sys2Proof.Machine.execFinj d a kind s
  | .clauseStart u c => Sys2Proof.Machine.execClauseStart u c s
  | .reptPass u c => Sys2Proof.Machine.execReptPass u c s
  | .storeQueueSend u c => Sys2Proof.Machine.execStoreQueueSend u c s
  | .poolMissFill u line victim => Sys2Proof.Machine.execPoolMissFill u line victim s
  | .tagMirrorFill core line => Sys2Proof.Machine.execTagMirrorFill core line s
  | .crewSwap u c u' c' => Sys2Proof.Machine.execCrewSwap u c u' c' s
  | .forcedSwap u c u' c' => Sys2Proof.Machine.execForcedSwap u c u' c' s
  | .lockFormCrew u => Sys2Proof.Machine.execLockFormCrew u s
  | .unitSyncComplete u => Sys2Proof.Machine.execUnitSyncComplete u s
  | .gangSyncComplete u => Sys2Proof.Machine.execGangSyncComplete u s
  | .barWaitComplete u c => Sys2Proof.Machine.execBarWaitComplete u c s
  | .mwaitWake u c e => Sys2Proof.Machine.execMwaitWake u c e s
  | .keyedRequest m => Sys2Proof.Machine.execKeyedRequest m s
  | .drainedUpdate m => Sys2Proof.Machine.execDrainedUpdate m s
  | .pairedArrival m => Sys2Proof.Machine.execPairedArrival m s
  | .signatureCompare m => Sys2Proof.Machine.execSignatureCompare m s
  | .responseDone m => Sys2Proof.Machine.execResponseDone m s
  | .responseRefused m => Sys2Proof.Machine.execResponseRefused m s
  | .responseFault m => Sys2Proof.Machine.execResponseFault m s
  | .responsePoison m => Sys2Proof.Machine.execResponsePoison m s
  | .responseDiverged m => Sys2Proof.Machine.execResponseDiverged m s
  | .requestTimeout m => Sys2Proof.Machine.execRequestTimeout m s
  | .refusalBackoffExpiry m jitter => Sys2Proof.Machine.execRefusalBackoffExpiry m jitter s
  | .packetAgeDiscard m => Sys2Proof.Machine.execPacketAgeDiscard m s
  | .lowAdvance u f => Sys2Proof.Machine.execLowAdvance u f s
  | .retireMessage m => Sys2Proof.Machine.execRetireMessage m s
  | .ownerRestart owner reloaded => Sys2Proof.Machine.execOwnerRestart owner reloaded s
  | .journalLoss owner => Sys2Proof.Machine.execJournalLoss owner s
  | .stepAdvComplete m => Sys2Proof.Machine.execStepAdvComplete m s
  | .unitDispatch n unit core => Sys2Proof.Machine.execUnitDispatch n unit core s
  | .passedOverLimit n => Sys2Proof.Machine.execPassedOverLimit n s
  | .preempt u => Sys2Proof.Machine.execPreempt u s
  | .preemptSaved u => Sys2Proof.Machine.execPreemptSaved u s
  | .resume u core => Sys2Proof.Machine.execResume u core s
  | .engineArrival m => Sys2Proof.Machine.execEngineArrival m s
  | .engineCommandComplete m => Sys2Proof.Machine.execEngineCommandComplete m s
  | .sweepComplete u => Sys2Proof.Machine.execSweepComplete u s
  | .frameDecode m result => Sys2Proof.Machine.execFrameDecode m result s
  | .treeRebuild m => Sys2Proof.Machine.execTreeRebuild m s
  | .grantServed die => Sys2Proof.Machine.execGrantServed die s
  | .grantHoldExpiry die u => Sys2Proof.Machine.execGrantHoldExpiry die u s
  | .unitEnd u => Sys2Proof.Machine.execUnitEnd u s
  | .drainBegin u => Sys2Proof.Machine.execDrainBegin u s
  | .nodeCommit n => Sys2Proof.Machine.execNodeCommit n s
  | .rollbackInPlace n => Sys2Proof.Machine.execRollbackInPlace n s
  | .rollbackRequeue n => Sys2Proof.Machine.execRollbackRequeue n s
  | .dredgePassBegin stack => Sys2Proof.Machine.execDredgePassBegin stack s
  | .dredgePassEnd stack => Sys2Proof.Machine.execDredgePassEnd stack s
  | .scrubRead stack sector => Sys2Proof.Machine.execScrubRead stack sector s
  | .bankFailure core bank => Sys2Proof.Machine.execBankFailure core bank s
  | .timingReplay core => Sys2Proof.Machine.execTimingReplay core s
  | .replayLimit core => Sys2Proof.Machine.execReplayLimit core s
  | .checkpoint job => Sys2Proof.Machine.execCheckpoint job s
  | .checkpointDone job => Sys2Proof.Machine.execCheckpointDone job s
  | .restore job => Sys2Proof.Machine.execRestore job s
  | .ckptStart v => Sys2Proof.Machine.execCkptStart v s
  | .dclsLoad v => Sys2Proof.Machine.execDclsLoad v s
  | .tlbinvPage v => Sys2Proof.Machine.execTlbinvPage v s
  | .tlbinvJob v => Sys2Proof.Machine.execTlbinvJob v s
  | .bmclr v => Sys2Proof.Machine.execBmclr v s
  | .berthk v => Sys2Proof.Machine.execBerthk v s
  | .stepset v => Sys2Proof.Machine.execStepset v s
  | .root v => Sys2Proof.Machine.execRoot v s
  | .drgnWrite stack n v => Sys2Proof.Machine.execDrgnWrite stack n v s
  | .managementRegisterWrite off v => Sys2Proof.Machine.execManagementRegisterWrite off v s
  | .portLinkTraining port rate => Sys2Proof.Machine.execPortLinkTraining port rate s
  | .portDown port => Sys2Proof.Machine.execPortDown port s
  | .flitReceive m correctable => Sys2Proof.Machine.execFlitReceive m correctable s
  | .homeReadRequest m => Sys2Proof.Machine.execHomeReadRequest m s
  | .coreReset core => Sys2Proof.Machine.execCoreReset core s
  | .nop => Sys2Proof.Machine.execNop s
  | .bkpt => Sys2Proof.Machine.execBkpt s
  | .halt => Sys2Proof.Machine.execHalt s
  | .stepAdv => Sys2Proof.Machine.execStepAdv s
  | .rednCtlSync => Sys2Proof.Machine.execRednCtlSync s
  | .machineCheckQueue => Sys2Proof.Machine.execMachineCheckQueue s
  | .powerOn => Sys2Proof.Machine.execPowerOn s
  | .tlbinvDone => Sys2Proof.Machine.execTlbinvDone s
  | .bmclrDone => Sys2Proof.Machine.execBmclrDone s

end Sys2Proof.Machine
end

