-- ==== Sys2Proof/Machine/Step.lean ====
section
/-! DEFINITION. One step of the machine, and a state whose next step runs a given word. -/

namespace Sys2Proof.Machine

/-- One step (notes/assumptions/1.md): the planned turn, with the meaning of its instruction or event where it has one. -/
def step (s : State) : Host.Outcome State Fault Refusal :=
  match plan s with
  | .exec i t => exec i t
  | .done t => .next t

/-- A state whose next step fetches and runs the instruction word (notes/assumptions/12.md). -/
def State.withFetchWord (s : State) (_nbits w : Nat) : State := placeFetch s w

end Sys2Proof.Machine
end

