-- ==== Sys2Proof/Safety.lean ====
section
/-! DEFINITION. What claims about runs speak of: that the machine goes on, the form that its state keeps, where an instruction runs, and what
it leaves in the lanes. -/

namespace Sys2Proof.Machine

/-- The machine goes on: its step answers a next state. -/
def Goes (s : State) : Prop := ∃ t, step s = .next t

/-- Memory is in its canonical form: addresses strictly rising, and no entry equal to what an unlisted address reads as. -/
def State.MemOk (s : State) : Prop := Memory.wf s.mem

/-- Bit 0 of the predicate word of every fibre is 1 (R57, R172). A basin slot reads so whatever its bytes are (`slotAt`). -/
def State.P0 (s : State) : Prop := ∀ y ∈ s.units, ∀ f ∈ y.fibs, f.pred.getLsbD 0 = true

-- an instruction at a crew -------------------------------------------------------------------------------------------

/-- The unit whose crew is at `State.cur`. -/
def State.here (s : State) : UnitSt := s.unit s.ctx.u

/-- The crew at `State.cur`. -/
def State.crewHere (s : State) : Crew := s.here.crew s.ctx.c

/-- A lane executes and its predicate lets it act (R176, R246). -/
abbrev State.acts (s : State) (l : Nat) : Prop := l ∈ lanesOf s.ctx.act

/-- A register of a lane's window (R45, R174). -/
def State.opnd (s : State) (l : Nat) (r : Nat) : Word := s.here.reg s.ctx.c l (s.here.wb s.ctx.c l + r)

/-- A predicate of a lane. -/
def State.prd (s : State) (l : Nat) (p : Nib) : Bool := (s.here.pred s.ctx.c l).getLsbD p.toNat

/-- The fibre that a lane holds. -/
def State.fibOf (s : State) (l : Nat) : Nat := s.crewHere.fib l

/-- The fibre record of a lane. -/
def State.fibre (s : State) (l : Nat) : Fibre := s.here.fib (s.fibOf l)

/-- The rounding that a modifier names in a lane (R228): `.fpm` takes FPMODE bits [1:0]. -/
def State.rounding (s : State) (l : Nat) (rm : Rm) : Round :=
  match rm with
  | .rne => .rne | .rtz => .rtz | .rup => .rup | .rdn => .rdn
  | .fpm => if (s.fibre l).fpmode.getLsbD 1 then (if (s.fibre l).fpmode.getLsbD 0 then .rdn else .rup)
            else if (s.fibre l).fpmode.getLsbD 0 then .rtz else .rne

/-- The pool holds this line of the unit, with no symbol in error (R36, R37). -/
def UnitSt.Holds (y : UnitSt) (r : Nat) : Prop := (y.row r).here = true ∧ (y.row r).bad = []

/-- It holds these lines. -/
def UnitSt.HoldsAll (y : UnitSt) (rs : List Nat) : Prop := ∀ r ∈ rs, y.Holds r

/-- It holds these lines, none of them poisoned, so that they can be read (R72). -/
def UnitSt.Reads (y : UnitSt) (rs : List Nat) : Prop := ∀ r ∈ rs, y.Holds r ∧ (y.row r).poison = false

/-- The lines of a unit after an instruction: `W`, that writes the lines `wrote`, and those of `whole` in all their bytes. The pool holds the lines that it
held; the lines that were dirty and the lines written are dirty (R63); poison marks and symbols in error stay but on the lines written whole (R37, R72). When a
line was last used is left open. -/
structure Lines (y : UnitSt) (W : SMap Row) (wrote whole : Nat → Prop) : Prop where
  here : ∀ r, (SMap.get {} W r).here = (y.row r).here
  dirty : ∀ r, (SMap.get {} W r).dirty = true ↔ (y.row r).dirty = true ∨ ((y.row r).here = true ∧ wrote r)
  poison : ∀ r, (SMap.get {} W r).poison = true ↔ (y.row r).poison = true ∧ ¬ whole r
  bad : ∀ r, (whole r → (SMap.get {} W r).bad = []) ∧ (¬ whole r → (SMap.get {} W r).bad = (y.row r).bad)

/-- The instruction `i` runs here: a crew stands at it inside a clause with an active lane, nothing it must wait for is outstanding, none of the
checks of Table 11-15 fails (R159 among them), the pool holds the register lines that it names, sound where it reads them, and no stream register is among
its sources. -/
structure Ready (i : Instr) (s : State) : Prop where
  stands : standing s = true
  awake : waiting s s.ctx = false
  active : s.ctx.act ≠ 0
  checks : dynCheck s s.ctx i = none
  free : scoreboard s s.ctx i = false
  reads : s.here.Reads (readRows s s.ctx i)
  writes : s.here.HoldsAll (destRows s s.ctx i)
  unbound : streamsOf s s.ctx i = []

/-- `s` once the instruction here has asked for its register lines: they have been used now, and nothing else has changed. -/
def State.used (s : State) (i : Instr) : State := useRows s s.ctx.u (readRows s s.ctx i ++ (walkRows s s.ctx i ++ destRows s s.ctx i))

/-- `i` at `s` answers the state that follows `t`, the state after the instruction's own effect, when its entry goes on to the next instruction. -/
def Done (i : Instr) (s t : State) : Prop := exec i s = .next (finish s.ctx i [] t)

/-- The lane alone among the active lanes holds its fibre. -/
def State.alone (s : State) (l : Nat) : Prop := ∀ k, s.acts k → s.fibOf k = s.fibOf l → k = l

/-- A register line that some active lane writes, where each writes the registers of its window that `regs` lists. -/
def State.writesReg (s : State) (regs : Nat → List (Nat × Word)) (r : Nat) : Prop :=
  ∃ l, s.acts l ∧ ∃ e ∈ regs l, r = rowReg s.ctx.c (s.here.wb s.ctx.c l + e.1)

/-- `t` is `s` but for registers, fibres and the marks of lines of the unit here. Each active lane's window registers that `regs` lists hold the values it
lists, and every other register is as before. A fibre that no active lane holds is as before, and one that just one active lane holds is as `fib` says. The
register lines written are dirty, and where all 32 lanes write them under one window base they are whole. -/
structure LanesDo (s t : State) (regs : Nat → List (Nat × Word)) (fib : Nat → Fibre → Fibre) : Prop where
  frame : ∃ R F W, t = s.modUnit s.ctx.u (fun y => { y with regs := R, fibs := F, rows := W }) ∧
    Lines s.here W (s.writesReg regs) (fun r => s.writesReg regs r ∧ wholeLines s s.ctx = true)
  regs : ∀ l c r, l < 32 → t.here.reg c l r =
    ((((if s.ctx.act.getLsbD l then regs l else []).find? (fun e => rowReg c r = rowReg s.ctx.c (s.here.wb s.ctx.c l + e.1))).map Prod.snd).getD
      (s.here.reg c l r))
  still : ∀ f, (∀ l, s.acts l → s.fibOf l ≠ f) → t.here.fibs[f]? = s.here.fibs[f]?
  fibres : ∀ (l : Nat) (y : Fibre), s.acts l → s.alone l → s.here.fibs[s.fibOf l]? = some y → t.here.fibs[s.fibOf l]? = some (fib l y)

/-- The instruction writes `v l` to register `d` of each active lane's window and nothing else. -/
def SetsReg (i : Instr) (s : State) (d : Nat) (v : Nat → Word) : Prop :=
  ∃ t, Done i s t ∧ LanesDo s t (fun l => [(d, v l)]) (fun _ y => y)

/-- The instruction writes a register as `SetsReg` says and sets bits of FPFLAGS. -/
def SetsFloat (i : Instr) (s : State) (d : Nat) (v : Nat → Word × BitVec 8) : Prop :=
  ∃ t, Done i s t ∧ LanesDo s t (fun l => [(d, (v l).1)]) (fun l y => { y with fpflags := y.fpflags ||| (v l).2 })

/-- The instruction writes predicate `p` of each active lane, which has no effect on `p0` (R250), and nothing else. -/
def SetsPred (i : Instr) (s : State) (p : Nib) (v : Nat → Bool) : Prop :=
  ∃ t, Done i s t ∧ LanesDo s t (fun _ => []) (fun l y => { y with pred := setPred y.pred p (v l) })

/-- A lane of the crew here belongs to an entry of this kind. -/
def State.laneIn (t : State) (l : Nat) (p : Entry → Prop) : Prop := ∃ e, (t.crewHere.entry e).mask.getLsbD l = true ∧ p (t.crewHere.entry e)

/-- The address of the next word: bits [63:32] stay (R8, R251). -/
def State.pcNext (s : State) : Addr := s.ctx.ent.pc.extractLsb' 32 32 ++ (s.ctx.ent.pc.extractLsb' 0 32 + 4)

/-- A lane stands, runnable and in the mode it was in, at the header at `pc`. -/
def HeaderAt (s : State) (pc : Addr) (e : Entry) : Prop := e.status = .runnable ∧ e.started = false ∧ e.pc = pc ∧ e.handler = s.ctx.ent.handler

/-- The split table has a place for each of `n` groups of the entry's lanes (R184). -/
def Room (s : State) (n : Nat) : Prop :=
  s.crewHere.split.length ≤ 8 ∧ n ≤ 1 + (s.crewHere.split.filter (fun e => e.status == .empty)).length

/-- `t` is `s` but for where the lanes of the crew here stand, its loop words and masks, and which fibres take an instruction as done (R121). -/
structure PathOnly (s t : State) : Prop where
  frame : ∃ C F, t = s.modUnit s.ctx.u (fun y => { y with crews := C, fibs := F })
  others : ∀ c, c ≠ s.ctx.c → t.here.crews[c]? = s.here.crews[c]?
  crew : t.crewHere.lanes = s.crewHere.lanes ∧ t.crewHere.streams = s.crewHere.streams ∧ t.crewHere.fifo = s.crewHere.fifo ∧
    t.crewHere.active = s.crewHere.active
  fibres : ∀ (f : Nat) (y : Fibre), s.here.fibs[f]? = some y → ∃ b, t.here.fibs[f]? = some { y with skip := b }

/-- No race check applies to an access of the crew here (R158): the launch is not deterministic, or the place is in global memory on a page that is not
CHECKED. -/
def State.unraced (s : State) (p : Place) : Prop :=
  s.here.cfg.det = false ∨ ∃ k, p.leaf = some k ∧ entChecked k.ent = false ∧ ∀ o, p.owner ≠ .pool o

/-- Nothing is outstanding that a release at this scope waits for (R143), and no active lane has a trap to take (R122). -/
structure Released (scope : Nat) (s : State) : Prop where
  pending : ∀ l, s.acts l → (s.fibre l).pending = []
  ops : ∀ o ∈ s.ops, relBlocks s s.ctx.u s.ctx.c scope o = false
  bars : scope = 0 ∨ ∀ m ∈ s.here.barWaits, ∀ o ∈ s.ops, o.id = m → o.phase = .answered

/-- The operation that an active lane sends at the instruction here, under the identifier of its place among the active lanes, before its operands, its
destination and its key. -/
def State.laneOp (s : State) (i : Instr) (l : Nat) (k : OpKind) (p : Place) (n : Nat) (o : Ord) (sc : Nat) : Op :=
  { id := s.nextId + (lanesOf s.ctx.act).idxOf l, kind := k, u := some s.ctx.u, crew := s.ctx.c, lane := l, fibre := s.fibOf l
    word := (encode i).getD 0, pc := s.ctx.ent.pc, va := p.va, loc := p.loc, owner := p.owner, leaf := p.leaf, size := n, order := o, scope := sc
    sentAt := s.cyc (s.here.core.getD 0), priv := s.ctx.ent.handler
    berth := berthEntry s s.here.cfg.job s.here.core s.here.cfg.mb }

/-- The operation that an active lane sends to a dispatcher at the instruction here (R88, R281 to R285). -/
def State.masterOp (s : State) (i : Instr) (l : Nat) (k : OpKind) : Op :=
  { id := s.nextId + (lanesOf s.ctx.act).idxOf l, kind := k, u := some s.ctx.u, crew := s.ctx.c, lane := l, fibre := s.fibOf l
    word := (encode i).getD 0, pc := s.ctx.ent.pc, owner := .disp 0, size := 0, sentAt := s.cyc (s.here.core.getD 0)
    berth := berthEntry s s.here.cfg.job s.here.core s.here.cfg.mb }

/-- A keyed operation of an active lane as its request leaves at once, with its fibre's low-water mark (R113, R123). -/
def State.leaves (s : State) (l : Nat) (o : Op) : Op :=
  { o with low := (s.fibre l).low, sentAt := s.cyc ((s.here.core.or s.here.lastCore).getD 0) }

/-- The key that a fibre's next operation takes (Table 5-2). -/
def State.laneKey (s : State) (l : Nat) : Key :=
  { job := s.here.cfg.job, node := (s.node s.here.cfg.node).id, unit := s.here.cfg.uidx, fibre := s.fibOf l, part := 0, serial := (s.fibre l).serial }

/-- The request log has room for one more operation of each active lane (R62). -/
def MayLog (s : State) : Prop :=
  (s.ops.filter (fun o => o.phase != .answered && o.u == some s.ctx.u && o.cmd.isNone && !o.kind.own)).length + 32 ≤ 4096

/-- So have the serials and the outstanding limit of each active lane's fibre (R113). -/
def MayDraw (s : State) : Prop :=
  (∀ l, s.acts l → ((s.fibre l).serial - (s.fibre l).low).toNat + 32 < 32768 ∧ s.outst s.ctx.u (s.fibOf l) + 32 ≤ 256) ∧ MayLog s

/-- `t` is `s` with the operations `new` added for the active lanes: `queue` says whether they enter the crew's store queue, and `keyed` whether they take serials. -/
structure Sends (s t : State) (new : List Op) (queue keyed : Bool) : Prop where
  count : new.length = (lanesOf s.ctx.act).length
  frame : ∃ C F, t = ({ s with ops := s.ops ++ new, nextId := s.nextId + new.length }).modUnit s.ctx.u (fun y => { y with crews := C, fibs := F })
  others : ∀ c, c ≠ s.ctx.c → t.here.crews[c]? = s.here.crews[c]?
  crew : t.crewHere = { s.crewHere with fifo := s.crewHere.fifo ++ (if queue then new.map (fun o => o.id) else []) }
  still : ∀ f, (keyed = false ∨ ∀ l, s.acts l → s.fibOf l ≠ f) → t.here.fibs[f]? = s.here.fibs[f]?
  serials : ∀ (l : Nat) (y : Fibre), keyed = true → s.acts l → s.alone l → s.here.fibs[s.fibOf l]? = some y →
    t.here.fibs[s.fibOf l]? = some { y with serial := y.serial + 1 }

/-- After `t`, in which operations `new` that it waits for were sent, the entry stands at the instruction until they are answered (R122, R247). -/
def Holds (i : Instr) (s t : State) (new : List Op) : Prop :=
  ∃ t', exec i s = .next t' ∧ PathOnly t t' ∧ t'.crewHere.loops = t.crewHere.loops ∧ t'.crewHere.masks = t.crewHere.masks ∧
    t'.crewHere.split = s.crewHere.split.set s.ctx.e { s.ctx.ent with hold := new.map (fun o => o.id) }

/-- The active lanes wait at the instruction here on what `n` names, and the entry's other lanes go on (R187, R335, R336). -/
def Waits (i : Instr) (s : State) (n : Nib) : Prop :=
  ∃ t, exec i s = .next t ∧ PathOnly s t ∧ t.crewHere.loops = s.crewHere.loops ∧ t.crewHere.masks = s.crewHere.masks ∧
    (∀ l, s.acts l → t.laneIn l (fun e => e.status = .waiting ∧ e.waitOn = n ∧ e.pc = s.ctx.ent.pc ∧ e.handler = s.ctx.ent.handler)) ∧
    ∀ l ∈ lanesOf s.ctx.ent.mask, ¬ s.acts l → t.laneIn l (fun e => e.status = .runnable ∧ e.pc = s.pcNext ∧ e.handler = s.ctx.ent.handler)

/-- `t` is `s` with the nodes of `ws` recorded in the consumed-from set of the unit's node, whose committed members go (R81). -/
def Records (s t : State) (ws : List Nat) : Prop :=
  let n := s.here.cfg.node
  ∃ L, t = s.modNode n (fun y => { y with consumed := L }) ∧
    ∀ w, w ∈ L ↔ (s.node w).status ≠ .committed ∧ (w ∈ (s.node n).consumed ∨ (w ∈ ws ∧ w ≠ n))

/-- The bytes of the scratchpad here from `lo`, `n` of them, lie inside it with the alignment `al` (R20, R30). -/
def State.inScr (s : State) (lo n al : Nat) : Prop := lo % al = 0 ∧ lo < 2 ^ 21 ∧ lo + n ≤ 32768 * (s.here.cfg.part.toNat / 64 % 64)

/-- The scratchpad `M` is that of `s` outside the ranges of `n` bytes that the active lanes name. -/
def State.scrElse (s : State) (M : Memory) (lo : Nat → Nat) (n : Nat) : Prop :=
  ∀ b, (∀ l, s.acts l → ¬ (lo l ≤ b ∧ b < lo l + n)) → M.read b = Memory.read s.here.scr b

/-- The scratchpad lines of the ranges of `n` bytes that the active lanes name. -/
def State.scrLines (s : State) (lo : Nat → Nat) (n : Nat) (r : Nat) : Prop := ∃ l, s.acts l ∧ r ∈ scrRows (lo l) n

/-- Those that lie whole in one of the ranges. -/
def State.scrWhole (s : State) (lo : Nat → Nat) (n : Nat) (r : Nat) : Prop :=
  ∃ l, s.acts l ∧ 32768 ≤ r ∧ lo l ≤ 128 * (r - 32768) ∧ 128 * (r - 32768) + 128 ≤ lo l + n

/-- A tile-engine instruction runs here: no sweep of the unit is in flight (R345), and no race check applies. -/
def TileReady (i : Instr) (s : State) : Prop := Ready i s ∧ i.wf = true ∧ s.here.cfg.det = false ∧ s.here.sweeps = []

/-- The lines of columns [lo, lo + n) of accumulator tile `t` in the rows of the active lanes (R22, R53). -/
def State.accLines (s : State) (t lo n : Nat) (r : Nat) : Prop := ∃ l j, s.acts l ∧ j < n ∧ r = rowAcc t l (lo + j)

/-- An accumulator element here. -/
def State.accAt (s : State) (t l n : Nat) : Word := SMap.get 0 s.here.acc (accKey t l n)

/-- The accumulators `A` are those of `s` outside columns [lo, lo + n) of tile `t` in the rows of the active lanes. -/
def State.accElse (s : State) (A : SMap Word) (t lo n : Nat) : Prop :=
  ∀ k, (∀ l j, s.acts l → j < n → k ≠ accKey t l (lo + j)) → SMap.get 0 A k = SMap.get 0 s.here.acc k

end Sys2Proof.Machine
end

