-- ==== Sys2Proof/Certificates/Slice0/Obligations.lean ====
section
/-! DEFINITION. The statements for the provers, by family: lanes, control, traps, memory, synchronisation, tile engine, events, and the machine. -/

open Sys2Proof Sys2Proof.Machine

-- integer, bit and immediate instructions ----------------------------------------------------------------------------

/-- R273, Table 12-1: the integer ALU instructions without saturation write `d` of each active lane and nothing else. R273, R274, R239: the saturating forms clamp the exact result to INT32 and set ISAT (bit 5) just where they clamp. -/
def Obligations.IntegerArithmetic : Prop :=
  (∀ (d a b : VReg) (i : Instr) (f : Word → Word → Word → Word), (i, f) ∈ ([
      (.iadd d a b, fun x y _ => x + y), (.isub d a b, fun x y _ => x - y),
      (.iminI d a b, fun x y _ => if x.slt y then x else y), (.iminN d a b, fun x y _ => if x < y then x else y),
      (.imaxI d a b, fun x y _ => if x.slt y then y else x), (.imaxN d a b, fun x y _ => if x < y then y else x),
      (.iand d a b, fun x y _ => x &&& y), (.ior d a b, fun x y _ => x ||| y), (.ixor d a b, fun x y _ => x ^^^ y),
      (.iandn d a b, fun x y _ => x &&& ~~~y), (.shl d a b, fun x y _ => x <<< y), (.shrN d a b, fun x y _ => x >>> y),
      (.shrI d a b, fun x y _ => x.sshiftRight y.toNat), (.rot d a b, fun x y _ => x.rotateLeft y.toNat),
      (.sel d a b, fun x y z => (x &&& z) ||| (y &&& ~~~z)), (.iabs d a, fun x _ _ => if x.toInt < 0 then -x else x),
      (.ineg d a, fun x _ _ => 0 - x)] : List (Instr × (Word → Word → Word → Word))) →
  ∀ s, Ready i s → SetsReg i s d.toNat (fun l => f (s.opnd l a.toNat) (s.opnd l b.toNat) (s.opnd l d.toNat))) ∧
  (∀ (d a b : VReg) (i : Instr) (f : Int → Int → Int → Int), (i, f) ∈ ([
      (.iaddS d a b, fun x y _ => x + y), (.isubS d a b, fun x y _ => x - y), (.imadS d a b, fun x y z => x * y + z)] :
        List (Instr × (Int → Int → Int → Int))) →
  ∀ s, Ready i s → SetsFloat i s d.toNat (fun l =>
    let e := f (s.opnd l a.toNat).toInt (s.opnd l b.toNat).toInt (s.opnd l d.toNat).toInt
    (BitVec.ofInt 32 (max (-2 ^ 31) (min e (2 ^ 31 - 1))), if -2 ^ 31 ≤ e ∧ e < 2 ^ 31 then 0 else 0x20)))

/-- R274, R244, Table 10-10: multiply and divide. R276, R277, R280: immediates, constants and LEA. -/
def Obligations.MultiplyDivideImmediates : Prop :=
  (∀ (d a b : VReg) (i : Instr) (f : Word → Word → Word → Word), (i, f) ∈ ([
      (.imul d a b, fun x y _ => x * y), (.imad d a b, fun x y z => x * y + z),
      (.imulhI d a b, fun x y _ => (x.signExtend 64 * y.signExtend 64).extractLsb' 32 32),
      (.imulhN d a b, fun x y _ => (x.setWidth 64 * y.setWidth 64).extractLsb' 32 32),
      (.idivI d a b, fun x y _ => if y = 0 then 0xFFFFFFFF else x.sdiv y), (.idivN d a b, fun x y _ => if y = 0 then 0xFFFFFFFF else x / y),
      (.iremI d a b, fun x y _ => if y = 0 then x else x.srem y), (.iremN d a b, fun x y _ => if y = 0 then x else x % y)] :
        List (Instr × (Word → Word → Word → Word))) →
  ∀ s, Ready i s → SetsReg i s d.toNat (fun l => f (s.opnd l a.toNat) (s.opnd l b.toNat) (s.opnd l d.toNat))) ∧
  (∀ (d a b : VReg) (k : BitVec 12) (c : BitVec 5) (n : BitVec 19) (i : Instr) (f : Word → Word → Word → Word), (i, f) ∈ ([
      (.addi d a k, fun x _ _ => x + BitVec.ofInt 32 k.toInt), (.andi d a k, fun x _ _ => x &&& BitVec.ofInt 32 k.toInt),
      (.ori d a k, fun x _ _ => x ||| BitVec.ofInt 32 k.toInt), (.xori d a k, fun x _ _ => x ^^^ BitVec.ofInt 32 k.toInt),
      (.shli d a c, fun x _ _ => x <<< c), (.shriN d a c, fun x _ _ => x >>> c), (.shriI d a c, fun x _ _ => x.sshiftRight' c),
      (.roti d a c, fun x _ _ => x <<< c ||| x >>> (32 - c.toNat)), (.movi d n, fun _ _ _ => BitVec.ofInt 32 n.toInt),
      (.movh d n, fun _ _ z => n ++ z.setWidth 13), (.lea c d a b, fun x y _ => x + y * BitVec.ofNat 32 (2 ^ c.toNat))] :
        List (Instr × (Word → Word → Word → Word))) →
  ∀ s, Ready i s → SetsReg i s d.toNat (fun l => f (s.opnd l a.toNat) (s.opnd l b.toNat) (s.opnd l d.toNat)))

/-- R275, Table 12-3: POPC, CLZ, CTZ, BREV, BFX and BFI, the results said bit by bit. R278, R279, R308: the instructions that write a predicate of each active lane: ICMP under its six conditions, PLOP, POLL.EVERY and POLL.SOME. -/
def Obligations.BitsPredicates : Prop :=
  (∀ (d a b : VReg) (i : Instr) (ok : Word → Word → Word → Word → Prop), (i, ok) ∈ ([
      (.popc d a, fun x _ _ r => r.toNat = (List.range 32).countP (fun k => x.getLsbD k)),
      (.clz d a, fun x _ _ r => r.toNat ≤ 32 ∧ (∀ k, k < r.toNat → x.getMsbD k = false) ∧ (r.toNat < 32 → x.getMsbD r.toNat = true)),
      (.ctz d a, fun x _ _ r => r.toNat ≤ 32 ∧ (∀ k, k < r.toNat → x.getLsbD k = false) ∧ (r.toNat < 32 → x.getLsbD r.toNat = true)),
      (.brev d a, fun x _ _ r => ∀ k, k < 32 → r.getLsbD k = x.getLsbD (31 - k)),
      (.bfx d a b, fun x y _ r =>
        let pos := y.toNat % 32; let len := if y.toNat / 32 % 32 = 0 then 32 else y.toNat / 32 % 32
        ∀ k, k < 32 → r.getLsbD k = (decide (k < len) && x.getLsbD (pos + k))),
      (.bfi d a b, fun x y z r =>
        let pos := y.toNat % 32; let len := if y.toNat / 32 % 32 = 0 then 32 else y.toNat / 32 % 32
        ∀ k, k < 32 → r.getLsbD k = if pos ≤ k ∧ k < pos + len then x.getLsbD (k - pos) else z.getLsbD k)] :
        List (Instr × (Word → Word → Word → Word → Prop))) →
  ∀ s, Ready i s → ∃ r : Nat → Word, SetsReg i s d.toNat r ∧
    ∀ l, ok (s.opnd l a.toNat) (s.opnd l b.toNat) (s.opnd l d.toNat) (r l)) ∧
  (∀ (p pa pb : Nib) (a b : VReg) (n na nb : Bool) (s : State) (i : Instr) (v : Nat → Bool), (i, v) ∈ ([
      (.icmp .eq n p a b, fun l => s.opnd l a.toNat == s.opnd l b.toNat), (.icmp .ne n p a b, fun l => s.opnd l a.toNat != s.opnd l b.toNat),
      (.icmp .lt n p a b, fun l => if n then (s.opnd l a.toNat).ult (s.opnd l b.toNat) else (s.opnd l a.toNat).slt (s.opnd l b.toNat)),
      (.icmp .le n p a b, fun l => if n then (s.opnd l a.toNat).ule (s.opnd l b.toNat) else (s.opnd l a.toNat).sle (s.opnd l b.toNat)),
      (.icmp .gt n p a b, fun l => if n then (s.opnd l b.toNat).ult (s.opnd l a.toNat) else (s.opnd l b.toNat).slt (s.opnd l a.toNat)),
      (.icmp .ge n p a b, fun l => if n then (s.opnd l b.toNat).ule (s.opnd l a.toNat) else (s.opnd l b.toNat).sle (s.opnd l a.toNat)),
      (.plop .and na nb p pa pb, fun l => (s.prd l pa ^^ na) && (s.prd l pb ^^ nb)),
      (.plop .or na nb p pa pb, fun l => (s.prd l pa ^^ na) || (s.prd l pb ^^ nb)),
      (.plop .xor na nb p pa pb, fun l => (s.prd l pa ^^ na) ^^ (s.prd l pb ^^ nb)),
      (.plop .mov na nb p pa pb, fun l => s.prd l pa ^^ na),
      (.pollEvery p pa, fun _ => (List.range 32).all (fun k => !s.ctx.act.getLsbD k || s.prd k pa)),
      (.pollSome p pa, fun _ => (List.range 32).any (fun k => s.ctx.act.getLsbD k && s.prd k pa))] : List (Instr × (Nat → Bool))) →
  Ready i s → SetsPred i s p v)


-- floating point -----------------------------------------------------------------------------------------------------

/-- R294, R296 to R298, R301, R302: the floating-point instructions and CVT write one register of each active lane, with the rounding the word or FPMODE
names, and OR their flags into FPFLAGS. R225, R294: a sum or a product that is a nonzero FP32 value is delivered as that value, in every rounding, with no flag. `dyInt` reads a
decoded value as a whole multiple of a common power of two.
Where the spec is silent the model's own choice decides: log entry 10. -/
def Obligations.FloatResultsExact : Prop :=
  (∀ (rm : Rm) (np nc inf : Bool) (src dst : Fmt) (d a b : VReg) (i : Instr) (f : Round → Word → Word → Word → Word × BitVec 8), (i, f) ∈ ([
      (.fadd rm d a b, fun r x y _ => fpAdd r x y), (.fsub rm d a b, fun r x y _ => fpSub r x y), (.fmul rm d a b, fun r x y _ => fpMul r x y),
      (.ffma np nc rm d a b, fun r x y z => fpFma r np nc x y z), (.frcp rm d a, fun r x _ _ => fpRcp r x),
      (.frsq rm d a, fun r x _ _ => fpRsq r x), (.fsqrt rm d a, fun r x _ _ => fpSqrt r x), (.fexp2 rm d a, fun r x _ _ => fpExp2 r x),
      (.flog2 rm d a, fun r x _ _ => fpLog2 r x), (.frint rm d a, fun r x _ _ => fpInt r x), (.ffloor d a, fun _ x _ _ => fpInt .rdn x),
      (.fceil d a, fun _ x _ _ => fpInt .rup x), (.cvt src dst inf rm d a, fun r x _ _ => cvtVal src dst inf r (rm == .rtz) x)] :
        List (Instr × (Round → Word → Word → Word → Word × BitVec 8))) →
  ∀ s, Ready i s → SetsFloat i s d.toNat (fun l =>
    f (s.rounding l rm) (s.opnd l a.toNat) (s.opnd l b.toNat) (s.opnd l d.toNat))) ∧
  (∀ (r : Round) (a b w : Word) (na nb nw : Bool) (ma mb mw : Nat) (ea eb ew : Int),
    f32 a = .fin na ma ea → f32 b = .fin nb mb eb → f32 w = .fin nw mw ew → mw ≠ 0 →
    (let q := min ea (min eb ew); dyInt na ma ea q + dyInt nb mb eb q = dyInt nw mw ew q → fpAdd r a b = (w, 0)) ∧
    (let q := min (ea + eb) ew; dyInt (na != nb) (ma * mb) (ea + eb) q = dyInt nw mw ew q → fpMul r a b = (w, 0)))

/-- R294, R227: a NaN operand or an invalid operation gives 0x7FC0_0000; an invalid operation sets NV, and so does a signalling NaN operand. R295: FMIN and FMAX order −0 below +0, prefer a number to a NaN, and set no flag but NV for a signalling NaN. R298: FABS and FNEG clear or flip the sign bit of a number with no flag; a NaN gives 0x7FC0_0000, with NV where it is signalling. R300, Table 13-4: FCMP writes a predicate and sets NV. `val` puts the FP32 numbers in their order, with the two zeros equal. -/
def Obligations.FloatSpecials : Prop :=
  (∀ (rm : Rm) (d a b : VReg) (i : Instr) (bad : Word → Word → Bool), (i, bad) ∈ ([
      (.fadd rm d a b, fun x y => (x == 0x7F800000 && y == 0xFF800000) || (x == 0xFF800000 && y == 0x7F800000)),
      (.fsub rm d a b, fun x y => (x == 0x7F800000 && y == 0x7F800000) || (x == 0xFF800000 && y == 0xFF800000)),
      (.fmul rm d a b, fun x y => (x &&& 0x7FFFFFFF == 0 && y &&& 0x7FFFFFFF == 0x7F800000) ||
        (x &&& 0x7FFFFFFF == 0x7F800000 && y &&& 0x7FFFFFFF == 0))] : List (Instr × (Word → Word → Bool))) →
  ∀ s, Ready i s → ∃ v, SetsFloat i s d.toNat v ∧ ∀ l,
    let x := s.opnd l a.toNat; let y := s.opnd l b.toNat
    let nan := fun w : Word => decide (0x7F800000 < (w &&& 0x7FFFFFFF).toNat)
    let quiet := fun w : Word => w.getLsbD 22
    (nan x || nan y || bad x y) = true →
      v l = (0x7FC00000, if bad x y || (nan x && !quiet x) || (nan y && !quiet y) then 1 else 0)) ∧
  (∀ (d a b : VReg) (mx : Bool) (s : State),
    let i : Instr := if mx then .fmax d a b else .fmin d a b
    Ready i s → ∃ v, SetsFloat i s d.toNat v ∧ ∀ l,
      let x := s.opnd l a.toNat; let y := s.opnd l b.toNat
      let nan := fun w : Word => decide (0x7F800000 < (w &&& 0x7FFFFFFF).toNat)
      let snan := fun w : Word => nan w && !w.getLsbD 22
      let low := fun p q : Word => if p.getLsbD 31 then !q.getLsbD 31 || decide (q.toNat ≤ p.toNat) else !q.getLsbD 31 && decide (p.toNat ≤ q.toNat)
      v l = (if nan x && nan y then 0x7FC00000 else if nan x then y else if nan y then x
             else if low x y then (if mx then y else x) else (if mx then x else y),
             if snan x || snan y then 1 else 0)) ∧
  (∀ (d a : VReg) (ng : Bool) (s : State),
    let i : Instr := if ng then .fneg d a else .fabs d a
    Ready i s → SetsFloat i s d.toNat (fun l =>
      let x := s.opnd l a.toNat
      if 0x7F800000 < (x &&& 0x7FFFFFFF).toNat then (0x7FC00000, if x.getLsbD 22 then 0 else 1)
      else (if ng then x ^^^ 0x80000000 else x &&& 0x7FFFFFFF, 0))) ∧
  (∀ (c : FCond) (p : Nib) (a b : VReg) (s : State), Ready (.fcmp c p a b) s →
    let nan := fun w : Word => decide (0x7F800000 < (w &&& 0x7FFFFFFF).toNat)
    let snan := fun w : Word => nan w && !w.getLsbD 22
    let val := fun w : Word => if w.getLsbD 31 then -((w &&& 0x7FFFFFFF).toNat : Int) else ((w &&& 0x7FFFFFFF).toNat : Int)
    let res := fun l =>
      let x := s.opnd l a.toNat; let y := s.opnd l b.toNat
      let un := nan x || nan y
      let sn := snan x || snan y
      match c with
      | .eq => (!un && decide (val x = val y), sn) | .ne => (un || decide (val x ≠ val y), sn)
      | .lt => (!un && decide (val x < val y), un) | .le => (!un && decide (val x ≤ val y), un)
      | .gt => (!un && decide (val y < val x), un) | .ge => (!un && decide (val y ≤ val x), un)
      | .un => (un, sn)
    ∃ t, Done (.fcmp c p a b) s t ∧ LanesDo s t (fun _ => [])
      (fun l y => { y with pred := setPred y.pred p (res l).1, fpflags := y.fpflags ||| (if (res l).2 then 1 else 0) }))

/-- R299: the mask of FCLASS. -/
def Obligations.FclassMask : Prop :=
  ∀ (d a : VReg) (s : State), Ready (.fclass d a) s → SetsReg (.fclass d a) s d.toNat (fun l =>
    let x := s.opnd l a.toNat
    let neg := x.getLsbD 31
    let e := (x.extractLsb' 23 8).toNat
    let f := (x.extractLsb' 0 23).toNat
    BitVec.ofNat 32 (2 ^ (
      if e = 255 then (if f = 0 then (if neg then 0 else 7) else if x.getLsbD 22 then 9 else 8)
      else if e = 0 then (if f = 0 then (if neg then 3 else 4) else if neg then 2 else 5)
      else if neg then 1 else 6)))

/-- R233: E8M0 is the source of a conversion to FP32 only, and that conversion is exact. -/
def Obligations.ConvertE8m0 : Prop :=
  (∀ (src dst : Fmt) (inf : Bool) (rm : Rm) (d a : VReg), (Instr.cvt src dst inf rm d a).comboOk = true →
    dst ≠ .e8m0 ∧ (src = .e8m0 → dst = .f32)) ∧
  ∀ (inf : Bool) (rm : Rm) (d a : VReg) (s : State), Ready (.cvt .e8m0 .f32 inf rm d a) s →
    SetsFloat (.cvt .e8m0 .f32 inf rm d a) s d.toNat (fun l =>
      let e := (s.opnd l a.toNat).toNat % 256
      (if e = 255 then 0x7FC00000 else if e = 0 then 0x00400000 else BitVec.ofNat 32 (e * 2 ^ 23), 0))

/-- R242, R243, R304: CVT.S writes the converted value, ORs its flags, and keeps the statistics of the lane: the largest magnitude, and the
number of saturated elements, which stays at 2^32 − 1. -/
def Obligations.ConvertScaled : Prop :=
  ∀ (dst : SFmt) (inf fpm : Bool) (d a : VReg) (sc : BitVec 5) (rm : BitVec 2) (s : State),
    let i : Instr := .cvtS dst inf fpm d a sc rm
    let k := scaleReg s s.ctx sc
    Ready i s →
    let one := fun l y => cvtS (s.opnd l a.toNat) (s.opnd l k) (s.opnd l (k + 1)) dst
      (if fpm then s.rounding l .fpm else roundOf rm) inf y
    ∃ t, Done i s t ∧ LanesDo s t (fun l => [(d.toNat, (one l (s.fibre l).amax).res)])
      (fun l y => { y with
        fpflags := y.fpflags ||| (one l y.amax).flags
        amax := (one l y.amax).amax
        sat := BitVec.ofNat 32 (min (y.sat.toNat + (one l y.amax).sat.toNat) (2 ^ 32 - 1)) })


-- exchanges ----------------------------------------------------------------------------------------------------------

/-- R305, R306, R308: PICK, FOLD and POLL.MAP write one register of each active lane from registers of other lanes. A lane that holds no fibre supplies zero,
and a PICK from outside the crew gives the lane its own register. R307: a stage of XBFLY exchanges, with bit `st` of lane and column, the elements whose two bits differ: bits of one register, halves of 16, or 32 registers. -/
def Obligations.ExchangesButterfly : Prop :=
  (∀ (d a b : VReg) (p : Nib) (s : State) (i : Instr) (v : Nat → Word),
    let sup := fun k : Nat => if (s.crewHere.lanes.getD k none).isSome then s.opnd k a.toNat else 0
    let n := fun l => (s.opnd l b.toNat).toNat
    let low := (lanesOf s.ctx.act).headD 0
    let fold := fun (f : Word → Word → Word) (_ : Nat) => ((lanesOf s.ctx.act).map (fun k => s.opnd k a.toNat)).tail.foldl f (s.opnd low a.toNat);
    (i, v) ∈ ([
      (.pickAt d a b, fun l => sup (n l % 32)), (.pickLead d a b, fun _ => sup (n low % 32)),
      (.pickBack d a b, fun l => if n l ≤ l then sup (l - n l) else s.opnd l a.toNat),
      (.pickFwd d a b, fun l => if l + n l < 32 then sup (l + n l) else s.opnd l a.toNat),
      (.pickMir d a b, fun l => sup (l ^^^ (n l % 32))),
      (.pollMap d p, fun _ => maskOf ((List.range 32).filter (fun k => s.ctx.act.getLsbD k && s.prd k p))),
      (.foldAdd d a, fold (· + ·)), (.foldAnd d a, fold (· &&& ·)), (.foldOr d a, fold (· ||| ·)), (.foldXor d a, fold (· ^^^ ·)),
      (.foldMinI d a, fold (fun x y => if y.slt x then y else x)), (.foldMinN d a, fold (fun x y => if y < x then y else x)),
      (.foldMaxI d a, fold (fun x y => if x.slt y then y else x)), (.foldMaxN d a, fold (fun x y => if x < y then y else x))] :
        List (Instr × (Nat → Word))) →
    Ready i s → SetsReg i s d.toNat v) ∧
  (∀ (st : BitVec 3) (m : XMode) (d a : VReg) (s : State), Ready (.xbfly st m d a) s → (Instr.xbfly st m d a).wf = true →
    let sup := fun (k r : Nat) => if (s.crewHere.lanes.getD k none).isSome then s.opnd k (a.toNat + r) else 0
    let far := fun (l c : Nat) => l.testBit st.toNat != c.testBit st.toNat
    let mate := fun (k : Nat) => k ^^^ 2 ^ st.toNat
    ∃ (t : State) (v : Nat → Nat → Word), Done (.xbfly st m d a) s t ∧
      LanesDo s t (fun l => match m with
        | .bit => [(d.toNat, v l 0)]
        | .half => (List.range 16).map (fun j => (d.toNat + j, v l j))
        | .word => (List.range 32).map (fun j => (d.toNat + j, v l j))) (fun _ y => y) ∧
      ∀ l, l < 32 → match m with
        | .bit => ∀ c, c < 32 → (v l 0).getLsbD c = if far l c then (sup (mate l) 0).getLsbD (mate c) else (sup l 0).getLsbD c
        | .half => ∀ c k, c < 32 → k < 16 → (v l (c / 2)).getLsbD (16 * (c % 2) + k) =
            if far l c then (sup (mate l) (mate c / 2)).getLsbD (16 * (mate c % 2) + k) else (sup l (c / 2)).getLsbD (16 * (c % 2) + k)
        | .word => ∀ c, c < 32 → v l c = if far l c then sup (mate l) (mate c) else sup l c)


-- windows and special registers --------------------------------------------------------------------------------------

/-- R270, R272, R289 to R291, Table 11-13: reads of masks, special registers, the cycle counter and the compare buffer's count. R256, R272: SWRITE writes the bits that R272 names of a register that may be written; one that is read-only, or privileged outside handler mode,
traps PRIV and writes nothing. R174, R271: the WBASE forms move the window base of each active lane whose result is a multiple of 8 from 0 to 896; any other lane keeps its
base and traps ILLEGAL cause 2. -/
def Obligations.SpecialRegisters : Prop :=
  (∀ (d : VReg) (m : Nib) (r : SReg) (s : State),
    let y := s.here
    let f := fun l => s.fibre l
    let now := s.now + (s.core (y.core.getD 0)).skew - (s.core (y.core.getD 0)).base
    (Ready (.mread d m) s → SetsReg (.mread d m) s d.toNat (fun _ => s.crewHere.masks.getD m.toNat 0)) ∧
    (Ready (.sread d r) s → SetsReg (.sread d r) s d.toNat (fun l => match r with
      | .fibreIdx => BitVec.ofNat 32 (s.fibOf l) | .laneIdx => BitVec.ofNat 32 l | .crewIdx => BitVec.ofNat 32 s.cur.2.1
      | .unitIdx => BitVec.ofNat 32 y.cfg.uidx | .gangIdx => BitVec.ofNat 32 y.cfg.gidx | .mbTag => BitVec.ofNat 32 y.cfg.mb.toNat
      | .stepG => BitVec.ofNat 32 (stepG s y.cfg.job (y.core.getD 0)).toNat | .partW => y.cfg.part
      | .engSt => BitVec.ofNat 32 (y.engBusy.toNat + 2 * y.engPower.toNat + 4 * y.engQueued.toNat)
      | .fpmode => BitVec.ofNat 32 (f l).fpmode.toNat | .fpflags => BitVec.ofNat 32 (f l).fpflags.toNat
      | .statAmax => (f l).amax | .statSat => (f l).sat | .cyc => BitVec.ofNat 32 now
      | .trapinfo0 => BitVec.ofNat 32 ((f l).code.toNat + 256 * (f l).cause.toNat)
      | .trapinfo1 => BitVec.ofNat 32 (f l).faddr.toNat | .trapinfo2 => BitVec.ofNat 32 ((f l).faddr.toNat / 2 ^ 32)
      | .xrootLo => BitVec.ofNat 32 y.xroot.toNat | .xrootHi => BitVec.ofNat 32 (y.xroot.toNat / 2 ^ 32))) ∧
    (Ready (.cyc d) s → ∃ t, Done (.cyc d) s t ∧
      LanesDo s t (fun _ => [(d.toNat, BitVec.ofNat 32 now), (d.toNat + 1, BitVec.ofNat 32 (now / 2 ^ 32))]) (fun _ y => y)) ∧
    (Ready (.rednCtlCount d) s → SetsReg (.rednCtlCount d) s d.toNat (fun _ =>
      if y.cfg.red then BitVec.ofNat 32 (s.unit (if y.cfg.trailer then y.cfg.twin.getD s.cur.1 else s.cur.1)).compare.length else 0))) ∧
  (∀ (r : SReg) (a : VReg) (s : State),
    (Ready (.swrite r a) s → ∃ t, Done (.swrite r a) s t ∧ LanesDo s t (fun _ => []) (fun l y =>
      let v := s.opnd l a.toNat
      match r with
      | .fpmode => { y with fpmode := BitVec.ofNat 8 (v.toNat % 4) }
      | .fpflags => { y with fpflags := BitVec.ofNat 8 v.toNat &&& 0xBF }
      | .statAmax => { y with amax := BitVec.ofNat 32 (v.toNat % 2 ^ 31) }
      | .statSat => { y with sat := v }
      | .trapinfo0 => { y with code := BitVec.ofNat 8 v.toNat, cause := BitVec.ofNat 4 (v.toNat / 256) }
      | .trapinfo1 => { y with faddr := BitVec.ofNat 64 (y.faddr.toNat / 2 ^ 32 * 2 ^ 32 + v.toNat) }
      | .trapinfo2 => { y with faddr := BitVec.ofNat 64 (y.faddr.toNat % 2 ^ 32 + v.toNat * 2 ^ 32) }
      | _ => y)) ∧
    ((r ∉ ([.fpmode, .fpflags, .statAmax, .statSat, .trapinfo0, .trapinfo1, .trapinfo2] : List SReg) ∨
        (r ∈ ([.trapinfo0, .trapinfo1, .trapinfo2] : List SReg) ∧ s.ctx.ent.handler = false)) →
      standing s = true → waiting s s.ctx = false → s.ctx.act ≠ 0 →
      exec (.swrite r a) s = .next (finish s.ctx (.swrite r a) (trapAll s.ctx.act s.ctx.ent.pc (0x12, 0)) s))) ∧
  (∀ (a b : VReg) (s : State) (i : Instr) (w : Nat → Int), (i, w) ∈ ([
      (.wbase b, fun _ => 8 * (b.toNat : Int)), (.wbaseRel b, fun l => ((s.fibre l).wb : Int) + 8 * b.toInt),
      (.wbaseReg a, fun l => ((s.opnd l a.toNat).toNat : Int))] : List (Instr × (Nat → Int))) →
  Ready i s →
    let ok := fun l => decide (w l % 8 = 0 ∧ 0 ≤ w l ∧ w l ≤ 896)
    let bad := (lanesOf s.ctx.act).filter (fun l => !ok l)
    ∃ t, exec i s = .next (finish s.ctx i (bad.map (fun l => ⟨l, 0x10, 2, s.ctx.ent.pc⟩)) t) ∧
      LanesDo s t (fun _ => []) (fun l y => if ok l then { y with wb := (w l).toNat } else y))


-- where the lanes go -------------------------------------------------------------------------------------------------

/-- R246, R8, R251: inside a clause the entry goes on to the next word, and only the entry changes: bits [63:32] of the PC stay, other entries, registers,
memory and operations are as before. This is what `finish` adds to the effects of every instruction that leaves no trap. R182, R248: past its clause's last word, outside a loop body, the entry stands at the next header, and merges there with the runnable entry that stands at it in the
same mode, if there is one: the lower-numbered of the two holds the lanes of both.
Where the spec is silent the model's own choice decides: log entries 16, 20. -/
def Obligations.AdvanceClauseEnd : Prop :=
  (∀ (i : Instr) (s : State), standing s = true → s.ctx.ent.mask ≠ 0 → s.ctx.ent.idx < hdrN s.ctx.ent.hdr →
    let t := finish s.ctx i [] s
    PathOnly s t ∧ t.crewHere.loops = s.crewHere.loops ∧ t.crewHere.masks = s.crewHere.masks ∧
    (∀ k, k ≠ s.ctx.e → t.crewHere.entry k = s.crewHere.entry k) ∧
    t.crewHere.entry s.ctx.e = { s.ctx.ent with
      pc := s.pcNext, idx := s.ctx.ent.idx + 1, llDone := s.ctx.ent.llDone || isLong i, hold := [], arrived := 0, closer := 0 }) ∧
  (∀ (i : Instr) (s : State), standing s = true → s.ctx.ent.mask ≠ 0 → hdrN s.ctx.ent.hdr ≤ s.ctx.ent.idx → s.crewHere.loops = [] →
    s.crewHere.split.length ≤ 8 →
    let t := finish s.ctx i [] s
    let meets := fun k => k ≠ s.ctx.e ∧ k < s.crewHere.split.length ∧ HeaderAt s s.pcNext (s.crewHere.entry k)
    PathOnly s t ∧ t.crewHere.masks = s.crewHere.masks ∧
    ((∀ k, ¬ meets k) → t.crewHere.entry s.ctx.e = { s.ctx.ent.after with pc := s.pcNext } ∧
      ∀ k, k ≠ s.ctx.e → t.crewHere.entry k = s.crewHere.entry k) ∧
    ∀ k, meets k → (∀ j, j < k → ¬ meets j) →
      (t.crewHere.entry (min k s.ctx.e)).mask = s.ctx.ent.mask ||| (s.crewHere.entry k).mask ∧
      HeaderAt s s.pcNext (t.crewHere.entry (min k s.ctx.e)) ∧ (t.crewHere.entry (max k s.ctx.e)).status = .empty)

/-- R263, R264, R266, R180, R181: BR, BRA, RET and JR put each executing lane at the header of its own target or, where it is not taken, at the next header;
targets are within the 4 GiB of the PC and a multiple of 4, and nothing but the lanes' places changes. R265: CALL writes the address of the next header to `d` of each active lane, the register target being read before, and goes to the target. -/
def Obligations.TransfersCalls : Prop :=
  (∀ (p : Nib) (sense : Bool) (o21 : BitVec 21) (o26 : BitVec 26) (a : VReg) (s : State) (i : Instr) (tgt : Nat → Option Word),
    let lo := s.ctx.ent.pc.extractLsb' 0 32
    (i, tgt) ∈ ([
      (.br p sense o21, fun l => if s.prd l p ≠ sense then some (lo + 4 * o21.signExtend 32) else none),
      (.bra o26, fun _ => some (lo + 4 * o26.signExtend 32)),
      (.ret a, fun l => some (s.opnd l a.toNat &&& 0xFFFFFFFC)), (.jr a, fun l => some (s.opnd l a.toNat &&& 0xFFFFFFFC))] :
        List (Instr × (Nat → Option Word))) →
    let dest := fun l => match (if s.ctx.act.getLsbD l then tgt l else none) with
      | some w => s.ctx.ent.pc.extractLsb' 32 32 ++ w
      | none => s.pcNext
    Ready i s → Room s ((lanesOf s.ctx.ent.mask).map dest).eraseDups.length →
    ∃ t, exec i s = .next t ∧ PathOnly (s.used i) t ∧ t.crewHere.loops = s.crewHere.loops ∧ t.crewHere.masks = s.crewHere.masks ∧
      ∀ l ∈ lanesOf s.ctx.ent.mask, t.laneIn l (HeaderAt s (dest l))) ∧
  (∀ (d a : VReg) (off : BitVec 18) (s : State) (i : Instr) (tgt : Nat → Word), (i, tgt) ∈ ([
      (.call d off, fun _ => s.ctx.ent.pc.extractLsb' 0 32 + 4 * off.signExtend 32),
      (.callReg d a, fun l => s.opnd l a.toNat &&& 0xFFFFFFFC)] : List (Instr × (Nat → Word))) →
    let dest := fun l => if s.ctx.act.getLsbD l then s.ctx.ent.pc.extractLsb' 32 32 ++ tgt l else s.pcNext
    Ready i s → Room s ((lanesOf s.ctx.ent.mask).map dest).eraseDups.length →
    ∃ w t, LanesDo s w (fun _ => [(d.toNat, s.ctx.ent.pc.extractLsb' 0 32 + 4)]) (fun _ y => y) ∧
      exec i s = .next t ∧ PathOnly w t ∧ ∀ l ∈ lanesOf s.ctx.ent.mask, t.laneIn l (HeaderAt s (dest l)))

/-- R188, R269: END, where nothing that its lanes' fibres issued is outstanding, ends those fibres and takes their lanes out of the crew and of every
mask; the other executing lanes go on at the next header. R60, R194, R267: BR.FAR, where its lanes' fibres have nothing outstanding and the pool holds the lines of the free slots that it fills, puts each active
lane's fibre into a free basin slot with its target, its predicates, its serial and its first L registers, and takes the lanes out of the crew; the other slots
stay, and the other executing lanes go on at the next header. R60, R195, R268: FORK starts, for each active lane in ascending order, a fibre of the lowest index that was never started or forked: it fills a free basin
slot, whose lines the pool holds, and `d` receives the index, or 0xFFFF_FFFF where there is none.
Where the spec is silent the model's own choice decides: log entries 18, 29, 50. -/
def Obligations.EndDivertFork : Prop :=
  (∀ s : State, Ready .endFibre s → s.crewHere.serial = false → s.crewHere.split.length ≤ 8 →
    (∀ e, (s.crewHere.entry e).status ≠ .waiting) →
    (∀ l, s.acts l → (s.fibre l).pending = [] ∧
      (∀ o ∈ s.ops, o.u = some s.ctx.u → o.fibre = s.fibOf l → o.cmd = none → o.phase = .answered) ∧
      (∀ m ∈ s.cmds, m.u = s.ctx.u → m.fibre ≠ s.fibOf l) ∧ (∀ w ∈ s.here.sweeps, w.crew = s.ctx.c → w.active.getLsbD l = false)) →
    ∃ t, exec .endFibre s = .next t ∧ t.mem = s.mem ∧ t.ops = s.ops ∧ t.here.regs = s.here.regs ∧
      (∀ (l : Nat) (y : Fibre), s.acts l → s.here.fibs[s.fibOf l]? = some y → ∃ z, t.here.fibs[s.fibOf l]? = some z ∧ z.ended = true ∧ z.pred = y.pred) ∧
      (∀ l, s.acts l → t.crewHere.lanes.getD l none = none ∧ ∀ m : Nat, (t.crewHere.masks.getD m 0).getLsbD l = false) ∧
      ∀ l ∈ lanesOf s.ctx.ent.mask, ¬ s.acts l → t.laneIn l (HeaderAt s s.pcNext)) ∧
  (∀ (lm1 : BitVec 6) (off : BitVec 19) (s : State), Ready (.brFar lm1 off) s → s.crewHere.serial = false → s.crewHere.split.length ≤ 8 →
    (∀ e, (s.crewHere.entry e).status ≠ .waiting) → Released 7 s → recordFull s s.here.cfg.node (seenOf s s.ctx) = false →
    (∀ l, s.acts l →
      (∀ o ∈ s.ops, o.u = some s.ctx.u → o.fibre = s.fibOf l → o.cmd = none → o.phase = .answered) ∧
      (∀ m ∈ s.cmds, m.u = s.ctx.u → m.fibre ≠ s.fibOf l) ∧ (∀ w ∈ s.here.sweeps, w.crew = s.ctx.c → w.active.getLsbD l = false)) →
    let slots := (lanesOf s.ctx.act).zip (freeSlots s s.ctx.u (lanesOf s.ctx.act).length)
    slots.length = (lanesOf s.ctx.act).length → (∀ q ∈ slots, s.here.HoldsAll (slotRows q.2)) →
    ∃ t, exec (.brFar lm1 off) s = .next t ∧ t.mem = s.mem ∧ t.ops = s.ops ∧ t.here.regs = s.here.regs ∧
      (∀ l k, (l, k) ∈ slots → slotUsed t s.ctx.u k = true ∧ slotAt t s.ctx.u k =
        { pc := s.ctx.ent.pc.extractLsb' 32 32 ++ (s.ctx.ent.pc.extractLsb' 0 32 + 4 * off.signExtend 32), pred := (s.fibre l).pred ||| 1
          fibre := s.fibOf l % 65536, serial := (s.fibre l).serial, live := lm1.toNat + 1, forked := false
          regs := (List.range 64).map (fun k => if k ≤ lm1.toNat then s.opnd l k else 0) }) ∧
      (∀ k, k < 1024 → (∀ q ∈ slots, q.2 ≠ k) → slotUsed t s.ctx.u k = slotUsed s s.ctx.u k ∧ slotAt t s.ctx.u k = slotAt s s.ctx.u k) ∧
      (∀ (l : Nat) (y : Fibre), s.acts l → s.here.fibs[s.fibOf l]? = some y → ∃ z, t.here.fibs[s.fibOf l]? = some z ∧ z.inBasin = true) ∧
      (∀ l, s.acts l → t.crewHere.lanes.getD l none = none ∧ ∀ m : Nat, (t.crewHere.masks.getD m 0).getLsbD l = false) ∧
      ∀ l ∈ lanesOf s.ctx.ent.mask, ¬ s.acts l → t.laneIn l (HeaderAt s s.pcNext)) ∧
  (∀ (lm1 : BitVec 3) (d a b : VReg) (s : State), Ready (.fork lm1 d a b) s → Released 7 s → b.toNat + lm1.toNat < 128 →
    let free := (List.range s.here.fibs.length).filter (fun k => !(s.here.fib k).exists_)
    let mine := fun l => free[(lanesOf s.ctx.act).idxOf l]?
    let made := ((lanesOf s.ctx.act).zip free).zip (freeSlots s s.ctx.u (min (lanesOf s.ctx.act).length free.length))
    made.length = min (lanesOf s.ctx.act).length free.length → (∀ q ∈ made, s.here.HoldsAll (slotRows q.2)) →
    ∃ t, Done (.fork lm1 d a b) s t ∧ t.mem = s.mem ∧ t.ops = s.ops ∧
      (∀ l k q, ((l, k), q) ∈ made → slotUsed t s.ctx.u q = true ∧ slotAt t s.ctx.u q =
        { pc := s.ctx.ent.pc.extractLsb' 32 32 ++ (s.opnd l a.toNat &&& 0xFFFFFFFC), pred := 1, fibre := k % 65536, serial := 0, live := lm1.toNat + 1
          forked := true, regs := (List.range 64).map (fun j => if j ≤ lm1.toNat then s.opnd l (b.toNat + j) else 0) }) ∧
      (∀ q, q < 1024 → (∀ e ∈ made, e.2 ≠ q) → slotUsed t s.ctx.u q = slotUsed s s.ctx.u q ∧ slotAt t s.ctx.u q = slotAt s s.ctx.u q) ∧
      (∀ l k, s.acts l → mine l = some k → (t.here.fib k).exists_ = true ∧ (t.here.fib k).inBasin = true) ∧
      (∀ l, s.acts l → t.opnd l d.toNat = match mine l with | some k => BitVec.ofNat 32 k | none => 0xFFFFFFFF) ∧
      ∀ l c r, l < 32 → ¬ (s.acts l ∧ rowReg c r = rowReg s.ctx.c (t.here.wb s.ctx.c l + d.toNat)) → t.here.reg c l r = s.here.reg c l r)


-- masks, loops, streams ----------------------------------------------------------------------------------------------

/-- R185: "JOIN m sets m ← m OR (active lanes)." -/
def Obligations.JoinSets : Prop :=
  ∀ (m : Nib) (s : State), Ready (.join m) s → ∃ M, Done (.join m) s (s.modCrew s.ctx.u s.ctx.c (fun y => { y with masks := M })) ∧
    ∀ k, M[k]? = (s.crewHere.masks[k]?).map (fun v => if k = m.toNat then v ||| s.ctx.act else v)

/-- R186: LEAVE takes the active lanes out of the mask and then makes the merge test of every entry that waits on it; with no entry or lane that waits on it nothing
else changes. R313: STRM binds a stream register of the crew with its descriptor, dimensions and element size; STRM.OFF unbinds it.
Where the spec is silent the model's own choice decides: log entry 18. -/
def Obligations.LeaveAndStreams : Prop :=
  (∀ (m : Nib) (s : State), Ready (.leave m) s → ∃ M, (∀ k, M[k]? = (s.crewHere.masks[k]?).map (fun v => if k = m.toNat then v &&& ~~~s.ctx.act else v)) ∧
    let t := s.modCrew s.ctx.u s.ctx.c (fun y => { y with masks := M })
    Done (.leave m) s (testMask t s.ctx.u s.ctx.c m.toNat) ∧
    ((∀ e ∈ s.crewHere.split, e.status = .waiting → e.waitOn ≠ m) → (∀ w ∈ s.crewHere.tab, w.lst = .waiting → w.waitOn ≠ m) →
      testMask t s.ctx.u s.ctx.c m.toNat = t)) ∧
  (∀ (sr : BitVec 2) (dr : VReg) (dims esz : BitVec 2) (s : State) (i : Instr) (v : Strm), (i, v) ∈ ([
      (.strm sr dr dims esz, ⟨true, dr, dims, esz⟩), (.strmOff sr, ⟨false, 0, 0, 0⟩)] : List (Instr × Strm)) →
    Ready i s → ∃ S, Done i s (s.modCrew s.ctx.u s.ctx.c (fun y => { y with streams := S })) ∧
      ∀ k, S[k]? = (s.crewHere.streams[k]?).map (fun o => if k = sr.toNat then v else o))

/-- R187: WAIT m. While some lane of m does not wait at this PC the active lanes wait here; when they are all here the mask becomes empty and they go on at
the next word of the clause.
Where the spec is silent the model's own choice decides: log entry 18. -/
def Obligations.WaitMeets : Prop :=
  ∀ (m : Nib) (s : State), Ready (.wait m) s → m.toNat < 12 → s.crewHere.serial = false → s.crewHere.split.length ≤ 8 → s.ctx.act = s.ctx.ent.mask →
    s.ctx.e < s.crewHere.split.length → s.ctx.ent.idx < hdrN s.ctx.ent.hdr →
    (∀ e, e ≠ s.ctx.e → (s.crewHere.entry e).status ≠ .waiting) →
    ∃ t, exec (.wait m) s = .next t ∧ PathOnly s t ∧ (∀ k, k ≠ s.ctx.e → t.crewHere.entry k = s.crewHere.entry k) ∧
      (s.crewHere.masks.getD m.toNat 0 &&& ~~~s.ctx.act ≠ 0 →
        t.crewHere.masks = s.crewHere.masks ∧ t.crewHere.entry s.ctx.e = { s.ctx.ent with status := .waiting, waitOn := m }) ∧
      (s.crewHere.masks.getD m.toNat 0 &&& ~~~s.ctx.act = 0 →
        t.crewHere.masks = s.crewHere.masks.set m.toNat 0 ∧
        t.crewHere.entry s.ctx.e = { s.ctx.ent with
          pc := s.pcNext, idx := s.ctx.ent.idx + 1, waitOn := 0, hold := [], arrived := 0, closer := 0 })

/-- R309 to R312, Table 13-8: REPT takes its count N from the lowest active lane. For N from 1 to 255 each active lane's loop word is N, pass 0, and the lanes
stand at the header of the body; for N = 0 the active lanes go past the body; for a larger N they trap ILLEGAL cause 7. R311, R312: at the end of a pass over a body, a lane with passes left goes back to the header of the body with its pass number one higher, and a lane
that has done its last pass goes on with its loop word cleared. With AE = 1 the address register pair of each lane advances by its step register.
Where the spec is silent the model's own choice decides: log entry 29. -/
def Obligations.ReptLoop : Prop :=
  (∀ (cr : VReg) (id ia ib iacc : BitVec 2) (ar : VReg) (ae : Bool) (s : State),
    let i : Instr := .rept cr id ia ib iacc ar ae
    let n := (s.opnd ((lanesOf s.ctx.act).headD 0) cr.toNat).toNat
    Ready i s → Room s 2 →
    (255 < n → exec i s = .next (finish s.ctx i (trapAll s.ctx.act s.ctx.ent.pc (0x10, 7)) (s.used i))) ∧
    (n ≤ 255 → (n = 0 → s.sectors = [] ∧ ∀ k, checkGlobal s s.here.core (some s.here.cfg.node) s.here.cfg.job s.here.xroot 8 s.ctx.ent.handler false .fetch s.pcNext 0 = .ok k →
        reserved k.loc = false) → ∃ t, exec i s = .next t ∧ PathOnly (s.used i) t ∧ t.crewHere.masks = s.crewHere.masks ∧
      (∀ l, l < 32 → t.crewHere.loops.get 0 l = if s.ctx.act.getLsbD l ∧ n ≠ 0 then BitVec.ofNat 16 (256 * n) else s.crewHere.loops.get 0 l) ∧
      ∀ l ∈ lanesOf s.ctx.ent.mask, t.laneIn l (HeaderAt s
        (if s.ctx.act.getLsbD l ∧ n = 0 then afterBody s s.ctx.u s.ctx.ent.handler s.pcNext else s.pcNext)))) ∧
  (∀ (i : Instr) (s : State), standing s = true → s.ctx.ent.mask ≠ 0 → hdrN s.ctx.ent.hdr ≤ s.ctx.ent.idx → inBody s s.ctx = true → Room s 2 →
    let t := finish s.ctx i [] s
    let n := fun l => s.crewHere.loopN l
    let k := fun l => s.crewHere.loopK l
    (∀ cr id ia ib iacc ar, reptOf s s.ctx.u s.ctx.ent.handler s.ctx.ent.header = some (.rept cr id ia ib iacc ar true) →
      ∀ l ∈ lanesOf s.ctx.ent.mask, n l ≠ 0 → s.here.Reads ((List.range 3).map (fun j => rowReg s.ctx.c (s.here.wb s.ctx.c l + ar.toNat + j)))) →
    t.mem = s.mem ∧ t.ops = s.ops ∧
    (∀ l ∈ lanesOf s.ctx.ent.mask, n l ≠ 0 → k l + 1 < n l →
      t.crewHere.loopN l = n l ∧ t.crewHere.loopK l = k l + 1 ∧ t.laneIn l (HeaderAt s s.ctx.ent.header)) ∧
    (∀ l ∈ lanesOf s.ctx.ent.mask, n l = 0 ∨ n l ≤ k l + 1 → t.crewHere.loopN l = 0 ∧ t.laneIn l (HeaderAt s s.pcNext)) ∧
    (∀ cr id ia ib iacc ar, reptOf s s.ctx.u s.ctx.ent.handler s.ctx.ent.header = some (.rept cr id ia ib iacc ar true) →
      ∀ l ∈ lanesOf s.ctx.ent.mask, n l ≠ 0 → ar.toNat + 2 < 128 → s.here.wb s.ctx.c l ≤ 896 →
        t.here.reg s.ctx.c l (s.here.wb s.ctx.c l + ar.toNat + 1) ++ t.here.reg s.ctx.c l (s.here.wb s.ctx.c l + ar.toNat) =
          (s.opnd l (ar.toNat + 1) ++ s.opnd l ar.toNat) + (s.opnd l (ar.toNat + 2)).signExtend 64) ∧
    ((∀ cr id ia ib iacc ar, reptOf s s.ctx.u s.ctx.ent.handler s.ctx.ent.header ≠ some (.rept cr id ia ib iacc ar true)) → t.here.regs = s.here.regs))


-- traps --------------------------------------------------------------------------------------------------------------

/-- R286, R287: NOP and PREF (R330) do nothing; TRAP c and BKPT trap every active lane with code SOFT and cause c or 15. R286: HALT sends a level-0 CANCEL of the unit's node under the key of the lowest active lane's fibre, tells the host, and leaves the active lanes parked at the HALT without
a handler; the other lanes go on.
Where the spec is silent the model's own choice decides: log entry 29. -/
def Obligations.NopTrapHalt : Prop :=
  (∀ (a : VReg) (c : Nib) (s : State),
    (Ready .nop s → Done .nop s s) ∧ (Ready (.pref a) s → Done (.pref a) s (s.used (.pref a))) ∧
    (∀ i k, (i, k) ∈ ([(.trap c, c), (.bkpt, 15)] : List (Instr × Nib)) → Ready i s →
      exec i s = .next (finish s.ctx i ((lanesOf s.ctx.act).map (fun l => ⟨l, 0x70, k, s.ctx.ent.pc⟩)) s))) ∧
  (∀ s : State, Ready .halt s → s.crewHere.serial = false → Room s 2 →
    let low := (lanesOf s.ctx.act).headD 0
    let c := s.here.cfg
    drawOf s s.ctx.u (s.fibOf low) = .ok →
    ∃ t o, exec .halt s = .next t ∧ t.ops = s.ops ++ [o] ∧ t.mem = s.mem ∧ t.here.regs = s.here.regs ∧
      o.id = s.nextId ∧ o.kind = .cancel 0 ∧ o.owner = .disp 0 ∧ o.loc = (s.node c.node).id ∧ o.phase = .request ∧
      o.key = some { job := c.job, node := (s.node c.node).id, unit := c.uidx, fibre := s.fibOf low, part := 0, serial := (s.fibre low).serial } ∧
      t.hostLog = s.hostLog ++ [.halt c.job (s.node c.node).id c.uidx (s.fibOf low)] ∧
      (∀ l, s.acts l → t.laneIn l (fun e => e.status = .parked ∧ e.pc = s.ctx.ent.pc ∧ e.handler = s.ctx.ent.handler)) ∧
      ∀ l ∈ lanesOf s.ctx.ent.mask, ¬ s.acts l → t.laneIn l (HeaderAt s s.pcNext))

/-- R183, R376, R377, R379: taking a trap. TRAPINFO of each trapping lane's fibre receives the code, the cause and FADDR. Where the unit has a handler, the entry is not
in handler mode, and the code goes to the handler, the lanes stand in handler mode at HANDLER with bits [31:0] of their PC in register 1,023; otherwise they park where they stand
and the host is told. The entry's other lanes go on.
Where the spec is silent the model's own choice decides: log entries 13, 18, 24. -/
def Obligations.TrapTaken : Prop :=
  ∀ (i : Instr) (w : Why) (fa : Addr) (s : State), standing s = true → s.ctx.act ≠ 0 → s.crewHere.serial = false →
    Room s (if s.ctx.act = s.ctx.ent.mask then 1 else 2) → (s.ctx.act = s.ctx.ent.mask ∨ s.ctx.ent.idx < hdrN s.ctx.ent.hdr) →
    s.ctx.c < 32 → s.here.Holds (rowReg s.ctx.c 1023) →
    let ts : List Trap := (lanesOf s.ctx.act).map (fun l => ⟨l, w.1, w.2, fa⟩)
    let t := finish s.ctx i ts s
    let runs := s.ctx.ent.handler = false ∧ s.here.cfg.handler ≠ 0 ∧ w.1 ∉ ([0x50, 0x51, 0x52, 0x60] : List (BitVec 8))
    t.mem = s.mem ∧ t.ops = s.ops ∧
    (∀ (l : Nat) (y : Fibre), s.acts l → s.here.fibs[s.fibOf l]? = some y →
      ∃ b, t.here.fibs[s.fibOf l]? = some { y with code := w.1, cause := w.2, faddr := fa, skip := b }) ∧
    (∀ (f : Nat) (y : Fibre), (∀ l, s.acts l → s.fibOf l ≠ f) → s.here.fibs[f]? = some y → ∃ b, t.here.fibs[f]? = some { y with skip := b }) ∧
    (∀ l ∈ lanesOf s.ctx.ent.mask, ¬ s.acts l → t.laneIn l (fun e => e.status = .runnable ∧ e.handler = s.ctx.ent.handler ∧ e.pc = s.pcNext)) ∧
    (runs → t.hostLog = s.hostLog ∧
      (∀ l, s.acts l → t.laneIn l (fun e => e.status = .runnable ∧ e.handler = true ∧ e.pc = s.here.cfg.handler ∧ e.started = false)) ∧
      ∀ l c r, l < 32 → t.here.reg c l r =
        if s.acts l ∧ rowReg c r = rowReg s.ctx.c 1023 then s.ctx.ent.pc.extractLsb' 0 32 else s.here.reg c l r) ∧
    (¬ runs → t.here.regs = s.here.regs ∧
      (∀ l, s.acts l → t.laneIn l (fun e => e.status = .parked ∧ e.pc = s.ctx.ent.pc ∧ e.handler = s.ctx.ent.handler)) ∧
      t.hostLog = s.hostLog ++ [.trap s.here.cfg.job (s.node s.here.cfg.node).id s.here.cfg.uidx s.ctx.c s.ctx.act w.1 w.2 fa])

/-- R288, R378: ERET clears handler mode, and each executing lane resumes at the address in its register 1,023 under bits [63:32] of the PC; with SKIP it resumes at the
word after. Here no operation or command of its lanes' fibres has met an unknown fate (R121).
Where the spec is silent the model's own choice decides: log entries 25, 29. -/
def Obligations.EretResumes : Prop :=
  ∀ (skip : Bool) (s : State), Ready (.eret skip) s → s.crewHere.serial = false → (∀ o ∈ s.ops, o.fated = false) → (∀ m ∈ s.cmds, m.fate = false) →
    s.here.Reads [rowReg s.ctx.c 1023] →
    let at_ := fun l => s.ctx.ent.pc.extractLsb' 32 32 ++ (s.here.reg s.ctx.c l 1023 &&& 0xFFFFFFFC)
    let on := fun l => s.ctx.ent.pc.extractLsb' 32 32 ++ ((s.here.reg s.ctx.c l 1023 &&& 0xFFFFFFFC) + 4)
    Room s ((lanesOf s.ctx.ent.mask).map at_).eraseDups.length →
    (skip = true → s.crewHere.loops = [] ∧ ∀ k, k ≠ s.ctx.e → (s.crewHere.entry k).status = .empty) →
    ∃ t, exec (.eret skip) s = .next t ∧ t.mem = s.mem ∧ t.ops = s.ops ∧ t.here.regs = s.here.regs ∧
      (∀ (f : Nat) (y : Fibre), s.here.fibs[f]? = some y → ∃ b g, t.here.fibs[f]? = some { y with skip := b, fate := g }) ∧
      ∀ l ∈ lanesOf s.ctx.ent.mask, t.laneIn l (fun e =>
        e.status = .runnable ∧ e.handler = false ∧ e.pc = if skip then on l else at_ l)


-- memory instructions ------------------------------------------------------------------------------------------------

/-- R318 to R322, R330: a load. Where the checks of R31 give each active lane a place, no race check applies, and R141 makes nothing wait, each lane sends one read
of the bytes at its address, named with the registers that will receive them, and the entry stands at the instruction until all are answered. Nothing else changes.
Where the spec is silent the model's own choice decides: log entries 11, 21, 45, 61. -/
def Obligations.LoadsSend : Prop :=
  ∀ (o : Ord) (sc : BitVec 3) (d a : VReg) (o7 : BitVec 7) (o6 : BitVec 6) (z : Sz) (o3 : BitVec 3) (s : State)
    (i : Instr) (k : OpKind) (n align : Nat) (rs : List Nat) (g : Nat → Target) (pl : Nat → Place),
    let glob := fun (off : Int) (l : Nat) => Target.glob ((s.opnd l (a.toNat + 1) ++ s.opnd l a.toNat) + BitVec.ofInt 64 off)
    let zb : Nat := match z with | .w => 4 | .q => 16 | .h => 2 | .b => 1;
    (i, k, n, align, rs, g) ∈ ([
      (.ldW o sc d a o7, .load, 4, 4, [d.toNat], glob (4 * o7.toInt)),
      (.ldQ o sc d a o7, .load, 16, 16, [d.toNat, d.toNat + 1, d.toNat + 2, d.toNat + 3], glob (16 * o7.toInt)),
      (.ldB o sc d a o6, .load, 1, 1, [d.toNat], glob o6.toInt), (.ldH o sc d a o6, .load, 2, 2, [d.toNat], glob (2 * o6.toInt)),
      (.tagGet o sc d a, .tagGet, 1, 1, [d.toNat], glob 0),
      (.ldG o sc d a z o3, .load, zb, zb, if z = .q then [d.toNat, d.toNat + 1, d.toNat + 2, d.toNat + 3] else [d.toNat],
        fun l => Target.gang (s.opnd l a.toNat + BitVec.ofInt 32 (zb * o3.toInt)).toNat)] :
          List (Instr × OpKind × Nat × Nat × List Nat × (Nat → Target))) →
    Ready i s → i.wf = true →
    (∀ l, s.acts l → (g l).check s s.ctx (if k = OpKind.tagGet then .tagGet else .ld) n align 0 = .ok (pl l) ∧ s.unraced (pl l) ∧
      mustWait s s.ctx.u s.ctx.c (pl l).owner (pl l).leaf (pl l).loc n = false) →
    MayLog s → s.sectors = [] →
    let new := (lanesOf s.ctx.act).map (fun l => { s.laneOp i l k (pl l) n o sc.toNat with dst := rs.map (fun r => s.here.wb s.ctx.c l + r) })
    ∃ t : State, Sends (s.used i) t new false false ∧ Holds i s t new

/-- R318 to R322, R330, R337: a store, ST.BERTH, ST.DS or TAG.SET. Each active lane's write, with its data and the key of its fibre's next serial, enters the
crew's store queue under the flag of the clause, and the entry goes on. Nothing else changes. R323 to R326: RED and RED.DS that are not staged queue one keyed read-modify-write for each active lane, tied to the clause's flag, and the entry goes on.
Where the spec is silent the model's own choice decides: log entries 11, 21, 45, 61. -/
def Obligations.StoresReductionsQueue : Prop :=
  (∀ (o : Ord) (sc : BitVec 3) (d a : VReg) (o7 : BitVec 7) (o6 : BitVec 6) (z : Sz) (o3 : BitVec 3) (s : State)
    (i : Instr) (n align : Nat) (ac : Acc) (k : Nat → OpKind) (bs : Nat → List Byte) (g : Nat → Target) (pl : Nat → Place),
    let glob := fun (off : Int) (l : Nat) => Target.glob ((s.opnd l (a.toNat + 1) ++ s.opnd l a.toNat) + BitVec.ofInt 64 off)
    let zb : Nat := match z with | .w => 4 | .q => 16 | .h => 2 | .b => 1
    let low := fun (n l : Nat) => leBytes (s.opnd l d.toNat).toNat n
    let quad := fun (l : Nat) => leBytes (s.opnd l d.toNat).toNat 4 ++ leBytes (s.opnd l (d.toNat + 1)).toNat 4 ++
      leBytes (s.opnd l (d.toNat + 2)).toNat 4 ++ leBytes (s.opnd l (d.toNat + 3)).toNat 4;
    (i, n, align, ac, k, bs, g) ∈ ([
      (.stW o sc d a o7, 4, 4, .st, fun _ => .store, low 4, glob (4 * o7.toInt)),
      (.stQ o sc d a o7, 16, 16, .st, fun _ => .store, quad, glob (16 * o7.toInt)),
      (.stB o sc d a o6, 1, 1, .st, fun _ => .store, low 1, glob o6.toInt), (.stH o sc d a o6, 2, 2, .st, fun _ => .store, low 2, glob (2 * o6.toInt)),
      (.stG o sc d a z o3, zb, zb, .st, fun _ => .store, if z = .q then quad else low zb,
        fun l => Target.gang (s.opnd l a.toNat + BitVec.ofInt 32 (zb * o3.toInt)).toNat),
      (.tagSet o sc d a, 32, 32, .tagSet, fun _ => .tagSet, fun l => [BitVec.ofNat 8 ((s.opnd l d.toNat).toNat % 16)], glob 0),
      (.stBerth o sc d a, 4, 4, .berth, fun l => .berth ((s.opnd l (d.toNat + 1)).toNat % 8), low 4, glob 0),
      (.stDs o sc d a, 8, 8, .stDs, fun l => .stDs (BitVec.ofNat 8 (s.opnd l (d.toNat + 1)).toNat), low 4, glob 0)] :
          List (Instr × Nat × Nat × Acc × (Nat → OpKind) × (Nat → List Byte) × (Nat → Target))) →
    Ready i s → i.wf = true → MayDraw s → s.sectors = [] → (o = .rel → Released sc.toNat s) →
    (∀ l, s.acts l → (g l).check s s.ctx ac n align (match k l with | .berth b => b | _ => 0) = .ok (pl l) ∧ s.unraced (pl l)) →
    ∃ (t : State) (new : List Op), Sends (s.used i) t new true true ∧ Done i s t ∧
      ∀ (j l : Nat), (lanesOf s.ctx.act)[j]? = some l → s.alone l → new[j]? = some { s.laneOp i l (k l) (pl l) n o sc.toNat with
        data := bs l, key := some (s.laneKey l), phase := .queued, flag := hdrFlag s.ctx.ent.hdr s.ctx.ent.llDone
        g := match k l with | .stDs _ => stepG s s.here.cfg.job (s.here.core.getD 0) | _ => 0 }) ∧
  (∀ (o : Ord) (sc : BitVec 3) (gang sat : Bool) (op : AOp) (ty : ATy) (d a b : VReg) (s : State)
    (i : Instr) (n : Nat) (ac : Acc) (k : OpKind) (r : Nat) (g : Nat → Target) (pl : Nat → Place),
    let glob := fun (l : Nat) => Target.glob (s.opnd l (a.toNat + 1) ++ s.opnd l a.toNat);
    (i, n, ac, k, r, g) ∈ ([
      (.red o sc gang op ty sat a b, 4, .rmw, .rmw op ty sat false, b.toNat, fun l => if gang then Target.gang (s.opnd l a.toNat).toNat else glob l),
      (.redDs o sc d a, 8, .rmwDs, .redDs, d.toNat, glob)] : List (Instr × Nat × Acc × OpKind × Nat × (Nat → Target))) →
    Ready i s → i.wf = true → (s.here.cfg.det = true → ty ≠ .f32 ∧ k ≠ OpKind.redDs) → MayDraw s → s.sectors = [] → (o = .rel → Released sc.toNat s) →
    (∀ l, s.acts l → (g l).check s s.ctx ac n n 0 = .ok (pl l) ∧ s.unraced (pl l)) →
    ∃ (t : State) (new : List Op), Sends (s.used i) t new true true ∧ Done i s t ∧
      ∀ (j l : Nat), (lanesOf s.ctx.act)[j]? = some l → s.alone l → new[j]? = some { s.laneOp i l k (pl l) n o sc.toNat with
        data := leBytes (s.opnd l r).toNat 4, key := some (s.laneKey l), phase := .queued, flag := hdrFlag s.ctx.ent.hdr s.ctx.ent.llDone
        g := if k = OpKind.redDs then stepG s s.here.cfg.job (s.here.core.getD 0) else 0 })

/-- R323 to R326: the atomics that return a value, and LD.DS and ADD.DS. Each active lane sends one keyed operation with its operands and the register for
the result; but for LD.DS it passes through the store queue; the entry stands at the instruction until all are answered.
Where the spec is silent the model's own choice decides: log entries 11, 21, 45. -/
def Obligations.AtomicsSend : Prop :=
  ∀ (o : Ord) (sc : BitVec 3) (gang sat : Bool) (op : AOp) (ty : ATy) (d a b : VReg) (s : State)
    (i : Instr) (n : Nat) (ac : Acc) (k : OpKind) (bs : Nat → List Byte) (dst : Nat) (g : Nat → Target) (pl : Nat → Place),
    let glob := fun (l : Nat) => Target.glob (s.opnd l (a.toNat + 1) ++ s.opnd l a.toNat)
    let at_ := fun (l : Nat) => if gang then Target.gang (s.opnd l a.toNat).toNat else glob l
    let word := fun (r : Nat) (l : Nat) => leBytes (s.opnd l r).toNat 4;
    (i, n, ac, k, bs, dst, g) ∈ ([
      (.atom o sc gang op ty sat a b, 4, .rmw, .rmw op ty sat true, word b.toNat, b.toNat + 1, at_),
      (.atomc o sc gang a b, 4, .rmw, .cas, fun l => word b.toNat l ++ word (b.toNat + 1) l, b.toNat + 2, at_),
      (.ldDs o sc d a, 8, .ldDs, .ldDs, fun _ => [], d.toNat, glob), (.addDs o sc d a, 8, .rmwDs, .addDs, word d.toNat, d.toNat, glob)] :
          List (Instr × Nat × Acc × OpKind × (Nat → List Byte) × Nat × (Nat → Target))) →
    Ready i s → i.wf = true → MayDraw s → s.sectors = [] → (o = .rel ∨ o = .ar → Released sc.toNat s) →
    (∀ l, s.acts l → (g l).check s s.ctx ac n n 0 = .ok (pl l) ∧ s.unraced (pl l) ∧
      (k = OpKind.ldDs → mustWait s s.ctx.u s.ctx.c (pl l).owner (pl l).leaf (pl l).loc 8 = false)) →
    ∃ (t : State) (new : List Op), Sends (s.used i) t new (k != OpKind.ldDs) true ∧ Holds i s t new ∧
      ∀ (j l : Nat), (lanesOf s.ctx.act)[j]? = some l → s.alone l → new[j]? = some (
        let p := { s.laneOp i l k (pl l) n o sc.toNat with
          data := bs l, key := some (s.laneKey l), phase := if k = OpKind.ldDs then .request else .queued, dst := [s.here.wb s.ctx.c l + dst]
          g := if k = OpKind.ldDs ∨ k = OpKind.addDs then stepG s s.here.cfg.job (s.here.core.getD 0) else 0 }
        if k = OpKind.ldDs then s.leaves l p else p)

/-- R61, R131, R132: in a deterministic launch a RED on FP32 and a RED.DS are staged: each active lane's update, with the target, the value, the type code, the fibre, its
next serial and the step, takes a free entry of the unit's staging block, or beyond its 2,048 entries of STGB in memory; no operation is sent, and the fibre takes
the serial.
Where the spec is silent the model's own choice decides: log entry 27. -/
def Obligations.ReductionsStage : Prop :=
  ∀ (o : Ord) (sc : BitVec 3) (op : AOp) (d a b : VReg) (s : State) (i : Instr) (n code : Nat) (ac : Acc) (r : Nat) (pl : Nat → Place),
    (i, n, code, ac, r) ∈ ([(.red o sc false op .f32 false a b, 4, 8 * (match op with | .add => 0 | .min => 1 | .max => 2 | .and => 3 | .or => 4 | .xor => 5 | .exch => 6) + 4, .rmw, b.toNat),
      (.redDs o sc d a, 8, 63, .rmwDs, d.toNat)] : List (Instr × Nat × Nat × Acc × Nat)) →
    Ready i s → i.wf = true → s.here.cfg.det = true → MayDraw s → s.sectors = [] → s.here.staging.length + 32 ≤ 2048 + s.here.cfg.stglen →
    (o = .rel → Released sc.toNat s) →
    (∀ l, s.acts l → (Target.glob (s.opnd l (a.toNat + 1) ++ s.opnd l a.toNat)).check s s.ctx ac n n 0 = .ok (pl l)) →
    let place := fun (e : Staged) => s.here.cfg.bases.getD 4 0 % 2 ^ 40 + 16 * (e.slot - 2048)
    ∃ (t : State) (F : List Fibre) (new : List Staged) (M : Memory), Done i s t ∧
      t = ({ s.used i with mem := M } : State).modUnit s.ctx.u (fun y => { y with staging := s.here.staging ++ new, fibs := F }) ∧
      new.length = (lanesOf s.ctx.act).length ∧ (new.map Staged.slot).Nodup ∧ (∀ e ∈ new, ∀ d ∈ s.here.staging, e.slot ≠ d.slot) ∧
      (∀ e ∈ new, 2048 ≤ e.slot → Memory.readN M (place e) 16 =
        leBytes (e.target.toNat + e.value.toNat * 2 ^ 64 + e.fibre * 2 ^ 96 + e.type.toNat * 2 ^ 106 + e.seq.toNat * 2 ^ 112) 16) ∧
      (∀ a, (∀ e ∈ new, 2048 ≤ e.slot → a < place e ∨ place e + 16 ≤ a) → Memory.read M a = Memory.read s.mem a) ∧
      ∀ (j l : Nat), (lanesOf s.ctx.act)[j]? = some l → s.alone l →
        (∃ e : Staged, new[j]? = some e ∧ e.target = (s.opnd l (a.toNat + 1) ++ s.opnd l a.toNat : BitVec 64) ∧ e.value = s.opnd l r ∧ e.fibre = s.fibOf l ∧ e.type = BitVec.ofNat 6 code ∧
          e.seq = (s.fibre l).serial ∧ some e.word = encode i ∧ e.g = stepG s s.here.cfg.job (s.here.core.getD 0) ∧ e.crew = s.ctx.c) ∧
        ∀ y : Fibre, s.here.fibs[s.fibOf l]? = some y → F[s.fibOf l]? = some { y with serial := y.serial + 1 }

/-- R20, R30, R322: LD.S reads the scratchpad at once, where the pool holds its lines, into the registers of each active lane, zero-extended or four words; ST.S
queues an unkeyed write of the scratchpad. A misaligned address traps ALIGN, and one outside the scratchpad XLATE cause 3, with the address: where the address of
every active lane is such a one, the lanes trap together, each with its own cause.
Where the spec is silent the model's own choice decides: log entry 30. -/
def Obligations.Scratchpad : Prop :=
  ∀ (o : Ord) (sc : BitVec 3) (d a : VReg) (z : Sz) (off : BitVec 3) (s : State),
    let n : Nat := match z with | .w => 4 | .q => 16 | .h => 2 | .b => 1
    let at_ := fun l => (s.opnd l a.toNat + BitVec.ofInt 32 (n * off.toInt)).toNat
    let inside := ∀ l, s.acts l → at_ l % n = 0 ∧ at_ l < 2 ^ 21 ∧ at_ l + n ≤ 32768 * (s.here.cfg.part.toNat / 64 % 64)
    let regs := if z = .q then [0, 1, 2, 3] else [0]
    let bad := fun (l : Nat) (w : Why) => (at_ l % n ≠ 0 ∧ w = (0x23, 0)) ∨
      (at_ l % n = 0 ∧ (2 ^ 21 ≤ at_ l ∨ 32768 * (s.here.cfg.part.toNat / 64 % 64) < at_ l + n) ∧ w = (0x20, 3));
    (∀ (i : Instr) (w : Nat → Why), (i = .ldS o sc d a z off ∧ o ≠ .rel ∧ o ≠ .ar) ∨ (i = .stS o sc d a z off ∧ (o = .rel ∨ o = .ar → Released sc.toNat s)) →
      Ready i s → i.wf = true → (∀ l, s.acts l → bad l (w l)) →
      exec i s = .next (finish s.ctx i ((lanesOf s.ctx.act).map (fun l => ⟨l, (w l).1, (w l).2, BitVec.ofNat 64 (at_ l)⟩)) (s.used i))) ∧
    (Ready (.ldS o sc d a z off) s → (Instr.ldS o sc d a z off).wf = true → s.here.cfg.det = false → inside →
      (∀ l, s.acts l → s.here.Reads (scrRows (at_ l) n) ∧ mustWait s s.ctx.u s.ctx.c (.pool s.ctx.u) none (at_ l) n = false) →
      ∃ t, Done (.ldS o sc d a z off) s t ∧ LanesDo s t (fun l => regs.map (fun k =>
        (d.toNat + k, BitVec.ofNat 32 (leNat (Memory.readN s.here.scr (at_ l + 4 * k) (min n 4)))))) (fun _ y => y)) ∧
    (Ready (.stS o sc d a z off) s → (Instr.stS o sc d a z off).wf = true → s.here.cfg.det = false → inside → (o = .rel → Released sc.toNat s) →
      let new := (lanesOf s.ctx.act).map (fun l =>
        { s.laneOp (.stS o sc d a z off) l .scrStore ⟨.pool s.ctx.u, at_ l, BitVec.ofNat 64 (at_ l), none⟩ n o sc.toNat with
          data := (regs.map (fun k => leBytes (s.opnd l (d.toNat + k)).toNat (min n 4))).flatten
          phase := .queued, flag := hdrFlag s.ctx.ent.hdr s.ctx.ent.llDone })
      ∃ t : State, Sends (s.used (.stS o sc d a z off)) t new true false ∧ Done (.stS o sc d a z off) s t)


-- fences, monitors, synchronisation ----------------------------------------------------------------------------------

/-- R148, R152, R291, R81: FENCE, FENCE.X and REDN.CTL SYNC go on when nothing that they wait for is outstanding. A FENCE that acquires records what its lanes' relaxed
reads named; FENCE.X and REDN.CTL SYNC change nothing. R143, R149, R282, R285, R337: an instruction that is a release stalls while an operation that was there when it first tried, and that its release waits for, is
unanswered: nothing changes but that the crew keeps that it tried.
Where the spec is silent the model's own choice decides: log entries 11, 29. -/
def Obligations.FencesReleases : Prop :=
  (∀ (o : Ord) (sc : BitVec 3) (src dst : BitVec 6) (s : State),
    let idle := fun (k : CmdKind) => ∀ m ∈ s.cmds, m.u = s.ctx.u → m.crew = s.ctx.c → m.kind ≠ k
    let acq := o = .acq ∨ o = .ar
    (Ready (.fence o sc) s → (∀ l, s.acts l → (s.fibre l).pending = []) → (o = .rel → Released sc.toNat s) →
      (o = .ar → Released (max sc.toNat 1) s) → (acq → recordFull s s.here.cfg.node (seenOf s s.ctx) = false) →
      (¬ acq → Done (.fence o sc) s s) ∧
      (acq → ∃ (w t : State) (F : List Fibre), Records s w (seenOf s s.ctx) ∧ t = w.modUnit s.ctx.u (fun y => { y with fibs := F }) ∧
        Done (.fence o sc) s t ∧ ∀ (f : Nat) (y : Fibre), s.here.fibs[f]? = some y →
          F[f]? = some (if ∃ l ∈ lanesOf s.ctx.act, s.fibOf l = f then { y with seen := [] } else y))) ∧
    (Ready (.fenceX src dst) s → (∀ l, s.acts l → (s.fibre l).pending = []) → (src.getLsbD 0 = true → Released 7 s) →
      (src.getLsbD 1 = true → s.here.sweeps = []) → (src.getLsbD 2 = true → idle .copy) → (src.getLsbD 3 = true → idle .gather) →
      (src.getLsbD 4 = true → idle .coll) → (src.getLsbD 5 = true → idle .frame) → Done (.fenceX src dst) s s) ∧
    (Ready .rednCtlSync s →
      (∀ p ∈ s.ops, p.u = some s.ctx.u → p.cmd = none → p.kind.write = true → (∃ l, s.acts l ∧ s.fibOf l = p.fibre) →
        p.phase = .answered ∨ (s.here.cfg.red = true ∧ p.phase ≠ .queued ∧ p.phase ≠ .paired)) → Done .rednCtlSync s s)) ∧
  (∀ (a b d : VReg) (sc : BitVec 3) (off : BitVec 7) (l3 : BitVec 3) (s : State) (i : Instr) (n : Nat), (i, n) ∈ ([
      (.fence .rel sc, sc.toNat), (.stW .rel sc d a off, sc.toNat), (.stQ .rel sc d a off, sc.toNat), (.barArr sc a, sc.toNat),
      (.unitSync, 0), (.gangSync, 3), (.berPub a, 7), (.stepAdv, 7), (.fork l3 d a b, 7)] : List (Instr × Nat)) →
    Ready i s → (∀ l, s.acts l → (s.fibre l).pending = []) →
    let first := s.crewHere.tryAt.getD s.nextId
    (∃ o ∈ s.ops, o.id < first ∧ relBlocks s s.ctx.u s.ctx.c n o = true) →
    exec i s = .next (s.modCrew s.ctx.u s.ctx.c (fun y => { y with tryAt := some first })))

/-- R156, R329: MONITOR checks a one-byte read and arms each active lane's fibre with the line of its address, on a staged page the line in whichever backing; it reads nothing. MWAIT goes on where a watch of its lanes
is unarmed or has fired, as an acquire of what stands in the lines; otherwise its lanes wait. R335, R336, R149: UNIT.SYNC and GANG.SYNC, once what they release is performed, make the active lanes wait for the unit or the gang; the entry's other lanes go on.
Where the spec is silent the model's own choice decides: log entries 19, 29. -/
def Obligations.MonitorSyncsWait : Prop :=
  (∀ (a : VReg) (sc : BitVec 3) (s : State) (pl : Nat → Place),
    (Ready (.monitor a) s → s.sectors = [] →
      (∀ l, s.acts l → (Target.glob (s.opnd l (a.toNat + 1) ++ s.opnd l a.toNat)).check s s.ctx .ld 1 1 0 = .ok (pl l)) →
      ∃ t, Done (.monitor a) s t ∧ LanesDo s t (fun _ => []) (fun l y => { y with watch := some (logicalLoc (pl l).leaf (pl l).loc / 128), fired := false })) ∧
    (Ready (.mwait sc) s → (∀ l, s.acts l → (s.fibre l).pending = []) →
      let wakes := ∃ l, s.acts l ∧ ((s.fibre l).watch = none ∨ (s.fibre l).fired = true)
      (wakes → recordFull s s.here.cfg.node (watchedWriters s s.ctx s.ctx.act) = false →
        ∃ t, Records s t (watchedWriters s s.ctx s.ctx.act) ∧ Done (.mwait sc) s t) ∧
      (¬ wakes → s.crewHere.serial = false → Room s 2 → (s.ctx.act = s.ctx.ent.mask ∨ s.ctx.ent.idx < hdrN s.ctx.ent.hdr) →
        Waits (.mwait sc) s 13))) ∧
  (∀ (s : State) (i : Instr) (sc : Nat) (n : Nib), (i, sc, n) ∈ ([(.unitSync, 0, 15), (.gangSync, 3, 14)] : List (Instr × Nat × Nib)) →
    Ready i s → Released sc s → s.crewHere.serial = false → Room s 2 → (s.ctx.act = s.ctx.ent.mask ∨ s.ctx.ent.idx < hdrN s.ctx.ent.hdr) →
    Waits i s n)

/-- R48, R49, R141, R332: BAR.INIT, where R141 makes nothing wait and no lane's object is UNARMED, enters the crew's store queue, unkeyed, with what it expects; one at
an UNARMED object traps BAR cause 0. BAR.ARR counts one arrival per active lane at the object of its address. Objects that no lane names, and every other byte of the
scratchpad, are as before. R332: BAR.WAIT reads and changes nothing: it goes on where every lane's object is armed and complete, stalls while one is not, and traps BAR cause 1 where an
arrival came before the object was armed. R332, R333: BAR.ARRW arrives once in each active lane and goes on when the lanes' objects are complete, writing to its predicate, in each lane, whether its arrival completed
the object, or, in a deterministic launch, whether its fibre is the one that the object names as its highest. While an object is not complete the arrivals stand and the entry stalls.
Where the spec is silent the model's own choice decides: log entries 29, 51. -/
def Obligations.BarrierObjects : Prop :=
  (∀ (d a : VReg) (bytes : Bool) (sc : BitVec 3) (s : State),
    let at_ := fun l => (s.opnd l a.toNat).toNat
    let mine := fun A => (lanesOf s.ctx.act).filter (fun l => at_ l = A)
    let old := fun A => s.here.bar A;
    (∀ l, s.acts l → s.inScr (at_ l) 16 16 ∧ s.here.Reads (scrRows (at_ l) 16)) →
    (Ready (.barInit d a bytes) s → (∀ l, s.acts l → mustWait s s.ctx.u s.ctx.c (.pool s.ctx.u) none (at_ l) 16 = false) →
      let new := (lanesOf s.ctx.act).map (fun l => { s.masterOp (.barInit d a bytes) l (.barInit (s.opnd l d.toNat).toNat bytes) with
        owner := .pool s.ctx.u, loc := at_ l, va := BitVec.ofNat 64 (at_ l), size := 16, phase := .queued })
      ((∀ l, s.acts l → (old (at_ l)).unarmed = false) → ∃ (W : SMap Row) (t : State), Lines s.here W (fun _ => False) (fun _ => False) ∧
        Sends (s.modUnit s.ctx.u (fun y => { y with rows := W })) t new true false ∧ Done (.barInit d a bytes) s t) ∧
      ((∀ l, s.acts l → (old (at_ l)).unarmed = true) → ∃ W, Lines s.here W (fun _ => False) (fun _ => False) ∧ exec (.barInit d a bytes) s =
        .next (finish s.ctx (.barInit d a bytes) ((lanesOf s.ctx.act).map (fun l => ⟨l, 0x40, 0, BitVec.ofNat 64 (at_ l)⟩))
          (s.modUnit s.ctx.u (fun y => { y with rows := W }))))) ∧
    (Ready (.barArr sc a) s → Released sc.toNat s →
      ∃ M W, Done (.barArr sc a) s (s.modUnit s.ctx.u (fun y => { y with scr := M, rows := W })) ∧
        Lines s.here W (s.scrLines at_ 16) (fun _ => False) ∧ s.scrElse M at_ 16 ∧
        ∀ A, mine A ≠ [] → ∃ x, barOf (Memory.readN M A 16) = { old A with
          count := min ((old A).count + (mine A).length) 0xFFFFFFFF, unarmed := (old A).unarmed || !(old A).armed, aux := x })) ∧
  (∀ (a : VReg) (sc : BitVec 3) (s : State),
    let i := Instr.barWait sc a
    let at_ := fun l => (s.opnd l a.toNat).toNat
    let bar := fun l => s.here.bar (at_ l)
    let full := fun l => (bar l).armed = true ∧ (bar l).expect ≤ (bar l).count;
    Ready i s → (∀ l, s.acts l → s.inScr (at_ l) 16 16 ∧ s.here.Reads (scrRows (at_ l) 16)) →
    (∀ o ∈ s.ops, o.u = some s.ctx.u → o.crew = s.ctx.c → o.phase ≠ .queued) →
    ((∀ l, s.acts l → (bar l).unarmed = false ∧ full l) → ∃ W, Lines s.here W (fun _ => False) (fun _ => False) ∧
      Done i s (s.modUnit s.ctx.u (fun y => { y with rows := W }))) ∧
    ((∀ l, s.acts l → (bar l).unarmed = false) → (∃ l, s.acts l ∧ ¬ full l) → exec i s = .next s) ∧
    ((∀ l, s.acts l → (bar l).unarmed = true) →
      exec i s = .next (finish s.ctx i ((lanesOf s.ctx.act).map (fun l => ⟨l, 0x40, 1, BitVec.ofNat 64 (at_ l)⟩)) (s.used i)))) ∧
  (∀ (a : VReg) (p : Nib) (sc : BitVec 3) (s : State),
    let i := Instr.barArrw sc p a
    let at_ := fun l => (s.opnd l a.toNat).toNat
    let mine := fun A => (lanesOf s.ctx.act).filter (fun l => at_ l = A)
    let old := fun A => s.here.bar A
    let full := fun A => (old A).expect ≤ min ((old A).count + (mine A).length) 0xFFFFFFFF
    let closes := fun l => (old (at_ l)).count + (mine (at_ l)).idxOf l < (old (at_ l)).expect ∧
      (old (at_ l)).expect ≤ (old (at_ l)).count + (mine (at_ l)).idxOf l + 1;
    Ready i s → Released sc.toNat s → s.ctx.ent.arrived = 0 → s.ctx.ent.closer = 0 →
    (∀ l, s.acts l → s.inScr (at_ l) 16 16 ∧ s.here.Reads (scrRows (at_ l) 16) ∧ (old (at_ l)).unarmed = false ∧ (old (at_ l)).armed = true) →
    ∃ (M : Memory) (W : SMap Row) (t : State), s.scrElse M at_ 16 ∧ Lines s.here W (s.scrLines at_ 16) (fun _ => False) ∧
      (∀ A, mine A ≠ [] → ∃ x, barOf (Memory.readN M A 16) = { old A with count := min ((old A).count + (mine A).length) 0xFFFFFFFF, aux := x }) ∧
      t.here.scr = M ∧ exec i s = .next t ∧
      ((∀ l, s.acts l → full (at_ l)) → ∃ (w : State) (E : Entry), (∃ x y, E = { s.ctx.ent with arrived := x, closer := y }) ∧
        LanesDo ((s.modUnit s.ctx.u (fun y => { y with scr := M, rows := W })).modEntry s.ctx.u s.ctx.c s.ctx.e (fun _ => E)) w (fun _ => [])
          (fun l y => { y with pred := setPred y.pred p (if s.here.cfg.det then decide ((w.here.bar (at_ l)).aux = s.fibOf l) else decide (closes l)) }) ∧
        t = finish s.ctx i [] w) ∧
      ((∃ l, s.acts l ∧ ¬ full (at_ l)) → ∃ k,
        t = (s.modUnit s.ctx.u (fun y => { y with scr := M, rows := W })).modEntry s.ctx.u s.ctx.c s.ctx.e (fun _ => { s.ctx.ent with arrived := s.ctx.act, closer := k })))


-- work, berths, counters ---------------------------------------------------------------------------------------------

/-- R281 to R283, R337, R87, R88: BER.OPEN, BER.PUB, TAG.RETIRE, CANCEL and POST send one keyed operation of each active lane to a dispatcher, with its operands and the
register or predicate for the result, and the entry stands at the instruction until all are answered. R284: CNT.RD sends an unkeyed read of a completion counter to the dispatcher that holds it, that of the node's home for a node and die 0's otherwise. R282 to R284: a POST
to an unknown target or a CANCEL of an identifier that is none writes 0xFFFF_FFFF, and a CNT.RD of one 0xFFFF_FFFE, and nothing is sent. R285: STEP.ADV, once what it releases is performed, sends one keyed operation for its lowest active lane, and the entry stands at it until the step is advanced.
Where the spec is silent the model's own choice decides: log entries 31, 35, 52. -/
def Obligations.MasterSends : Prop :=
  (∀ (d a b : VReg) (p : Nib) (lv : BitVec 2) (s : State) (i : Instr) (k : Nat → OpKind) (ok : Nat → Prop) (rel signs : Bool) (f : Nat → Op → Op),
    let v := fun (r : VReg) l => (s.opnd l r.toNat).toNat
    let va := fun l => (s.opnd l (a.toNat + 1) ++ s.opnd l a.toNat : BitVec 64)
    let dst := fun l => [s.here.wb s.ctx.c l + d.toNat];
    (i, k, ok, rel, signs, f) ∈ ([
      (.berOpen d p, fun _ => .berOpen, fun _ => True, false, false, fun l o => { o with dst := dst l, pdst := some p.toNat }),
      (.berPub a, fun l => .berPub (v a l % 8) (v a l / 256 % 64) (v a l / 65536 % 64 + 1), fun l => s.opnd l a.toNat &&& 0xFFC0C0F8 = 0, true, true, fun _ o => o),
      (.tagRetire a, fun l => .tagRetire (v a l), fun l => v a l < 64, false, true, fun _ o => o),
      (.cancel d a lv, fun _ => .cancel lv.toNat,
        fun l => (lv = 1 → v a l < 2 ^ 24) ∧ (lv = 2 → v a l < 2 ^ 12) ∧ (lv = 3 → v a l = s.here.cfg.job), false, false, fun l o => { o with loc := v a l, dst := dst l }),
      (.post d a b, fun l => .post (v b l % 16),
        fun l => (va l).toNat % 64 = 0 ∧ (va l).toNat / 2 ^ 56 % 16 = 0 ∧ v b l < 2 ^ 17 ∧
          (if 2 ^ 16 ≤ v b l then v b l / 16 % 4096 ∈ s.chart else v b l / 16 = 0), true, false,
        fun l o => { o with
          owner := if 2 ^ 16 ≤ v b l then .remote (v b l / 16 % 4096) else .disp (v b l % 16)
          va := va l, data := leBytes (va l).toNat 8 ++ leBytes (v b l) 4, dst := dst l })] :
          List (Instr × (Nat → OpKind) × (Nat → Prop) × Bool × Bool × (Nat → Op → Op))) →
    Ready i s → MayDraw s → (rel = true → Released 7 s) → (∀ l, s.acts l → ok l) →
    ∃ (t : State) (new : List Op), Sends (s.used i) t new false true ∧ Holds i s t new ∧
      ∀ (j l : Nat), (lanesOf s.ctx.act)[j]? = some l → s.alone l → new[j]? = some (f l (s.leaves l { s.masterOp i l (k l) with
        key := some (s.laneKey l), phase := if s.here.cfg.red = true ∧ signs = true then .paired else .request }))) ∧
  (∀ (d a b : VReg) (lv : BitVec 2) (s : State),
    let v := fun (r : VReg) l => (s.opnd l r.toNat).toNat
    let va := fun l => (s.opnd l (a.toNat + 1) ++ s.opnd l a.toNat : BitVec 64)
    let named := fun l => (lv = 1 → v a l < 2 ^ 24) ∧ (lv = 2 → v a l < 2 ^ 12) ∧ (lv = 3 → v a l = s.here.cfg.job)
    let target := fun l => v b l < 2 ^ 17 ∧ (if 2 ^ 16 ≤ v b l then v b l / 16 % 4096 ∈ s.chart else v b l / 16 = 0);
    (Ready (.cntRd d a lv) s → MayLog s → (∀ l, s.acts l → named l) →
      let new := (lanesOf s.ctx.act).map (fun l => { s.masterOp (.cntRd d a lv) l (.cntRd lv.toNat) with
        owner := .disp (if lv = 0 then ((s.nodeOf s.here.cfg.job (v a l)).map (fun k => (s.node k).home)).getD 0 else 0)
        loc := v a l, dst := [s.here.wb s.ctx.c l + d.toNat] })
      ∃ t : State, Sends (s.used (.cntRd d a lv)) t new false false ∧ Holds (.cntRd d a lv) s t new) ∧
    (Ready (.cntRd d a lv) s → (∀ l, s.acts l → ¬ named l) → SetsReg (.cntRd d a lv) s d.toNat (fun _ => 0xFFFFFFFE)) ∧
    (Ready (.cancel d a lv) s → (∀ l, s.acts l → ¬ named l) → SetsReg (.cancel d a lv) s d.toNat (fun _ => 0xFFFFFFFF)) ∧
    (Ready (.post d a b) s → (∀ l, s.acts l → (va l).toNat % 64 = 0 ∧ (va l).toNat / 2 ^ 56 % 16 = 0 ∧ ¬ target l) →
      SetsReg (.post d a b) s d.toNat (fun _ => 0xFFFFFFFF))) ∧
  (∀ s : State, Ready .stepAdv s → MayDraw s → Released 7 s →
    let l := (lanesOf s.ctx.act).headD 0
    ∃ (t : State), exec .stepAdv s = .next t ∧ t.mem = s.mem ∧ t.here.regs = s.here.regs ∧ t.nextId = s.nextId + 1 ∧
      t.ops = s.ops ++ [s.leaves l { s.masterOp .stepAdv l .stepAdv with
        key := some (s.laneKey l), phase := if s.here.cfg.red then .paired else .request }] ∧
      t.crewHere.split = s.crewHere.split.set s.ctx.e { s.ctx.ent with hold := [s.nextId] } ∧
      ∀ (f : Nat) (y : Fibre), s.here.fibs[f]? = some y → ∃ b, t.here.fibs[f]? = some { y with
        skip := b, serial := if f = s.fibOf l then y.serial + 1 else y.serial })

/-- R292: FINJ, in the active lanes whose ROLE and ONCE pick this copy and this run, flips a bit of the register, or marks its row poisoned, or breaks a symbol of its row. -/
def Obligations.FaultInjection : Prop :=
  ∀ (d a : VReg) (k : BitVec 3) (s : State), Ready (.finj d a k) s → (Instr.finj d a k).wf = true →
    let v := fun l => (s.opnd l a.toNat).toNat
    let picks := fun l => s.acts l ∧ (v l / 128 % 2 = 0 ∨ (s.node s.here.cfg.node).first = true) ∧
      (v l / 32 % 4 = 0 ∨ (v l / 32 % 4 = 1 ∧ s.here.cfg.red = true ∧ s.here.cfg.trailer = false) ∨
        (v l / 32 % 4 = 2 ∧ s.here.cfg.red = true ∧ s.here.cfg.trailer = true))
    let row := fun l => rowReg s.ctx.c (s.here.wb s.ctx.c l + d.toNat);
    (k = 0 → ∃ t, Done (.finj d a k) s t ∧ (∃ R W, t = s.modUnit s.ctx.u (fun y => { y with regs := R, rows := W }) ∧
        Lines s.here W (fun r => ∃ l, picks l ∧ row l = r) (fun _ => False)) ∧
      ∀ l c r, l < 32 → (picks l → rowReg c r = row l → t.here.reg c l r = s.here.reg c l r ^^^ BitVec.twoPow 32 (v l % 32)) ∧
        (¬ (picks l ∧ rowReg c r = row l) → t.here.reg c l r = s.here.reg c l r)) ∧
    (k ≠ 0 → ∃ R, Done (.finj d a k) s (s.modUnit s.ctx.u (fun y => { y with rows := R })) ∧
      ∀ r, (SMap.get {} R r).here = (s.here.row r).here ∧ (SMap.get {} R r).dirty = (s.here.row r).dirty ∧
        ((SMap.get {} R r).poison = true ↔ (s.here.row r).poison = true ∨ (k = 1 ∧ ∃ l, picks l ∧ row l = r)) ∧
        ∀ y, y ∈ (SMap.get {} R r).bad ↔ y ∈ (s.here.row r).bad ∨ (k = 2 ∧ y ≤ 17 ∧ ∃ l, picks l ∧ row l = r ∧ v l % 32 = y))


-- the tile engine ----------------------------------------------------------------------------------------------------

/-- R348 to R355, R237, R239: MMA, MMA.SP and MMA.P. In the row of each active lane every element receives, with an FP32 accumulator, the procedure of R237 over the
groups of 16, and with an INT32 accumulator the exact sum, wrapped, or clamped with ISAT. MMA.P begins from +0. All other elements are as before.
Where the spec is silent the model's own choice decides: log entry 32. -/
def Obligations.Products : Prop :=
  ∀ (c : Nib) (a b : VReg) (af bf : MFmt) (am : AccM) (s : State) (i : Instr) (K size : Nat) (part : Bool) (rows : List Byte → List (List (Option Machine.Num))),
    let addr := (s.opnd ((lanesOf s.ctx.act).headD 0) b.toNat).toNat
    let bytes := fun n => Memory.readN s.here.scr addr n
    let book := fun k => (s.here.book.get 0 k).toNat;
    (i, K, part, size, rows) ∈ ([
      (.mma c a b af bf am, 64, false, 64 * mfmtRowBytes bf, denseRows bf book 64),
      (.mmaSp c a b af bf am, 64, false, sparseSize bf (leNat (bytes 1)), sparseRows bf),
      (.mmaP c a b af bf am, 32, true, 32 * mfmtRowBytes bf, denseRows bf book 32)] :
        List (Instr × Nat × Bool × Nat × (List Byte → List (List (Option Machine.Num))))) →
    TileReady i s → c.toNat < s.here.tiles → s.inScr addr size 16 → s.here.Reads (scrRows addr size) →
    (∀ r, s.accLines c.toNat 0 128 r → s.here.Holds r ∧ (part = false → (s.here.row r).poison = false)) →
    let col := fun n => (rows (bytes size)).map (fun r => r.getD n none)
    let row := fun l => (List.range K).map (aElem af (fun j => s.opnd l (a.toNat + j)))
    let old := fun l n => if part then 0 else s.accAt c.toNat l n
    let sum := fun l n => ((row l).zip (col n)).foldl (fun (v : Int) p => match p.2 with | some y => v + p.1.toInt * y.toInt | none => v) (old l n).toInt
    let far := fun l n => ¬ (-2 ^ 31 ≤ sum l n ∧ sum l n < 2 ^ 31)
    ∃ (A : SMap Word) (F : List Fibre) (W : SMap Row), Done i s (s.modUnit s.ctx.u (fun y => { y with acc := A, fibs := F, rows := W })) ∧
      Lines s.here W (s.accLines c.toNat 0 128) (s.accLines c.toNat 0 128) ∧ s.accElse A c.toNat 0 128 ∧
      (∀ l n, s.acts l → n < 128 → SMap.get 0 A (accKey c.toNat l n) = match am with
        | .f32 => mmaF32 (old l n) (row l) (col n) (K / 16)
        | .i32w => BitVec.ofInt 32 (sum l n)
        | .i32s => BitVec.ofInt 32 (max (-2 ^ 31) (min (sum l n) (2 ^ 31 - 1)))) ∧
      (∀ f, (∀ l, s.acts l → s.fibOf l ≠ f) → F[f]? = s.here.fibs[f]?) ∧
      ∀ (l : Nat) (y : Fibre), s.acts l → s.alone l → s.here.fibs[s.fibOf l]? = some y →
        ((am = .i32s ∧ ∃ n, n < 128 ∧ far l n) → F[s.fibOf l]? = some { y with fpflags := y.fpflags ||| 0x20 }) ∧
        (¬ (am = .i32s ∧ ∃ n, n < 128 ∧ far l n) → F[s.fibOf l]? = some y)

/-- R241, R355, R356: SCACC, ACC.LD, ACC.ZERO and ACC.ST. The extent is the whole row or one sub-tile of 32 columns, and elements are copied bit for bit. R232, R242, R243, R357: ACC.CVT passes each element of the extent, read as FP32, through the pipeline of CVT.S with the lane's scale and clip, and packs the results at the lane's
address, element 0 lowest. STAT.AMAX, STAT.SAT and FPFLAGS of the lane's fibre take what the elements add. -/
def Obligations.AccumulatorRowsConvert : Prop :=
  (∀ (c p t : Nib) (a b : VReg) (sub : Bool) (q : BitVec 2) (s : State),
    let lo := if sub then 32 * q.toNat else 0
    let n := if sub then 32 else 128
    let at_ := fun l => (s.opnd l a.toNat).toNat
    let word := fun (M : Memory) k => BitVec.ofNat 32 (leNat (Memory.readN M k 4));
    (TileReady (.scacc c p b) s → c.toNat < s.here.tiles → p.toNat < s.here.tiles →
      let cols := (s.opnd ((lanesOf s.ctx.act).headD 0) (b.toNat + 1)).toNat
      s.inScr cols 512 16 → s.here.Reads (scrRows cols 512) →
      (∀ r, s.accLines c.toNat 0 128 r ∨ s.accLines p.toNat 0 128 r → s.here.Reads [r]) →
      ∃ A W, Done (.scacc c p b) s (s.modUnit s.ctx.u (fun y => { y with acc := A, rows := W })) ∧
        Lines s.here W (s.accLines c.toNat 0 128) (fun _ => False) ∧ s.accElse A c.toNat 0 128 ∧
        ∀ l k, s.acts l → k < 128 → SMap.get 0 A (accKey c.toNat l k) = (((f32 (s.accAt c.toNat l k)).add .rne
          (((f32 (s.accAt p.toNat l k)).mul (f32 (s.opnd l b.toNat))).mul (f32 (word s.here.scr (cols + 4 * k))))).toF32 .rne).1) ∧
    (TileReady (.accLd t a sub q) s → t.toNat < s.here.tiles → (∀ l, s.acts l → s.inScr (at_ l) (4 * n) 16 ∧ s.here.Reads (scrRows (at_ l) (4 * n))) →
      (∀ r, s.accLines t.toNat lo n r → s.here.Holds r) →
      ∃ A W, Done (.accLd t a sub q) s (s.modUnit s.ctx.u (fun y => { y with acc := A, rows := W })) ∧
        Lines s.here W (s.accLines t.toNat lo n) (s.accLines t.toNat lo n) ∧ s.accElse A t.toNat lo n ∧
        ∀ l k, s.acts l → k < n → SMap.get 0 A (accKey t.toNat l (lo + k)) = word s.here.scr (at_ l + 4 * k)) ∧
    (TileReady (.accZero t sub q) s → t.toNat < s.here.tiles → (∀ r, s.accLines t.toNat lo n r → s.here.Holds r) →
      ∃ A W, Done (.accZero t sub q) s (s.modUnit s.ctx.u (fun y => { y with acc := A, rows := W })) ∧
        Lines s.here W (s.accLines t.toNat lo n) (s.accLines t.toNat lo n) ∧ s.accElse A t.toNat lo n ∧
        ∀ l k, s.acts l → k < n → SMap.get 0 A (accKey t.toNat l (lo + k)) = 0) ∧
    (TileReady (.accSt t a sub q) s → t.toNat < s.here.tiles → (∀ l, s.acts l → s.inScr (at_ l) (4 * n) 16 ∧ s.here.HoldsAll (scrRows (at_ l) (4 * n))) →
      (∀ r, s.accLines t.toNat lo n r → s.here.Reads [r]) →
      ∃ M W, Done (.accSt t a sub q) s (s.modUnit s.ctx.u (fun y => { y with scr := M, rows := W })) ∧
        Lines s.here W (s.scrLines at_ (4 * n)) (s.scrWhole at_ (4 * n)) ∧ s.scrElse M at_ (4 * n) ∧
        ∀ l, s.acts l → (∀ j, s.acts j → l < j → at_ l + 4 * n ≤ at_ j ∨ at_ j + 4 * n ≤ at_ l) →
          ∀ k, k < n → word M (at_ l + 4 * k) = s.accAt t.toNat l (lo + k))) ∧
  (∀ (dst : SFmt) (t : Nib) (a : VReg) (inf fpm sub : Bool) (rm q : BitVec 2) (s : State),
    let i : Instr := .accCvt dst t a inf fpm rm sub q
    let lo := if sub then 32 * q.toNat else 0
    let n := if sub then 32 else 128
    let w := match dst with | .bf16 => 16 | .f16 => 16 | .e2m1 => 4 | .i4 => 4 | _ => 8
    let at_ := fun l => (s.opnd l a.toNat).toNat
    let one := fun l am k => cvtS (s.accAt t.toNat l (lo + k)) (s.opnd l (a.toNat + 1)) (s.opnd l (a.toNat + 2)) dst (if fpm then s.rounding l .fpm else roundOf rm) inf am
    TileReady i s → t.toNat < s.here.tiles → (∀ l, s.acts l → s.inScr (at_ l) (n * w / 8) 16 ∧ s.here.HoldsAll (scrRows (at_ l) (n * w / 8))) →
    (∀ r, s.accLines t.toNat lo n r → s.here.Reads [r]) →
    ∃ (M : Memory) (F : List Fibre) (W : SMap Row), Done i s (s.modUnit s.ctx.u (fun y => { y with scr := M, fibs := F, rows := W })) ∧
      Lines s.here W (s.scrLines at_ (n * w / 8)) (s.scrWhole at_ (n * w / 8)) ∧ s.scrElse M at_ (n * w / 8) ∧
      (∀ l, s.acts l → (∀ j, s.acts j → l < j → at_ l + n * w / 8 ≤ at_ j ∨ at_ j + n * w / 8 ≤ at_ l) →
        ∀ k, k < n → leNat (Memory.readN M (at_ l) (n * w / 8)) / 2 ^ (w * k) % 2 ^ w = (one l 0 k).res.toNat % 2 ^ w) ∧
      (∀ f, (∀ l, s.acts l → s.fibOf l ≠ f) → F[f]? = s.here.fibs[f]?) ∧
      ∀ (l : Nat) (y : Fibre), s.acts l → s.alone l → s.here.fibs[s.fibOf l]? = some y →
        F[s.fibOf l]? = some { y with
          fpflags := (List.range n).foldl (fun v k => v ||| (one l 0 k).flags) y.fpflags
          amax := (List.range n).foldl (fun v k => (one l v k).amax) y.amax
          sat := BitVec.ofNat 32 (min (y.sat.toNat + (List.range n).countP (fun k => (one l 0 k).sat)) (2 ^ 32 - 1)) })

/-- R50, R358: UNPLANE reconstructs what PLANE wrote: from the planes of 128 codes every code comes back, and MMA reads every code as the value that its format gives it. -/
def Obligations.PlanesRoundTrip : Prop :=
  ∀ (f : PFmt) (code : Nat → Nat), (∀ n, code n < 2 ^ (pfmtPlanes f).width) → ∀ n, n < 128 →
    let p := pfmtPlanes f
    let v := column (planesOf (p.pack code) p.count) n
    (p.pack code).length = 16 * p.count ∧ p.gather v = code n ∧
    p.elem v = match p with
      | .fp g _ => g.decode (code n)
      | .int w => let x : Int := if 2 ^ (w - 1) ≤ code n then (code n : Int) - 2 ^ w else code n; .fin (decide (x < 0)) x.natAbs 0

/-- R358, R359, R361, R364, R367: the tile-engine instructions that move a block between registers, scratchpad, tables and accumulators at the address of the lowest
active lane: PLANE, UNPLANE, CB.LD, RULE.LD, BND.IN and BND.OUT.
Where the spec is silent the model's own choice decides: log entries 31, 33. -/
def Obligations.TileBlocks : Prop :=
  ∀ (d a b : VReg) (f : PFmt) (slot : BitVec 2) (t : Nib) (q : BitVec 2) (s : State),
    let low := fun r => (s.opnd ((lanesOf s.ctx.act).headD 0) r).toNat
    let sup := fun (l r : Nat) => if (s.crewHere.lanes.getD l none).isSome then s.opnd l r else 0
    let p := pfmtPlanes f
    let lane := fun n => if p.width = 16 then (n % 4 / 2, 16 * (n % 2)) else (0, p.width * (n % 4))
    let bytes := fun ws : List Word => ws.flatMap (fun w => leBytes w.toNat 4)
    let rule := leNat (Memory.readN s.here.scr (low a.toNat) 64)
    let puts := fun (i : Instr) (lo : Nat) (bs : List Byte) =>
      ∃ M W, Done i s (s.modUnit s.ctx.u (fun y => { y with scr := M, rows := W })) ∧
        Lines s.here W (s.scrLines (fun _ => lo) bs.length) (s.scrWhole (fun _ => lo) bs.length) ∧
        s.scrElse M (fun _ => lo) bs.length ∧ Memory.readN M lo bs.length = bs
    let gives := fun (n : Nat) => s.inScr (low a.toNat) n 16 ∧ s.here.Reads (scrRows (low a.toNat) n)
    let takes := fun (n : Nat) => s.inScr (low a.toNat) n 16 ∧ s.here.HoldsAll (scrRows (low a.toNat) n);
    (TileReady (.plane d a f) s → takes (16 * p.count) → puts (.plane d a f) (low a.toNat)
      (p.pack (fun n => (sup (n / 4) (d.toNat + (lane n).1)).toNat / 2 ^ (lane n).2 % 2 ^ p.width))) ∧
    (TileReady (.unplane d a f) s → gives (16 * p.count) →
      let code := fun n => p.gather (column (planesOf (Memory.readN s.here.scr (low a.toNat) (16 * p.count)) p.count) n)
      ∃ (t : State) (v : Nat → Nat → Word), Done (.unplane d a f) s t ∧
        LanesDo s t (fun l => (List.range (if p.width = 16 then 2 else 1)).map (fun j => (d.toNat + j, v l j))) (fun _ y => y) ∧
        ∀ l, l < 32 → (∀ c, c < 4 → (v l (lane (4 * l + c)).1).toNat / 2 ^ (lane (4 * l + c)).2 % 2 ^ p.width = code (4 * l + c)) ∧
          (p.width = 4 → (v l 0).toNat < 2 ^ 16)) ∧
    (TileReady (.cbLd a) s → gives 512 → ∃ B W, Done (.cbLd a) s (s.modUnit s.ctx.u (fun y => { y with book := B, rows := W })) ∧
      Lines s.here W (fun _ => False) (fun _ => False) ∧ ∀ k, SMap.get 0 B k = if k < 256 then BitVec.ofNat 16 (leNat (Memory.readN s.here.scr (low a.toNat + 2 * k) 2)) else SMap.get 0 s.here.book k) ∧
    (TileReady (.ruleLd slot a) s → gives 64 →
      (Rule.ok rule = false → exec (.ruleLd slot a) s = .next (finish s.ctx (.ruleLd slot a) (trapAll s.ctx.act s.ctx.ent.pc (0x10, 8)) (s.used (.ruleLd slot a)))) ∧
      (Rule.ok rule = true → ∃ R W, Done (.ruleLd slot a) s (s.modUnit s.ctx.u (fun y => { y with rules := R, rows := W })) ∧
        Lines s.here W (fun _ => False) (fun _ => False) ∧ (∀ k, k < 64 * slot.toNat ∨ 64 * slot.toNat + 64 ≤ k → Memory.read R k = Memory.read s.here.rules k) ∧
        let k := if rule % 16 = 2 then lseConsts (BitVec.ofNat 32 (rule / 2 ^ 192)) else (0, 0)
        leNat (Memory.readN R (64 * slot.toNat) 64) = rule % 2 ^ 320 + k.1.toNat * 2 ^ 320 + k.2.toNat * 2 ^ 352)) ∧
    (TileReady (.bndIn a b) s → takes 272 → puts (.bndIn a b) (low a.toNat)
      (bytes ((List.range 32).map (fun l => sup l b.toNat) ++ (List.range 32).map (fun l => sup l (b.toNat + 1)) ++
        [BitVec.ofNat 32 (low (b.toNat + 2)), 0, 0, 0]))) ∧
    (TileReady (.bndOut t q a) s → t.toNat < s.here.tiles → low (a.toNat + 1) < 1024 → takes 256 →
      s.here.Reads ((List.range 32).map (fun j => rowAcc t.toNat j (32 * q.toNat))) →
      let nr := low (a.toNat + 1) % 32 + 1
      let nc := low (a.toNat + 1) / 32 + 1
      puts (.bndOut t q a) (low a.toNat) (bytes ((List.range 32).map (fun j => s.accAt t.toNat (nr - 1) (32 * q.toNat + j)) ++
        (List.range 32).map (fun i => s.accAt t.toNat i (32 * q.toNat + nc - 1)))))

/-- R345, R362, R363, R365, R366, R368, R369: what completes when a unit's oldest sweep-class instruction does, of which all lines are held. A SWEEP has computed each cell of its region from its neighbours, the boundary
and its weight, with its traceback code, and code 11 for every other cell. A SWEEP.R has the adjoint of the region: G of each cell from its successors in the order diag, up, left, the
destination, and the adjoints of the boundary. A TRACE has walked its tile in each lane and has the moves, the exit cell, the count and the floor mark in five registers. Nothing else changes.
Where the spec is silent the model's own choice decides: log entry 33. -/
def Obligations.SweepCells : Prop :=
  (∀ (u : Nat) (w : SweepCmd) (rest : List SweepCmd) (s : State), (s.unit u).sweeps = w :: rest → w.kind = 0 →
    (s.unit u).Reads w.reads → (s.unit u).HoldsAll w.writes →
    ∃ (A : SMap Word) (M : Memory) (W : SMap Row),
      exec (.sweepComplete u) s = .next (s.modUnit u (fun y => { y with acc := A, scr := M, rows := W, sweeps := rest })) ∧
      Lines (s.unit u) W (fun r => r ∈ scrRows w.tb 256 ∨ ∃ i, i < w.nr ∧ r = rowAcc (w.sub / 4) i (32 * (w.sub % 4))) (fun r => r ∈ wholeRows w.tb 256) ∧
      let elem := fun i j => accKey (w.sub / 4) i (32 * (w.sub % 4) + j)
      let edge := fun k => BitVec.ofNat 32 (leNat (Memory.readN (s.unit u).scr (w.bnd + 4 * k) 4))
      let h := fun (i j : Nat) => if i = 0 then (if j = 0 then edge 64 else edge (j - 1)) else if j = 0 then edge (31 + i) else SMap.get 0 A (elem (i - 1) (j - 1))
      let inside := fun i j => i < w.nr ∧ j < w.nc
      (∀ i j, inside i j →
        let c := cell w.rule (h i j) (h i (j + 1)) (h (i + 1) j) (((w.weights (s.unit u)).getD i []).getD j 0)
        h (i + 1) (j + 1) = c.1 ∧ tileCode (Memory.readN M w.tb 256) i j = c.2) ∧
      (∀ i j, i < 32 → j < 32 → ¬ inside i j → tileCode (Memory.readN M w.tb 256) i j = 3) ∧
      (∀ k, (∀ i j, inside i j → k ≠ elem i j) → SMap.get 0 A k = SMap.get 0 (s.unit u).acc k) ∧
      ∀ b, b < w.tb ∨ w.tb + 256 ≤ b → Memory.read M b = Memory.read (s.unit u).scr b) ∧
  (∀ (u : Nat) (w : SweepCmd) (rest : List SweepCmd) (s : State), (s.unit u).sweeps = w :: rest → w.kind = 1 →
    (s.unit u).Reads w.reads → (s.unit u).HoldsAll w.writes →
    ∃ (A : SMap Word) (M : Memory) (W : SMap Row) (g : Nat → Nat → Word),
      exec (.sweepComplete u) s = .next (s.modUnit u (fun y => { y with acc := A, scr := M, rows := W, sweeps := rest })) ∧
      Lines (s.unit u) W (fun r => r ∈ scrRows (w.adj + 256) 272 ∨ ∃ i, i < w.nr ∧ r = rowAcc (w.sub / 4) i (32 * (w.sub % 4))) (fun _ => False) ∧
      let y := s.unit u
      let word := fun (N : Memory) (a k : Nat) => BitVec.ofNat 32 (leNat (Memory.readN N (a + 4 * k) 4))
      let edge := word y.scr w.bnd
      let h := fun (i j : Nat) => if i = 0 then (if j = 0 then edge 64 else edge (j - 1)) else if j = 0 then edge (31 + i)
        else SMap.get 0 y.acc (accKey (w.src / 4) (i - 1) (32 * (w.src % 4) + (j - 1)))
      let inside := fun i j => i < w.nr ∧ j < w.nc
      let one := fun (b : Bool) => if b then (0x3F800000 : Word) else 0
      let share := fun (i j k : Nat) => match w.rule.semi with
        | 2 => expShare w.rule ((terms w.rule (h i j) (h i (j + 1)) (h (i + 1) j) (((w.weights y).getD i []).getD j 0)).getD k 0) (h (i + 1) (j + 1))
        | 3 => toF w.rule (w.rule.f (if k = 0 then 224 else if k = 1 then 96 else 128))
        | _ => one (decide (tileCode (Memory.readN y.scr w.tb 256) i j = k))
      let part := fun (i j k : Nat) => if inside i j then mulF (g i j) (share i j k) else 0
      let plus := fun (v : Word) (i j k : Nat) => if inside i j then addF v (mulF (g i j) (share i j k)) else v;
      (∀ i j, inside i j →
        g i j = plus (plus (plus (addF (if i + 1 = w.nr then word y.scr w.adj j else 0) (if j + 1 = w.nc then word y.scr w.adj (32 + i) else 0))
          (i + 1) (j + 1) 0) (i + 1) j 1) i (j + 1) 2 ∧
        SMap.get 0 A (accKey (w.sub / 4) i (32 * (w.sub % 4) + j)) = if w.rule.semi = 3 then g i j else mulF (g i j) (share i j 0)) ∧
      (∀ k, k < 32 → word M (w.adj + 256) k = (if k < w.nc then addF (part 0 (k + 1) 0) (part 0 k 1) else 0) ∧
        word M (w.adj + 384) k = if k < w.nr then addF (part (k + 1) 0 0) (part k 0 2) else 0) ∧
      word M (w.adj + 512) 0 = part 0 0 0 ∧ (∀ k, k < 3 → word M (w.adj + 516) k = 0) ∧
      (∀ k, (∀ i j, inside i j → k ≠ accKey (w.sub / 4) i (32 * (w.sub % 4) + j)) → SMap.get 0 A k = SMap.get 0 y.acc k) ∧
      ∀ b, b < w.adj + 256 ∨ w.adj + 528 ≤ b → Memory.read M b = Memory.read y.scr b) ∧
  (∀ (u : Nat) (w : SweepCmd) (rest : List SweepCmd) (s : State), (s.unit u).sweeps = w :: rest → w.kind = 2 →
    (s.unit u).Reads w.reads → (s.unit u).HoldsAll w.writes → w.crew < 32 →
    let y := s.unit u
    let base := fun (l : Nat) => (w.regs.getD (3 * l + 2) 0).toNat + w.d.toNat
    (∀ l, w.active.getLsbD l = true → base l + 4 < 1024) →
    ∃ (R : SMap Word) (W : SMap Row), exec (.sweepComplete u) s = .next (s.modUnit u (fun y => { y with regs := R, rows := W, sweeps := rest })) ∧
      Lines y W (fun r => r ∈ w.writes) (fun _ => False) ∧
      (∀ c l r, l < 32 → c < 32 → r < 1024 → ¬ (c = w.crew ∧ w.active.getLsbD l = true ∧ base l ≤ r ∧ r ≤ base l + 4) → SMap.get 0 R (regKey c r l) = y.reg c l r) ∧
      ∀ l, w.active.getLsbD l = true →
        let start := (w.regs.getD (3 * l + 1) 0).toNat
        let code := fun (i j : Int) => tileCode (Memory.readN y.scr (w.regs.getD (3 * l) 0).toNat 256) i.toNat j.toNat
        ∃ (n M : Nat) (i j : Nat → Int), n ≤ 63 ∧ i 0 = (start % 32 : Nat) ∧ j 0 = (start / 32 % 32 : Nat) ∧ M < 4 ^ n ∧
          (∀ k, k < n → 0 ≤ i k ∧ 0 ≤ j k ∧ code (i k) (j k) < 3 ∧ M / 4 ^ k % 4 = code (i k) (j k) ∧
            i (k + 1) = (if code (i k) (j k) = 2 then i k else i k - 1) ∧ j (k + 1) = (if code (i k) (j k) = 1 then j k else j k - 1)) ∧
          (i n < 0 ∨ j n < 0 ∨ code (i n) (j n) = 3) ∧
          (∀ k, k < 4 → SMap.get 0 R (regKey w.crew (base l + k) l) = BitVec.ofNat 32 (M / 2 ^ (32 * k))) ∧
          SMap.get 0 R (regKey w.crew (base l + 4) l) =
            BitVec.ofNat 32 ((i n % 64).toNat + 64 * (j n % 64).toNat + 2 ^ 12 * n + 2 ^ 19 * (if i n < 0 ∨ j n < 0 then 0 else 1)))

/-- R221, R346, Table 9-7: ENG.ACQ succeeds when the unit holds the engine or takes a free one that the governor grants, and otherwise gives false and ENG.ST the reason; in a
deterministic launch it waits instead. ENG.REL gives up the engine and its grant, and does nothing in a unit that does not hold it. R366, R368, R369: SWEEP, SWEEP.R and TRACE check their operands and go into flight with the operands they read, tied to the clause's flag; nothing is computed yet.
Where the spec is silent the model's own choice decides: log entry 33. -/
def Obligations.EngineSweeps : Prop :=
  (∀ (p : Nib) (k : Nat) (s : State), s.here.core = some k →
    let u := s.ctx.u
    let d := s.die (dieOf k)
    let granted := (∃ e ∈ d.served, e.1 = u) ∨ (d.held.length + d.served.length < d.hcap ∧ (d.queue = [] ∨ d.queue.head? = some u))
    let gives := fun (w : State) (v : Bool) => if v = false ∧ s.here.cfg.det = true then exec (.engAcq p) s = .next w
      else ∃ t, LanesDo w t (fun _ => []) (fun _ y => { y with pred := setPred y.pred p v }) ∧ exec (.engAcq p) s = .next (finish s.ctx (.engAcq p) [] t)
    let st := fun (w : State) (q pw b : Bool) => w.modUnit u (fun y => { y with engQueued := q, engPower := pw, engBusy := b })
    (Ready (.engAcq p) s →
      ((s.core k).engine = some u → gives (st s s.here.engQueued false false) true) ∧
      (∀ v, (s.core k).engine = some v → v ≠ u → gives (st s s.here.engQueued false true) false) ∧
      ((s.core k).engine = none → granted → gives (st ((s.modDie (dieOf k) (fun d => { d with
          held := d.held ++ [u], served := d.served.filter (fun e => e.1 != u), queue := d.queue.filter (fun v => v != u) })).modCore k
        (fun c => { c with engine := some u })) false false false) true) ∧
      ((s.core k).engine = none → ¬ granted → gives (st (s.modDie (dieOf k) (fun d => { d with
        queue := if d.queue.contains u then d.queue else d.queue ++ [u] })) true true false) false)) ∧
    (Ready .engRel s → s.here.sweeps = [] →
      ((s.core k).engine ≠ some u → Done .engRel s s) ∧
      ((s.core k).engine = some u → Done .engRel s ((s.modCore k (fun c => { c with engine := none })).modDie (dieOf k) (fun d => { d with held := d.held.erase u }))))) ∧
  (∀ (t : Nib) (q : BitVec 2) (d a : VReg) (slot : BitVec 2) (s : State),
    let low := fun k => (s.opnd ((lanesOf s.ctx.act).headD 0) (a.toNat + k)).toNat
    let sup := fun (l r : Nat) => if (s.crewHere.lanes.getD l none).isSome then s.opnd l r else 0
    let rule := leNat (Memory.readN s.here.rules (64 * slot.toNat) 64)
    let tab := rule / 32 % 8 = 1 ∨ rule / 32 % 8 = 4 → s.inScr (rule / 2 ^ 256 % 2 ^ 32) 4096 16
    let regs := (List.range 32).map (fun l => sup l a.toNat) ++ (List.range 32).map (fun l => sup l (a.toNat + 1)) ++
      (List.range 4).map (fun k => s.opnd ((lanesOf s.ctx.act).headD 0) (a.toNat + (k + 2))) ++ (List.range 16).map (fun k => BitVec.ofNat 32 (rule / 2 ^ (32 * k)))
    let flag := hdrFlag s.ctx.ent.hdr s.ctx.ent.llDone
    let starts := fun (i : Instr) (w : SweepCmd) => Done i s ((s.used i).modUnit s.ctx.u (fun y => { y with sweeps := y.sweeps ++ [w] }));
    (∀ (i : Instr) (kind src : Nat), (i, kind, src) ∈ ([(.sweep t q a slot, 0, 64), (.sweepR t q a slot, 1, low 2 / 1024)] : List (Instr × Nat × Nat)) →
      Ready i s → i.wf = true → s.here.cfg.det = false → slotsUsed s (s.here.core.getD 0) < 16 → t.toNat < s.here.tiles → tab →
      low 2 < (if kind = 0 then 1024 else 65536) → s.inScr (low 3) 256 16 → s.inScr (low 4) 272 16 →
      (kind = 1 → src / 4 < s.here.tiles ∧ src ≠ 4 * t.toNat + q.toNat ∧ s.inScr (low 5) 528 16) →
      starts i { kind := kind, crew := s.ctx.c, sub := 4 * t.toNat + q.toNat, a := a, d := 0, slot := slot.toNat, active := s.ctx.act, flag := flag, regs := regs }) ∧
    (Ready (.trace d a) s → (Instr.trace d a).wf = true → s.here.cfg.det = false →
      (∀ l, s.acts l → s.inScr (s.opnd l a.toNat).toNat 256 16 ∧ (s.opnd l (a.toNat + 1)).toNat < 1024) →
      starts (.trace d a) { kind := 2, crew := s.ctx.c, sub := 0, a := a, d := d, slot := 0, active := s.ctx.act, flag := flag
                            regs := (List.range 32).flatMap (fun l => [s.opnd l a.toNat, s.opnd l (a.toNat + 1), BitVec.ofNat 32 (s.here.wb s.ctx.c l)]) }))

/-- R33, R338, R340, R342, R371, R373: COPY, GATHER, COLL and FRAME. Where the checks of R33 pass for the block of each active lane and the limits of R338 leave room, one command of
each lane joins the engines' queue under its fibre's next serial, with its block, its receivers and the clause's flag, and the entry goes on. Nothing is read or written yet.
Where the spec is silent the model's own choice decides: log entries 15, 36, 37. -/
def Obligations.CommandsQueue : Prop :=
  ∀ (a : VReg) (s : State) (i : Instr) (k : CmdKind) (recv : Nat → List Nat), (i, k) ∈ ([
      (.copy a, .copy), (.gather a, .gather), (.coll a, .coll), (.frame a, .frame)] : List (Instr × CmdKind)) →
    let n := (lanesOf s.ctx.act).length
    let blk := fun l => (List.range 8).map (fun j => s.opnd l (a.toNat + j))
    let flag := hdrFlag s.ctx.ent.hdr s.ctx.ent.llDone
    let chunk := fun l => (lGroup (wordsNat (blk l)), lChunk (wordsNat (blk l)))
    Ready i s → i.wf = true → MayDraw s → s.sectors = [] →
    (∀ f, flag = some f → (s.cmds.filter (fun m => m.u == s.ctx.u && m.crew == s.ctx.c && m.flag == some f)).length + n ≤ 255) →
    (s.cmds.filter (fun m => m.core == s.here.core.getD 0)).length + n ≤ 64 →
    (∀ l, s.acts l → cmdChecks k s s.ctx.u s.ctx.ent.handler s.ctx.ent.pc (wordsNat (blk l)) = .ok (recv l)) →
    (k = .coll → s.ctx.ent.arrived = 0 ∧ ∀ l, s.acts l → chunkOpen s s.ctx.u (wordsNat (blk l)) = false ∧ ∀ j, s.acts j → j ≠ l → chunk j ≠ chunk l) →
    (k = .gather → ∀ l, s.acts l → s.here.HoldsAll (scrRows (bits (wordsNat (blk l)) 160 32) (4 * bRows (wordsNat (blk l))))) →
    (k = .frame → ∀ l ps, s.acts l → checkRange (cmdCheck s s.ctx.u (s.here.berth s) s.ctx.ent.handler .src) (pieceFuel 240)
      (BitVec.ofNat 64 (fPrm (wordsNat (blk l)))) 240 = .ok ps → ∀ p ∈ ps, reserved p.loc = false) →
    ∃ (new : List Cmd) (F : List Fibre) (A : BitVec 32),
      Done i s ((({ s.used i with cmds := s.cmds ++ new, nextId := s.nextId + n } : State).modUnit s.ctx.u (fun y => { y with fibs := F })).modEntry
        s.ctx.u s.ctx.c s.ctx.e (fun en => { en with arrived := A })) ∧
      new.length = n ∧ (∀ f, (∀ l, s.acts l → s.fibOf l ≠ f) → F[f]? = s.here.fibs[f]?) ∧
      ∀ (j l : Nat), (lanesOf s.ctx.act)[j]? = some l → s.alone l →
        (∀ y : Fibre, s.here.fibs[s.fibOf l]? = some y → F[s.fibOf l]? = some { y with serial := y.serial + 1 }) ∧
        ∃ m : Cmd, new[j]? = some m ∧ m.id = s.nextId + j ∧ m.kind = k ∧ m.u = s.ctx.u ∧ m.crew = s.ctx.c ∧ m.lane = l ∧ m.fibre = s.fibOf l ∧
          m.key = s.laneKey l ∧ some m.word = encode i ∧ m.pc = s.ctx.ent.pc ∧ m.priv = s.ctx.ent.handler ∧ m.flag = flag ∧ m.recv = recv l ∧ m.fate = false ∧ m.got = [] ∧
          m.berth = s.here.berth s ∧ m.block.take 8 = blk l ∧ m.core = s.here.core.getD 0 ∧ m.sent = false ∧ m.rung = false ∧ m.next = 0 ∧ m.gate = (if s.here.cfg.red then 1 else 0)


-- events -------------------------------------------------------------------------------------------------------------

/-- R26, R74, R92, R97, R99, R108, R394 to R396, Tables 17-1 to 17-12: writes of the management registers, and the two clearings that a write starts. Where a node of the
job runs, a write of a register that R97, R108 or R396 protects is dropped. BASE and TARGET of CKPT take every write; a START while STATE is 01 or 10 starts nothing.
Where the spec is silent the model's own choice decides: log entries 42, 44, 65. -/
def Obligations.ManagementRegisters : Prop :=
  ∀ (s : State) (v : BitVec 64) (stack n off : Nat),
    let j := s.ctlJob
    let runs := s.nodes.any (fun n => n.job == j && n.uncommitted && n.doom != 4) = true
    let goes := fun (i : Instr) (t : State) => exec i s = .next t;
    (∀ i, (i = .tlbinvPage v ∧ v.toNat / 2 ^ 22 % 4 ≠ 3) ∨ (i = .tlbinvJob v ∧ v.toNat / 2 ^ 22 % 4 = 3) →
      (s.tlbinv.getLsbD 0 = true → goes i { s with tlbinv := v &&& 0xFFFFFFFFFFC00000, tlbinvJob := j }) ∧ (s.tlbinv.getLsbD 0 = false → goes i s)) ∧
    (s.tlbinv.getLsbD 0 = false → ∃ C, goes .tlbinvDone { s with tlbinv := s.tlbinv ||| 1, cores := C } ∧
      ∀ k, (SMap.get {} C k).tlb = (s.core k).tlb.filter (fun e => !tlbCovers s.tlbinv s.tlbinvJob e)) ∧
    ((runs ∨ s.bmclr.getLsbD 63 = false) → goes (.bmclr v) s) ∧
    (¬ runs → s.bmclr.getLsbD 63 = true → goes (.bmclr v) { s with
      bmclr := (v &&& 0xFFFFFFFFFFF) ||| (if v.toNat / 2 ^ 24 % 2 ^ 20 = 0 then 0x8000000000000000 else 0) }) ∧
    (s.bmclr.getLsbD 63 = false → ∃ L, goes .bmclrDone { s with bmclr := s.bmclr ||| 0x8000000000000000, lines := L } ∧
      let lo := s.bmclr.toNat / 2 ^ 20 % 16 * 2 ^ 29 + s.bmclr.toNat % 2 ^ 20 * 512
      ∀ k, lo ≤ k → k < lo + s.bmclr.toNat / 2 ^ 24 % 2 ^ 20 * 512 → k / 2 ^ 29 = s.bmclr.toNat / 2 ^ 20 % 16 → (SMap.get {} L k).c = false ∧ (SMap.get {} L k).w = false) ∧
    (runs → goes (.berthk v) s ∧ goes (.root v) s ∧ goes (.stepset v) s ∧ goes (.drgnWrite stack n v) s ∧ goes (.dclsLoad v) { s with dcls := 1 }) ∧
    (¬ runs → goes (.berthk v) (s.modJob j (fun x => { x with kctx := BitVec.ofNat 3 v.toNat }))) ∧
    (¬ runs → (∀ y ∈ s.units, y.cfg.job = j → y.core = none) → goes (.root v) (s.modJob j (fun x => { x with root := v &&& 0x0FFFFFFFFFFFE000 }))) ∧
    (¬ runs → stack < 16 → n < 16 → goes (.drgnWrite stack n v) (s.modStack stack (fun x => { x with drgn := x.drgn.set n (v &&& 0x800000FFFFFFFFFF) }))) ∧
    (¬ runs → let c := v.toNat / 2 ^ 32 % 256
      ((c = 0 ∨ 0x3F800000 < v.toNat % 2 ^ 32) → goes (.dclsLoad v) { s with dcls := 2 }) ∧
      (¬ (c = 0 ∨ 0x3F800000 < v.toNat % 2 ^ 32) → goes (.dclsLoad v)
        { s.modJob j (fun x => { x with classes := SMap.set 0x3F800000 x.classes c (BitVec.ofNat 32 v.toNat) }) with dcls := 0 })) ∧
    (¬ runs → ∃ K, goes (.stepset v) { s.modJob j (fun x => { x with g := BitVec.ofNat 24 v.toNat, gOld := none, gNew := [] }) with stks := K } ∧
      ∀ k, k < 16 → (SMap.get {} K k).doneAt = BitVec.ofNat 24 (v.toNat % 2 ^ 24 / 2 ^ 20 * 2 ^ 20) ∧ (SMap.get {} K k).due = (s.stack k).due.filter (fun e => e.1 != j)) ∧
    (goes (.managementRegisterWrite 0 v) (({ s with jobctl := v &&& 0x3FFFFFFFF } : State).modJob (v.toNat % 2 ^ 32) (fun x => { x with autostep := v.getLsbD 32 }))) ∧
    (n < 16 → goes (.managementRegisterWrite (0x100 + 8 * n) v) (s.modDie n (fun d => { d with hcap := min 180 (v.toNat % 256) }))) ∧
    (n < 2880 → ∃ U L, goes (.managementRegisterWrite (0x10000 + 8 * n) v) { s.modCore n (fun c => { c with caplim := v &&& 0xFFFFF0 }) with
        units := U, hostLog := s.hostLog ++ L } ∧ (s.bound = [] → U = s.units ∧ L = [])) ∧
    (n < 64 → goes (.managementRegisterWrite (0x20000 + 16 * n) v) (s.modJob j (fun x => { x with
        groups := SMap.set (0, 0) x.groups n ((SMap.get (0, 0) x.groups n).1, BitVec.ofNat 10 v.toNat) })) ∧
      goes (.managementRegisterWrite (0x20000 + 16 * n + 8) v) (s.modJob j (fun x => { x with
        groups := SMap.set (0, 0) x.groups n (v, (SMap.get (0, 0) x.groups n).2) }))) ∧
    (off % 8 ≠ 0 → goes (.managementRegisterWrite off v) s) ∧
    goes .machineCheckQueue ({ s with mchecks := s.mchecks.tail, hostLog := s.hostLog ++ [.popped s.mchecks.head?] }) ∧
    (let busy := s.ckptReg.toNat / 2 ^ 14 % 4 = 1 ∨ s.ckptReg.toNat / 2 ^ 14 % 4 = 2
     let w := (v &&& 0xFFFFFFFFFFFF0FFF) ||| (s.ckptReg &&& 0xC000)
     (busy ∨ v.getLsbD 13 = false → goes (.ckptStart v) { s with ckptReg := w }) ∧
     (¬ busy → v.getLsbD 13 = true → goes (.ckptStart v) (({ s with ckptReg := (w &&& 0xFFFFFFFFFFFF3FFF) ||| 0x4000 } : State).modJob j (fun x => { x with ckpt := 1 }))))

/-- R29, R37, R38, R46, R63, R73, R120, R128, R289, R391, R393, R404: what befalls the parts: a miss of the pool, with the victim's write-back, a tag mirror, a scrubbed
sector, a failed bank, a timing replay, a core's reset, ports, packets and power-on.
Where the spec is silent the model's own choice decides: log entries 3, 6, 7, 8, 38, 43, 49, 63. -/
def Obligations.PartEvents : Prop :=
  ∀ (s : State) (u row core bank line port rate stack sector m v r : Nat) (o : Op),
    let goes := fun (i : Instr) (t : State) => exec i s = .next t
    let y := s.unit u
    let lost := fun (p : Phase) => match p with | .request => Phase.lost | .response _ => .lost | q => q;
    (y.core = some core → y.cancelled = false → (y.row row).here = false → (∃ x ∈ y.crews, row ∈ x.miss) → s.sectors = [] →
      (victimOf s core u row = some none → goes (.poolMissFill u row none) (s.modUnit u (fun z =>
        { (z.setRow row (if presence s u row then Memory.readN s.mem (rowPlace z row) 128 else [])) with
          rows := SMap.set {} z.rows row { here := true, used := s.now, poison := presence s u row && (s.line (rowPlace z row / 128)).poison } }))) ∧
      (victimOf s core u row = some (some (v, r)) → (v, r) ≠ (u, row) → ((s.unit v).row r).bad = [] →
        (bitPlace (s.unit v) r < rowPlace (s.unit v) r ∨ rowPlace (s.unit v) r + 128 ≤ bitPlace (s.unit v) r) →
        ∃ t, goes (.poolMissFill u row (some (v, r))) t ∧ ((t.unit v).row r).here = false ∧ ((t.unit u).row row).here = true ∧
          (((s.unit v).row r).dirty = true → Memory.readN t.mem (rowPlace (s.unit v) r) 128 = rowBytes (s.unit v) r ∧ presence t v r = true) ∧
          (((s.unit v).row r).dirty = false → t.mem = s.mem))) ∧
    (((s.core core).mirror.length < 1024 ∨ SMap.get 0 (s.core core).mirror line ≠ 0) → ∃ w, goes (.tagMirrorFill core line)
        (s.modCore core (fun c => { c with mirror := SMap.set 0 c.mirror line (1 + w) })) ∧
      w < 2 ^ 16 ∧ ∀ k, k < 4 → w / 16 ^ k % 16 = (SMap.get 0 s.tags (4 * line + k)).toNat) ∧
    (sector < 2 ^ 31 → ∀ e, s.sectors.find? (fun x => x.1 = stack * 2 ^ 31 + sector) = some e →
      let t : State := { s with sectors := SMap.del s.sectors (stack * 2 ^ 31 + sector) }
      let k := stack * 2 ^ 29 + sector / 4;
      (e.2 ≠ .oneSymbol → ∀ (d : JEntry) (a : Nat), d ∈ s.journal → d.kept = true → journalPlace s d.owner d.slot = some a → a / 128 = k →
        ∃ w, goes (.scrubRead stack sector) w ∧ d ∉ w.journal ∧ d.key.job ∈ w.lost) ∧
      ((∀ d ∈ s.journal, d.kept = false) → (e.2 = .oneSymbol → goes (.scrubRead stack sector) (t.modStack stack (fun x => { x with corrected := x.corrected + 1 }))) ∧
      (e.2 = .uncorrectable → goes (.scrubRead stack sector)
        ((t.modLine k (fun x => { x with poison := true })).modStack stack (fun x => { x with poisoned := x.poisoned + 1 }))) ∧
      (e.2 = .misdirected → goes (.scrubRead stack sector)
        (((t.modLine k (fun x => { x with poison := true })).modStack stack (fun x => { x with misdirected := x.misdirected + 1, poisoned := x.poisoned + 1 })).machineCheck
          2 stack (32 * (stack * 2 ^ 31 + sector) % 2 ^ 36))))) ∧
    (let rows := (((s.core core).bankErrs.filter (fun e => e.1 == bank && decide (s.now < e.2.2.2 + 2 ^ 20))).map (fun e => (e.2.1, e.2.2.1))).eraseDups
     ((s.core core).bank = none ∧ 64 ≤ rows.length → goes (.bankFailure core bank)
       ((s.modCore core (fun c => { c with bank := some bank, bankErrs := [] })).machineCheck 0 core bank)) ∧
     (¬ ((s.core core).bank = none ∧ 64 ≤ rows.length) → goes (.bankFailure core bank) s)) ∧
    goes (.timingReplay core) (s.modCore core (fun c => { c with replayed := c.replayed + 1, replays := c.replays ++ [s.now] })) ∧
    (let late := (s.core core).replays.countP (fun t => decide (s.now < t + 2 ^ 24))
     (65536 < late → goes (.replayLimit core) ((s.modCore core (fun c => { c with replays := [] })).machineCheck 3 core 0)) ∧
     (late ≤ 65536 → goes (.replayLimit core) s)) ∧
    ((∀ y ∈ s.units, y.core ≠ some core) → goes (.coreReset core) (s.modCore core (fun c => { c with
      base := s.now + c.skew, bank := none, bankErrs := [], tlb := [], mirror := [] }))) ∧
    (s.ready = false → ∃ t, goes .powerOn t ∧ t.ready = true ∧ t.devId = s.found.own ∧ t.chart = s.found.devices ∧ t.hostLog.getLast? = some .ready ∧
      (∀ b ∈ s.found.banks, (∀ d ∈ s.found.banks, d.1 = b.1 → d = b) → (t.core b.1).bank = some b.2) ∧
      (∀ q ∈ s.found.ports, (∀ d ∈ s.found.ports, d.1 = q.1 → d = q) → q.1 < s.ports.length → (s.ports.getD q.1 {}).up = false → q.2 = 224 ∨ q.2 = 112 →
        t.ports.getD q.1 {} = { up := true, rate := q.2 }) ∧
      (s.found.banks = [] → s.found.ports = [] → t = { s with
        devId := s.found.own, chart := s.found.devices, found := {}, ready := true, hostLog := s.hostLog ++ [.ready] })) ∧
    (s.ready = true → goes .powerOn s) ∧
    ((s.ports.getD port {}).up = false → (rate = 224 ∨ rate = 112 → goes (.portLinkTraining port rate) { s with ports := s.ports.set port { up := true, rate := rate } }) ∧
      (rate ≠ 224 → rate ≠ 112 → goes (.portLinkTraining port rate) s)) ∧
    (∃ O, goes (.portDown port) { s with ops := O, ports := s.ports.set port {} } ∧ O.length = s.ops.length ∧
      ((∀ o ∈ s.ops, ∀ d, o.owner ≠ .remote d) → O = s.ops)) ∧
    goes (.flitReceive m true) s ∧
    goes (.flitReceive m false) (s.modOp m (fun q => { q with phase := lost q.phase })) ∧
    (s.op? m = some o →
      let left := match o.phase with | .response _ => o.respAt | _ => o.sentAt
      (left + 70000 ≤ o.clock s → goes (.packetAgeDiscard m) (s.modOp m (fun q => { q with phase := lost q.phase }))) ∧
      (o.clock s < left + 70000 → goes (.packetAgeDiscard m) s))

/-- R156, R178, R197, R198, R219, R220, R246, R311, R329, R332, R335, R336: what a core does with its crews. A clause or a pass begins when the flags of its header's W are clear; a waiting crew
gives its place to a ready one; the lock forms a crew from the fibres that wait at one address; and waits end.
Where the spec is silent the model's own choice decides: log entries 16, 19. -/
def Obligations.CrewEvents : Prop :=
  ∀ (s : State) (u c u' c' e k : Nat) (w : Word) (p : Nat) (i : Instr),
    let y := s.unit u
    let x := y.crew c
    let en := x.entry e;
    (mayRun s u c = true → x.chosen = some e → s.sectors = [] → en.started = false → headerFault s u en = .ok w →
      (∀ l ∈ lanesOf en.mask, ∀ q ∈ (y.fib (x.fib l)).pending, ∀ f, q.flag = some f → f ∉ waitFlags w) →
      let i := if atBody s u c en then Instr.reptPass u c else .clauseStart u c
      ((∀ f ∈ waitFlags w, flagBusy s u c f = false) → exec i s = .next (s.modEntry u c e (fun z => { z with
        started := true, idx := 0, llDone := false, hdr := w, stale := false, pc := en.pc.extractLsb' 32 32 ++ (en.pc.extractLsb' 0 32 + 4) }))) ∧
      ((∃ f ∈ waitFlags w, flagBusy s u c f = true) → exec i s = .next s)) ∧
    (y.core = some k → (u, c) ≠ (u', c') → c < y.crews.length → c' < (s.unit u').crews.length →
      ∀ i, (i = .crewSwap u c u' c' ∧ x.active = true ∧ crewWaits s u c = true ∧ swapChoice s k u = some (u', c')) ∨
          (i = .forcedSwap u c u' c' ∧ longest s ((coreCrews s k).filter (fun p => ((s.unit p.1).crew p.2).active)) = some (u, c) ∧
            (u', c') ∈ coreCrews s k ∧ crewReady s u' c' = true ∧ ((s.unit u').crew c').since + 65536 ≤ s.now) →
      ∃ t, exec i s = .next t ∧ (∃ U, t = { s with units := U }) ∧ ((t.unit u).crew c).active = false ∧ ((t.unit u').crew c').active = true ∧
        (∀ b d, (b, d) ≠ (u, c) → (b, d) ≠ (u', c') → ((t.unit b).crew d).active = ((s.unit b).crew d).active) ∧
        ∀ b, (t.unit b).regs = (s.unit b).regs ∧ (t.unit b).fibs = (s.unit b).fibs) ∧
    (y.core = some k → y.cancelled = false → y.leaving = false → y.cfg.det = false → (s.node y.cfg.node).doom = 0 → lockPc y (basin s u) = some p →
      (freeCrewSlots y).head? = some c → s.sectors = [] → y.shareHeld + 256 ≤ y.shareSlots → poolTaken s k + 256 ≤ 16384 →
      let who := (waitingAt (basin s u) p).take 32
      (∀ b ∈ who, y.Reads (slotRows b.1)) →
      ∃ t, exec (.lockFormCrew u) s = .next t ∧ (∀ b ∈ who, slotUsed t u b.1 = false) ∧
        (∀ q, q < 1024 → y.HoldsAll (slotRows q) → (∀ b ∈ who, b.1 ≠ q) → slotUsed t u q = slotUsed s u q ∧ slotAt t u q = slotAt s u q) ∧
        (∀ l, l < 32 → ((t.unit u).crew c).lanes.getD l none = (who[l]?).map (fun b => b.2.fibre)) ∧
        (∀ l b, who[l]? = some b → ∀ r, r < 1024 → (t.unit u).reg c l r = if r < b.2.live then b.2.regs.getD r 0 else 0) ∧
        ((t.unit u).crew c).entry 0 = { pc := (who.map (fun b => b.2.pc)).headD 0, mask := maskOf (List.range who.length), status := .runnable }) ∧
    (y.core.isSome = true → y.cancelled = false → (y.cfg.det = true → y.leaving = false) → unitArrived y 15 = true → unitReleased s u 0 = true → y.staging = [] →
      ∃ t, exec (.unitSyncComplete u) s = .next t ∧ ((∀ d ∈ liveCrews y, (y.crew d).serial = false ∧ ∀ l, (y.crew d).loopN l = 0) → t.mem = s.mem) ∧ t.ops = s.ops ∧ (t.unit u).ubarGen = y.ubarGen + 1 ∧ (t.unit u).shadow = [] ∧
        ∀ d ∈ liveCrews y, (y.crew d).serial = false → ∀ n, ¬ ((((t.unit u).crew d).entry n).status = .waiting ∧ (((t.unit u).crew d).entry n).waitOn = 15)) ∧
    (let g := gangOf s u
     let live := g.filter (fun v => !(s.unit v).ended)
     live ≠ [] → (∀ v ∈ g, (s.unit v).staging = []) →
      (∀ v ∈ live, (s.unit v).core.isSome = true ∧ (s.unit v).cancelled = false ∧ unitArrived (s.unit v) 14 = true ∧ unitReleased s v 3 = true) →
      ∃ t, exec (.gangSyncComplete u) s = .next t ∧ ((∀ v ∈ g, (s.unit v).core.isSome = true ∧ ∀ d ∈ liveCrews (s.unit v), ((s.unit v).crew d).serial = false ∧ ∀ l, ((s.unit v).crew d).loopN l = 0) → t.mem = s.mem) ∧ t.ops = s.ops ∧
        (∀ v ∈ g, (t.unit v).gbarGen = (s.unit v).gbarGen + 1 ∧ (t.unit v).shadow = []) ∧
        ∀ v ∈ live, ∀ d ∈ liveCrews (s.unit v), ((s.unit v).crew d).serial = false → ∀ n, ¬ ((((t.unit v).crew d).entry n).status = .waiting ∧ (((t.unit v).crew d).entry n).waitOn = 14)) ∧
    ((∃ sc a q, i = .barWait sc a ∨ i = .barArrw sc q a) → running s u c = some (e, i) →
      exec (.barWaitComplete u c) s = exec i { s with cur := (u, c, e) } ∧ ∃ t, exec (.barWaitComplete u c) s = .next t) ∧
    (y.core.isSome = true → y.cancelled = false → x.serial = false → e < x.split.length → en.status = .waiting → en.waitOn = 13 → en.mask ≠ 0 →
      en.idx < hdrN en.hdr → (∀ l ∈ lanesOf en.mask, (y.fib (x.fib l)).pending = []) →
      (let cx : Ctx := { u := u, c := c, e := e, ent := en, act := en.mask }
       recordFull s y.cfg.node (watchedWriters s cx en.mask) = false →
      (∃ l ∈ lanesOf en.mask, (y.fib (x.fib l)).watch = none ∨ (y.fib (x.fib l)).fired = true) →
      ∃ t, exec (.mwaitWake u c e) s = .next t ∧ t.mem = s.mem ∧ (∀ n ∈ watchedWriters s cx en.mask, n ≠ y.cfg.node → (s.node n).status ≠ .committed →
          y.cfg.node < s.nodes.length → n ∈ (t.node y.cfg.node).consumed) ∧
        ((t.unit u).crew c).entry e = { en with
          status := .runnable, waitOn := 0, pc := en.pc.extractLsb' 32 32 ++ (en.pc.extractLsb' 0 32 + 4), idx := en.idx + 1, hold := [], arrived := 0, closer := 0 }) ∧
      ((∀ l ∈ lanesOf en.mask, (y.fib (x.fib l)).watch ≠ none ∧ (y.fib (x.fib l)).fired = false) → exec (.mwaitWake u c e) s = .next s))

/-- R72, R81, R105, R118 to R122, R129, R324, R385, R399, Table 5-5: what a requester does with each response, with a timeout and with the end of a back-off. A
DONE delivers the results and the flags, records the writers that an acquire names (it waits where their record is full), and answers the operation. A refusal
is tried again after the back-off. A fault or a divergence is the lane's trap: where its entry waits, where its lane waits for a fate, or else when it
comes to an instruction that waits for the operation. A request that is not answered in time is sent again, a response still on its way with it, and after 16
timeouts its fate is unknown. A packet older than 70,000 cycles does not come. R112, R113, R120, R123, R124, R127, R128, R386: how entries retire, and what an owner's restart and the loss of its journal do. LOW passes a serial whose
operations are answered and 70,000 cycles old and that no command and no staged reduction holds; under rollback protection it stays. So it does for an originator
that is no fibre. A retire message takes the entries of its node or unit from its owner; the dispatchers keep their entries in die 0's area.
Where the spec is silent the model's own choice decides: log entries 25, 35, 39, 40, 54, 58, 66. -/
def Obligations.RequesterEvents : Prop :=
  (∀ (s : State) (m u : Nat) (o : Op) (jitter : Nat), s.op? m = some o → o.u = some u → (s.unit u).core.isSome = true → (s.unit u).cancelled = false →
    let goes := fun (i : Instr) (t : State) => exec i s = .next t
    let y := s.unit u
    let n := y.cfg.node
    let gone : State := { s with ops :=
      if o.key.isSome then s.ops.map (fun q => if q.id = m then { q with phase := .answered, flying := [] } else q) else s.ops.filter (fun q => q.id != m) }
    let clock := o.clock s
    let young := clock < o.respAt + 70000
    let traps := fun (i : Instr) (w : State) (code : BitVec 8) (cause : BitVec 4) =>
      let a := if o.kind.holds || (match o.owner with | .disp _ => true | _ => false) then o.pc else o.va
      let waits := ((y.crew o.crew).split.any (fun e => e.hold.contains m)) = true
      let fate := (y.fib o.fibre).fate = some m
      ((waits → exec i s = .next (releaseHold w u o.crew m [⟨o.lane, code, cause, a⟩])) ∧
       (¬ waits → fate → exec i s = .next (trapLane (w.modFib u o.fibre (fun f => { f with fate := none })) u o.crew o.lane o.pc ⟨o.lane, code, cause, a⟩)) ∧
       (¬ waits → ¬ fate → o.kind.returns = true → code ≠ 0x53 → exec i s = .next w) ∧
       (¬ waits → ¬ fate → (o.kind.returns = false ∨ code = 0x53) → exec i s = .next (w.modFib u o.fibre (fun f => { f with
          pending := f.pending ++ [{ id := m, code := code, cause := cause, faddr := a, flag := o.flag }] }))))
    (∀ res ws ahead clamped, o.phase = .response (.done res ws ahead clamped) → young → o.kind ≠ .window → y.HoldsAll (o.dst.map (rowReg o.crew)) →
      let acq : Bool := o.order == .acq || o.order == .ar
      let named : Bool := o.dst != [] || o.pdst.isSome;
      ((acq = true ∧ named = true ∧ recordFull s n ws = true) → goes (.responseDone m) s) ∧
      (¬ (acq = true ∧ named = true ∧ recordFull s n ws = true) → o.number = none → ∃ w, goes (.responseDone m) (releaseHold w u o.crew m []) ∧
        w.ops = gone.ops ∧ w.mem = s.mem ∧ w.jobs = s.jobs ∧ (w.unit u).crews = y.crews ∧
        (w.unit u).regs = (o.dst.zip res).foldl (fun M e => SMap.set 0 M (regKey o.crew e.1 o.lane) e.2) y.regs ∧
        (∀ k, k ≠ o.fibre → (w.unit u).fibs[k]? = y.fibs[k]?) ∧
        (∀ (f : Fibre), y.fibs[o.fibre]? = some f → (w.unit u).fibs[o.fibre]? = some { f with
          pred := match o.pdst with | some p => setPred f.pred (BitVec.ofNat 4 p) (res.getD 1 0 != 0) | none => f.pred
          fpflags := f.fpflags ||| (if ahead then 0x80 else 0) ||| (if clamped then 0x20 else 0)
          seen := if named && !acq then (f.seen ++ ws).eraseDups else f.seen
          skip := f.skip || f.fate == some m
          fate := if f.fate = some m then none else f.fate }) ∧
        (acq = false ∨ named = false → w.nodes = s.nodes) ∧
        (acq = true → named = true → n < s.nodes.length → ∀ k, k ∈ (w.node n).consumed ↔
          (s.node k).status ≠ .committed ∧ (k ∈ (s.node n).consumed ∨ (k ∈ ws ∧ k ≠ n))))) ∧
    (∀ r i, o.phase = .response r → ¬ young → i ∈ [Instr.responseDone m, .responseRefused m, .responseFault m, .responseDiverged m, .responsePoison m] →
      goes i (losePacket s m)) ∧
    (o.phase = .response .refused → young → goes (.responseRefused m) (s.modOp m (fun q => { q with
      phase := .backoff (clock + 64 * 2 ^ min q.refusals 10), refusals := q.refusals + 1, tries := 0 }))) ∧
    (o.cmd = none → o.number = none → young → ∀ code cause, o.phase = .response (.fault code cause) → traps (.responseFault m) gone code cause) ∧
    (o.cmd = none → o.number = none → young → o.phase = .response .diverged → traps (.responseDiverged m) gone 0x51 0) ∧
    (o.phase = .response .poison → young → goes (.responsePoison m) (gone.modNode n (fun z => { z with doom := if z.doom = 0 then 1 else z.doom }))) ∧
    ((o.phase = .request ∨ o.phase = .lost ∨ (∃ r, o.phase = .response r) ∨ (o.phase = .held ∧ o.tries < 16)) →
      let limit := min ((match o.owner with | .remote _ => 32768 | _ => 4096) * 2 ^ o.tries) 262144
      (clock < o.sentAt + limit → goes (.requestTimeout m) s) ∧
      (o.sentAt + limit ≤ clock → o.tries < 15 → goes (.requestTimeout m) (s.modOp m (fun q => { q with
        phase := if q.phase = .held then .held else .request, tries := o.tries + 1, sentAt := clock
        flying := match q.phase with | .response r => q.flying ++ [(r, q.respAt)] | _ => q.flying }))) ∧
      (o.sentAt + limit ≤ clock → 15 ≤ o.tries → o.phase ≠ .held → o.kind ≠ .engine → o.number = none →
        let w := s.modOp m (fun q => { q with phase := .fate, flying := [] });
        (o.cmd = none → traps (.requestTimeout m) w 0x53 0) ∧ (∀ c, o.cmd = some c → goes (.requestTimeout m) (fateCmd w c o.va)))) ∧
    (∀ t, o.phase = .backoff t →
      ((jitter < 64 ∧ t + jitter ≤ clock) → goes (.refusalBackoffExpiry m jitter) (s.modOp m (fun q => { q with phase := .request, sentAt := clock }))) ∧
      (¬ (jitter < 64 ∧ t + jitter ≤ clock) → goes (.refusalBackoffExpiry m jitter) s))) ∧
  (∀ (s : State) (u f m owner : Nat) (o : Op) (k : Key) (unit : Option Nat),
    let goes := fun (i : Instr) (t : State) => exec i s = .next t
    let y := s.unit u
    let x := y.fib f
    let old := fun (q : Op) => q.phase = .answered ∧ q.sentAt + 70000 ≤ q.clock s
    let mine := fun (q : Op) => q.u = some u ∧ q.fibre = f ∧ q.key.map Key.serial = some x.low
    let free := (∀ q ∈ s.ops, mine q → old q) ∧
      (∀ c ∈ s.cmds, ¬ (c.u = u ∧ c.fibre = f ∧ c.key.serial = x.low)) ∧ (∀ e ∈ y.staging, ¬ (e.fibre = f ∧ e.seq = x.low))
    let w : Owner := if owner < 16 then .die owner else if owner < 32 then .disp (owner - 16) else .pool (owner - 32)
    let area := fun (v : Owner) => match v with | .disp _ => Owner.die 0 | v => v;
    (u < 2 ^ 32 → (y.protect = true ∨ x.low = x.serial ∨ ¬ free) → goes (.lowAdvance u f) s) ∧
    (u < 2 ^ 32 → y.protect = false → x.low ≠ x.serial → free → ∃ L, goes (.lowAdvance u f)
        (({ s with ops := L } : State).modFib u f (fun z => { z with low := z.low + 1 })) ∧
      ∀ q, q ∈ L ↔ q ∈ s.ops ∧ ¬ mine q) ∧
    (∀ job, let g := SMap.get {} (s.job job).origins f
      let its := fun (q : Op) => q.u = none ∧ q.phase ≠ .queued ∧ ∃ e, q.key = some e ∧ e.job = job ∧ e.unit = 0xFFFFF ∧ 4 * e.node + e.fibre = f ∧ e.serial = g.low
      ((g.low = g.serial ∨ ∃ q ∈ s.ops, its q ∧ ¬ old q) → goes (.lowAdvance (2 ^ 32 + job) f) s) ∧
      (g.low ≠ g.serial → (∀ q ∈ s.ops, its q → old q) → ∃ L, goes (.lowAdvance (2 ^ 32 + job) f)
          (({ s with ops := L } : State).modJob job (fun j => { j with origins := SMap.upd {} j.origins f (fun z => { z with low := z.low + 1 }) })) ∧
        ∀ q, q ∈ L ↔ q ∈ s.ops ∧ ¬ its q)) ∧
    (s.op? m = some o → o.kind = .retire unit → o.key = some k → o.phase = .request → ownerUp s o = true → o.way s = .comes →
      let due := fun (e : JEntry) => e.owner = o.owner ∧ e.key.sameOrigin k = true ∧ older e.key.serial o.low = true
      let names := fun (e : JEntry) => e.owner = o.owner ∧ e.key.job = bits o.loc 32 32 ∧ e.key.node = bits o.loc 0 32 ∧ ∀ v, unit = some v → e.key.unit = v;
      (∀ e ∈ s.journal, e.owner = o.owner → e.key = k → due e) → ∃ J M, goes (.retireMessage m) (({ s with journal := J, mem := M } : State).reply m (.done [] [] false false)) ∧
        (∀ e, ¬ (e.owner = o.owner ∧ e.key = k) → (e ∈ J ↔ e ∈ s.journal ∧ ¬ due e ∧ ¬ names e)) ∧
        (k.unit = 0xFFFFF ↔ ∃ e ∈ J, e.owner = o.owner ∧ e.key = k)) ∧
    goes (.ownerRestart owner true) { s with restarting := s.restarting.filter (fun z => z != w) } ∧
    (w ∈ s.restarting → goes (.ownerRestart owner false) s) ∧
    (w ∉ s.restarting → goes (.ownerRestart owner false) { s with
      restarting := s.restarting ++ [w]
      ops := s.ops.map (fun q => if q.owner = w ∧ q.phase = .held ∧ q.kind.begun = false then { q with phase := if 16 ≤ q.tries then .fate else .lost } else q)
      drains := s.drains.map (fun d => if d.owner = w then { d with held := [] } else d) }) ∧
    (∃ t, goes (.journalLoss owner) t ∧ (∀ e ∈ t.journal, area e.owner ≠ area w) ∧ (∃ a, (⟨4, owner, a⟩ : MCheck) ∈ t.mchecks) ∧
      ((∃ e ∈ s.journal, area e.owner = area w) → ∃ ns, HostMsg.poison 1 ns ∈ t.hostLog)))

/-- R29, R66, R68, R72, R111, R114 to R117, R120, R141, R142, R388 to R390, R393, R416: how an operation reaches its owner and what the owner answers. The head of a
store queue is sent, or applied to its own unit's scratchpad, unless R142 holds it. A keyed request that comes retires what its LOW passes; one that has an
entry is answered from it, and a new one is refused, faulted, or applied and journalled. A read is answered from memory. In a redundant unit the first arrival
of a key is held and the second compared with it, and signatures are compared.
Where the spec is silent the model's own choice decides: log entries 5, 14, 22, 34, 45, 55, 57. -/
def Obligations.OwnerEvents : Prop :=
  ∀ (s : State) (m u c : Nat) (o : Op) (k : Key), s.op? m = some o →
    let goes := fun (i : Instr) (t : State) => exec i s = .next t
    let y := s.unit u
    let x := y.crew c
    let w := retireOlder s o k
    let entry := w.journal.find? (fun e => e.owner == o.owner && e.key == k)
    let comes := o.phase = .request ∧ ownerUp s o = true ∧ o.way s = .comes;
    (∀ t r, t.op? m = some o → o.phase = .request → (t.reply m r).op? m = some { o with phase := .response r, respAt := o.clock t }) ∧
    (∀ rest, x.fifo = m :: rest → y.core.isSome = true →
      let t := s.modCrew u c (fun z => { z with fifo := rest });
      ((doomed s o = true ∨ (o.key.isSome = true ∧ lineBusy s o = true)) → goes (.storeQueueSend u c) s) ∧
      (doomed s o = false → o.key = none → o.kind.own = true → o.mask = [] → o.loc + o.data.length ≤ 2 ^ 21 → o.loc + 16 ≤ 2 ^ 21 →
        let bs := match o.kind with | .barInit e n => if (y.bar o.loc).unarmed then [] else ((y.bar o.loc).init e n).toBytes | _ => o.data
        y.HoldsAll (scrRows o.loc (max 16 o.data.length)) →
        ∃ W, goes (.storeQueueSend u c) { t.modUnit u (fun z => { z with rows := W, scr := ((List.range bs.length).zip bs).foldl (fun M e => Memory.write M (o.loc + e.1) e.2) z.scr }) with ops := s.ops.filter (fun q => q.id != m) } ∧
          Lines y W (fun r => r ∈ scrRows o.loc bs.length) (fun r => 32768 ≤ r ∧ o.loc ≤ 128 * (r - 32768) ∧ 128 * (r - 32768) + 128 ≤ o.loc + bs.length)) ∧
      (doomed s o = false → o.kind.own = false → lineBusy s o = false → (y.cfg.red = false ∨ ∀ v, o.owner ≠ .pool v) → goes (.storeQueueSend u c)
        (t.modOp m (fun q => { q with phase := s.sentPhase q, low := s.lowOf q, sentAt := q.clock s })))) ∧
    (o.key = some k → keyedReady s o = true → ownerHome s o = true →
      (o.way s = .waits → goes (.keyedRequest m) s) ∧ (o.way s = .dropped → goes (.keyedRequest m) (losePacket s m)) ∧
      (o.way s = .comes →
        (∀ e, entry = some e → ∃ ws, goes (.keyedRequest m) (w.reply m (
          if !sameDigest o.word o.digestAddr o.digestData e then .diverged
          else match e.flt with | some z => .fault z.1 z.2 | none => if e.psn then .poison else .done (e.ret.getD []) ws e.ahead e.clamped))) ∧
        (entry = none →
          (journalRoom w o.owner = false → goes (.keyedRequest m) (w.reply m .refused)) ∧
          (journalRoom w o.owner = true → masterBusy w o = false → (∀ d, o.kind ≠ .post d) → s.sectors = [] → (∀ v, o.owner ≠ .pool v) →
            (∀ b, homeBack w o = .ok b → pinRoom w o b (o.place w b 0) = false → goes (.keyedRequest m) (w.reply m .refused)) ∧
            ((∀ b, homeBack w o = .ok b → pinRoom w o b (o.place w b 0) = true) →
              (∀ z, homePlace w o = .error z → goes (.keyedRequest m) (w.reply m (.fault z.1 z.2))) ∧
              (∀ b loc l, homePlace w o = .ok (b, loc) → o.leaf = some l →
                (reserved loc = true → ∃ e, goes (.keyedRequest m) ((({ w with journal := w.journal ++ [e] } : State).machineCheck 1 (loc / 2 ^ 36) (loc % 2 ^ 36)).reply m
                  (.done (if o.dst = [] then [] else [0]) [] false false)) ∧ e.owner = o.owner ∧ e.key = k) ∧
                (reserved loc = false → (o.kind = .ldDs ∨ (∃ q, o.kind = .stDs q) ∨ o.kind = .addDs ∨ o.kind = .redDs) → dredged w loc = false →
                  goes (.keyedRequest m) (w.reply m (.fault 0x21 4))) ∧
                (reserved loc = false → o.kind.readsTarget = true → (o.kind = .cas ∨ (∃ a q z r, o.kind = .rmw a q z r)) → targetPoisoned w o loc = true →
                  ∃ e, goes (.keyedRequest m) (({ w with journal := w.journal ++ [e] } : State).reply m .poison) ∧ e.owner = o.owner ∧ e.key = k ∧ e.psn = true))))))) ∧
    (o.key = none → comes → o.kind.load_ = true → olderLoad s o = false → loadWaits s o = false →
      (∀ d, o.owner = .die d → s.sectors = [] → (∀ level, o.kind ≠ .cntRd level) →
        (∀ z, homePlace s o = .error z → goes (.homeReadRequest m) (s.reply m (.fault z.1 z.2))) ∧
        (∀ b loc, homePlace s o = .ok (b, loc) → reserved loc = false →
          (o.kind = .tagGet → ∃ ws, goes (.homeReadRequest m) (s.reply m (.done [(s.tag loc).setWidth 32] ws false false))) ∧
          (o.kind ≠ .tagGet → s.poisonedAt loc o.size = true → goes (.homeReadRequest m) (s.reply m .poison)) ∧
          (o.kind ≠ .tagGet → s.poisonedAt loc o.size = false → ∃ ws, goes (.homeReadRequest m) (s.reply m (.done (loadWords (Memory.readN s.mem loc o.size)) ws false false))))) ∧
      (∀ v, o.kind = .load → o.owner = .pool v → o.leaf = none → (s.unit v).HoldsAll (scrRows o.loc o.size) →
        ((∃ r ∈ scrRows o.loc o.size, ((s.unit v).row r).poison = true) → goes (.homeReadRequest m) (s.reply m .poison)) ∧
        ((∀ r ∈ scrRows o.loc o.size, ((s.unit v).row r).poison = false) →
          goes (.homeReadRequest m) (s.reply m (.done (loadWords ((s.unit v).scrN o.loc o.size)) [] false false)))) ∧
      (∀ level, o.kind = .cntRd level → goes (.homeReadRequest m) (s.reply m (.done [BitVec.ofNat 32 (counterOf s (o.job s) level o.loc)] [] false false)))) ∧
    (o.key = some k → comes → paired s o = true → o.kind ≠ .ldDs → o.number = none →
      let other := (otherCopy s o).filter (fun t => t.phase == .held)
      (∀ e ∈ s.journal, ¬ (e.owner = o.owner ∧ e.key = k)) →
      (other = none → 256 ≤ (s.ops.filter (fun p => p.phase == .held && p.owner == o.owner && paired s p)).length → goes (.pairedArrival m) (s.reply m .refused)) ∧
      (other = none → (s.ops.filter (fun p => p.phase == .held && p.owner == o.owner && paired s p)).length < 256 →
        goes (.pairedArrival m) (s.modOp m (fun q => { q with phase := .held }))) ∧
      (∀ t, other = some t → doomed s o = true → goes (.pairedArrival m) s) ∧
      (∀ t, other = some t → doomed s o = false →
        (samePair o t = true → goes (.pairedArrival m) (verdictBoth (serve s o k).1 o (serve s o k).2)) ∧
        (samePair o t = false → goes (.pairedArrival m) (s.modNode ((o.node s).getD 0) (fun z => { z with doom := if z.doom = 0 then 2 else z.doom }))))) ∧
    (o.key = some k → o.u = some u → o.phase = .paired → doomed s o = false →
      let l := if y.cfg.trailer then y.cfg.twin.getD u else u
      let sig : Sig := { op := m, key := k.num, trailer := y.cfg.trailer, word := o.word, addr := o.digestAddr, data := o.digestData, localClass := false }
      let meets := fun (h : Sig) => h.key = sig.key ∧ h.trailer ≠ sig.trailer ∧ h.localClass = false
      (∀ e ∈ (s.unit l).compare, e.op ≠ m) →
      ((∀ h ∈ (s.unit l).compare, ¬ meets h) → (64 ≤ (s.unit l).compare.length → goes (.signatureCompare m) s) ∧
        ((s.unit l).compare.length < 64 → goes (.signatureCompare m) (s.modUnit l (fun z => { z with compare := z.compare ++ [sig] })))) ∧
      (∀ h ∈ (s.unit l).compare, meets h → (∀ g ∈ (s.unit l).compare, meets g → g = h) →
        (sig.same h = false → goes (.signatureCompare m) (s.modNode y.cfg.node (fun z => { z with doom := if z.doom = 0 then 2 else z.doom }))) ∧
        (sig.same h = true →
          let lead := if y.cfg.trailer then h.op else m
          let trail := if y.cfg.trailer then m else h.op
          let t := s.modUnit l (fun z => { z with compare := z.compare.filter (fun e => e != h) })
          let v := (t.modOp lead (fun q => { t.sent q with phase := .request })).modOp trail (fun q => { q with phase := .answered })
          ∀ p, s.op? trail = some p → goes (.signatureCompare m) (releaseHold v (p.u.getD 0) p.crew trail []))))

/-- R29, R76, R85 to R88, R99, R100, R102 to R106, R115, R210, R222, R321 to R325, R330: the effect of a new keyed request at its owner, and what it answers: a store,
a part of an engine's, an atomic, a comparison, a stamped access, a tag, a store to a berth at a home; the berth map, the step, a cancellation and a
card at a dispatcher; a store and an arrival in the scratchpad of another unit, where the pool of its core, or of the one it left, holds the line. Effect and journal entry are one.
Where the spec is silent the model's own choice decides: log entries 9, 14, 22, 55, 56. -/
def Obligations.OwnerEffects : Prop :=
  ∀ (s : State) (m : Nat) (o : Op) (k : Key), s.op? m = some o → o.key = some k → keyedReady s o = true → o.way s = .comes →
    let w := retireOlder s o k
    let x : Word := BitVec.ofNat 32 (leNat (o.data.take 4))
    let job := o.job s
    let j := w.job job
    let goes := fun (i : Instr) (t : State) => exec i s = .next t
    let answers := fun (i : Instr) (t : State) (res : Option (List Word)) (ws : List Nat) (ahead clamped : Bool) => ∃ e,
      goes i (({ t with journal := w.journal ++ [e] } : State).reply m (.done (res.getD []) ws ahead clamped)) ∧
      e.owner = o.owner ∧ e.key = k ∧ e.word = o.word ∧ e.ret = res ∧ e.psn = false ∧ e.flt = none ∧ e.ahead = ahead ∧ e.clamped = clamped
    (∀ e ∈ w.journal, ¬ (e.owner = o.owner ∧ e.key = k)) → journalRoom w o.owner = true →
    (∀ b loc l d, homePlace w o = .ok (b, loc) → o.owner = .die d → o.leaf = some l → entStaged l.ent = false → reserved loc = false → s.sectors = [] →
      (∀ a, homeBack w o = .ok a → pinRoom w o a (o.place w a 0) = true) → (o.kind.readsTarget = true → targetPoisoned w o loc = false) →
      let does := fun (cells : List (Nat × Byte)) (res : Option (List Word)) (ahead clamped : Bool) => ∃ t ws, answers (.keyedRequest m) t res ws ahead clamped ∧
        t.ops = s.ops ∧ t.jobs = s.jobs ∧ t.tags = s.tags ∧
        t.mem = cells.foldl (fun M e => Memory.write M (l.at_ b (l.off + e.1)) e.2) w.mem
      let put := fun (bs : List Byte) => (List.range bs.length).zip bs
      let old : Word := BitVec.ofNat 32 (leNat (Memory.readN w.mem loc 4))
      let slot := slotOf (Memory.readN w.mem loc 8);
      (o.kind = .store → does o.cells none false false) ∧
      (o.kind = .part → (s.unit (o.u.getD 0)).cfg.det = false → does o.cells none false false) ∧
      (∀ op ty sat ret, o.kind = .rmw op ty sat ret → let r := rmwVal op ty sat old x
        does (put (leBytes r.1.toNat 4)) (if ret then some [old] else none) false (ret && r.2)) ∧
      (o.kind = .cas → does (if old = x then put (leBytes (leNat (o.data.drop 4) % 2 ^ 32) 4) else []) (some [old]) false false) ∧
      (o.kind = .ldDs → dredged w loc = true → let r := j.loadSlot slot o.g
        does [] (some [r.1]) r.2 false) ∧
      (∀ q, o.kind = .stDs q → dredged w loc = true → does (put ({ value := x, stamp := o.g, cls := q } : Slot).toBytes) none false false) ∧
      (o.kind = .addDs → dredged w loc = true → let r := j.merge slot x o.g
        does (put r.toBytes) (some [r.value]) false false) ∧
      (o.kind = .redDs → dredged w loc = true → does (put (j.merge slot x o.g).toBytes) none false false) ∧
      (o.kind = .tagSet → ∃ t ws, answers (.keyedRequest m) t none ws false false ∧ t.mem = w.mem ∧ ∀ p, t.tag p =
        if p / 32 ∈ (tagPlaces l).map (fun q => q / 32) then x.setWidth 4 else s.tag p) ∧
      (∀ q, o.kind = .berth q → (j.open_.getLsbD q = true → does (put o.data) none false false) ∧
        (j.open_.getLsbD q = false → goes (.keyedRequest m) (w.reply m (.fault 0x21 4))))) ∧
    (∀ d, o.owner = .disp d → o.leaf = none → masterBusy w o = false →
      (o.kind = .berOpen → (∀ b, freeBerth j = some b → answers (.keyedRequest m) (w.modJob job (fun z => { z with open_ := z.open_ ||| BitVec.twoPow 8 b })) (some [BitVec.ofNat 32 b, 1]) [] false false) ∧
        (freeBerth j = none → answers (.keyedRequest m) w (some [0xFFFFFFFF, 0]) [] false false)) ∧
      (∀ b t n, o.kind = .berPub b t n →
        (j.open_.getLsbD b = false → goes (.keyedRequest m) (w.reply m (.fault 0x21 4))) ∧
        (j.open_.getLsbD b = true → ∃ M, goes (.keyedRequest m) ((w.modJob job (fun z => { z with tagmap := M, open_ := z.open_ &&& ~~~(BitVec.twoPow 8 b), mapOld := some z.tagmap, mapNew := [], mapping := some m })).modOp m (fun q => { q with phase := .held })) ∧
          (n ≤ 64 → ∀ e, e < 64 → SMap.get 8 M e = if (∃ i, i < n ∧ e = (t + i) % 64) then BitVec.ofNat 4 (8 + b) else SMap.get 8 j.tagmap e))) ∧
      (∀ t, o.kind = .tagRetire t → goes (.keyedRequest m) ((w.modJob job (fun z => { z with tagmap := SMap.upd 8 z.tagmap t (fun e => e &&& 7), mapOld := some z.tagmap, mapNew := [], mapping := some m })).modOp m (fun q => { q with phase := .held }))) ∧
      (o.kind = .stepAdv → goes (.keyedRequest m) ((w.modJob job (fun z => { z with gOld := some z.g, g := z.g + 1, gNew := [], advancing := some m })).modOp m
          (fun q => { q with phase := .held }))) ∧
      (∀ l, o.kind = .cancel l → let t := cancelLevel w (some m) job l o.loc
        (cancelWaits t m = true → goes (.keyedRequest m) (t.modOp m (fun q => { q with phase := .held }))) ∧
        (cancelWaits t m = false → t.journal = w.journal → answers (.keyedRequest m) t (some [0]) [] false false)) ∧
      (∀ die, o.kind = .post die →
        (∀ t, acceptCard w job die o.va = (t, none) → goes (.keyedRequest m) (t.reply m .refused)) ∧
        (∀ t q, acceptCard w job die o.va = (t, some q) → t.journal = w.journal → answers (.keyedRequest m) t (some [BitVec.ofNat 32 q]) [] false false))) ∧
    (∀ v, o.owner = .pool v → v < s.units.length → o.leaf = none → o.mask = [] → 0 < o.data.length → o.loc + o.data.length ≤ 2 ^ 21 → o.loc + 16 ≤ 2 ^ 21 →
      (s.unit v).HoldsAll (scrRows o.loc (max 16 o.data.length)) →
      let i := if (s.unit v).core.isSome then Instr.keyedRequest m else .engineArrival m
      let does := fun (bs : List Byte) => ∃ (t : State) (J : List JEntry), goes i (({ t with journal := J } : State).reply m (.done [] [] false false)) ∧
        (t.unit v).scr = ((List.range bs.length).zip bs).foldl (fun M e => Memory.write M (o.loc + e.1) e.2) (s.unit v).scr ∧ ∃ e ∈ J, e.owner = o.owner ∧ e.key = k;
      (o.kind = .store → does o.data) ∧
      (o.kind = .part ∨ (∃ ty, o.kind = .collAdd ty) → (s.unit (o.u.getD 0)).cfg.det = false → o.bad = [] → (o.kind.readsTarget = true → targetPoisoned w o o.loc = false) → does o.data) ∧
      (∀ n, o.kind = .arrive n → does (((s.unit v).bar o.loc).arrive none n).1.toBytes))

/-- R113, R117, R123, R133, R134, R416: a drained update is sent when its fibre has room, and its home applies the updates of an address in the order of their numbers,
holding those that come early. It is a keyed request too: its entries retire by the LOW it carries, and it is answered from its entry where it has one.
Where the spec is silent the model's own choice decides: log entry 27. -/
def Obligations.DrainedUpdates : Prop :=
  ∀ (s : State) (m : Nat) (o : Op) (k : Key) (num : Nat) (last : Bool), s.op? m = some o → o.key = some k → o.number = some (num, last) →
    let goes := fun (t : State) => exec (.drainedUpdate m) s = .next t
    let w := retireOlder s o k
    let early := (s.drains.filter (fun e => e.owner == o.owner && e.held != [])).length
    let flight := (s.ops.filter (fun p => p.u == o.u && p.fibre == o.fibre && p.number.isSome && p.open_ && p.phase != .queued)).length;
    (o.phase = .queued → (256 ≤ flight → goes s) ∧
      (flight < 256 → goes (s.modOp m (fun q => { q with phase := .request, low := s.lowOf q, sentAt := q.clock s })))) ∧
    (o.phase = .request → ownerUp s o = true → paired s o = false → o.way s = .comes →
      (∀ e, w.journal.find? (fun e => e.owner == o.owner && e.key == k) = some e → goes (w.reply m (entryAnswer w o e))) ∧
      (w.journal.find? (fun e => e.owner == o.owner && e.key == k) = none →
        (drainOf w o = none → 256 ≤ (s.drains.filter (fun e => e.owner == o.owner)).length → goes (w.reply m .refused)) ∧
        (∀ i d, drainOf w o = some i → s.drains[i]? = some d → m ∉ d.held →
          (num ≠ d.next → (d.held ≠ [] ∨ early < 64) → d.held.length < 16 →
            goes { w.modOp m (fun q => { q with phase := .held }) with drains := s.drains.set i { d with held := d.held ++ [m] } }) ∧
          (num ≠ d.next → d.held = [] → 64 ≤ early → goes (w.reply m .refused)) ∧
          (num = d.next → journalRoom w o.owner = true → drainRace w o = (none, w) → (∀ b, homeBack w o = .ok b → pinRoom w o b (o.place w b 0) = true) →
            (∃ op ty sat, o.kind = .rmw op ty sat false) → s.sectors = [] → (∀ v, o.owner ≠ .pool v) →
            ∃ t, goes t ∧ (∃ e ∈ t.journal, e.owner = o.owner ∧ e.key = k) ∧
              (∀ b loc l op ty sat, homePlace w o = .ok (b, loc) → reserved loc = false → o.leaf = some l → entStaged l.ent = false → targetPoisoned w o loc = false →
                d.held = [] → o.kind = .rmw op ty sat false →
                let r := rmwVal op ty sat (BitVec.ofNat 32 (leNat (Memory.readN w.mem loc 4))) (BitVec.ofNat 32 (leNat (o.data.take 4)))
                t.mem = ((List.range 4).zip (leBytes r.1.toNat 4)).foldl (fun M e => Memory.write M (l.at_ b (l.off + e.1)) e.2) w.mem)))))

/-- R24, R56, R57, R201, R212 to R217, R219, R221, R222, R224, R380 to R382: units come and go. A dispatcher starts a gang on its cores; a card that is passed over for too
long blocks a die; a unit that a card wants displaced is asked to leave, and a gang that has stopped is saved; a saved gang resumes from its images; and the
governor serves and takes back grants.
Where the spec is silent the model's own choice decides: log entries 7, 28, 41, 43, 59, 60. -/
def Obligations.LaunchEvents : Prop :=
  ∀ (s : State) (n u core die : Nat),
    let goes := fun (i : Instr) (t : State) => exec i s = .next t
    let x := s.node n
    let y := s.unit u
    let g := liveGang s u
    let d := s.die die;
    (let trailer := x.red && x.detDie u true == dieOf core
     let r := tellShort ((List.range (x.gangAt u)).foldl (fun s i => decodeRange (readPreds s n (u + i)) (x.imageOf (u + i)) 256) s)
     n < s.nodes.length → u ∈ nextGangs r n trailer → cardTurn r n = true → heldBack r n (dieOf core) = false → (∀ i, i < x.gangAt u → imageOk r n (u + i) = true) →
      ∀ cores, assign core (gangCores r n trailer u) [] = some cores → cores ≠ [] → ∃ t, goes (.unitDispatch n u core) t ∧
        t.units.length = s.units.length + cores.length ∧ (t.node n).status = .running ∧
        ∀ i k, cores[i]? = some k → (t.unit (s.units.length + i)).core = some k ∧ (t.unit (s.units.length + i)).cfg.node = n ∧
          (t.unit (s.units.length + i)).cfg.uidx = u + i ∧ (t.unit (s.units.length + i)).cfg.job = x.job ∧ (t.unit (s.units.length + i)).status = .resident) ∧
    (∀ z, x.passedAt = some z → x.doom = 0 → (z + 2 ^ 20 ≤ s.now → goes (.passedOverLimit n) (s.modNode n (fun q => { q with blocking := true }))) ∧
      (s.now < z + 2 ^ 20 → goes (.passedOverLimit n) s)) ∧
    ((y.core = none ∨ y.cancelled = true) → goes (.preempt u) s) ∧
    (y.core.isSome = true → y.cancelled = false → y.stopping = false → y.preempting = false → (wanted s u = false → goes (.preempt u) s) ∧
      (wanted s u = true → y.cfg.det = true → ∃ t, goes (.preempt u) t ∧ ∀ v ∈ g, (t.unit v).preempting = true)) ∧
    (y.core.isSome = true → y.cancelled = false → y.stopping = false → y.preempting = true → y.cfg.det = false → g ≠ [] →
      (∀ v ∈ g, (s.unit v).core.isSome = true ∧ (s.unit v).cancelled = false ∧ (s.unit v).sweeps = [] ∧ crewsQuiet s v = true ∧ ∀ c ∈ (s.unit v).crews, c.fifo = []) →
      ∃ t, goes (.preempt u) t ∧ t.ops = s.ops ∧ ∀ v ∈ g, (t.unit v).core = none ∧ (t.unit v).lastCore = (s.unit v).core ∧ (t.unit v).status = .evictable ∧
        (t.unit v).regs = (s.unit v).regs ∧ (t.unit v).scr = (s.unit v).scr ∧ (t.unit v).rows = (s.unit v).rows ∧ (t.unit v).fibs = (s.unit v).fibs ∧
        ∀ c ∈ (t.unit v).crews, c.active = false) ∧
    (y.status = .evictable → y.cancelled = false → ∃ M, goes (.preemptSaved u) (({ s with mem := M } : State).modUnit u (fun q => { q with status := .saved })) ∧
      ∀ a, (a < y.base + 4 ∨ y.base + 8 ≤ a) → Memory.read M a = Memory.read s.mem a) ∧
    (g.head? = some u → (∀ v ∈ g, (s.unit v).status = .saved ∧ (s.unit v).cancelled = false ∧ (s.unit v).core = none) →
      (s.node y.cfg.node).doom = 0 → (s.node y.cfg.node).stopping = none → let r := tellShort s
      ∀ cores, resumeCores r g core = some cores →
        (∀ t, (g.zip cores).foldl (fun (a : Option State) e => a.bind (fun s => resumeUnit s e.1 e.2)) (some r) = some t → goes (.resume u core) t ∧
          ∀ e ∈ g.zip cores, (t.unit e.1).core = some e.2 ∧ (t.unit e.1).status = .resident ∧
            ((s.unit e.1).lastCore = some e.2 → (t.unit e.1).regs = (s.unit e.1).regs ∧ (t.unit e.1).scr = (s.unit e.1).scr ∧ (t.unit e.1).rows = (s.unit e.1).rows) ∧
            ((s.unit e.1).lastCore ≠ some e.2 → ∀ k, ((t.unit e.1).row k).here = false)) ∧
        (g = [u] → cores = [core] → y.lastCore = some core → s.sectors = [] → (Memory.read s.mem (y.base + 4)).getLsbD 2 = false → ∃ t, goes (.resume u core) t ∧
          (t.unit u).core = some core ∧ (t.unit u).fibs.length = y.fibs.length ∧
          ∀ f, f < y.fibs.length → let m := s.mem.nat (y.region 5 + 32 * f) 32
            let z := (t.unit u).fib f
            z.pred = BitVec.ofNat 16 m ||| 1 ∧ z.wb = m / 2 ^ 16 % 1024 ∧ z.ended = m.testBit 26 ∧ z.inBasin = m.testBit 27 ∧ z.serial = BitVec.ofNat 16 (m / 2 ^ 32) ∧
            z.low = BitVec.ofNat 16 (m / 2 ^ 48) ∧ z.fpmode = BitVec.ofNat 8 (m / 2 ^ 80) ∧ z.fpflags = BitVec.ofNat 8 (m / 2 ^ 88) ∧ z.amax = BitVec.ofNat 32 (m / 2 ^ 96) ∧
            z.sat = BitVec.ofNat 32 (m / 2 ^ 128) ∧ z.code = BitVec.ofNat 8 (m / 2 ^ 160) ∧ z.faddr = BitVec.ofNat 64 (m / 2 ^ 192))) ∧
    (d.queue = [] → goes (.grantServed die) s) ∧
    (∀ v rest, d.queue = v :: rest →
      (d.held.length + d.served.length < d.hcap → goes (.grantServed die) (s.modDie die (fun z => { z with queue := rest, served := z.served ++ [(v, s.now)] }))) ∧
      (d.hcap ≤ d.held.length + d.served.length → goes (.grantServed die) s)) ∧
    ((∃ e ∈ d.served, e.1 = u ∧ e.2 + 8192 ≤ s.now) → goes (.grantHoldExpiry die u)
      ((s.modDie die (fun z => { z with served := z.served.filter (fun e => e.1 != u) })).modUnit u (fun q => { q with engQueued := false }))) ∧
    ((∀ e ∈ d.served, ¬ (e.1 = u ∧ e.2 + 8192 ≤ s.now)) → goes (.grantHoldExpiry die u) s)

/-- R78, R79, R124, R131 to R133, R200, R202, R215, R222, R383 to R386, R390, R416, R417: units end, their staged reductions are drained, and nodes commit, are rolled back, or
are cancelled, once their resident units have stopped.
Where the spec is silent the model's own choice decides: log entries 26, 27, 40, 66, 67. -/
def Obligations.EndingEvents : Prop :=
  ∀ (s : State) (n u : Nat),
    let goes := fun (i : Instr) (t : State) => exec i s = .next t
    let x := s.node n
    let y := s.unit u
    let set := rollbackSet s s.nodes.length [n]
    let final := fun (k : Nat) => (s.node k).status = .committed ∨ (s.node k).status = .committing ∨ (s.node k).status = .cancelled
    let ends := fun (t : State) (k : Nat) => ((t.node k).status = .cancelled ∨ (t.node k).stopping.isSome = true) ∧
      ((∀ z ∈ s.units, z.cfg.node = k → z.core = none) → (t.node k).status = .cancelled);
    (unitDone s u = false → goes (.unitEnd u) s) ∧
    (unitDone s u = true → y.stopping = false → ∃ t, goes (.unitEnd u) t ∧ (t.unit u).ended = true ∧ (t.unit u).core = none ∧
      (y.cfg.node < s.nodes.length → (s.node y.cfg.node).red = false → y.cfg.uidx ∉ (s.node y.cfg.node).done →
        (t.node y.cfg.node).done = (s.node y.cfg.node).done ++ [y.cfg.uidx] ∧
        (t.node y.cfg.node).launch = if (s.node y.cfg.node).launch + 1 < (s.node y.cfg.node).unitCount then (s.node y.cfg.node).launch + 1 else (s.node y.cfg.node).launch)) ∧
    (mayDrain s u = false → goes (.drainBegin u) s) ∧
    (mayDrain s u = true → ∃ t, goes (.drainBegin u) t ∧ (t.unit u).draining = true ∧ (t.unit u).staging = y.staging.filter Staged.local_ ∧
      ∀ e ∈ y.staging, e.local_ = false →
        (∃ o ∈ t.ops, o.u = some u ∧ o.phase = .queued ∧ o.number.isSome = true ∧ o.kind = e.kind ∧ o.fibre = e.fibre ∧ o.va = e.target ∧
          o.key.map Key.serial = some e.seq ∧ o.data = leBytes e.value.toNat 4) ∨
        (∃ code cause, HostMsg.drainFault y.cfg.job (s.node y.cfg.node).id y.cfg.uidx e.fibre e.seq e.target code cause ∈ t.hostLog)) ∧
    (mayCommit s n = true → goes (.nodeCommit n) (s.modNode n (fun z => { z with status := .committing }))) ∧
    (x.status = .committing → (∀ d, homeLeft s n = some d → ∃ t, goes (.nodeCommit n) t ∧ t.mem = s.mem ∧ t.nodes = s.nodes ∧
        ∀ k z, s.lines.filter (fun e => e.1 == k) = [(k, z)] →
          s.line k = z ∧ t.line k = if z.w = true ∧ z.owner = n ∧ k / 2 ^ 29 = d then { z with c := !z.c, w := false, owner := 0 } else z) ∧
      (homeLeft s n = none → ∃ t, goes (.nodeCommit n) t ∧ t.mem = s.mem ∧ (t.node n).status = .committed ∧ (t.node n).launch = x.unitCount ∧
        ∀ k, k ≠ n → t.node k = s.node k)) ∧
    (mayCommit s n = false → x.status ≠ .committing → goes (.nodeCommit n) s) ∧
    ((x.status ≠ .running ∨ x.stopping.isSome = true ∨ (x.doom ≠ 1 ∧ x.doom ≠ 2)) → goes (.rollbackInPlace n) s) ∧
    (n < s.nodes.length → x.status = .running → x.stopping = none → (x.doom = 1 ∨ (x.doom = 2 ∧ x.retries < 3)) →
      (set.all (fun k => rollable (s.node k)) = true → ∃ t, goes (.rollbackInPlace n) t ∧ t.mem = s.mem ∧
        (∀ k ∈ set, (t.node k).doom = 4 ∧ (t.node k).status = (s.node k).status ∧
          ∀ v, v < s.units.length → (s.unit v).cfg.node = k → (t.unit v).cancelled = true) ∧
        (t.node n).retries = x.retries + (if x.doom = 2 then 1 else 0)) ∧
      (set.all (fun k => rollable (s.node k)) = false → ∃ t, goes (.rollbackInPlace n) t ∧ (∃ ns, HostMsg.poison 1 ns ∈ t.hostLog) ∧
        ∀ k, k < s.nodes.length → (s.node k).job = x.job → (s.node k).phase = x.phase → ¬ final k → ends t k)) ∧
    (n < s.nodes.length → x.status = .running → x.stopping = none → x.doom = 2 → 3 ≤ x.retries → ∃ t, goes (.rollbackInPlace n) t ∧ ends t n ∧
      HostMsg.pair 1 x.job x.id ∈ t.hostLog) ∧
    (∀ z, x.passedAt = some z → x.doom = 4 → x.status = .running → x.stopping = none → (s.now < z + 70000 → goes (.rollbackRequeue n) s) ∧
      (z + 70000 ≤ s.now → ∃ t, goes (.rollbackRequeue n) t ∧ (t.node n).status = .queued ∧ (t.node n).doom = 0 ∧ (t.node n).launch = 0 ∧ (t.node n).dispatched = [] ∧
        (t.node n).done = [] ∧ (t.node n).consumed = [] ∧ (t.node n).order = 0 ∧ (t.node n).first = false ∧ (t.node n).holds = true ∧ (t.node n).card = x.card))

/-- R92, R94, R96, R100 to R103, R108 to R112, R150, R341, R344, R373, R374, R399 to R401, Table 17-4: the step, the dredge, checkpoints and restores, and the ends of engine
commands. A STEP.ADV completes when every replica and every operation of the old step is done; the dredge carries every older slot of its regions to the boundary; a
collective that waits for a member has its tree laid anew after 16 timeouts, and its lanes an unknown fate after 32.
Where the spec is silent the model's own choice decides: log entries 15, 36, 37, 42, 44, 54, 60, 64. -/
def Obligations.StepEvents : Prop :=
  ∀ (s : State) (m job stack : Nat) (o : Op) (c : Cmd),
    let goes := fun (i : Instr) (t : State) => exec i s = .next t
    let x := s.stack stack
    let j := s.job job
    let reg := s.ckptReg &&& 0xFFFFFFFFFFFF3FFF
    let plain := (∀ l ∈ jobPages s job, entStaged l.ent = false) ∧ s.sectors = [];
    (s.op? m = some o → o.kind = .stepAdv → o.phase = .held → o.job s = job → j.advancing = some m →
      (stepDone s job = false → goes (.stepAdvComplete m) s) ∧
      (stepDone s job = true → ∃ t, goes (.stepAdvComplete m) t ∧
        t.job job = { j with gOld := none, gNew := [], advancing := none, waitStep := if o.u.isSome then j.waitStep else j.waitStep - 1 } ∧
        (∀ k, k < 16 → t.stack k = if j.g.toNat % 2 ^ 20 = 0 then { s.stack k with due := (s.stack k).due ++ [(job, j.g)] } else s.stack k) ∧
        (∀ k, o.key = some k → t.op? m = some { o with phase := if 16 ≤ o.tries then .fate else .response (.done [] [] false false), respAt := o.clock s } ∧
          ∃ e ∈ t.journal, e.owner = o.owner ∧ e.key = k))) ∧
    (x.due = [] → goes (.dredgePassBegin stack) s) ∧
    (∀ a b rest, x.due = (a, b) :: rest →
      ((x.busy = true ∨ earlierRed s a b = true) → goes (.dredgePassBegin stack) s) ∧
      (x.busy = false → earlierRed s a b = false → goes (.dredgePassBegin stack) (s.modStack stack (fun z => { z with busy := true, target := b, zeroed := 0 })))) ∧
    (x.busy = false → goes (.dredgePassEnd stack) s) ∧
    (x.busy = true → s.sectors = [] → ∃ t, goes (.dredgePassEnd stack) t ∧ (t.stack stack).busy = false ∧ (t.stack stack).doneAt = x.target ∧ (t.stack stack).due = x.due.tail ∧
      (t.stack stack).drgn = x.drgn ∧ ∀ a b rest, x.due = (a, b) :: rest →
        ∀ r off, r ∈ x.drgn → r.getLsbD 63 = true → off % 8 = 0 → off < 2 ^ 36 → bits r.toNat 0 20 * 65536 ≤ off → off < (bits r.toNat 0 20 + bits r.toNat 20 20) * 65536 →
          let loc := stack * 2 ^ 36 + off
          let v := slotOf (Memory.readN s.mem loc 8)
          loc < 2 ^ 60 → reserved loc = false → (s.line (loc / 128)).poison = false →
            slotOf (Memory.readN t.mem loc 8) = if 0 < (b - v.stamp).toInt then { v with value := (s.job a).reckon v.value v.stamp b v.cls, stamp := b } else v) ∧
    ((j.ckpt = 1 ∧ atBoundary s job = true ∧ j.waitStep = 0) → ∃ t, goes (.checkpoint job) t ∧ t.ckptReg = reg ||| 0x8000 ∧ (t.job job).ckpt = 2 ∧ t.mem = s.mem ∧
      ∀ d, d < 16 → ∃ q ∈ t.ops, q.kind = .engine ∧ q.u = none ∧ q.owner = .remote (s.ckptReg.toNat % 4096) ∧
        q.key.map (fun k => (k.job, k.node, k.unit, k.fibre)) = some (job, dispNode s d, 0xFFFFF, 1)) ∧
    (¬ (j.ckpt = 1 ∧ atBoundary s job = true ∧ j.waitStep = 0) → goes (.checkpoint job) s) ∧
    ((j.ckpt ≠ 2 ∨ ∃ q ∈ s.ops, q.copies job = true) → goes (.checkpointDone job) s) ∧
    (j.ckpt = 2 → (∀ q ∈ s.ops, q.copies job = false) → s.sectors = [] → ∃ k : Ckpt,
      goes (.checkpointDone job) (({ s with ckpts := s.ckpts ++ [k], ckptReg := reg } : State).modJob job (fun z => { z with ckpt := 0 })) ∧
      k.job = job ∧ k.g = j.g ∧ k.classes = j.classes ∧ k.open_ = j.open_ ∧ k.kctx = j.kctx ∧ k.tagmap = j.tagmap ∧ (∀ e, e ∈ k.journal ↔ e ∈ s.journal ∧ e.key.job = job) ∧
      (∀ q ∈ savedSectors s job, SMap.get 0 k.tags q = SMap.get 0 s.tags q) ∧
      (∀ q, q ∈ k.poison ↔ ∃ p ∈ savedLines s job, (s.line (p.1 / 128)).poison = true ∧ q = p.2 / 128) ∧
      (plain → ∀ p ∈ savedLines s job, ∀ i, i < 128 → Memory.read k.mem (p.2 + i) = Memory.read s.mem (p.2 + i))) ∧
    ((s.ckpts.filter (fun k => k.job == job)).getLast? = none ∨ jobRuns s job = true → goes (.restore job) s) ∧
    (∀ k, (s.ckpts.filter (fun k => k.job == job)).getLast? = some k → jobRuns s job = false → ∃ t, goes (.restore job) t ∧
      let z := t.job job
      z.g = k.g ∧ z.gOld = none ∧ z.gNew = [] ∧ z.classes = k.classes ∧ z.open_ = k.open_ ∧ z.kctx = k.kctx ∧ z.tagmap = k.tagmap ∧ z.root = j.root ∧
      (∀ e, e.key.job ≠ job → (e ∈ t.journal ↔ e ∈ s.journal)) ∧
      (∀ e ∈ k.journal, e.key.job = job → e.key.unit ≠ 0xFFFFF → ∃ q ∈ t.journal, q.owner = e.owner ∧ q.key = e.key ∧ q.word = e.word ∧ q.addr = e.addr ∧ q.data = e.data ∧ q.ret = e.ret) ∧
      (∀ q ∈ t.journal, q.key.job = job → q.key.unit = 0xFFFFF ∨ ∃ e ∈ k.journal, q.owner = e.owner ∧ q.key = e.key ∧ q.ret = e.ret) ∧
      (∀ q ∈ savedSectors s job, SMap.get 0 t.tags q = SMap.get 0 k.tags q) ∧
      (plain → ∀ p ∈ savedLines s job, (t.line (p.1 / 128)).poison = k.poison.contains (p.2 / 128) ∧
        ∀ i, i < 128 → Memory.read t.mem (p.2 + i) = Memory.read k.mem (p.2 + i))) ∧
    (s.cmd? m = some c →
      let ended := c.sent = true ∧ c.rung = true ∧ ∀ q ∈ s.ops, q.cmd = some m → q.phase = .answered
      let members := s.cmds.filter (fun d => d.kind == .coll && !d.sent && (s.unit d.u).cfg.job == (s.unit c.u).cfg.job && lGroup d.blk == lGroup c.blk && lChunk d.blk == lChunk c.blk)
      let clock := s.cyc c.core
      let turn := frameNext s c = true ∧ (s.node (s.unit c.u).cfg.node).doom = 0;
      (¬ ended → goes (.engineCommandComplete m) s) ∧
      (ended → ∃ M, goes (.engineCommandComplete m) { s with cmds := s.cmds.filter (fun d => d.id != m), mem := M } ∧ ((s.unit c.u).core.isSome = true → M = s.mem)) ∧
      (¬ turn → ∀ n, goes (.frameDecode m n) s) ∧
      (turn → let r := wordsNat ((c.block.drop 8).take 60)
        (recordOk r = false → ∀ n, goes (.frameDecode m n) (failCmd s m 0x10 8 c.pc)) ∧
        (∀ src tab, recordOk r = true → fetchSource s c .glob [(baseOf (bSrc c.blk), fSlen c.blk), (rB r 16 8, 1536)] = none →
          rangeBytes s c .glob (bSrc c.blk) (fSlen c.blk) = (s, .ok src) → rangeBytes s c .glob (rB r 16 8) 1536 = (s, .ok tab) →
          spanOf (granulesOf (spaceOf (bDst c.blk)) (frameExtent r (bDst c.blk))) ≤ 65534 →
          let bytes := src.map Prod.fst
          let past := slotPast s c
          let result := Config.frameResult (rB r 0 1) bytes past % 4
          let w : State := { s with slots := s.slots.filter (fun e => e.1 != slotKey c) ++ [(slotKey c, past ++ [bytes])] };
          (∀ n, n ≠ result → goes (.frameDecode m n) s) ∧
          (2 ≤ result → goes (.frameDecode m result) (resultPart w c result)) ∧
          (result < 2 → let bad := (src ++ tab).any Prod.snd || (c.block.drop 8).getD 60 0 != 0
            let rows := frameRows r (tab.map Prod.fst) (pictureOf (rB r 0 1) bytes past)
            let t := sendRows w c (bDst c.blk) .part (((frameExtent r (bDst c.blk)).map Prod.fst).zip (rows.map (fun l => l.map (fun y => (y, bad)))))
            goes (.frameDecode m result) (if (t.cmd? m).isNone then t else resultPart t c result)))) ∧
      (c.kind ≠ .coll → goes (.treeRebuild m) s) ∧
      (c.kind = .coll → c.sent = true → goes (.treeRebuild m)
        ({ s with ops := (s.ops.map (fun q => if q.cmd = some m ∧ q.phase = .lost then { q with phase := .request, tries := 0, sentAt := clock } else q)) })) ∧
      (c.kind = .coll → c.sent = false → (c.gate ≠ 0 ∨ c.fate = true ∨ clock < c.askedAt + collTimeout s c) → goes (.treeRebuild m) s) ∧
      (c.kind = .coll → c.sent = false → c.gate = 0 → c.fate = false → c.askedAt + collTimeout s c ≤ clock →
        let w := s.modCmd m (fun d => { d with tries := d.tries + 1, askedAt := clock });
        (c.tries + 1 < 32 → c.tries + 1 ≠ 16 → goes (.treeRebuild m) w) ∧
        (c.tries + 1 = 16 → ∃ t, goes (.treeRebuild m) t ∧ t.cmds = w.cmds ∧ ∀ d ∈ members, dieOf d.core ≠ dieOf c.core → ∃ q ∈ t.ops, q.kind = .engine ∧
          q.owner = .disp (dieOf d.core) ∧ q.key.map (fun k => (k.job, k.node, k.unit, k.fibre)) = some ((s.unit c.u).cfg.job, dispNode s (dieOf c.core), 0xFFFFF, 2)) ∧
        (31 ≤ c.tries → ∃ t, goes (.treeRebuild m) t ∧ ∀ d ∈ members, (t.cmd? d.id).map Cmd.fate = some true ∧
          (s.cmd? d.id = some d → d.fate = false → d.u < s.units.length → d.fibre < (s.unit d.u).fibs.length →
            ∃ p ∈ ((t.unit d.u).fib d.fibre).pending, p.id = d.id ∧ p.code = 0x53 ∧ p.cause = 0))))


-- the machine --------------------------------------------------------------------------------------------------------

/-- R34, R178, R245, R246, R259, R311: a step whose turn is a crew's runs the instruction that its chosen entry stands at. Where the clause is open, the word at the PC is fetched
without a fault and is no header, its reserved fields are zero, and it decodes, as it stands or as a pass over a loop body steps its fields, the step is the meaning of that instruction
there, and time passes. A step whose turn is an event of the opcode table is that event's meaning.
Where the spec is silent the model's own choice decides: log entries 1, 2. -/
def Obligations.StepRunsDecoded : Prop :=
  ∀ (s : State) (rest : List Input) (i : Instr) (u c e : Nat) (w : Word),
    let a : State := { s with now := s.now + s.pace, inputs := rest }
    let b := choose a u c
    let en := ((b.unit u).crew c).entry e
    let r := fetchReads b u en.handler en.pc
    let t : State := { r with cur := (u, c, e) };
    s.lost = [] →
    (s.inputs = .run u c :: rest → mayRun a u c = true → ((b.unit u).crew c).chosen = some e → en.started = true → en.stale = false → standing t = true →
      fetchWord r u en.handler en.pc = .ok w → isMarker w = false →
      ((bodyOf r u c en = false ∧ decodeWord w = .ok i) ∨
        (∃ q v, rawOf w = some q ∧ (q.res && q.i.resOk) = true ∧ stepped r u c en q.i w = some v ∧ decodeWord v = .ok i)) → step s = exec i t) ∧
    (s.inputs = .event i :: rest → encode i = none → step s = exec i a)

/-- R34, R245, R248, R259, R260, R376, Table 11-15: what a step does where a crew's entry cannot run. A word that cannot be fetched traps every lane of its entry with the fetch's
fault; a header where an instruction is due traps them ILLEGAL cause 6; a word that decodes to none traps the active lanes ILLEGAL with the cause of the first check that fails: an
opcode or a form unassigned, a reserved bit set, a register out of range (after its fields are stepped, in a loop body), an order or a value. At a clause start a word that is no header, or one whose flags are
12 to 14, traps them CLAUSE_HEADER; a good one, with no flag of its W set and no trap waiting for one, opens the clause at the next word.
Where the spec is silent the model's own choice decides: log entries 16, 17. -/
def Obligations.FetchTraps : Prop :=
  ∀ (s : State) (rest : List Input) (u c e : Nat),
    let a : State := { s with now := s.now + s.pace, inputs := rest }
    let b := choose a u c
    let en := ((b.unit u).crew c).entry e
    let r := fetchReads b u en.handler en.pc
    let act := activeLanes (r.unit u) c en
    let word := fetchWord r u en.handler en.pc
    let all := fun (z : Why) => step s = .next (parkEntry r u c e (trapAll en.mask en.pc z))
    let wrong := fun (cause : BitVec 4) (w : Word) => step s = .next (parkAndGo r u c e (trapAll act en.pc (0x10, cause)) (longWord w));
    s.lost = [] → s.inputs = .run u c :: rest → mayRun a u c = true → ((b.unit u).crew c).chosen = some e → en.stale = false →
    (en.started = true →
      (∀ z, word = .error z → all z) ∧
      (∀ w, word = .ok w →
        (w.extractLsb' 29 3 = 7 → all (0x10, 6)) ∧
        (w.extractLsb' 29 3 ≠ 7 →
          (rawOf w = none → wrong 0 w) ∧
          (∀ q, rawOf w = some q →
            ((q.res && q.i.resOk) = false → wrong 1 w) ∧
            ((q.res && q.i.resOk) = true →
              (stepped r u c en q.i w = none → wrong 2 w) ∧
              (∀ v z, stepped r u c en q.i w = some v → decodeWord v = .error z → wrong z.cause w)))))) ∧
    (en.started = false →
      (∀ z, word = .error z → all z) ∧
      (∀ w, word = .ok w →
        let flag := fun (k : Nat) => 12 ≤ bits w.toNat k 4 ∧ bits w.toNat k 4 ≤ 14
        let waits := (List.range 12).filter (fun k => w.getLsbD (17 + k));
        (w.extractLsb' 29 3 ≠ 7 → all (0x13, 0)) ∧
        (w.extractLsb' 29 3 = 7 → flag 13 → all (0x13, 1)) ∧
        (w.extractLsb' 29 3 = 7 → ¬ flag 13 → flag 9 → all (0x13, 2)) ∧
        (w.extractLsb' 29 3 = 7 → ¬ flag 13 → ¬ flag 9 →
          ((∃ k ∈ waits, flagDue r u c k = true) → step s = .next r) ∧
          ((∀ k ∈ waits, flagBusy r u c k = false) →
            (∀ l ∈ lanesOf en.mask, ∀ p ∈ ((r.unit u).fib (((r.unit u).crew c).fib l)).pending, ∀ k, p.flag = some k → k ∉ waits) →
            step s = .next (r.modEntry u c e (fun y => { y with started := true, idx := 0, llDone := false, hdr := w, stale := false
                                                                pc := y.pc.extractLsb' 32 32 ++ (y.pc.extractLsb' 0 32 + 4) }))))))

/-- Tables 11-2 to 11-14: words of several families decode to the instructions that they stand for. -/
def Obligations.DecodeWords : Prop :=
  decodeWord 0x38181064 = .ok (.addi 3 1 100) ∧ decodeWord 0x60014082 = .ok (.fadd .rne 5 1 2) ∧ decodeWord 0x61614082 = .ok (.fmul .rtz 5 1 2) ∧
  decodeWord 0x6D00C082 = .ok (.fcmp .lt 3 1 2) ∧ decodeWord 0x70024418 = .ok (.cvt .f32 .e4m3 false .rne 9 8) ∧
  decodeWord 0x9C00C120 = .ok (.stS .rlx 0 3 2 .w 0) ∧ decodeWord 0xB0010110 = .ok (.fenceX 4 2) ∧ decodeWord 0xB8018180 = .ok (.berOpen 6 3) ∧
  decodeWord 0xBC102800 = .ok (.mma 0 32 40 .bf16 .bf16 .f32) ∧ decodeWord 0xCC200400 = .ok (.sweep 0 0 8 0) ∧ decodeWord 0xD0400800 = .ok (.copy 16) ∧
  decodeWord 0x1C400000 = .ok (.wait 0) ∧ decodeWord 0x2028A000 = .ok (.rept 5 0 1 1 0 0 false) ∧ decodeWord 0xD8600000 = .ok .stepAdv

/-- R245 to R261: decoding and encoding agree. A well-formed instruction is what its word decodes to, and a word that decodes is the word of the
instruction it decodes to, which is well formed. -/
def Obligations.DecodeEncode : Prop :=
  (∀ i : Instr, i.wf = true → ∃ w, encode i = some w ∧ decodeWord w = .ok i) ∧
  ∀ (w : Word) (i : Instr), decodeWord w = .ok i → encode i = some w ∧ i.wf = true

/-- R74, R96, R108, R109, R221, R404, Tables 4-5, 4-6, 17-1 to 17-12: at reset nothing is mapped or running, every byte, tag and register reads zero but the fields that the tables
give another value, no job, unit or operation exists, and the forms that every step keeps hold. Memory reads zero and no card is accepted until the service processor reports ready.
Where the spec is silent the model's own choice decides: log entries 5, 6, 48. -/
def Obligations.ResetState : Prop :=
  let s := State.reset
  s.ready = false ∧ s.units = [] ∧ s.nodes = [] ∧ s.ops = [] ∧ s.cmds = [] ∧ s.journal = [] ∧ s.mchecks = [] ∧
  (∀ a, Memory.read s.mem a = 0) ∧ (∀ a, s.tag a = 0) ∧ (∀ k, s.line k = {}) ∧
  s.jobctl = 0 ∧ s.dcls = 0 ∧ s.tlbinv = 1 ∧ s.ckptReg = 0 ∧ s.bmclr = 0x8000000000000000 ∧
  (∀ j, (s.job j).g = 0 ∧ (s.job j).root = 0 ∧ (s.job j).kctx = 0 ∧ (s.job j).autostep = false ∧ ∀ c, (s.job j).beta c = 0x3F800000) ∧
  (∀ d, (s.die d).hcap = 180 ∧ (s.die d).held = []) ∧
  (∀ k n, n < 16 → ((s.stack k).drgn.getD n 0) = 0 ∧ (s.stack k).busy = false ∧ (s.stack k).doneAt = 0) ∧
  s.MemOk ∧ s.P0

/-- R404 and the model's form of memory: every step of the machine answers a next state, and keeps memory in its canonical form.
Where the spec is silent the model's own choice decides: log entries 1, 5, 47. -/
def Obligations.StepKeepsMemory : Prop :=
  ∀ s : State, ∃ t, step s = .next t ∧ (s.MemOk → t.MemOk)

/-- R57, R172, R250: p0 reads true: every step keeps bit 0 of the predicate word of each fibre, in a lane or in the basin.
Where the spec is silent the model's own choice decides: log entry 1. -/
def Obligations.StepKeepsP0 : Prop :=
  ∀ s t : State, s.P0 → step s = .next t → t.P0

/-- R246, R247, R257, R259, R346, R159, Tables 11-15, 13-7: what stands before every instruction's own effect. An entry that waits, or whose operands a command or a sweep is still to write, changes
nothing; an entry with no active lane goes on; and the first check of the table that fails, in its order, traps every active lane at the instruction; in a loop body, the stepped scale registers of CVT.S come before them.
Where the spec is silent the model's own choice decides: log entries 17, 31. -/
def Obligations.ChecksTrap : Prop :=
  ∀ (s : State) (i : Instr), (encode i).isSome = true → standing s = true →
    let x := s.ctx
    let last : Bool := x.ent.idx == hdrN x.ent.hdr
    let loop := (s.unit x.u).loop
    let checks : List (Bool × Why) := [
      (match i with | .cvtS _ _ _ _ _ sc _ => decide (127 < scaleReg s x sc + 1) | _ => false, (0x10, 2)),
      ((match i with | .rept .. => !last | _ => false) || (inBody s x && bodyForbidden i), (0x10, 7)),
      (isTransfer i && !last, (0x10, 4)),
      (match i with | .rept .. => !loop | .strm .. => loop | .strmOff .. => loop | _ => false, (0x10, 5)),
      (!i.comboOk, (0x11, 0)), (privFails i x.ent.handler (s.jobctl.getLsbD 33), (0x12, 0)),
      (needsEngine i && (s.core (s.here.core.getD 0)).engine != some x.u, (0x41, 0)), (detForbidden i && s.here.cfg.det, (0x31, 0))];
    (waiting s x = true → exec i s = .next s) ∧
    (waiting s x = false → x.act = 0 → exec i s = .next (finish x i [] s)) ∧
    (waiting s x = false → x.act ≠ 0 → ∀ z, checks.find? Prod.fst = some z → exec i s = .next (finish x i (trapAll x.act x.ent.pc z.2) s)) ∧
    (waiting s x = false → x.act ≠ 0 → checks.find? Prod.fst = none → scoreboard s x i = true → exec i s = .next s)

/-- R8, R13, R19, R28 to R32, R76, R86, R157, R158, Table 1-6: the checks of a lane's access, in their order: alignment, canonical form, the walk, kind and permission, the tag. A write
that only its home can refuse, to a berth or a staged page, passes. The trap reports the address, the lane's registers and memory stay, and the lanes leave together. In a deterministic launch the race check of each sector follows: a write against any earlier access of
another party in its interval, a read against a write or a reduction, a reduction against all but its like, and the lane that completes the conflict traps DET_RACE.
Where the spec is silent the model's own choice decides: log entries 21, 23, 30, 45, 61. -/
def Obligations.AddressChecks : Prop :=
  (∀ (s : State) (u : Nat) (h : Bool) (ac : Acc) (va : BitVec 64) (align named : Nat),
    let y := s.unit u
    let chk := checkLane s u h ac va align named;
    (va.toNat % align ≠ 0 → chk = .error (0x23, 0)) ∧
    (va.toNat % align = 0 → bits va.toNat 56 4 ≠ 0 → chk = .error (0x20, 0)) ∧
    (va.toNat % align = 0 → ∀ w, translate s y.core y.cfg.job y.xroot va = .error w → chk = .error w) ∧
    (va.toNat % align = 0 → ∀ l, translate s y.core y.cfg.job y.xroot va = .ok l →
      (∀ c, permCause l.ent ac h = some c → chk = .error (0x21, c)) ∧
      (permCause l.ent ac h = none → backing s (some y.cfg.node) (y.berth s) va.toNat l ac named = none →
        let home := 1 - (s.line (l.place 0 / 128)).c.toNat
        (ac = .berth → chk = .ok ⟨l, 0, l.place 0⟩) ∧
        (ac ≠ .berth → entKind l.ent ≠ 2 → entStaged l.ent = true → ac.writes = true → chk = .ok ⟨l, home, l.place home⟩) ∧
        (ac ≠ .berth → ¬ (entKind l.ent ≠ 2 ∧ entStaged l.ent = true ∧ ac.writes = true) → chk = .error (0x21, 4))) ∧
      (∀ b, permCause l.ent ac h = none → backing s (some y.cfg.node) (y.berth s) va.toNat l ac named = some b →
        (entKind l.ent ≠ 3 → ac ≠ .fetch → ac ≠ .tagSet → ac ≠ .tagGet → s.coreTag y.core (l.place b) ≠ va.extractLsb' 60 4 → chk = .error (0x22, 0)) ∧
        ((entKind l.ent = 3 ∨ s.coreTag y.core (l.place b) = va.extractLsb' 60 4) → chk = .ok ⟨l, b, l.place b⟩)))) ∧
  (∀ (m : Memory) (tbl va fuel : Nat), fuel < 4 →
    let e := BitVec.ofNat 64 (Memory.nat m (tbl + 8 * (va / 2 ^ (16 + 10 * fuel) % 1024)) 8)
    (e.getLsbD 0 = false → walk m tbl va (fuel + 1) = .error 1) ∧
    (e.getLsbD 0 = true → malformed e (3 - fuel) = true → walk m tbl va (fuel + 1) = .error 2) ∧
    (e.getLsbD 0 = true → malformed e (3 - fuel) = false → e.getLsbD 1 = true → walk m tbl va (fuel + 1) = .ok ⟨e, 2 ^ (16 + 10 * fuel), va % 2 ^ (16 + 10 * fuel)⟩) ∧
    (e.getLsbD 0 = true → malformed e (3 - fuel) = false → e.getLsbD 1 = false → walk m tbl va (fuel + 1) = walk m (e.toNat / 2 ^ 16 * 4096) va fuel)) ∧
  (∀ (sc : BitVec 3) (d a : VReg) (o7 : BitVec 7) (s : State) (i : Instr) (w : Nat → Why),
    let va := fun (l : Nat) => (s.opnd l (a.toNat + 1) ++ s.opnd l a.toNat) + BitVec.ofInt 64 (4 * o7.toInt)
    let acc := if i = .ldW .rlx sc d a o7 then Acc.ld else .st
    let rk := if i = .ldW .rlx sc d a o7 then RKind.rd else .wr;
    (i, ()) ∈ ([(.ldW .rlx sc d a o7, ()), (.stW .rlx sc d a o7, ())] : List (Instr × Unit)) → Ready i s → i.wf = true → s.sectors = [] →
    ((∀ l, s.acts l → (Target.glob (va l)).check s s.ctx acc 4 4 0 = .error (w l)) →
      exec i s = .next (finish s.ctx i ((lanesOf s.ctx.act).map (fun l => ⟨l, (w l).1, (w l).2, va l⟩)) (s.used i))) ∧
    (∀ l k cause, lanesOf s.ctx.act = [l] → (Target.glob (va l)).check s s.ctx acc 4 4 0 = .ok k → (k.race s s.ctx 4 rk).1 = some cause →
      exec i s = .next (finish s.ctx i [⟨l, 0x30, cause, va l⟩] (s.used i)))) ∧
  (∀ (sh : Shadow) (p : Party) (k : RKind) (shares : Party → Bool),
    let other := fun (q : Party) => shares q = true ∧ (q.unit ≠ p.unit ∨ q.crew ≠ p.crew)
    let wrote := ∃ q ∈ sh.writers, other q
    let had := ∃ q ∈ sh.readers, other q
    let red := fun (ok : Nat → Prop) => ∃ d ∈ sh.reducers, other d.1 ∧ ok d.2
    let r := raceSector sh p k shares;
    (r.1 = some 0 ↔ k = .wr ∧ (wrote ∨ had ∨ red (fun _ => True))) ∧
    (r.1 = some 1 ↔ k = .rd ∧ (wrote ∨ red (fun _ => True))) ∧
    (r.1 = some 2 ↔ ∃ t, k = .red t ∧ (wrote ∨ had ∨ red (fun u => u ≠ t))) ∧
    (r.1 ≠ none → r.2 = sh) ∧
    (r.1 = none → r.2.sector = sh.sector ∧ (k = .wr → p ∈ r.2.writers) ∧ (k = .rd → p ∈ r.2.readers) ∧ (∀ t, k = .red t → (p, t) ∈ r.2.reducers) ∧
      ∀ q, (q.unit ≠ p.unit ∨ q.crew ≠ p.crew) → (q ∈ r.2.writers ↔ q ∈ sh.writers) ∧ (q ∈ r.2.readers ↔ q ∈ sh.readers) ∧ ∀ t, (q, t) ∈ r.2.reducers ↔ (q, t) ∈ sh.reducers))


-- streams, serial mode, and what engines move ------------------------------------------------------------------------

/-- R314, R315, R316, Table 13-10: a read of a bound stream register. The address is the pair at the head of the descriptor. A lane whose read fails parks at the instruction, and nothing of it is
changed; a read that R141 holds stalls; a poisoned line is consumed. Otherwise the element is what the instruction reads, zero-extended, the walk goes on by the dimension that continues, or begins
anew, and p12 to p15 say which dimensions have ended.
Where the spec is silent the model's own choice decides: log entries 11, 30. -/
def Obligations.StreamReads : Prop :=
  (∀ (y : UnitSt) (c l : Nat) (t : Strm), t.dims.toNat < 3 → l < 32 →
    let b := y.wb c l + t.dr.toNat
    let reg := fun (j : Nat) => y.reg c l (b + j)
    let ix := fun (d : Nat) => (reg (2 + 2 * d)).toNat / 65536
    let n := fun (d : Nat) => max 1 ((reg (2 + 2 * d)).toNat % 65536)
    let D := t.dims.toNat + 1
    let last := fun (d : Nat) => d < D ∧ n d ≤ ix d + 1
    let goes := if ¬ last 0 then 0 else if 2 ≤ D ∧ ¬ last 1 then 1 else if D = 3 ∧ ¬ last 2 then 2 else 3
    let z := (strmStep y c l t).1;
    z.reg c l (b + 1) ++ z.reg c l b = (reg 1 ++ reg 0) + (reg (3 + 2 * (if goes < 3 then goes else D - 1))).signExtend 64 ∧
    (∀ d, d < 3 → z.reg c l (b + 2 + 2 * d) =
      BitVec.ofNat 32 ((if d < goes then 0 else if d = goes then ix d + 1 else ix d) % 65536 * 65536 + (reg (2 + 2 * d)).toNat % 65536)) ∧
    (∀ k r m, m < 32 → (rowReg k r ≠ rowReg c b ∧ rowReg k r ≠ rowReg c (b + 1) ∧ (∀ d, d < 3 → rowReg k r ≠ rowReg c (b + 2 + 2 * d)) ∨ m ≠ l) → z.reg k m r = y.reg k m r) ∧
    (strmStep y c l t).2 = [decide (last 0), decide (last 0 ∧ last 1), decide (last 0 ∧ last 1 ∧ last 2), decide (last 0 ∧ (D < 2 ∨ last 1) ∧ (D < 3 ∨ last 2))]) ∧
  (∀ (s : State) (l k : Nat) (d v b : VReg),
    let y := s.here
    let c := s.ctx.c
    let t := s.crewHere.streams.getD k {}
    let i : Instr := .iadd d v b
    let at_ := y.wb c l + t.dr.toNat
    let va := y.reg c l (at_ + 1) ++ y.reg c l at_
    let n := match t.esz.toNat with | 0 => 4 | 1 => 2 | _ => 1;
    standing s = true → waiting s s.ctx = false → lanesOf s.ctx.act = [l] → dynCheck s s.ctx i = none → scoreboard s s.ctx i = false →
    y.Reads (readRows s s.ctx i) → y.HoldsAll (walkRows s s.ctx i ++ destRows s s.ctx i) → streamsOf s s.ctx i = [k] → v.toNat = 124 + k → k < 4 → s.sectors = [] →
    (∀ w, checkLane s s.ctx.u s.ctx.ent.handler .ld va n 0 = .error w → exec i s = .next (finish s.ctx i [⟨l, w.1, w.2, va⟩] (s.used i))) ∧
    (∀ g, checkLane s s.ctx.u s.ctx.ent.handler .ld va n 0 = .ok g → reserved g.loc = false →
      let busy := mustWait s s.ctx.u c (ownerOf g.loc) (some g.leaf) g.loc n
      (busy = true → exec i s = .next (s.used i)) ∧
      (busy = false → s.poisonedAt g.loc n = true → exec i s = .next ((s.used i).modNode y.cfg.node (fun z => { z with doom := if z.doom = 0 then 1 else z.doom }))) ∧
      (busy = false → s.poisonedAt g.loc n = false → ∀ cause, (raceGlobal s s.ctx.u c g.leaf g.loc n .rd).1 = some cause →
        exec i s = .next (finish s.ctx i [⟨l, 0x30, cause, va⟩] (s.used i))) ∧
      (busy = false → s.poisonedAt g.loc n = false → (y.cfg.det = false ∨ entChecked g.leaf.ent = false) →
        let z := (strmStep y c l t).1
        let p := (strmStep y c l t).2
        let elem : Word := BitVec.ofNat 32 (leNat (Memory.readN s.mem g.loc n))
        ∃ q, exec i s = .next (finish s.ctx i [] q) ∧ q.mem = s.mem ∧ q.ops = s.ops ∧
          q.here.regs = SMap.set 0 z.regs (regKey c (y.wb c l + d.toNat) l) (elem + (if b.toNat = 124 + k then elem else z.reg c l (y.wb c l + b.toNat))) ∧
          ∀ (f : Fibre), y.fibs[s.fibOf l]? = some f → q.here.fibs[s.fibOf l]? = some { f with
            seen := (f.seen ++ writersOf s (g.loc / 128)).eraseDups
            pred := ([12, 13, 14, 15].zip p).foldl (fun w e => if e.2 then w ||| BitVec.twoPow 16 e.1 else w &&& ~~~(BitVec.twoPow 16 e.1)) f.pred })))

/-- R184, R189 to R192, R377, R379, Table 8-4: serial mode. A table that has overflowed becomes a lane table. The crew runs its lowest lane that is runnable, or parked with a handler that it can run,
which it then enters. At a WAIT the running lane waits, and where all lanes of the mask wait there they go on; a lane that traps parks, held where no handler can run it. Serial mode ends when
its lanes stand together, out of handler mode, the held ones at no more than seven addresses.
Where the spec is silent the model's own choice decides: log entry 18. -/
def Obligations.SerialMode : Prop :=
  (∀ x : Crew, (x.split.length ≤ 8 → settle x = x) ∧
    (8 < x.split.length → (settle x).serial = true ∧ (settle x).chosen = none ∧ (settle x).masks = x.masks ∧ (settle x).loops = x.loops ∧ (settle x).lanes = x.lanes ∧
      (∀ e, ((settle x).entry e).status = .empty) ∧
      ∀ l, l < 32 → (∀ e, x.split.find? (fun e => e.status != .empty && e.mask.getLsbD l) = some e →
          let w := (settle x).tab.getD l {}
          w.pc = e.pc ∧ w.handler = e.handler ∧ (w.lst = .runnable ↔ e.status = .runnable) ∧ (w.lst = .waiting ↔ e.status = .waiting) ∧ (w.lst = .parked ↔ e.status = .parked) ∧
          (e.status = .waiting → w.waitOn = e.waitOn) ∧ (e.status = .parked → w.held = !e.toHandler)) ∧
        (x.split.find? (fun e => e.status != .empty && e.mask.getLsbD l) = none → (settle x).tab.getD l {} = {}))) ∧
  (∀ (s : State) (u c l : Nat), u < s.units.length → c < (s.unit u).crews.length →
    let x := (s.unit u).crew c
    let can := fun (k : Nat) => (x.tab.getD k {}).lst = .runnable ∨ ((x.tab.getD k {}).lst = .parked ∧ (x.tab.getD k {}).held = false)
    let w := x.tab.getD l {}
    let z := ((choose s u c).unit u).crew c
    x.serial = true → x.chosen = none → x.tab.length = 32 →
    ((∀ k, k < 32 → ¬ can k) → choose s u c = s) ∧
    (l < 32 → can l → (∀ k, k < l → ¬ can k) → z.slane = l ∧ z.chosen = some 0 ∧ (z.entry 0).mask = BitVec.twoPow 32 l ∧ (z.entry 0).status = .runnable ∧
      (∀ k, k ≠ l → z.tab.getD k {} = x.tab.getD k {}) ∧
      (w.lst = .runnable → (z.entry 0).pc = w.pc ∧ (z.entry 0).handler = w.handler) ∧
      (w.lst = .parked → (z.entry 0).pc = (s.unit u).cfg.handler ∧ (z.entry 0).handler = true ∧ (z.entry 0).started = false ∧
        (c < 32 → (s.unit u).Holds (rowReg c 1023) → ((choose s u c).unit u).reg c l 1023 = w.pc.extractLsb' 0 32)))) ∧
  (∀ (s : State) (m : Nib), Ready (.wait m) s → s.crewHere.serial = true → m.toNat < 12 → s.crewHere.loops = [] → s.crewHere.tab.length = 32 → s.crewHere.slane < 32 →
    let x := s.crewHere
    let y : Crew := { x with tab := x.tab.set x.slane { pc := s.ctx.ent.pc, lst := .waiting, handler := s.ctx.ent.handler, waitOn := m }, split := List.replicate 8 {}, chosen := none }
    let at_ := fun (p : Addr) => (List.range 32).filter (fun l => let w := y.tab.getD l {}; w.lst == .waiting && w.waitOn == m && w.pc == p)
    let z : Crew := { y with
      masks := y.masks.set m.toNat 0
      tab := y.tab.mapIdx (fun l w => if l ∈ at_ s.ctx.ent.pc then { w with lst := .runnable, pc := w.pc.extractLsb' 32 32 ++ (w.pc.extractLsb' 0 32 + 4), waitOn := 0 } else w) };
    ((∀ p, x.masks.getD m.toNat 0 &&& ~~~(maskOf (at_ p)) ≠ 0) → serialOver y s.here.loop = false → ∃ t, exec (.wait m) s = .next t ∧
      t.crewHere = { y with tryAt := none, miss := [] } ∧ t.here.regs = s.here.regs ∧ t.mem = s.mem) ∧
    (x.masks.getD m.toNat 0 &&& ~~~(maskOf (at_ s.ctx.ent.pc)) = 0 → (∀ l w, x.tab[l]? = some w → l ≠ x.slane → w.lst = .waiting → w.waitOn = m → w.pc = s.ctx.ent.pc) →
      serialOver z s.here.loop = false → ∃ t, exec (.wait m) s = .next t ∧ t.crewHere = { z with tryAt := none, miss := [] } ∧ t.here.regs = s.here.regs ∧ t.mem = s.mem)) ∧
  (∀ (i : Instr) (w : Why) (fa : Addr) (s : State) (l : Nat), standing s = true → s.crewHere.serial = true → s.ctx.act ≠ 0 →
    let x := s.crewHere
    let runs := s.ctx.ent.handler = false ∧ s.here.cfg.handler ≠ 0 ∧ w.1 ∉ ([0x50, 0x51, 0x52, 0x60] : List (BitVec 8))
    let y : Crew := { x with tab := x.tab.set x.slane { pc := s.ctx.ent.pc, lst := .parked, handler := s.ctx.ent.handler, held := !decide runs }, split := List.replicate 8 {}, chosen := none, tryAt := none, miss := [] }
    let t := finish s.ctx i [⟨l, w.1, w.2, fa⟩] s
    serialOver y s.here.loop = false → t.crewHere = y ∧ t.here.regs = s.here.regs ∧ t.mem = s.mem ∧
      t.hostLog = s.hostLog ++ (if runs then [] else [.trap s.here.cfg.job (s.node s.here.cfg.node).id s.here.cfg.uidx s.ctx.c (BitVec.twoPow 32 l) w.1 w.2 fa])) ∧
  (∀ (s : State) (u c : Nat), u < s.units.length → c < (s.unit u).crews.length →
    let x := (s.unit u).crew c
    let word := x.word
    let held := fun (k : Nat) => (word k).lst = .parked ∧ (word k).held = true
    let ls := (List.range 32).filter (fun k => decide ((word k).lst ≠ .gone ∧ ¬ held k))
    let pcs := ((((List.range 32).filter (fun k => decide (held k))).map (fun k => (word k).pc.toNat)).eraseDups).mergeSort (· ≤ ·)
    let w := word (ls.headD 0)
    let over_ := ls ≠ [] ∧ pcs.length ≤ 7 ∧ ∀ k ∈ ls, (word k).pc = w.pc ∧ (word k).lst = w.lst ∧ (word k).waitOn = w.waitOn ∧ (word k).handler = false ∧
      ((s.unit u).loop = true → SMap.get 0 x.loops k = SMap.get 0 x.loops (ls.headD 0))
    let z := ((leaveSerial s u c).unit u).crew c;
    (¬ (x.serial = true ∧ over_) → leaveSerial s u c = s) ∧
    (x.serial = true → over_ → z.serial = false ∧ z.chosen = none ∧ z.tab = [] ∧ z.split.length = 8 ∧ (z.entry 0).mask = maskOf ls ∧
      (w.lst = .runnable → (z.entry 0).status = .runnable ∧ (z.entry 0).pc = w.pc ∧ (z.entry 0).handler = false) ∧
      (w.lst = .waiting → (z.entry 0).status = .waiting ∧ (z.entry 0).pc = w.pc ∧ (z.entry 0).waitOn = w.waitOn) ∧
      (w.lst = .parked → (z.entry 0).status = .runnable ∧ (z.entry 0).pc = (s.unit u).cfg.handler ∧ (z.entry 0).handler = true) ∧
      ∀ j, j < 7 → (∀ p, pcs[j]? = some p → (z.entry (j + 1)).status = .parked ∧ (z.entry (j + 1)).pc.toNat = p ∧
          (z.entry (j + 1)).mask = maskOf ((List.range 32).filter (fun k => decide (held k ∧ (word k).pc.toNat = p)))) ∧
        (pcs[j]? = none → (z.entry (j + 1)).status = .empty)))

/-- R33, R37, R66, R72, R339, R341, R343, R344: what COPY and GATHER move. Row r comes from SRC + r × SSTR, or from SRC + index × LEN, and goes to DST + r × DSTR; addresses wrap at their
space. An engine that has a turn sends one granule of the destination, as one part under the command's key and the granule's PART, with the bytes that the rows write into it, the
last of the rows that write one; where every part is out, the command waits for their answers. A register gather fills its registers at once, or consumes poison. When all is written,
each receiver gets the arrival with the bytes it counts.
Where the spec is silent the model's own choice decides: log entry 36. -/
def Obligations.EngineMoves : Prop :=
  (∀ (s : State) (m : Nat) (rest : List Input), s.lost = [] → s.inputs = .engine m :: rest →
    step s = .next (engineTurn { s with now := s.now + s.pace, inputs := rest } m)) ∧
  (∀ (b r : Nat) (idx : Nat → Nat),
    let sstr : Word := BitVec.ofNat 32 (b / 2 ^ 160)
    let dstr : Word := BitVec.ofNat 32 (b / 2 ^ 192)
    let len := b / 2 ^ 128 % 2 ^ 20;
    (spaceOf (bSrc b) = .glob → srcRow false b idx r = (BitVec.ofNat 64 b + BitVec.ofNat 64 r * sstr.signExtend 64).toNat ∧
      srcRow true b idx r = (BitVec.ofNat 64 b + BitVec.ofNat 64 (idx r * len)).toNat) ∧
    (spaceOf (bSrc b) = .scr ∨ spaceOf (bSrc b) = .gang → srcRow false b idx r = (BitVec.ofNat 32 b + BitVec.ofNat 32 r * sstr).toNat ∧
      srcRow true b idx r = (BitVec.ofNat 32 b + BitVec.ofNat 32 (idx r * len)).toNat) ∧
    (spaceOf (bDst b) = .glob → dstRow b r = (BitVec.ofNat 64 (b / 2 ^ 64) + BitVec.ofNat 64 r * dstr.signExtend 64).toNat) ∧
    (spaceOf (bDst b) = .scr ∨ spaceOf (bDst b) = .gang → dstRow b r = (BitVec.ofNat 32 (b / 2 ^ 64) + BitVec.ofNat 32 r * dstr).toNat)) ∧
  (∀ (p : Space) (g a : Nat) (rows : List (Nat × List (Byte × Bool))),
    let all := rows.flatMap (fun e => ((List.range e.2.length).zip e.2).map (fun y => (p.wrap ((e.1 + y.1 : Nat) : Int), y.2)));
    SMap.get 0 (granuleCells p g rows) a = if a / 4096 = g then
      (match all.reverse.find? (fun e => e.1 == a) with | some e => 1 + e.2.1.toNat + 256 * e.2.2.toNat | none => 0) else 0) ∧
  (∀ (s : State) (m : Cmd) (addr n : Nat),
    ((s.unit m.u).Reads (scrRows addr n) → addr + n ≤ 2 ^ 21 →
      rangeBytes s m .scr addr n = (s, .ok ((Memory.readN (s.unit m.u).scr addr n).map (fun x => (x, false))))) ∧
    (∀ ps, srcPieces s m addr n = .ok ps → s.sectors = [] → (∀ p ∈ ps, p.apart = false ∧ reserved p.loc = false) →
      rangeBytes s m .glob addr n = (s, .ok (ps.flatMap (fun p => (Memory.readN s.mem p.loc p.n).map (fun x => (x, s.poisonedAt p.loc p.n))))))) ∧
  (∀ (s : State) (k : Nat) (m : Cmd) (d : Nat → List (Byte × Bool)), s.cmd? k = some m → (s.node (s.unit m.u).cfg.node).doom = 0 → m.gate = 0 → m.sent = false →
    m.kind = .copy ∨ m.kind = .gather →
    let b := m.blk
    let p := spaceOf (bDst b)
    let gs := granulesOf p (copyRows b)
    let parts := (if p = .gang then 1 else m.recv.length) * gs.length
    let reads := fun (rs : List Nat) => fetchSource s m (spaceOf (bSrc b)) (rs.map m.srcRange) = none ∧
      ∀ r ∈ rs, rangeBytes s m (spaceOf (bSrc b)) (m.srcRange r).1 (m.srcRange r).2 = (s, .ok (d r));
    (p ≠ .regs → parts ≤ m.next → engineTurn s k = s.modCmd k (fun c => { c with sent := true })) ∧
    (p ≠ .regs → m.next < parts →
      let g := gs.getD (m.next % gs.length) 0
      let v := if p = .gang then (gangUnit s m.u (granuleMember g)).getD m.u else m.recv.getD (m.next / gs.length) 0
      let hit := (List.range (bRows b)).filter (fun r => (granulesOf p [(dstRow b r, rowOut b)]).contains g)
      let cells := granuleCells p g (hit.map (fun r => (dstRow b r, convRow b (d r))))
      let part := (if bMcm b = 0 then 0 else 4096 * (s.unit v).cfg.gidx) + (g - gs.headD 0)
      ∀ e ∈ cells.head?, reads hit →
        let sends := fun (ok : Op → Prop) => ∃ o, engineTurn s k = { s.modCmd k (fun c => { c with next := c.next + 1 }) with ops := s.ops ++ [o], nextId := s.nextId + 1 } ∧
          ok o ∧ o.id = s.nextId ∧ o.kind = .part ∧ o.u = some m.u ∧ o.key = some { m.key with part := part } ∧ o.word = m.word ∧ o.va = BitVec.ofNat 64 e.1 ∧ o.cmd = some k ∧
          o.phase = .request ∧ ∀ i x, (i, x) ∈ o.cells ↔ SMap.get 0 cells (e.1 + i) ≠ 0 ∧ x = BitVec.ofNat 8 (SMap.get 0 cells (e.1 + i) - 1);
        (p ≠ .glob → sends (fun o => o.owner = .pool v ∧ o.loc = e.1 % 2 ^ 21)) ∧
        (p = .glob → (∀ c, cmdCheck s m.u m.berth m.priv .dst (BitVec.ofNat 64 e.1) = .ok c →
            sends (fun o => o.leaf = some c.leaf ∧ o.loc = c.loc ∧ o.owner = ownerOf c.loc)) ∧
          (∀ w, cmdCheck s m.u m.berth m.priv .dst (BitVec.ofNat 64 e.1) = .error w →
            engineTurn s k = failCmd (s.modCmd k (fun c => { c with next := c.next + 1 })) k w.1 w.2 (BitVec.ofNat 64 e.1)))) ∧
    (p = .regs → reads (List.range (bRows b)) →
      let bs := (List.range (bRows b)).flatMap (fun r => convRow b (d r))
      (bs.any Prod.snd = true → engineTurn s k = s.modNode (s.unit m.u).cfg.node (fun z => { z with doom := if z.doom = 0 then 1 else z.doom })) ∧
      (bs.any Prod.snd = false → m.u < s.units.length → m.lane < 32 → m.crew < 32 → m.dst.Nodup → (∀ r ∈ m.dst, r < 1024 ∧ (s.unit m.u).Holds (rowReg m.crew r)) →
        let t := engineTurn s k
        (∃ R W, t = ((s.modUnit m.u (fun y => { y with regs := R, rows := W })).modCmd k (fun c => { c with sent := true }))) ∧
        (∀ j r, m.dst[j]? = some r → (t.unit m.u).reg m.crew m.lane r = BitVec.ofNat 32 (leNat (((bs.map Prod.fst).drop (4 * j)).take 4))) ∧
        ∀ c l r, l < 32 → c < 32 → r < 1024 → ¬ (c = m.crew ∧ l = m.lane ∧ r ∈ m.dst) → (t.unit m.u).reg c l r = (s.unit m.u).reg c l r))) ∧
  (∀ (s : State) (k : Nat) (m : Cmd), s.cmd? k = some m → (s.node (s.unit m.u).cfg.node).doom = 0 → m.gate = 0 → m.sent = true → m.rung = false →
    ((∃ o ∈ s.ops, o.cmd = some k ∧ o.phase ≠ .answered) → engineTurn s k = s) ∧
    ((∀ o ∈ s.ops, o.cmd = some k → o.phase = .answered) → trailCmd s m = none →
      let w := s.modCmd k (fun c => { c with rung := true })
      (m.baren = false → engineTurn s k = w) ∧
      (m.baren = true → ∃ new, engineTurn s k = { w with ops := s.ops ++ new, nextId := s.nextId + m.recv.length } ∧ new.length = m.recv.length ∧
        ∀ j v, m.recv[j]? = some v → ∃ o, new[j]? = some o ∧ o.id = s.nextId + j ∧ o.kind = .arrive (m.count s v) ∧ o.u = some m.u ∧ o.key = some { m.key with part := 0xFFFF } ∧
          o.owner = .pool v ∧ o.loc = m.bar ∧ o.cmd = some k)))

/-- R371, R372, R373, R402, R403: what COLL sums and FRAME writes. A COLL waits until all ranks have come; the sum is taken element by element in the order of ranks, widened from BF16 and rounded
back to it; each member that writes sends the sum to its destination, and the others are done. A FRAME's picture is cropped, its edges are repeated, each channel is resized in two passes or
taken as it is, and its samples stand where R403 puts them.
Where the spec is silent the model's own choice decides: log entries 15, 37. -/
def Obligations.CollectiveFrames : Prop :=
  (∀ (a : Member) (rest : List Member) (i : Nat), rest ≠ [] → 0 < i →
    let w := if a.ty = 0 then 4 else 2
    let sum := collSum (a :: rest)
    let s := rest.foldl (fun v k => addF v (k.elem (i - 1))) (a.elem (i - 1))
    i ≤ a.len / w →
    sum.length = a.len / w * w ∧
    leNat (((sum.drop (w * (i - 1))).take w).map Prod.fst) = (if a.ty = 0 then s.toNat else (toFloatFmt fBF16 .rne true (f32 s)).1 % 2 ^ 16) ∧
    (∀ e ∈ (sum.drop (w * (i - 1))).take w, e.2 = (a :: rest).any (fun k => ((k.data.drop (w * (i - 1))).take w).any Prod.snd))) ∧
  (∀ (s : State) (k : Nat) (m : Cmd), s.cmd? k = some m → (s.node (s.unit m.u).cfg.node).doom = 0 → m.gate = 0 → m.sent = false → m.kind = .coll →
    let job := (s.unit m.u).cfg.job
    let words := members s job (lGroup m.blk)
    let comes := fun (r w : Nat) => contribution s job (lGroup m.blk) (lChunk m.blk) r w;
    ((∃ r w, words[r]? = some w ∧ contributed s job (lGroup m.blk) (lChunk m.blk) r w = false) → engineTurn s k = s) ∧
    (∀ ms : List Member, ms.length = words.length → (∀ r w, words[r]? = some w → contributed s job (lGroup m.blk) (lChunk m.blk) r w = true ∧ comes r w = (s, ms[r]?)) →
      collSource s m ((List.range words.length).zip words) = none →
      (∀ x ∈ ms, ∀ y ∈ ms, x.len = y.len ∧ x.ty = y.ty ∧ x.mode = y.mode) →
      (∀ x ∈ ms, ∀ c, x.cmd = some c → trailCmd s c = none ∧ spaceOf (bDst c.blk) = .scr ∧ baseOf (bDst c.blk) + (collSum ms).length ≤ 2 ^ 21) →
      let t := engineTurn s k
      t.mem = s.mem ∧ t.units = s.units ∧ ∀ x ∈ ms, ∀ c, x.cmd = some c → (∀ d, t.cmd? c.id = some d → d.sent = true) ∧
        (lMode c.blk = 0 ∨ x.rank = 0 → ∀ i y, (collSum ms)[i]? = some (y, false) → ∃ o ∈ t.ops, o.kind = .collAdd (lTy c.blk) ∧ o.owner = .pool c.u ∧ o.cmd = some c.id ∧
          ∃ j, (j, y) ∈ o.cells ∧ o.loc + j = baseOf (bDst c.blk) + i))) ∧
  (∀ (r : Nat) (tab : List Byte) (p : Picture) (c y x : Nat), rResize r = false →
    let half := fun (n : Nat) => if c = 0 then n else n / 2
    let w : Int := if c = 0 then p.w else ((p.w + 1) / 2 : Nat)
    let h : Int := if c = 0 then p.h else ((p.h + 1) / 2 : Nat)
    let row : Int := half (rB r 6 2) + half y
    let col : Int := half (rB r 4 2) + half x
    (row < h → col < w → channelAt r tab p c y x = p.at_ c row col) ∧ (h ≤ row → 1 ≤ h → col < w → channelAt r tab p c y x = p.at_ c (h - 1) col) ∧
    (row < h → w ≤ col → 1 ≤ w → channelAt r tab p c y x = p.at_ c row (w - 1))) ∧
  (∀ (coef : Nat → Nat → Int) (nin nout depth : Nat) (f : Int → Nat) (x : Nat),
    let step := nin * 2 ^ 16 / nout
    let i : Int := ((((2 * x + 1) * step : Nat) : Int) - 2 ^ 16) / 2 ^ 17
    let ph : Nat := (((((2 * x + 1) * step : Nat) : Int) - 2 ^ 16) / 2 % 2 ^ 16 / 2 ^ 10).toNat
    let acc : Int := coef ph 0 * f (i - 1) + coef ph 1 * f i + coef ph 2 * f (i + 1) + coef ph 3 * f (i + 2)
    resizeAt coef 4 nin nout depth f x = (max 0 (min ((acc + 2 ^ 13) / 2 ^ 14) (2 ^ depth - 1))).toNat) ∧
  (∀ (r dst c y : Nat), c < 3 → y < rB r 14 2 →
    let p := spaceOf dst
    let o := rB r 1 1
    let at_ := fun (off : Int) => (p.wrap ((baseOf dst : Int) + ((c * rB r 28 4 : Nat) : Int) + off));
    (o < 2 → (frameExtent r dst)[c * rB r 14 2 + y]? = some (at_ ((y : Int) * (BitVec.ofNat 32 (rB r 24 4)).toInt), if o = 0 then 2 * rB r 12 2 else rB r 12 2)) ∧
    (2 ≤ o → ∀ b, b < rB r 12 2 / 128 → let size := 16 * (pfmtPlanes (if o = 2 then .bf16 else .e4m3)).count
      (frameExtent r dst)[(c * rB r 14 2 + y) * (rB r 12 2 / 128) + b]? = some (at_ (((y * (rB r 12 2 / 128) + b) * size : Nat) : Int), size)))
end

