-- ==== Sys2Proof/Laws/Maps.lean ====
section
/-! SUPPORT. Laws of sparse maps and memory: what a read after a write gives, and that every write keeps the canonical form. -/

namespace Sys2Proof.Machine

variable {α : Type}

theorem SMap.get_put (d : α) (m : SMap α) (k j : Nat) (v : α) :
    SMap.get d (SMap.put m k v) j = if k = j then v else SMap.get d m j := by
  induction m with
  | nil => simp [SMap.put, SMap.get]
  | cons e r ih =>
    obtain ⟨i, x⟩ := e
    simp only [SMap.put]
    split
    · simp [SMap.get]
    · split
      · rename_i h h'; subst h'; simp only [SMap.get]; split <;> simp_all
      · simp only [SMap.get, ih]; split <;> simp_all

theorem SMap.get_del (d : α) (m : SMap α) (k j : Nat) :
    SMap.get d (SMap.del m k) j = if k = j then d else SMap.get d m j := by
  induction m with
  | nil => simp [SMap.del, SMap.get]
  | cons e r ih =>
    obtain ⟨i, x⟩ := e
    simp only [SMap.del, List.filter_cons] at ih ⊢
    by_cases h : i = k
    · subst h
      by_cases h' : i = j
      · subst h'; simpa using ih
      · simp_all [SMap.get]
    · by_cases h' : i = j
      · subst h'; simp [SMap.get, h, Ne.symm h]
      · simp [SMap.get, h, h', ih]

/-- A read after a write. -/
theorem SMap.get_set [DecidableEq α] (d : α) (m : SMap α) (k j : Nat) (v : α) :
    SMap.get d (SMap.set d m k v) j = if k = j then v else SMap.get d m j := by
  unfold SMap.set
  split
  · rename_i h; subst h; exact SMap.get_del ..
  · exact SMap.get_put ..

@[simp] theorem SMap.get_set_same [DecidableEq α] (d : α) (m : SMap α) (k : Nat) (v : α) :
    SMap.get d (SMap.set d m k v) k = v := by simp [SMap.get_set]

theorem SMap.get_set_ne [DecidableEq α] (d : α) (m : SMap α) {k j : Nat} (v : α) (h : k ≠ j) :
    SMap.get d (SMap.set d m k v) j = SMap.get d m j := by simp [SMap.get_set, h]

theorem SMap.get_upd [DecidableEq α] (d : α) (m : SMap α) (k j : Nat) (f : α → α) :
    SMap.get d (SMap.upd d m k f) j = if k = j then f (SMap.get d m k) else SMap.get d m j := SMap.get_set ..

@[simp] theorem SMap.get_nil (d : α) (k : Nat) : SMap.get d [] k = d := rfl

-- the canonical form -------------------------------------------------------------------------------------------------

theorem SMap.mem_put (m : SMap α) (k : Nat) (v : α) (e : Nat × α) (h : e ∈ SMap.put m k v) : e = (k, v) ∨ e ∈ m := by
  induction m with
  | nil => simpa [SMap.put] using h
  | cons a r ih =>
    obtain ⟨i, x⟩ := a
    simp only [SMap.put] at h
    split at h
    · simpa using h
    · split at h
      · rcases List.mem_cons.1 h with h | h
        · exact .inl h
        · exact .inr (List.mem_cons_of_mem _ h)
      · rcases List.mem_cons.1 h with h | h
        · exact .inr (h ▸ List.mem_cons_self)
        · rcases ih h with h | h
          · exact .inl h
          · exact .inr (List.mem_cons_of_mem _ h)

theorem SMap.wf_put [DecidableEq α] {d : α} {m : SMap α} (k : Nat) {v : α} (hv : v ≠ d) (h : SMap.wf d m) :
    SMap.wf d (SMap.put m k v) := by
  refine ⟨?_, fun e he => (SMap.mem_put m k v e he).elim (fun h' => h' ▸ hv) (h.2 e)⟩
  have hs := h.1
  clear h
  induction m with
  | nil => simp [SMap.put]
  | cons a r ih =>
    obtain ⟨i, x⟩ := a
    rw [List.pairwise_cons] at hs
    simp only [SMap.put]
    split
    · rename_i hk
      refine List.pairwise_cons.2 ⟨fun e he => ?_, List.pairwise_cons.2 hs⟩
      rcases List.mem_cons.1 he with he | he
      · exact he ▸ hk
      · exact Nat.lt_trans hk (hs.1 e he)
    · split
      · rename_i _ hk
        subst hk
        exact List.pairwise_cons.2 hs
      · rename_i hk hk'
        refine List.pairwise_cons.2 ⟨fun e he => ?_, ih hs.2⟩
        rcases SMap.mem_put r k v e he with he | he
        · subst he; show i < k; omega
        · exact hs.1 e he

theorem SMap.wf_del [DecidableEq α] {d : α} {m : SMap α} (k : Nat) (h : SMap.wf d m) : SMap.wf d (SMap.del m k) :=
  ⟨h.1.filter _, fun e he => h.2 e (List.mem_of_mem_filter he)⟩

/-- A write keeps the canonical form. -/
theorem SMap.wf_set [DecidableEq α] {d : α} {m : SMap α} (k : Nat) (v : α) (h : SMap.wf d m) : SMap.wf d (SMap.set d m k v) := by
  unfold SMap.set
  split
  · exact SMap.wf_del k h
  · exact SMap.wf_put k ‹_› h

theorem SMap.wf_nil [DecidableEq α] (d : α) : SMap.wf d ([] : SMap α) := ⟨List.Pairwise.nil, by simp⟩

-- memory -------------------------------------------------------------------------------------------------------------

theorem Memory.wf_write {m : Memory} (a : Nat) (b : Byte) (h : Memory.wf m) : Memory.wf (Memory.write m a b) := SMap.wf_set a b h

theorem Memory.wf_writeN {m : Memory} (a : Nat) (bs : List Byte) (h : Memory.wf m) : Memory.wf (Memory.writeN m a bs) := by
  induction bs generalizing m a with
  | nil => exact h
  | cons b bs ih => exact ih (a + 1) (Memory.wf_write a b h)

theorem Memory.read_write (m : Memory) (a c : Nat) (b : Byte) :
    Memory.read (Memory.write m a b) c = if a = c then b else Memory.read m c := SMap.get_set ..

theorem Memory.read_writeN (m : Memory) (a c : Nat) (bs : List Byte) :
    Memory.read (Memory.writeN m a bs) c = if a ≤ c ∧ c < a + bs.length then bs.getD (c - a) 0 else Memory.read m c := by
  induction bs generalizing m a with
  | nil => simp only [Memory.writeN, List.length_nil]; split <;> first | omega | rfl
  | cons b bs ih =>
    rw [Memory.writeN, ih, Memory.read_write]
    simp only [List.length_cons]
    by_cases h : a = c
    · subst h; simp
    · by_cases h' : a + 1 ≤ c ∧ c < a + 1 + bs.length
      · rw [if_pos h', if_pos (by omega), show c - a = (c - (a + 1)) + 1 by omega, List.getD_cons_succ]
      · rw [if_neg h', if_neg h, if_neg (by omega)]

theorem Memory.length_readN (m : Memory) (a n : Nat) : (Memory.readN m a n).length = n := by
  induction n generalizing a with
  | zero => rfl
  | succ n ih => simp [Memory.readN, ih]

/-- What has been written is read back. -/
theorem Memory.readN_writeN (m : Memory) (a : Nat) (bs : List Byte) :
    Memory.readN (Memory.writeN m a bs) a bs.length = bs := by
  have key : ∀ (k : Nat) (cs : List Byte), (∀ i, i < cs.length → bs[k + i]? = cs[i]?) → k + cs.length ≤ bs.length →
      Memory.readN (Memory.writeN m a bs) (a + k) cs.length = cs := by
    intro k cs
    induction cs generalizing k with
    | nil => intros; rfl
    | cons c cs ih =>
      intro h hl
      simp only [List.length_cons] at hl
      have h0 := h 0 (by simp)
      have hr : Memory.read (Memory.writeN m a bs) (a + k) = c := by
        rw [Memory.read_writeN, if_pos (by omega), show a + k - a = k by omega, List.getD_eq_getElem?_getD]
        simp only [Nat.add_zero, List.getElem?_cons_zero] at h0
        rw [h0]; rfl
      simp only [List.length_cons, Memory.readN, hr]
      rw [Nat.add_assoc, ih (k + 1) (fun i hi => by have := h (i + 1) (by simp; omega); simpa [Nat.add_assoc, Nat.add_comm 1] using this) (by omega)]
  have := key 0 bs (fun i _ => by simp) (by omega)
  simpa using this

/-- Bytes of a number, put together again. -/
theorem leNat_leBytes (x n : Nat) : leNat (leBytes x n) = x % 256 ^ n := by
  induction n generalizing x with
  | zero => simp [leBytes, leNat, Nat.mod_one]
  | succ n ih =>
    rw [leBytes, leNat, ih, show (BitVec.ofNat 8 x).toNat = x % 256 from BitVec.toNat_ofNat .., Nat.pow_succ', Nat.mod_mul]

theorem length_leBytes (x n : Nat) : (leBytes x n).length = n := by
  induction n generalizing x with
  | zero => rfl
  | succ n ih => simp [leBytes, ih]

-- lanes --------------------------------------------------------------------------------------------------------------

theorem mem_lanesOf {m : BitVec 32} {l : Nat} : l ∈ lanesOf m ↔ l < 32 ∧ m.getLsbD l = true := by
  simp [lanesOf]

theorem lanesOf_nodup (m : BitVec 32) : (lanesOf m).Nodup := List.nodup_range.filter _

theorem lanesOf_ne_nil {m : BitVec 32} (h : m ≠ 0) : lanesOf m ≠ [] := by
  intro he
  apply h
  apply BitVec.eq_of_getLsbD_eq
  intro i hi
  by_contra hb
  have : i ∈ lanesOf m := mem_lanesOf.2 ⟨hi, by simpa using hb⟩
  simp [he] at this

theorem getLsbD_maskOf (ls : List Nat) (i : Nat) (hi : i < 32) : (maskOf ls).getLsbD i = decide (i ∈ ls) := by
  suffices h : ∀ m : BitVec 32, (ls.foldl (fun m l => m ||| BitVec.twoPow 32 l) m).getLsbD i = (m.getLsbD i || decide (i ∈ ls)) by
    simpa [maskOf] using h 0
  induction ls with
  | nil => simp
  | cons a r ih =>
    intro m
    simp only [List.foldl_cons, ih, BitVec.getLsbD_or, BitVec.getLsbD_twoPow, List.mem_cons]
    by_cases h : a = i
    · simp [h, hi]
    · simp [h, Ne.symm h]

end Sys2Proof.Machine
end

