-- ==== Sys2Proof/Laws/State.lean ====
section
/-! SUPPORT. What each named update leaves of each field (the record lemmas of State and UnitSt), and what the parts read after one. -/

namespace Sys2Proof.Machine

-- State.modUnit ----------------------------------------------------------------------------------------------------
@[simp] theorem State.modUnit_inputs (s : State) (u : Nat) (f : UnitSt → UnitSt) : (s.modUnit u f).inputs = s.inputs := rfl
@[simp] theorem State.modUnit_pace (s : State) (u : Nat) (f : UnitSt → UnitSt) : (s.modUnit u f).pace = s.pace := rfl
@[simp] theorem State.modUnit_now (s : State) (u : Nat) (f : UnitSt → UnitSt) : (s.modUnit u f).now = s.now := rfl
@[simp] theorem State.modUnit_fresh (s : State) (u : Nat) (f : UnitSt → UnitSt) : (s.modUnit u f).fresh = s.fresh := rfl
@[simp] theorem State.modUnit_nextId (s : State) (u : Nat) (f : UnitSt → UnitSt) : (s.modUnit u f).nextId = s.nextId := rfl
@[simp] theorem State.modUnit_cur (s : State) (u : Nat) (f : UnitSt → UnitSt) : (s.modUnit u f).cur = s.cur := rfl
@[simp] theorem State.modUnit_mem (s : State) (u : Nat) (f : UnitSt → UnitSt) : (s.modUnit u f).mem = s.mem := rfl
@[simp] theorem State.modUnit_tags (s : State) (u : Nat) (f : UnitSt → UnitSt) : (s.modUnit u f).tags = s.tags := rfl
@[simp] theorem State.modUnit_lines (s : State) (u : Nat) (f : UnitSt → UnitSt) : (s.modUnit u f).lines = s.lines := rfl
@[simp] theorem State.modUnit_sectors (s : State) (u : Nat) (f : UnitSt → UnitSt) : (s.modUnit u f).sectors = s.sectors := rfl
@[simp] theorem State.modUnit_journal (s : State) (u : Nat) (f : UnitSt → UnitSt) : (s.modUnit u f).journal = s.journal := rfl
@[simp] theorem State.modUnit_lost (s : State) (u : Nat) (f : UnitSt → UnitSt) : (s.modUnit u f).lost = s.lost := rfl
@[simp] theorem State.modUnit_restarting (s : State) (u : Nat) (f : UnitSt → UnitSt) : (s.modUnit u f).restarting = s.restarting := rfl
@[simp] theorem State.modUnit_drains (s : State) (u : Nat) (f : UnitSt → UnitSt) : (s.modUnit u f).drains = s.drains := rfl
@[simp] theorem State.modUnit_jobs (s : State) (u : Nat) (f : UnitSt → UnitSt) : (s.modUnit u f).jobs = s.jobs := rfl
@[simp] theorem State.modUnit_nodes (s : State) (u : Nat) (f : UnitSt → UnitSt) : (s.modUnit u f).nodes = s.nodes := rfl
@[simp] theorem State.modUnit_cores (s : State) (u : Nat) (f : UnitSt → UnitSt) : (s.modUnit u f).cores = s.cores := rfl
@[simp] theorem State.modUnit_dies (s : State) (u : Nat) (f : UnitSt → UnitSt) : (s.modUnit u f).dies = s.dies := rfl
@[simp] theorem State.modUnit_stks (s : State) (u : Nat) (f : UnitSt → UnitSt) : (s.modUnit u f).stks = s.stks := rfl
@[simp] theorem State.modUnit_ops (s : State) (u : Nat) (f : UnitSt → UnitSt) : (s.modUnit u f).ops = s.ops := rfl
@[simp] theorem State.modUnit_cmds (s : State) (u : Nat) (f : UnitSt → UnitSt) : (s.modUnit u f).cmds = s.cmds := rfl
@[simp] theorem State.modUnit_gifts (s : State) (u : Nat) (f : UnitSt → UnitSt) : (s.modUnit u f).gifts = s.gifts := rfl
@[simp] theorem State.modUnit_slots (s : State) (u : Nat) (f : UnitSt → UnitSt) : (s.modUnit u f).slots = s.slots := rfl
@[simp] theorem State.modUnit_found (s : State) (u : Nat) (f : UnitSt → UnitSt) : (s.modUnit u f).found = s.found := rfl
@[simp] theorem State.modUnit_ready (s : State) (u : Nat) (f : UnitSt → UnitSt) : (s.modUnit u f).ready = s.ready := rfl
@[simp] theorem State.modUnit_telemetry (s : State) (u : Nat) (f : UnitSt → UnitSt) : (s.modUnit u f).telemetry = s.telemetry := rfl
@[simp] theorem State.modUnit_ports (s : State) (u : Nat) (f : UnitSt → UnitSt) : (s.modUnit u f).ports = s.ports := rfl
@[simp] theorem State.modUnit_devId (s : State) (u : Nat) (f : UnitSt → UnitSt) : (s.modUnit u f).devId = s.devId := rfl
@[simp] theorem State.modUnit_chart (s : State) (u : Nat) (f : UnitSt → UnitSt) : (s.modUnit u f).chart = s.chart := rfl
@[simp] theorem State.modUnit_jobctl (s : State) (u : Nat) (f : UnitSt → UnitSt) : (s.modUnit u f).jobctl = s.jobctl := rfl
@[simp] theorem State.modUnit_dcls (s : State) (u : Nat) (f : UnitSt → UnitSt) : (s.modUnit u f).dcls = s.dcls := rfl
@[simp] theorem State.modUnit_tlbinv (s : State) (u : Nat) (f : UnitSt → UnitSt) : (s.modUnit u f).tlbinv = s.tlbinv := rfl
@[simp] theorem State.modUnit_tlbinvJob (s : State) (u : Nat) (f : UnitSt → UnitSt) : (s.modUnit u f).tlbinvJob = s.tlbinvJob := rfl
@[simp] theorem State.modUnit_ckptReg (s : State) (u : Nat) (f : UnitSt → UnitSt) : (s.modUnit u f).ckptReg = s.ckptReg := rfl
@[simp] theorem State.modUnit_bmclr (s : State) (u : Nat) (f : UnitSt → UnitSt) : (s.modUnit u f).bmclr = s.bmclr := rfl
@[simp] theorem State.modUnit_mchecks (s : State) (u : Nat) (f : UnitSt → UnitSt) : (s.modUnit u f).mchecks = s.mchecks := rfl
@[simp] theorem State.modUnit_bound (s : State) (u : Nat) (f : UnitSt → UnitSt) : (s.modUnit u f).bound = s.bound := rfl
@[simp] theorem State.modUnit_hostLog (s : State) (u : Nat) (f : UnitSt → UnitSt) : (s.modUnit u f).hostLog = s.hostLog := rfl
@[simp] theorem State.modUnit_ckpts (s : State) (u : Nat) (f : UnitSt → UnitSt) : (s.modUnit u f).ckpts = s.ckpts := rfl

-- State.modCrew ----------------------------------------------------------------------------------------------------
@[simp] theorem State.modCrew_inputs (s : State) (u c : Nat) (f : Crew → Crew) : (s.modCrew u c f).inputs = s.inputs := rfl
@[simp] theorem State.modCrew_pace (s : State) (u c : Nat) (f : Crew → Crew) : (s.modCrew u c f).pace = s.pace := rfl
@[simp] theorem State.modCrew_now (s : State) (u c : Nat) (f : Crew → Crew) : (s.modCrew u c f).now = s.now := rfl
@[simp] theorem State.modCrew_fresh (s : State) (u c : Nat) (f : Crew → Crew) : (s.modCrew u c f).fresh = s.fresh := rfl
@[simp] theorem State.modCrew_nextId (s : State) (u c : Nat) (f : Crew → Crew) : (s.modCrew u c f).nextId = s.nextId := rfl
@[simp] theorem State.modCrew_cur (s : State) (u c : Nat) (f : Crew → Crew) : (s.modCrew u c f).cur = s.cur := rfl
@[simp] theorem State.modCrew_mem (s : State) (u c : Nat) (f : Crew → Crew) : (s.modCrew u c f).mem = s.mem := rfl
@[simp] theorem State.modCrew_tags (s : State) (u c : Nat) (f : Crew → Crew) : (s.modCrew u c f).tags = s.tags := rfl
@[simp] theorem State.modCrew_lines (s : State) (u c : Nat) (f : Crew → Crew) : (s.modCrew u c f).lines = s.lines := rfl
@[simp] theorem State.modCrew_sectors (s : State) (u c : Nat) (f : Crew → Crew) : (s.modCrew u c f).sectors = s.sectors := rfl
@[simp] theorem State.modCrew_journal (s : State) (u c : Nat) (f : Crew → Crew) : (s.modCrew u c f).journal = s.journal := rfl
@[simp] theorem State.modCrew_lost (s : State) (u c : Nat) (f : Crew → Crew) : (s.modCrew u c f).lost = s.lost := rfl
@[simp] theorem State.modCrew_restarting (s : State) (u c : Nat) (f : Crew → Crew) : (s.modCrew u c f).restarting = s.restarting := rfl
@[simp] theorem State.modCrew_drains (s : State) (u c : Nat) (f : Crew → Crew) : (s.modCrew u c f).drains = s.drains := rfl
@[simp] theorem State.modCrew_jobs (s : State) (u c : Nat) (f : Crew → Crew) : (s.modCrew u c f).jobs = s.jobs := rfl
@[simp] theorem State.modCrew_nodes (s : State) (u c : Nat) (f : Crew → Crew) : (s.modCrew u c f).nodes = s.nodes := rfl
@[simp] theorem State.modCrew_cores (s : State) (u c : Nat) (f : Crew → Crew) : (s.modCrew u c f).cores = s.cores := rfl
@[simp] theorem State.modCrew_dies (s : State) (u c : Nat) (f : Crew → Crew) : (s.modCrew u c f).dies = s.dies := rfl
@[simp] theorem State.modCrew_stks (s : State) (u c : Nat) (f : Crew → Crew) : (s.modCrew u c f).stks = s.stks := rfl
@[simp] theorem State.modCrew_ops (s : State) (u c : Nat) (f : Crew → Crew) : (s.modCrew u c f).ops = s.ops := rfl
@[simp] theorem State.modCrew_cmds (s : State) (u c : Nat) (f : Crew → Crew) : (s.modCrew u c f).cmds = s.cmds := rfl
@[simp] theorem State.modCrew_gifts (s : State) (u c : Nat) (f : Crew → Crew) : (s.modCrew u c f).gifts = s.gifts := rfl
@[simp] theorem State.modCrew_slots (s : State) (u c : Nat) (f : Crew → Crew) : (s.modCrew u c f).slots = s.slots := rfl
@[simp] theorem State.modCrew_found (s : State) (u c : Nat) (f : Crew → Crew) : (s.modCrew u c f).found = s.found := rfl
@[simp] theorem State.modCrew_ready (s : State) (u c : Nat) (f : Crew → Crew) : (s.modCrew u c f).ready = s.ready := rfl
@[simp] theorem State.modCrew_telemetry (s : State) (u c : Nat) (f : Crew → Crew) : (s.modCrew u c f).telemetry = s.telemetry := rfl
@[simp] theorem State.modCrew_ports (s : State) (u c : Nat) (f : Crew → Crew) : (s.modCrew u c f).ports = s.ports := rfl
@[simp] theorem State.modCrew_devId (s : State) (u c : Nat) (f : Crew → Crew) : (s.modCrew u c f).devId = s.devId := rfl
@[simp] theorem State.modCrew_chart (s : State) (u c : Nat) (f : Crew → Crew) : (s.modCrew u c f).chart = s.chart := rfl
@[simp] theorem State.modCrew_jobctl (s : State) (u c : Nat) (f : Crew → Crew) : (s.modCrew u c f).jobctl = s.jobctl := rfl
@[simp] theorem State.modCrew_dcls (s : State) (u c : Nat) (f : Crew → Crew) : (s.modCrew u c f).dcls = s.dcls := rfl
@[simp] theorem State.modCrew_tlbinv (s : State) (u c : Nat) (f : Crew → Crew) : (s.modCrew u c f).tlbinv = s.tlbinv := rfl
@[simp] theorem State.modCrew_tlbinvJob (s : State) (u c : Nat) (f : Crew → Crew) : (s.modCrew u c f).tlbinvJob = s.tlbinvJob := rfl
@[simp] theorem State.modCrew_ckptReg (s : State) (u c : Nat) (f : Crew → Crew) : (s.modCrew u c f).ckptReg = s.ckptReg := rfl
@[simp] theorem State.modCrew_bmclr (s : State) (u c : Nat) (f : Crew → Crew) : (s.modCrew u c f).bmclr = s.bmclr := rfl
@[simp] theorem State.modCrew_mchecks (s : State) (u c : Nat) (f : Crew → Crew) : (s.modCrew u c f).mchecks = s.mchecks := rfl
@[simp] theorem State.modCrew_bound (s : State) (u c : Nat) (f : Crew → Crew) : (s.modCrew u c f).bound = s.bound := rfl
@[simp] theorem State.modCrew_hostLog (s : State) (u c : Nat) (f : Crew → Crew) : (s.modCrew u c f).hostLog = s.hostLog := rfl
@[simp] theorem State.modCrew_ckpts (s : State) (u c : Nat) (f : Crew → Crew) : (s.modCrew u c f).ckpts = s.ckpts := rfl

-- State.modEntry ---------------------------------------------------------------------------------------------------
@[simp] theorem State.modEntry_inputs (s : State) (u c e : Nat) (f : Entry → Entry) : (s.modEntry u c e f).inputs = s.inputs := rfl
@[simp] theorem State.modEntry_pace (s : State) (u c e : Nat) (f : Entry → Entry) : (s.modEntry u c e f).pace = s.pace := rfl
@[simp] theorem State.modEntry_now (s : State) (u c e : Nat) (f : Entry → Entry) : (s.modEntry u c e f).now = s.now := rfl
@[simp] theorem State.modEntry_fresh (s : State) (u c e : Nat) (f : Entry → Entry) : (s.modEntry u c e f).fresh = s.fresh := rfl
@[simp] theorem State.modEntry_nextId (s : State) (u c e : Nat) (f : Entry → Entry) : (s.modEntry u c e f).nextId = s.nextId := rfl
@[simp] theorem State.modEntry_cur (s : State) (u c e : Nat) (f : Entry → Entry) : (s.modEntry u c e f).cur = s.cur := rfl
@[simp] theorem State.modEntry_mem (s : State) (u c e : Nat) (f : Entry → Entry) : (s.modEntry u c e f).mem = s.mem := rfl
@[simp] theorem State.modEntry_tags (s : State) (u c e : Nat) (f : Entry → Entry) : (s.modEntry u c e f).tags = s.tags := rfl
@[simp] theorem State.modEntry_lines (s : State) (u c e : Nat) (f : Entry → Entry) : (s.modEntry u c e f).lines = s.lines := rfl
@[simp] theorem State.modEntry_sectors (s : State) (u c e : Nat) (f : Entry → Entry) : (s.modEntry u c e f).sectors = s.sectors := rfl
@[simp] theorem State.modEntry_journal (s : State) (u c e : Nat) (f : Entry → Entry) : (s.modEntry u c e f).journal = s.journal := rfl
@[simp] theorem State.modEntry_lost (s : State) (u c e : Nat) (f : Entry → Entry) : (s.modEntry u c e f).lost = s.lost := rfl
@[simp] theorem State.modEntry_restarting (s : State) (u c e : Nat) (f : Entry → Entry) : (s.modEntry u c e f).restarting = s.restarting := rfl
@[simp] theorem State.modEntry_drains (s : State) (u c e : Nat) (f : Entry → Entry) : (s.modEntry u c e f).drains = s.drains := rfl
@[simp] theorem State.modEntry_jobs (s : State) (u c e : Nat) (f : Entry → Entry) : (s.modEntry u c e f).jobs = s.jobs := rfl
@[simp] theorem State.modEntry_nodes (s : State) (u c e : Nat) (f : Entry → Entry) : (s.modEntry u c e f).nodes = s.nodes := rfl
@[simp] theorem State.modEntry_cores (s : State) (u c e : Nat) (f : Entry → Entry) : (s.modEntry u c e f).cores = s.cores := rfl
@[simp] theorem State.modEntry_dies (s : State) (u c e : Nat) (f : Entry → Entry) : (s.modEntry u c e f).dies = s.dies := rfl
@[simp] theorem State.modEntry_stks (s : State) (u c e : Nat) (f : Entry → Entry) : (s.modEntry u c e f).stks = s.stks := rfl
@[simp] theorem State.modEntry_ops (s : State) (u c e : Nat) (f : Entry → Entry) : (s.modEntry u c e f).ops = s.ops := rfl
@[simp] theorem State.modEntry_cmds (s : State) (u c e : Nat) (f : Entry → Entry) : (s.modEntry u c e f).cmds = s.cmds := rfl
@[simp] theorem State.modEntry_gifts (s : State) (u c e : Nat) (f : Entry → Entry) : (s.modEntry u c e f).gifts = s.gifts := rfl
@[simp] theorem State.modEntry_slots (s : State) (u c e : Nat) (f : Entry → Entry) : (s.modEntry u c e f).slots = s.slots := rfl
@[simp] theorem State.modEntry_found (s : State) (u c e : Nat) (f : Entry → Entry) : (s.modEntry u c e f).found = s.found := rfl
@[simp] theorem State.modEntry_ready (s : State) (u c e : Nat) (f : Entry → Entry) : (s.modEntry u c e f).ready = s.ready := rfl
@[simp] theorem State.modEntry_telemetry (s : State) (u c e : Nat) (f : Entry → Entry) : (s.modEntry u c e f).telemetry = s.telemetry := rfl
@[simp] theorem State.modEntry_ports (s : State) (u c e : Nat) (f : Entry → Entry) : (s.modEntry u c e f).ports = s.ports := rfl
@[simp] theorem State.modEntry_devId (s : State) (u c e : Nat) (f : Entry → Entry) : (s.modEntry u c e f).devId = s.devId := rfl
@[simp] theorem State.modEntry_chart (s : State) (u c e : Nat) (f : Entry → Entry) : (s.modEntry u c e f).chart = s.chart := rfl
@[simp] theorem State.modEntry_jobctl (s : State) (u c e : Nat) (f : Entry → Entry) : (s.modEntry u c e f).jobctl = s.jobctl := rfl
@[simp] theorem State.modEntry_dcls (s : State) (u c e : Nat) (f : Entry → Entry) : (s.modEntry u c e f).dcls = s.dcls := rfl
@[simp] theorem State.modEntry_tlbinv (s : State) (u c e : Nat) (f : Entry → Entry) : (s.modEntry u c e f).tlbinv = s.tlbinv := rfl
@[simp] theorem State.modEntry_tlbinvJob (s : State) (u c e : Nat) (f : Entry → Entry) : (s.modEntry u c e f).tlbinvJob = s.tlbinvJob := rfl
@[simp] theorem State.modEntry_ckptReg (s : State) (u c e : Nat) (f : Entry → Entry) : (s.modEntry u c e f).ckptReg = s.ckptReg := rfl
@[simp] theorem State.modEntry_bmclr (s : State) (u c e : Nat) (f : Entry → Entry) : (s.modEntry u c e f).bmclr = s.bmclr := rfl
@[simp] theorem State.modEntry_mchecks (s : State) (u c e : Nat) (f : Entry → Entry) : (s.modEntry u c e f).mchecks = s.mchecks := rfl
@[simp] theorem State.modEntry_bound (s : State) (u c e : Nat) (f : Entry → Entry) : (s.modEntry u c e f).bound = s.bound := rfl
@[simp] theorem State.modEntry_hostLog (s : State) (u c e : Nat) (f : Entry → Entry) : (s.modEntry u c e f).hostLog = s.hostLog := rfl
@[simp] theorem State.modEntry_ckpts (s : State) (u c e : Nat) (f : Entry → Entry) : (s.modEntry u c e f).ckpts = s.ckpts := rfl

-- State.modFib -----------------------------------------------------------------------------------------------------
@[simp] theorem State.modFib_inputs (s : State) (u k : Nat) (f : Fibre → Fibre) : (s.modFib u k f).inputs = s.inputs := rfl
@[simp] theorem State.modFib_pace (s : State) (u k : Nat) (f : Fibre → Fibre) : (s.modFib u k f).pace = s.pace := rfl
@[simp] theorem State.modFib_now (s : State) (u k : Nat) (f : Fibre → Fibre) : (s.modFib u k f).now = s.now := rfl
@[simp] theorem State.modFib_fresh (s : State) (u k : Nat) (f : Fibre → Fibre) : (s.modFib u k f).fresh = s.fresh := rfl
@[simp] theorem State.modFib_nextId (s : State) (u k : Nat) (f : Fibre → Fibre) : (s.modFib u k f).nextId = s.nextId := rfl
@[simp] theorem State.modFib_cur (s : State) (u k : Nat) (f : Fibre → Fibre) : (s.modFib u k f).cur = s.cur := rfl
@[simp] theorem State.modFib_mem (s : State) (u k : Nat) (f : Fibre → Fibre) : (s.modFib u k f).mem = s.mem := rfl
@[simp] theorem State.modFib_tags (s : State) (u k : Nat) (f : Fibre → Fibre) : (s.modFib u k f).tags = s.tags := rfl
@[simp] theorem State.modFib_lines (s : State) (u k : Nat) (f : Fibre → Fibre) : (s.modFib u k f).lines = s.lines := rfl
@[simp] theorem State.modFib_sectors (s : State) (u k : Nat) (f : Fibre → Fibre) : (s.modFib u k f).sectors = s.sectors := rfl
@[simp] theorem State.modFib_journal (s : State) (u k : Nat) (f : Fibre → Fibre) : (s.modFib u k f).journal = s.journal := rfl
@[simp] theorem State.modFib_lost (s : State) (u k : Nat) (f : Fibre → Fibre) : (s.modFib u k f).lost = s.lost := rfl
@[simp] theorem State.modFib_restarting (s : State) (u k : Nat) (f : Fibre → Fibre) : (s.modFib u k f).restarting = s.restarting := rfl
@[simp] theorem State.modFib_drains (s : State) (u k : Nat) (f : Fibre → Fibre) : (s.modFib u k f).drains = s.drains := rfl
@[simp] theorem State.modFib_jobs (s : State) (u k : Nat) (f : Fibre → Fibre) : (s.modFib u k f).jobs = s.jobs := rfl
@[simp] theorem State.modFib_nodes (s : State) (u k : Nat) (f : Fibre → Fibre) : (s.modFib u k f).nodes = s.nodes := rfl
@[simp] theorem State.modFib_cores (s : State) (u k : Nat) (f : Fibre → Fibre) : (s.modFib u k f).cores = s.cores := rfl
@[simp] theorem State.modFib_dies (s : State) (u k : Nat) (f : Fibre → Fibre) : (s.modFib u k f).dies = s.dies := rfl
@[simp] theorem State.modFib_stks (s : State) (u k : Nat) (f : Fibre → Fibre) : (s.modFib u k f).stks = s.stks := rfl
@[simp] theorem State.modFib_ops (s : State) (u k : Nat) (f : Fibre → Fibre) : (s.modFib u k f).ops = s.ops := rfl
@[simp] theorem State.modFib_cmds (s : State) (u k : Nat) (f : Fibre → Fibre) : (s.modFib u k f).cmds = s.cmds := rfl
@[simp] theorem State.modFib_gifts (s : State) (u k : Nat) (f : Fibre → Fibre) : (s.modFib u k f).gifts = s.gifts := rfl
@[simp] theorem State.modFib_slots (s : State) (u k : Nat) (f : Fibre → Fibre) : (s.modFib u k f).slots = s.slots := rfl
@[simp] theorem State.modFib_found (s : State) (u k : Nat) (f : Fibre → Fibre) : (s.modFib u k f).found = s.found := rfl
@[simp] theorem State.modFib_ready (s : State) (u k : Nat) (f : Fibre → Fibre) : (s.modFib u k f).ready = s.ready := rfl
@[simp] theorem State.modFib_telemetry (s : State) (u k : Nat) (f : Fibre → Fibre) : (s.modFib u k f).telemetry = s.telemetry := rfl
@[simp] theorem State.modFib_ports (s : State) (u k : Nat) (f : Fibre → Fibre) : (s.modFib u k f).ports = s.ports := rfl
@[simp] theorem State.modFib_devId (s : State) (u k : Nat) (f : Fibre → Fibre) : (s.modFib u k f).devId = s.devId := rfl
@[simp] theorem State.modFib_chart (s : State) (u k : Nat) (f : Fibre → Fibre) : (s.modFib u k f).chart = s.chart := rfl
@[simp] theorem State.modFib_jobctl (s : State) (u k : Nat) (f : Fibre → Fibre) : (s.modFib u k f).jobctl = s.jobctl := rfl
@[simp] theorem State.modFib_dcls (s : State) (u k : Nat) (f : Fibre → Fibre) : (s.modFib u k f).dcls = s.dcls := rfl
@[simp] theorem State.modFib_tlbinv (s : State) (u k : Nat) (f : Fibre → Fibre) : (s.modFib u k f).tlbinv = s.tlbinv := rfl
@[simp] theorem State.modFib_tlbinvJob (s : State) (u k : Nat) (f : Fibre → Fibre) : (s.modFib u k f).tlbinvJob = s.tlbinvJob := rfl
@[simp] theorem State.modFib_ckptReg (s : State) (u k : Nat) (f : Fibre → Fibre) : (s.modFib u k f).ckptReg = s.ckptReg := rfl
@[simp] theorem State.modFib_bmclr (s : State) (u k : Nat) (f : Fibre → Fibre) : (s.modFib u k f).bmclr = s.bmclr := rfl
@[simp] theorem State.modFib_mchecks (s : State) (u k : Nat) (f : Fibre → Fibre) : (s.modFib u k f).mchecks = s.mchecks := rfl
@[simp] theorem State.modFib_bound (s : State) (u k : Nat) (f : Fibre → Fibre) : (s.modFib u k f).bound = s.bound := rfl
@[simp] theorem State.modFib_hostLog (s : State) (u k : Nat) (f : Fibre → Fibre) : (s.modFib u k f).hostLog = s.hostLog := rfl
@[simp] theorem State.modFib_ckpts (s : State) (u k : Nat) (f : Fibre → Fibre) : (s.modFib u k f).ckpts = s.ckpts := rfl

-- State.modNode ----------------------------------------------------------------------------------------------------
@[simp] theorem State.modNode_inputs (s : State) (n : Nat) (f : NodeSt → NodeSt) : (s.modNode n f).inputs = s.inputs := rfl
@[simp] theorem State.modNode_pace (s : State) (n : Nat) (f : NodeSt → NodeSt) : (s.modNode n f).pace = s.pace := rfl
@[simp] theorem State.modNode_now (s : State) (n : Nat) (f : NodeSt → NodeSt) : (s.modNode n f).now = s.now := rfl
@[simp] theorem State.modNode_fresh (s : State) (n : Nat) (f : NodeSt → NodeSt) : (s.modNode n f).fresh = s.fresh := rfl
@[simp] theorem State.modNode_nextId (s : State) (n : Nat) (f : NodeSt → NodeSt) : (s.modNode n f).nextId = s.nextId := rfl
@[simp] theorem State.modNode_cur (s : State) (n : Nat) (f : NodeSt → NodeSt) : (s.modNode n f).cur = s.cur := rfl
@[simp] theorem State.modNode_mem (s : State) (n : Nat) (f : NodeSt → NodeSt) : (s.modNode n f).mem = s.mem := rfl
@[simp] theorem State.modNode_tags (s : State) (n : Nat) (f : NodeSt → NodeSt) : (s.modNode n f).tags = s.tags := rfl
@[simp] theorem State.modNode_lines (s : State) (n : Nat) (f : NodeSt → NodeSt) : (s.modNode n f).lines = s.lines := rfl
@[simp] theorem State.modNode_sectors (s : State) (n : Nat) (f : NodeSt → NodeSt) : (s.modNode n f).sectors = s.sectors := rfl
@[simp] theorem State.modNode_journal (s : State) (n : Nat) (f : NodeSt → NodeSt) : (s.modNode n f).journal = s.journal := rfl
@[simp] theorem State.modNode_lost (s : State) (n : Nat) (f : NodeSt → NodeSt) : (s.modNode n f).lost = s.lost := rfl
@[simp] theorem State.modNode_restarting (s : State) (n : Nat) (f : NodeSt → NodeSt) : (s.modNode n f).restarting = s.restarting := rfl
@[simp] theorem State.modNode_drains (s : State) (n : Nat) (f : NodeSt → NodeSt) : (s.modNode n f).drains = s.drains := rfl
@[simp] theorem State.modNode_jobs (s : State) (n : Nat) (f : NodeSt → NodeSt) : (s.modNode n f).jobs = s.jobs := rfl
@[simp] theorem State.modNode_units (s : State) (n : Nat) (f : NodeSt → NodeSt) : (s.modNode n f).units = s.units := rfl
@[simp] theorem State.modNode_cores (s : State) (n : Nat) (f : NodeSt → NodeSt) : (s.modNode n f).cores = s.cores := rfl
@[simp] theorem State.modNode_dies (s : State) (n : Nat) (f : NodeSt → NodeSt) : (s.modNode n f).dies = s.dies := rfl
@[simp] theorem State.modNode_stks (s : State) (n : Nat) (f : NodeSt → NodeSt) : (s.modNode n f).stks = s.stks := rfl
@[simp] theorem State.modNode_ops (s : State) (n : Nat) (f : NodeSt → NodeSt) : (s.modNode n f).ops = s.ops := rfl
@[simp] theorem State.modNode_cmds (s : State) (n : Nat) (f : NodeSt → NodeSt) : (s.modNode n f).cmds = s.cmds := rfl
@[simp] theorem State.modNode_gifts (s : State) (n : Nat) (f : NodeSt → NodeSt) : (s.modNode n f).gifts = s.gifts := rfl
@[simp] theorem State.modNode_slots (s : State) (n : Nat) (f : NodeSt → NodeSt) : (s.modNode n f).slots = s.slots := rfl
@[simp] theorem State.modNode_found (s : State) (n : Nat) (f : NodeSt → NodeSt) : (s.modNode n f).found = s.found := rfl
@[simp] theorem State.modNode_ready (s : State) (n : Nat) (f : NodeSt → NodeSt) : (s.modNode n f).ready = s.ready := rfl
@[simp] theorem State.modNode_telemetry (s : State) (n : Nat) (f : NodeSt → NodeSt) : (s.modNode n f).telemetry = s.telemetry := rfl
@[simp] theorem State.modNode_ports (s : State) (n : Nat) (f : NodeSt → NodeSt) : (s.modNode n f).ports = s.ports := rfl
@[simp] theorem State.modNode_devId (s : State) (n : Nat) (f : NodeSt → NodeSt) : (s.modNode n f).devId = s.devId := rfl
@[simp] theorem State.modNode_chart (s : State) (n : Nat) (f : NodeSt → NodeSt) : (s.modNode n f).chart = s.chart := rfl
@[simp] theorem State.modNode_jobctl (s : State) (n : Nat) (f : NodeSt → NodeSt) : (s.modNode n f).jobctl = s.jobctl := rfl
@[simp] theorem State.modNode_dcls (s : State) (n : Nat) (f : NodeSt → NodeSt) : (s.modNode n f).dcls = s.dcls := rfl
@[simp] theorem State.modNode_tlbinv (s : State) (n : Nat) (f : NodeSt → NodeSt) : (s.modNode n f).tlbinv = s.tlbinv := rfl
@[simp] theorem State.modNode_tlbinvJob (s : State) (n : Nat) (f : NodeSt → NodeSt) : (s.modNode n f).tlbinvJob = s.tlbinvJob := rfl
@[simp] theorem State.modNode_ckptReg (s : State) (n : Nat) (f : NodeSt → NodeSt) : (s.modNode n f).ckptReg = s.ckptReg := rfl
@[simp] theorem State.modNode_bmclr (s : State) (n : Nat) (f : NodeSt → NodeSt) : (s.modNode n f).bmclr = s.bmclr := rfl
@[simp] theorem State.modNode_mchecks (s : State) (n : Nat) (f : NodeSt → NodeSt) : (s.modNode n f).mchecks = s.mchecks := rfl
@[simp] theorem State.modNode_bound (s : State) (n : Nat) (f : NodeSt → NodeSt) : (s.modNode n f).bound = s.bound := rfl
@[simp] theorem State.modNode_hostLog (s : State) (n : Nat) (f : NodeSt → NodeSt) : (s.modNode n f).hostLog = s.hostLog := rfl
@[simp] theorem State.modNode_ckpts (s : State) (n : Nat) (f : NodeSt → NodeSt) : (s.modNode n f).ckpts = s.ckpts := rfl

-- State.modJob -----------------------------------------------------------------------------------------------------
@[simp] theorem State.modJob_inputs (s : State) (j : Nat) (f : Job → Job) : (s.modJob j f).inputs = s.inputs := rfl
@[simp] theorem State.modJob_pace (s : State) (j : Nat) (f : Job → Job) : (s.modJob j f).pace = s.pace := rfl
@[simp] theorem State.modJob_now (s : State) (j : Nat) (f : Job → Job) : (s.modJob j f).now = s.now := rfl
@[simp] theorem State.modJob_fresh (s : State) (j : Nat) (f : Job → Job) : (s.modJob j f).fresh = s.fresh := rfl
@[simp] theorem State.modJob_nextId (s : State) (j : Nat) (f : Job → Job) : (s.modJob j f).nextId = s.nextId := rfl
@[simp] theorem State.modJob_cur (s : State) (j : Nat) (f : Job → Job) : (s.modJob j f).cur = s.cur := rfl
@[simp] theorem State.modJob_mem (s : State) (j : Nat) (f : Job → Job) : (s.modJob j f).mem = s.mem := rfl
@[simp] theorem State.modJob_tags (s : State) (j : Nat) (f : Job → Job) : (s.modJob j f).tags = s.tags := rfl
@[simp] theorem State.modJob_lines (s : State) (j : Nat) (f : Job → Job) : (s.modJob j f).lines = s.lines := rfl
@[simp] theorem State.modJob_sectors (s : State) (j : Nat) (f : Job → Job) : (s.modJob j f).sectors = s.sectors := rfl
@[simp] theorem State.modJob_journal (s : State) (j : Nat) (f : Job → Job) : (s.modJob j f).journal = s.journal := rfl
@[simp] theorem State.modJob_lost (s : State) (j : Nat) (f : Job → Job) : (s.modJob j f).lost = s.lost := rfl
@[simp] theorem State.modJob_restarting (s : State) (j : Nat) (f : Job → Job) : (s.modJob j f).restarting = s.restarting := rfl
@[simp] theorem State.modJob_drains (s : State) (j : Nat) (f : Job → Job) : (s.modJob j f).drains = s.drains := rfl
@[simp] theorem State.modJob_nodes (s : State) (j : Nat) (f : Job → Job) : (s.modJob j f).nodes = s.nodes := rfl
@[simp] theorem State.modJob_units (s : State) (j : Nat) (f : Job → Job) : (s.modJob j f).units = s.units := rfl
@[simp] theorem State.modJob_cores (s : State) (j : Nat) (f : Job → Job) : (s.modJob j f).cores = s.cores := rfl
@[simp] theorem State.modJob_dies (s : State) (j : Nat) (f : Job → Job) : (s.modJob j f).dies = s.dies := rfl
@[simp] theorem State.modJob_stks (s : State) (j : Nat) (f : Job → Job) : (s.modJob j f).stks = s.stks := rfl
@[simp] theorem State.modJob_ops (s : State) (j : Nat) (f : Job → Job) : (s.modJob j f).ops = s.ops := rfl
@[simp] theorem State.modJob_cmds (s : State) (j : Nat) (f : Job → Job) : (s.modJob j f).cmds = s.cmds := rfl
@[simp] theorem State.modJob_gifts (s : State) (j : Nat) (f : Job → Job) : (s.modJob j f).gifts = s.gifts := rfl
@[simp] theorem State.modJob_slots (s : State) (j : Nat) (f : Job → Job) : (s.modJob j f).slots = s.slots := rfl
@[simp] theorem State.modJob_found (s : State) (j : Nat) (f : Job → Job) : (s.modJob j f).found = s.found := rfl
@[simp] theorem State.modJob_ready (s : State) (j : Nat) (f : Job → Job) : (s.modJob j f).ready = s.ready := rfl
@[simp] theorem State.modJob_telemetry (s : State) (j : Nat) (f : Job → Job) : (s.modJob j f).telemetry = s.telemetry := rfl
@[simp] theorem State.modJob_ports (s : State) (j : Nat) (f : Job → Job) : (s.modJob j f).ports = s.ports := rfl
@[simp] theorem State.modJob_devId (s : State) (j : Nat) (f : Job → Job) : (s.modJob j f).devId = s.devId := rfl
@[simp] theorem State.modJob_chart (s : State) (j : Nat) (f : Job → Job) : (s.modJob j f).chart = s.chart := rfl
@[simp] theorem State.modJob_jobctl (s : State) (j : Nat) (f : Job → Job) : (s.modJob j f).jobctl = s.jobctl := rfl
@[simp] theorem State.modJob_dcls (s : State) (j : Nat) (f : Job → Job) : (s.modJob j f).dcls = s.dcls := rfl
@[simp] theorem State.modJob_tlbinv (s : State) (j : Nat) (f : Job → Job) : (s.modJob j f).tlbinv = s.tlbinv := rfl
@[simp] theorem State.modJob_tlbinvJob (s : State) (j : Nat) (f : Job → Job) : (s.modJob j f).tlbinvJob = s.tlbinvJob := rfl
@[simp] theorem State.modJob_ckptReg (s : State) (j : Nat) (f : Job → Job) : (s.modJob j f).ckptReg = s.ckptReg := rfl
@[simp] theorem State.modJob_bmclr (s : State) (j : Nat) (f : Job → Job) : (s.modJob j f).bmclr = s.bmclr := rfl
@[simp] theorem State.modJob_mchecks (s : State) (j : Nat) (f : Job → Job) : (s.modJob j f).mchecks = s.mchecks := rfl
@[simp] theorem State.modJob_bound (s : State) (j : Nat) (f : Job → Job) : (s.modJob j f).bound = s.bound := rfl
@[simp] theorem State.modJob_hostLog (s : State) (j : Nat) (f : Job → Job) : (s.modJob j f).hostLog = s.hostLog := rfl
@[simp] theorem State.modJob_ckpts (s : State) (j : Nat) (f : Job → Job) : (s.modJob j f).ckpts = s.ckpts := rfl

-- State.modCore ----------------------------------------------------------------------------------------------------
@[simp] theorem State.modCore_inputs (s : State) (k : Nat) (f : Core → Core) : (s.modCore k f).inputs = s.inputs := rfl
@[simp] theorem State.modCore_pace (s : State) (k : Nat) (f : Core → Core) : (s.modCore k f).pace = s.pace := rfl
@[simp] theorem State.modCore_now (s : State) (k : Nat) (f : Core → Core) : (s.modCore k f).now = s.now := rfl
@[simp] theorem State.modCore_fresh (s : State) (k : Nat) (f : Core → Core) : (s.modCore k f).fresh = s.fresh := rfl
@[simp] theorem State.modCore_nextId (s : State) (k : Nat) (f : Core → Core) : (s.modCore k f).nextId = s.nextId := rfl
@[simp] theorem State.modCore_cur (s : State) (k : Nat) (f : Core → Core) : (s.modCore k f).cur = s.cur := rfl
@[simp] theorem State.modCore_mem (s : State) (k : Nat) (f : Core → Core) : (s.modCore k f).mem = s.mem := rfl
@[simp] theorem State.modCore_tags (s : State) (k : Nat) (f : Core → Core) : (s.modCore k f).tags = s.tags := rfl
@[simp] theorem State.modCore_lines (s : State) (k : Nat) (f : Core → Core) : (s.modCore k f).lines = s.lines := rfl
@[simp] theorem State.modCore_sectors (s : State) (k : Nat) (f : Core → Core) : (s.modCore k f).sectors = s.sectors := rfl
@[simp] theorem State.modCore_journal (s : State) (k : Nat) (f : Core → Core) : (s.modCore k f).journal = s.journal := rfl
@[simp] theorem State.modCore_lost (s : State) (k : Nat) (f : Core → Core) : (s.modCore k f).lost = s.lost := rfl
@[simp] theorem State.modCore_restarting (s : State) (k : Nat) (f : Core → Core) : (s.modCore k f).restarting = s.restarting := rfl
@[simp] theorem State.modCore_drains (s : State) (k : Nat) (f : Core → Core) : (s.modCore k f).drains = s.drains := rfl
@[simp] theorem State.modCore_jobs (s : State) (k : Nat) (f : Core → Core) : (s.modCore k f).jobs = s.jobs := rfl
@[simp] theorem State.modCore_nodes (s : State) (k : Nat) (f : Core → Core) : (s.modCore k f).nodes = s.nodes := rfl
@[simp] theorem State.modCore_units (s : State) (k : Nat) (f : Core → Core) : (s.modCore k f).units = s.units := rfl
@[simp] theorem State.modCore_dies (s : State) (k : Nat) (f : Core → Core) : (s.modCore k f).dies = s.dies := rfl
@[simp] theorem State.modCore_stks (s : State) (k : Nat) (f : Core → Core) : (s.modCore k f).stks = s.stks := rfl
@[simp] theorem State.modCore_ops (s : State) (k : Nat) (f : Core → Core) : (s.modCore k f).ops = s.ops := rfl
@[simp] theorem State.modCore_cmds (s : State) (k : Nat) (f : Core → Core) : (s.modCore k f).cmds = s.cmds := rfl
@[simp] theorem State.modCore_gifts (s : State) (k : Nat) (f : Core → Core) : (s.modCore k f).gifts = s.gifts := rfl
@[simp] theorem State.modCore_slots (s : State) (k : Nat) (f : Core → Core) : (s.modCore k f).slots = s.slots := rfl
@[simp] theorem State.modCore_found (s : State) (k : Nat) (f : Core → Core) : (s.modCore k f).found = s.found := rfl
@[simp] theorem State.modCore_ready (s : State) (k : Nat) (f : Core → Core) : (s.modCore k f).ready = s.ready := rfl
@[simp] theorem State.modCore_telemetry (s : State) (k : Nat) (f : Core → Core) : (s.modCore k f).telemetry = s.telemetry := rfl
@[simp] theorem State.modCore_ports (s : State) (k : Nat) (f : Core → Core) : (s.modCore k f).ports = s.ports := rfl
@[simp] theorem State.modCore_devId (s : State) (k : Nat) (f : Core → Core) : (s.modCore k f).devId = s.devId := rfl
@[simp] theorem State.modCore_chart (s : State) (k : Nat) (f : Core → Core) : (s.modCore k f).chart = s.chart := rfl
@[simp] theorem State.modCore_jobctl (s : State) (k : Nat) (f : Core → Core) : (s.modCore k f).jobctl = s.jobctl := rfl
@[simp] theorem State.modCore_dcls (s : State) (k : Nat) (f : Core → Core) : (s.modCore k f).dcls = s.dcls := rfl
@[simp] theorem State.modCore_tlbinv (s : State) (k : Nat) (f : Core → Core) : (s.modCore k f).tlbinv = s.tlbinv := rfl
@[simp] theorem State.modCore_tlbinvJob (s : State) (k : Nat) (f : Core → Core) : (s.modCore k f).tlbinvJob = s.tlbinvJob := rfl
@[simp] theorem State.modCore_ckptReg (s : State) (k : Nat) (f : Core → Core) : (s.modCore k f).ckptReg = s.ckptReg := rfl
@[simp] theorem State.modCore_bmclr (s : State) (k : Nat) (f : Core → Core) : (s.modCore k f).bmclr = s.bmclr := rfl
@[simp] theorem State.modCore_mchecks (s : State) (k : Nat) (f : Core → Core) : (s.modCore k f).mchecks = s.mchecks := rfl
@[simp] theorem State.modCore_bound (s : State) (k : Nat) (f : Core → Core) : (s.modCore k f).bound = s.bound := rfl
@[simp] theorem State.modCore_hostLog (s : State) (k : Nat) (f : Core → Core) : (s.modCore k f).hostLog = s.hostLog := rfl
@[simp] theorem State.modCore_ckpts (s : State) (k : Nat) (f : Core → Core) : (s.modCore k f).ckpts = s.ckpts := rfl

-- State.modDie -----------------------------------------------------------------------------------------------------
@[simp] theorem State.modDie_inputs (s : State) (d : Nat) (f : Die → Die) : (s.modDie d f).inputs = s.inputs := rfl
@[simp] theorem State.modDie_pace (s : State) (d : Nat) (f : Die → Die) : (s.modDie d f).pace = s.pace := rfl
@[simp] theorem State.modDie_now (s : State) (d : Nat) (f : Die → Die) : (s.modDie d f).now = s.now := rfl
@[simp] theorem State.modDie_fresh (s : State) (d : Nat) (f : Die → Die) : (s.modDie d f).fresh = s.fresh := rfl
@[simp] theorem State.modDie_nextId (s : State) (d : Nat) (f : Die → Die) : (s.modDie d f).nextId = s.nextId := rfl
@[simp] theorem State.modDie_cur (s : State) (d : Nat) (f : Die → Die) : (s.modDie d f).cur = s.cur := rfl
@[simp] theorem State.modDie_mem (s : State) (d : Nat) (f : Die → Die) : (s.modDie d f).mem = s.mem := rfl
@[simp] theorem State.modDie_tags (s : State) (d : Nat) (f : Die → Die) : (s.modDie d f).tags = s.tags := rfl
@[simp] theorem State.modDie_lines (s : State) (d : Nat) (f : Die → Die) : (s.modDie d f).lines = s.lines := rfl
@[simp] theorem State.modDie_sectors (s : State) (d : Nat) (f : Die → Die) : (s.modDie d f).sectors = s.sectors := rfl
@[simp] theorem State.modDie_journal (s : State) (d : Nat) (f : Die → Die) : (s.modDie d f).journal = s.journal := rfl
@[simp] theorem State.modDie_lost (s : State) (d : Nat) (f : Die → Die) : (s.modDie d f).lost = s.lost := rfl
@[simp] theorem State.modDie_restarting (s : State) (d : Nat) (f : Die → Die) : (s.modDie d f).restarting = s.restarting := rfl
@[simp] theorem State.modDie_drains (s : State) (d : Nat) (f : Die → Die) : (s.modDie d f).drains = s.drains := rfl
@[simp] theorem State.modDie_jobs (s : State) (d : Nat) (f : Die → Die) : (s.modDie d f).jobs = s.jobs := rfl
@[simp] theorem State.modDie_nodes (s : State) (d : Nat) (f : Die → Die) : (s.modDie d f).nodes = s.nodes := rfl
@[simp] theorem State.modDie_units (s : State) (d : Nat) (f : Die → Die) : (s.modDie d f).units = s.units := rfl
@[simp] theorem State.modDie_cores (s : State) (d : Nat) (f : Die → Die) : (s.modDie d f).cores = s.cores := rfl
@[simp] theorem State.modDie_stks (s : State) (d : Nat) (f : Die → Die) : (s.modDie d f).stks = s.stks := rfl
@[simp] theorem State.modDie_ops (s : State) (d : Nat) (f : Die → Die) : (s.modDie d f).ops = s.ops := rfl
@[simp] theorem State.modDie_cmds (s : State) (d : Nat) (f : Die → Die) : (s.modDie d f).cmds = s.cmds := rfl
@[simp] theorem State.modDie_gifts (s : State) (d : Nat) (f : Die → Die) : (s.modDie d f).gifts = s.gifts := rfl
@[simp] theorem State.modDie_slots (s : State) (d : Nat) (f : Die → Die) : (s.modDie d f).slots = s.slots := rfl
@[simp] theorem State.modDie_found (s : State) (d : Nat) (f : Die → Die) : (s.modDie d f).found = s.found := rfl
@[simp] theorem State.modDie_ready (s : State) (d : Nat) (f : Die → Die) : (s.modDie d f).ready = s.ready := rfl
@[simp] theorem State.modDie_telemetry (s : State) (d : Nat) (f : Die → Die) : (s.modDie d f).telemetry = s.telemetry := rfl
@[simp] theorem State.modDie_ports (s : State) (d : Nat) (f : Die → Die) : (s.modDie d f).ports = s.ports := rfl
@[simp] theorem State.modDie_devId (s : State) (d : Nat) (f : Die → Die) : (s.modDie d f).devId = s.devId := rfl
@[simp] theorem State.modDie_chart (s : State) (d : Nat) (f : Die → Die) : (s.modDie d f).chart = s.chart := rfl
@[simp] theorem State.modDie_jobctl (s : State) (d : Nat) (f : Die → Die) : (s.modDie d f).jobctl = s.jobctl := rfl
@[simp] theorem State.modDie_dcls (s : State) (d : Nat) (f : Die → Die) : (s.modDie d f).dcls = s.dcls := rfl
@[simp] theorem State.modDie_tlbinv (s : State) (d : Nat) (f : Die → Die) : (s.modDie d f).tlbinv = s.tlbinv := rfl
@[simp] theorem State.modDie_tlbinvJob (s : State) (d : Nat) (f : Die → Die) : (s.modDie d f).tlbinvJob = s.tlbinvJob := rfl
@[simp] theorem State.modDie_ckptReg (s : State) (d : Nat) (f : Die → Die) : (s.modDie d f).ckptReg = s.ckptReg := rfl
@[simp] theorem State.modDie_bmclr (s : State) (d : Nat) (f : Die → Die) : (s.modDie d f).bmclr = s.bmclr := rfl
@[simp] theorem State.modDie_mchecks (s : State) (d : Nat) (f : Die → Die) : (s.modDie d f).mchecks = s.mchecks := rfl
@[simp] theorem State.modDie_bound (s : State) (d : Nat) (f : Die → Die) : (s.modDie d f).bound = s.bound := rfl
@[simp] theorem State.modDie_hostLog (s : State) (d : Nat) (f : Die → Die) : (s.modDie d f).hostLog = s.hostLog := rfl
@[simp] theorem State.modDie_ckpts (s : State) (d : Nat) (f : Die → Die) : (s.modDie d f).ckpts = s.ckpts := rfl

-- State.modStack ---------------------------------------------------------------------------------------------------
@[simp] theorem State.modStack_inputs (s : State) (d : Nat) (f : Stack → Stack) : (s.modStack d f).inputs = s.inputs := rfl
@[simp] theorem State.modStack_pace (s : State) (d : Nat) (f : Stack → Stack) : (s.modStack d f).pace = s.pace := rfl
@[simp] theorem State.modStack_now (s : State) (d : Nat) (f : Stack → Stack) : (s.modStack d f).now = s.now := rfl
@[simp] theorem State.modStack_fresh (s : State) (d : Nat) (f : Stack → Stack) : (s.modStack d f).fresh = s.fresh := rfl
@[simp] theorem State.modStack_nextId (s : State) (d : Nat) (f : Stack → Stack) : (s.modStack d f).nextId = s.nextId := rfl
@[simp] theorem State.modStack_cur (s : State) (d : Nat) (f : Stack → Stack) : (s.modStack d f).cur = s.cur := rfl
@[simp] theorem State.modStack_mem (s : State) (d : Nat) (f : Stack → Stack) : (s.modStack d f).mem = s.mem := rfl
@[simp] theorem State.modStack_tags (s : State) (d : Nat) (f : Stack → Stack) : (s.modStack d f).tags = s.tags := rfl
@[simp] theorem State.modStack_lines (s : State) (d : Nat) (f : Stack → Stack) : (s.modStack d f).lines = s.lines := rfl
@[simp] theorem State.modStack_sectors (s : State) (d : Nat) (f : Stack → Stack) : (s.modStack d f).sectors = s.sectors := rfl
@[simp] theorem State.modStack_journal (s : State) (d : Nat) (f : Stack → Stack) : (s.modStack d f).journal = s.journal := rfl
@[simp] theorem State.modStack_lost (s : State) (d : Nat) (f : Stack → Stack) : (s.modStack d f).lost = s.lost := rfl
@[simp] theorem State.modStack_restarting (s : State) (d : Nat) (f : Stack → Stack) : (s.modStack d f).restarting = s.restarting := rfl
@[simp] theorem State.modStack_drains (s : State) (d : Nat) (f : Stack → Stack) : (s.modStack d f).drains = s.drains := rfl
@[simp] theorem State.modStack_jobs (s : State) (d : Nat) (f : Stack → Stack) : (s.modStack d f).jobs = s.jobs := rfl
@[simp] theorem State.modStack_nodes (s : State) (d : Nat) (f : Stack → Stack) : (s.modStack d f).nodes = s.nodes := rfl
@[simp] theorem State.modStack_units (s : State) (d : Nat) (f : Stack → Stack) : (s.modStack d f).units = s.units := rfl
@[simp] theorem State.modStack_cores (s : State) (d : Nat) (f : Stack → Stack) : (s.modStack d f).cores = s.cores := rfl
@[simp] theorem State.modStack_dies (s : State) (d : Nat) (f : Stack → Stack) : (s.modStack d f).dies = s.dies := rfl
@[simp] theorem State.modStack_ops (s : State) (d : Nat) (f : Stack → Stack) : (s.modStack d f).ops = s.ops := rfl
@[simp] theorem State.modStack_cmds (s : State) (d : Nat) (f : Stack → Stack) : (s.modStack d f).cmds = s.cmds := rfl
@[simp] theorem State.modStack_gifts (s : State) (d : Nat) (f : Stack → Stack) : (s.modStack d f).gifts = s.gifts := rfl
@[simp] theorem State.modStack_slots (s : State) (d : Nat) (f : Stack → Stack) : (s.modStack d f).slots = s.slots := rfl
@[simp] theorem State.modStack_found (s : State) (d : Nat) (f : Stack → Stack) : (s.modStack d f).found = s.found := rfl
@[simp] theorem State.modStack_ready (s : State) (d : Nat) (f : Stack → Stack) : (s.modStack d f).ready = s.ready := rfl
@[simp] theorem State.modStack_telemetry (s : State) (d : Nat) (f : Stack → Stack) : (s.modStack d f).telemetry = s.telemetry := rfl
@[simp] theorem State.modStack_ports (s : State) (d : Nat) (f : Stack → Stack) : (s.modStack d f).ports = s.ports := rfl
@[simp] theorem State.modStack_devId (s : State) (d : Nat) (f : Stack → Stack) : (s.modStack d f).devId = s.devId := rfl
@[simp] theorem State.modStack_chart (s : State) (d : Nat) (f : Stack → Stack) : (s.modStack d f).chart = s.chart := rfl
@[simp] theorem State.modStack_jobctl (s : State) (d : Nat) (f : Stack → Stack) : (s.modStack d f).jobctl = s.jobctl := rfl
@[simp] theorem State.modStack_dcls (s : State) (d : Nat) (f : Stack → Stack) : (s.modStack d f).dcls = s.dcls := rfl
@[simp] theorem State.modStack_tlbinv (s : State) (d : Nat) (f : Stack → Stack) : (s.modStack d f).tlbinv = s.tlbinv := rfl
@[simp] theorem State.modStack_tlbinvJob (s : State) (d : Nat) (f : Stack → Stack) : (s.modStack d f).tlbinvJob = s.tlbinvJob := rfl
@[simp] theorem State.modStack_ckptReg (s : State) (d : Nat) (f : Stack → Stack) : (s.modStack d f).ckptReg = s.ckptReg := rfl
@[simp] theorem State.modStack_bmclr (s : State) (d : Nat) (f : Stack → Stack) : (s.modStack d f).bmclr = s.bmclr := rfl
@[simp] theorem State.modStack_mchecks (s : State) (d : Nat) (f : Stack → Stack) : (s.modStack d f).mchecks = s.mchecks := rfl
@[simp] theorem State.modStack_bound (s : State) (d : Nat) (f : Stack → Stack) : (s.modStack d f).bound = s.bound := rfl
@[simp] theorem State.modStack_hostLog (s : State) (d : Nat) (f : Stack → Stack) : (s.modStack d f).hostLog = s.hostLog := rfl
@[simp] theorem State.modStack_ckpts (s : State) (d : Nat) (f : Stack → Stack) : (s.modStack d f).ckpts = s.ckpts := rfl

-- State.modLine ----------------------------------------------------------------------------------------------------
@[simp] theorem State.modLine_inputs (s : State) (k : Nat) (f : LineSt → LineSt) : (s.modLine k f).inputs = s.inputs := rfl
@[simp] theorem State.modLine_pace (s : State) (k : Nat) (f : LineSt → LineSt) : (s.modLine k f).pace = s.pace := rfl
@[simp] theorem State.modLine_now (s : State) (k : Nat) (f : LineSt → LineSt) : (s.modLine k f).now = s.now := rfl
@[simp] theorem State.modLine_fresh (s : State) (k : Nat) (f : LineSt → LineSt) : (s.modLine k f).fresh = s.fresh := rfl
@[simp] theorem State.modLine_nextId (s : State) (k : Nat) (f : LineSt → LineSt) : (s.modLine k f).nextId = s.nextId := rfl
@[simp] theorem State.modLine_cur (s : State) (k : Nat) (f : LineSt → LineSt) : (s.modLine k f).cur = s.cur := rfl
@[simp] theorem State.modLine_mem (s : State) (k : Nat) (f : LineSt → LineSt) : (s.modLine k f).mem = s.mem := rfl
@[simp] theorem State.modLine_tags (s : State) (k : Nat) (f : LineSt → LineSt) : (s.modLine k f).tags = s.tags := rfl
@[simp] theorem State.modLine_sectors (s : State) (k : Nat) (f : LineSt → LineSt) : (s.modLine k f).sectors = s.sectors := rfl
@[simp] theorem State.modLine_journal (s : State) (k : Nat) (f : LineSt → LineSt) : (s.modLine k f).journal = s.journal := rfl
@[simp] theorem State.modLine_lost (s : State) (k : Nat) (f : LineSt → LineSt) : (s.modLine k f).lost = s.lost := rfl
@[simp] theorem State.modLine_restarting (s : State) (k : Nat) (f : LineSt → LineSt) : (s.modLine k f).restarting = s.restarting := rfl
@[simp] theorem State.modLine_drains (s : State) (k : Nat) (f : LineSt → LineSt) : (s.modLine k f).drains = s.drains := rfl
@[simp] theorem State.modLine_jobs (s : State) (k : Nat) (f : LineSt → LineSt) : (s.modLine k f).jobs = s.jobs := rfl
@[simp] theorem State.modLine_nodes (s : State) (k : Nat) (f : LineSt → LineSt) : (s.modLine k f).nodes = s.nodes := rfl
@[simp] theorem State.modLine_units (s : State) (k : Nat) (f : LineSt → LineSt) : (s.modLine k f).units = s.units := rfl
@[simp] theorem State.modLine_cores (s : State) (k : Nat) (f : LineSt → LineSt) : (s.modLine k f).cores = s.cores := rfl
@[simp] theorem State.modLine_dies (s : State) (k : Nat) (f : LineSt → LineSt) : (s.modLine k f).dies = s.dies := rfl
@[simp] theorem State.modLine_stks (s : State) (k : Nat) (f : LineSt → LineSt) : (s.modLine k f).stks = s.stks := rfl
@[simp] theorem State.modLine_ops (s : State) (k : Nat) (f : LineSt → LineSt) : (s.modLine k f).ops = s.ops := rfl
@[simp] theorem State.modLine_cmds (s : State) (k : Nat) (f : LineSt → LineSt) : (s.modLine k f).cmds = s.cmds := rfl
@[simp] theorem State.modLine_gifts (s : State) (k : Nat) (f : LineSt → LineSt) : (s.modLine k f).gifts = s.gifts := rfl
@[simp] theorem State.modLine_slots (s : State) (k : Nat) (f : LineSt → LineSt) : (s.modLine k f).slots = s.slots := rfl
@[simp] theorem State.modLine_found (s : State) (k : Nat) (f : LineSt → LineSt) : (s.modLine k f).found = s.found := rfl
@[simp] theorem State.modLine_ready (s : State) (k : Nat) (f : LineSt → LineSt) : (s.modLine k f).ready = s.ready := rfl
@[simp] theorem State.modLine_telemetry (s : State) (k : Nat) (f : LineSt → LineSt) : (s.modLine k f).telemetry = s.telemetry := rfl
@[simp] theorem State.modLine_ports (s : State) (k : Nat) (f : LineSt → LineSt) : (s.modLine k f).ports = s.ports := rfl
@[simp] theorem State.modLine_devId (s : State) (k : Nat) (f : LineSt → LineSt) : (s.modLine k f).devId = s.devId := rfl
@[simp] theorem State.modLine_chart (s : State) (k : Nat) (f : LineSt → LineSt) : (s.modLine k f).chart = s.chart := rfl
@[simp] theorem State.modLine_jobctl (s : State) (k : Nat) (f : LineSt → LineSt) : (s.modLine k f).jobctl = s.jobctl := rfl
@[simp] theorem State.modLine_dcls (s : State) (k : Nat) (f : LineSt → LineSt) : (s.modLine k f).dcls = s.dcls := rfl
@[simp] theorem State.modLine_tlbinv (s : State) (k : Nat) (f : LineSt → LineSt) : (s.modLine k f).tlbinv = s.tlbinv := rfl
@[simp] theorem State.modLine_tlbinvJob (s : State) (k : Nat) (f : LineSt → LineSt) : (s.modLine k f).tlbinvJob = s.tlbinvJob := rfl
@[simp] theorem State.modLine_ckptReg (s : State) (k : Nat) (f : LineSt → LineSt) : (s.modLine k f).ckptReg = s.ckptReg := rfl
@[simp] theorem State.modLine_bmclr (s : State) (k : Nat) (f : LineSt → LineSt) : (s.modLine k f).bmclr = s.bmclr := rfl
@[simp] theorem State.modLine_mchecks (s : State) (k : Nat) (f : LineSt → LineSt) : (s.modLine k f).mchecks = s.mchecks := rfl
@[simp] theorem State.modLine_bound (s : State) (k : Nat) (f : LineSt → LineSt) : (s.modLine k f).bound = s.bound := rfl
@[simp] theorem State.modLine_hostLog (s : State) (k : Nat) (f : LineSt → LineSt) : (s.modLine k f).hostLog = s.hostLog := rfl
@[simp] theorem State.modLine_ckpts (s : State) (k : Nat) (f : LineSt → LineSt) : (s.modLine k f).ckpts = s.ckpts := rfl

-- State.tell -------------------------------------------------------------------------------------------------------
@[simp] theorem State.tell_inputs (s : State) (m : HostMsg) : (s.tell m).inputs = s.inputs := rfl
@[simp] theorem State.tell_pace (s : State) (m : HostMsg) : (s.tell m).pace = s.pace := rfl
@[simp] theorem State.tell_now (s : State) (m : HostMsg) : (s.tell m).now = s.now := rfl
@[simp] theorem State.tell_fresh (s : State) (m : HostMsg) : (s.tell m).fresh = s.fresh := rfl
@[simp] theorem State.tell_nextId (s : State) (m : HostMsg) : (s.tell m).nextId = s.nextId := rfl
@[simp] theorem State.tell_cur (s : State) (m : HostMsg) : (s.tell m).cur = s.cur := rfl
@[simp] theorem State.tell_mem (s : State) (m : HostMsg) : (s.tell m).mem = s.mem := rfl
@[simp] theorem State.tell_tags (s : State) (m : HostMsg) : (s.tell m).tags = s.tags := rfl
@[simp] theorem State.tell_lines (s : State) (m : HostMsg) : (s.tell m).lines = s.lines := rfl
@[simp] theorem State.tell_sectors (s : State) (m : HostMsg) : (s.tell m).sectors = s.sectors := rfl
@[simp] theorem State.tell_journal (s : State) (m : HostMsg) : (s.tell m).journal = s.journal := rfl
@[simp] theorem State.tell_lost (s : State) (m : HostMsg) : (s.tell m).lost = s.lost := rfl
@[simp] theorem State.tell_restarting (s : State) (m : HostMsg) : (s.tell m).restarting = s.restarting := rfl
@[simp] theorem State.tell_drains (s : State) (m : HostMsg) : (s.tell m).drains = s.drains := rfl
@[simp] theorem State.tell_jobs (s : State) (m : HostMsg) : (s.tell m).jobs = s.jobs := rfl
@[simp] theorem State.tell_nodes (s : State) (m : HostMsg) : (s.tell m).nodes = s.nodes := rfl
@[simp] theorem State.tell_units (s : State) (m : HostMsg) : (s.tell m).units = s.units := rfl
@[simp] theorem State.tell_cores (s : State) (m : HostMsg) : (s.tell m).cores = s.cores := rfl
@[simp] theorem State.tell_dies (s : State) (m : HostMsg) : (s.tell m).dies = s.dies := rfl
@[simp] theorem State.tell_stks (s : State) (m : HostMsg) : (s.tell m).stks = s.stks := rfl
@[simp] theorem State.tell_ops (s : State) (m : HostMsg) : (s.tell m).ops = s.ops := rfl
@[simp] theorem State.tell_cmds (s : State) (m : HostMsg) : (s.tell m).cmds = s.cmds := rfl
@[simp] theorem State.tell_gifts (s : State) (m : HostMsg) : (s.tell m).gifts = s.gifts := rfl
@[simp] theorem State.tell_slots (s : State) (m : HostMsg) : (s.tell m).slots = s.slots := rfl
@[simp] theorem State.tell_found (s : State) (m : HostMsg) : (s.tell m).found = s.found := rfl
@[simp] theorem State.tell_ready (s : State) (m : HostMsg) : (s.tell m).ready = s.ready := rfl
@[simp] theorem State.tell_telemetry (s : State) (m : HostMsg) : (s.tell m).telemetry = s.telemetry := rfl
@[simp] theorem State.tell_ports (s : State) (m : HostMsg) : (s.tell m).ports = s.ports := rfl
@[simp] theorem State.tell_devId (s : State) (m : HostMsg) : (s.tell m).devId = s.devId := rfl
@[simp] theorem State.tell_chart (s : State) (m : HostMsg) : (s.tell m).chart = s.chart := rfl
@[simp] theorem State.tell_jobctl (s : State) (m : HostMsg) : (s.tell m).jobctl = s.jobctl := rfl
@[simp] theorem State.tell_dcls (s : State) (m : HostMsg) : (s.tell m).dcls = s.dcls := rfl
@[simp] theorem State.tell_tlbinv (s : State) (m : HostMsg) : (s.tell m).tlbinv = s.tlbinv := rfl
@[simp] theorem State.tell_tlbinvJob (s : State) (m : HostMsg) : (s.tell m).tlbinvJob = s.tlbinvJob := rfl
@[simp] theorem State.tell_ckptReg (s : State) (m : HostMsg) : (s.tell m).ckptReg = s.ckptReg := rfl
@[simp] theorem State.tell_bmclr (s : State) (m : HostMsg) : (s.tell m).bmclr = s.bmclr := rfl
@[simp] theorem State.tell_mchecks (s : State) (m : HostMsg) : (s.tell m).mchecks = s.mchecks := rfl
@[simp] theorem State.tell_bound (s : State) (m : HostMsg) : (s.tell m).bound = s.bound := rfl
@[simp] theorem State.tell_ckpts (s : State) (m : HostMsg) : (s.tell m).ckpts = s.ckpts := rfl

-- State.machineCheck -----------------------------------------------------------------------------------------------
@[simp] theorem State.machineCheck_inputs (s : State) (k x a : Nat) : (s.machineCheck k x a).inputs = s.inputs := rfl
@[simp] theorem State.machineCheck_pace (s : State) (k x a : Nat) : (s.machineCheck k x a).pace = s.pace := rfl
@[simp] theorem State.machineCheck_now (s : State) (k x a : Nat) : (s.machineCheck k x a).now = s.now := rfl
@[simp] theorem State.machineCheck_fresh (s : State) (k x a : Nat) : (s.machineCheck k x a).fresh = s.fresh := rfl
@[simp] theorem State.machineCheck_nextId (s : State) (k x a : Nat) : (s.machineCheck k x a).nextId = s.nextId := rfl
@[simp] theorem State.machineCheck_cur (s : State) (k x a : Nat) : (s.machineCheck k x a).cur = s.cur := rfl
@[simp] theorem State.machineCheck_mem (s : State) (k x a : Nat) : (s.machineCheck k x a).mem = s.mem := rfl
@[simp] theorem State.machineCheck_tags (s : State) (k x a : Nat) : (s.machineCheck k x a).tags = s.tags := rfl
@[simp] theorem State.machineCheck_lines (s : State) (k x a : Nat) : (s.machineCheck k x a).lines = s.lines := rfl
@[simp] theorem State.machineCheck_sectors (s : State) (k x a : Nat) : (s.machineCheck k x a).sectors = s.sectors := rfl
@[simp] theorem State.machineCheck_journal (s : State) (k x a : Nat) : (s.machineCheck k x a).journal = s.journal := rfl
@[simp] theorem State.machineCheck_lost (s : State) (k x a : Nat) : (s.machineCheck k x a).lost = s.lost := rfl
@[simp] theorem State.machineCheck_restarting (s : State) (k x a : Nat) : (s.machineCheck k x a).restarting = s.restarting := rfl
@[simp] theorem State.machineCheck_drains (s : State) (k x a : Nat) : (s.machineCheck k x a).drains = s.drains := rfl
@[simp] theorem State.machineCheck_jobs (s : State) (k x a : Nat) : (s.machineCheck k x a).jobs = s.jobs := rfl
@[simp] theorem State.machineCheck_nodes (s : State) (k x a : Nat) : (s.machineCheck k x a).nodes = s.nodes := rfl
@[simp] theorem State.machineCheck_units (s : State) (k x a : Nat) : (s.machineCheck k x a).units = s.units := rfl
@[simp] theorem State.machineCheck_cores (s : State) (k x a : Nat) : (s.machineCheck k x a).cores = s.cores := rfl
@[simp] theorem State.machineCheck_dies (s : State) (k x a : Nat) : (s.machineCheck k x a).dies = s.dies := rfl
@[simp] theorem State.machineCheck_stks (s : State) (k x a : Nat) : (s.machineCheck k x a).stks = s.stks := rfl
@[simp] theorem State.machineCheck_ops (s : State) (k x a : Nat) : (s.machineCheck k x a).ops = s.ops := rfl
@[simp] theorem State.machineCheck_cmds (s : State) (k x a : Nat) : (s.machineCheck k x a).cmds = s.cmds := rfl
@[simp] theorem State.machineCheck_gifts (s : State) (k x a : Nat) : (s.machineCheck k x a).gifts = s.gifts := rfl
@[simp] theorem State.machineCheck_slots (s : State) (k x a : Nat) : (s.machineCheck k x a).slots = s.slots := rfl
@[simp] theorem State.machineCheck_found (s : State) (k x a : Nat) : (s.machineCheck k x a).found = s.found := rfl
@[simp] theorem State.machineCheck_ready (s : State) (k x a : Nat) : (s.machineCheck k x a).ready = s.ready := rfl
@[simp] theorem State.machineCheck_telemetry (s : State) (k x a : Nat) : (s.machineCheck k x a).telemetry = s.telemetry := rfl
@[simp] theorem State.machineCheck_ports (s : State) (k x a : Nat) : (s.machineCheck k x a).ports = s.ports := rfl
@[simp] theorem State.machineCheck_devId (s : State) (k x a : Nat) : (s.machineCheck k x a).devId = s.devId := rfl
@[simp] theorem State.machineCheck_chart (s : State) (k x a : Nat) : (s.machineCheck k x a).chart = s.chart := rfl
@[simp] theorem State.machineCheck_jobctl (s : State) (k x a : Nat) : (s.machineCheck k x a).jobctl = s.jobctl := rfl
@[simp] theorem State.machineCheck_dcls (s : State) (k x a : Nat) : (s.machineCheck k x a).dcls = s.dcls := rfl
@[simp] theorem State.machineCheck_tlbinv (s : State) (k x a : Nat) : (s.machineCheck k x a).tlbinv = s.tlbinv := rfl
@[simp] theorem State.machineCheck_tlbinvJob (s : State) (k x a : Nat) : (s.machineCheck k x a).tlbinvJob = s.tlbinvJob := rfl
@[simp] theorem State.machineCheck_ckptReg (s : State) (k x a : Nat) : (s.machineCheck k x a).ckptReg = s.ckptReg := rfl
@[simp] theorem State.machineCheck_bmclr (s : State) (k x a : Nat) : (s.machineCheck k x a).bmclr = s.bmclr := rfl
@[simp] theorem State.machineCheck_bound (s : State) (k x a : Nat) : (s.machineCheck k x a).bound = s.bound := rfl
@[simp] theorem State.machineCheck_ckpts (s : State) (k x a : Nat) : (s.machineCheck k x a).ckpts = s.ckpts := rfl

-- State.modOp ------------------------------------------------------------------------------------------------------
@[simp] theorem State.modOp_inputs (s : State) (m : Nat) (f : Op → Op) : (s.modOp m f).inputs = s.inputs := rfl
@[simp] theorem State.modOp_pace (s : State) (m : Nat) (f : Op → Op) : (s.modOp m f).pace = s.pace := rfl
@[simp] theorem State.modOp_now (s : State) (m : Nat) (f : Op → Op) : (s.modOp m f).now = s.now := rfl
@[simp] theorem State.modOp_fresh (s : State) (m : Nat) (f : Op → Op) : (s.modOp m f).fresh = s.fresh := rfl
@[simp] theorem State.modOp_nextId (s : State) (m : Nat) (f : Op → Op) : (s.modOp m f).nextId = s.nextId := rfl
@[simp] theorem State.modOp_cur (s : State) (m : Nat) (f : Op → Op) : (s.modOp m f).cur = s.cur := rfl
@[simp] theorem State.modOp_mem (s : State) (m : Nat) (f : Op → Op) : (s.modOp m f).mem = s.mem := rfl
@[simp] theorem State.modOp_tags (s : State) (m : Nat) (f : Op → Op) : (s.modOp m f).tags = s.tags := rfl
@[simp] theorem State.modOp_lines (s : State) (m : Nat) (f : Op → Op) : (s.modOp m f).lines = s.lines := rfl
@[simp] theorem State.modOp_sectors (s : State) (m : Nat) (f : Op → Op) : (s.modOp m f).sectors = s.sectors := rfl
@[simp] theorem State.modOp_journal (s : State) (m : Nat) (f : Op → Op) : (s.modOp m f).journal = s.journal := rfl
@[simp] theorem State.modOp_lost (s : State) (m : Nat) (f : Op → Op) : (s.modOp m f).lost = s.lost := rfl
@[simp] theorem State.modOp_restarting (s : State) (m : Nat) (f : Op → Op) : (s.modOp m f).restarting = s.restarting := rfl
@[simp] theorem State.modOp_drains (s : State) (m : Nat) (f : Op → Op) : (s.modOp m f).drains = s.drains := rfl
@[simp] theorem State.modOp_jobs (s : State) (m : Nat) (f : Op → Op) : (s.modOp m f).jobs = s.jobs := rfl
@[simp] theorem State.modOp_nodes (s : State) (m : Nat) (f : Op → Op) : (s.modOp m f).nodes = s.nodes := rfl
@[simp] theorem State.modOp_units (s : State) (m : Nat) (f : Op → Op) : (s.modOp m f).units = s.units := rfl
@[simp] theorem State.modOp_cores (s : State) (m : Nat) (f : Op → Op) : (s.modOp m f).cores = s.cores := rfl
@[simp] theorem State.modOp_dies (s : State) (m : Nat) (f : Op → Op) : (s.modOp m f).dies = s.dies := rfl
@[simp] theorem State.modOp_stks (s : State) (m : Nat) (f : Op → Op) : (s.modOp m f).stks = s.stks := rfl
@[simp] theorem State.modOp_cmds (s : State) (m : Nat) (f : Op → Op) : (s.modOp m f).cmds = s.cmds := rfl
@[simp] theorem State.modOp_gifts (s : State) (m : Nat) (f : Op → Op) : (s.modOp m f).gifts = s.gifts := rfl
@[simp] theorem State.modOp_slots (s : State) (m : Nat) (f : Op → Op) : (s.modOp m f).slots = s.slots := rfl
@[simp] theorem State.modOp_found (s : State) (m : Nat) (f : Op → Op) : (s.modOp m f).found = s.found := rfl
@[simp] theorem State.modOp_ready (s : State) (m : Nat) (f : Op → Op) : (s.modOp m f).ready = s.ready := rfl
@[simp] theorem State.modOp_telemetry (s : State) (m : Nat) (f : Op → Op) : (s.modOp m f).telemetry = s.telemetry := rfl
@[simp] theorem State.modOp_ports (s : State) (m : Nat) (f : Op → Op) : (s.modOp m f).ports = s.ports := rfl
@[simp] theorem State.modOp_devId (s : State) (m : Nat) (f : Op → Op) : (s.modOp m f).devId = s.devId := rfl
@[simp] theorem State.modOp_chart (s : State) (m : Nat) (f : Op → Op) : (s.modOp m f).chart = s.chart := rfl
@[simp] theorem State.modOp_jobctl (s : State) (m : Nat) (f : Op → Op) : (s.modOp m f).jobctl = s.jobctl := rfl
@[simp] theorem State.modOp_dcls (s : State) (m : Nat) (f : Op → Op) : (s.modOp m f).dcls = s.dcls := rfl
@[simp] theorem State.modOp_tlbinv (s : State) (m : Nat) (f : Op → Op) : (s.modOp m f).tlbinv = s.tlbinv := rfl
@[simp] theorem State.modOp_tlbinvJob (s : State) (m : Nat) (f : Op → Op) : (s.modOp m f).tlbinvJob = s.tlbinvJob := rfl
@[simp] theorem State.modOp_ckptReg (s : State) (m : Nat) (f : Op → Op) : (s.modOp m f).ckptReg = s.ckptReg := rfl
@[simp] theorem State.modOp_bmclr (s : State) (m : Nat) (f : Op → Op) : (s.modOp m f).bmclr = s.bmclr := rfl
@[simp] theorem State.modOp_mchecks (s : State) (m : Nat) (f : Op → Op) : (s.modOp m f).mchecks = s.mchecks := rfl
@[simp] theorem State.modOp_bound (s : State) (m : Nat) (f : Op → Op) : (s.modOp m f).bound = s.bound := rfl
@[simp] theorem State.modOp_hostLog (s : State) (m : Nat) (f : Op → Op) : (s.modOp m f).hostLog = s.hostLog := rfl
@[simp] theorem State.modOp_ckpts (s : State) (m : Nat) (f : Op → Op) : (s.modOp m f).ckpts = s.ckpts := rfl

-- State.addOps -----------------------------------------------------------------------------------------------------
@[simp] theorem State.addOps_inputs (s : State) (os : List Op) : (s.addOps os).inputs = s.inputs := rfl
@[simp] theorem State.addOps_pace (s : State) (os : List Op) : (s.addOps os).pace = s.pace := rfl
@[simp] theorem State.addOps_now (s : State) (os : List Op) : (s.addOps os).now = s.now := rfl
@[simp] theorem State.addOps_fresh (s : State) (os : List Op) : (s.addOps os).fresh = s.fresh := rfl
@[simp] theorem State.addOps_nextId (s : State) (os : List Op) : (s.addOps os).nextId = s.nextId := rfl
@[simp] theorem State.addOps_cur (s : State) (os : List Op) : (s.addOps os).cur = s.cur := rfl
@[simp] theorem State.addOps_mem (s : State) (os : List Op) : (s.addOps os).mem = s.mem := rfl
@[simp] theorem State.addOps_tags (s : State) (os : List Op) : (s.addOps os).tags = s.tags := rfl
@[simp] theorem State.addOps_lines (s : State) (os : List Op) : (s.addOps os).lines = s.lines := rfl
@[simp] theorem State.addOps_sectors (s : State) (os : List Op) : (s.addOps os).sectors = s.sectors := rfl
@[simp] theorem State.addOps_journal (s : State) (os : List Op) : (s.addOps os).journal = s.journal := rfl
@[simp] theorem State.addOps_lost (s : State) (os : List Op) : (s.addOps os).lost = s.lost := rfl
@[simp] theorem State.addOps_restarting (s : State) (os : List Op) : (s.addOps os).restarting = s.restarting := rfl
@[simp] theorem State.addOps_drains (s : State) (os : List Op) : (s.addOps os).drains = s.drains := rfl
@[simp] theorem State.addOps_jobs (s : State) (os : List Op) : (s.addOps os).jobs = s.jobs := rfl
@[simp] theorem State.addOps_nodes (s : State) (os : List Op) : (s.addOps os).nodes = s.nodes := rfl
@[simp] theorem State.addOps_units (s : State) (os : List Op) : (s.addOps os).units = s.units := rfl
@[simp] theorem State.addOps_cores (s : State) (os : List Op) : (s.addOps os).cores = s.cores := rfl
@[simp] theorem State.addOps_dies (s : State) (os : List Op) : (s.addOps os).dies = s.dies := rfl
@[simp] theorem State.addOps_stks (s : State) (os : List Op) : (s.addOps os).stks = s.stks := rfl
@[simp] theorem State.addOps_cmds (s : State) (os : List Op) : (s.addOps os).cmds = s.cmds := rfl
@[simp] theorem State.addOps_gifts (s : State) (os : List Op) : (s.addOps os).gifts = s.gifts := rfl
@[simp] theorem State.addOps_slots (s : State) (os : List Op) : (s.addOps os).slots = s.slots := rfl
@[simp] theorem State.addOps_found (s : State) (os : List Op) : (s.addOps os).found = s.found := rfl
@[simp] theorem State.addOps_ready (s : State) (os : List Op) : (s.addOps os).ready = s.ready := rfl
@[simp] theorem State.addOps_telemetry (s : State) (os : List Op) : (s.addOps os).telemetry = s.telemetry := rfl
@[simp] theorem State.addOps_ports (s : State) (os : List Op) : (s.addOps os).ports = s.ports := rfl
@[simp] theorem State.addOps_devId (s : State) (os : List Op) : (s.addOps os).devId = s.devId := rfl
@[simp] theorem State.addOps_chart (s : State) (os : List Op) : (s.addOps os).chart = s.chart := rfl
@[simp] theorem State.addOps_jobctl (s : State) (os : List Op) : (s.addOps os).jobctl = s.jobctl := rfl
@[simp] theorem State.addOps_dcls (s : State) (os : List Op) : (s.addOps os).dcls = s.dcls := rfl
@[simp] theorem State.addOps_tlbinv (s : State) (os : List Op) : (s.addOps os).tlbinv = s.tlbinv := rfl
@[simp] theorem State.addOps_tlbinvJob (s : State) (os : List Op) : (s.addOps os).tlbinvJob = s.tlbinvJob := rfl
@[simp] theorem State.addOps_ckptReg (s : State) (os : List Op) : (s.addOps os).ckptReg = s.ckptReg := rfl
@[simp] theorem State.addOps_bmclr (s : State) (os : List Op) : (s.addOps os).bmclr = s.bmclr := rfl
@[simp] theorem State.addOps_mchecks (s : State) (os : List Op) : (s.addOps os).mchecks = s.mchecks := rfl
@[simp] theorem State.addOps_bound (s : State) (os : List Op) : (s.addOps os).bound = s.bound := rfl
@[simp] theorem State.addOps_hostLog (s : State) (os : List Op) : (s.addOps os).hostLog = s.hostLog := rfl
@[simp] theorem State.addOps_ckpts (s : State) (os : List Op) : (s.addOps os).ckpts = s.ckpts := rfl

-- State.modCmd -----------------------------------------------------------------------------------------------------
@[simp] theorem State.modCmd_inputs (s : State) (m : Nat) (f : Cmd → Cmd) : (s.modCmd m f).inputs = s.inputs := rfl
@[simp] theorem State.modCmd_pace (s : State) (m : Nat) (f : Cmd → Cmd) : (s.modCmd m f).pace = s.pace := rfl
@[simp] theorem State.modCmd_now (s : State) (m : Nat) (f : Cmd → Cmd) : (s.modCmd m f).now = s.now := rfl
@[simp] theorem State.modCmd_fresh (s : State) (m : Nat) (f : Cmd → Cmd) : (s.modCmd m f).fresh = s.fresh := rfl
@[simp] theorem State.modCmd_nextId (s : State) (m : Nat) (f : Cmd → Cmd) : (s.modCmd m f).nextId = s.nextId := rfl
@[simp] theorem State.modCmd_cur (s : State) (m : Nat) (f : Cmd → Cmd) : (s.modCmd m f).cur = s.cur := rfl
@[simp] theorem State.modCmd_mem (s : State) (m : Nat) (f : Cmd → Cmd) : (s.modCmd m f).mem = s.mem := rfl
@[simp] theorem State.modCmd_tags (s : State) (m : Nat) (f : Cmd → Cmd) : (s.modCmd m f).tags = s.tags := rfl
@[simp] theorem State.modCmd_lines (s : State) (m : Nat) (f : Cmd → Cmd) : (s.modCmd m f).lines = s.lines := rfl
@[simp] theorem State.modCmd_sectors (s : State) (m : Nat) (f : Cmd → Cmd) : (s.modCmd m f).sectors = s.sectors := rfl
@[simp] theorem State.modCmd_journal (s : State) (m : Nat) (f : Cmd → Cmd) : (s.modCmd m f).journal = s.journal := rfl
@[simp] theorem State.modCmd_lost (s : State) (m : Nat) (f : Cmd → Cmd) : (s.modCmd m f).lost = s.lost := rfl
@[simp] theorem State.modCmd_restarting (s : State) (m : Nat) (f : Cmd → Cmd) : (s.modCmd m f).restarting = s.restarting := rfl
@[simp] theorem State.modCmd_drains (s : State) (m : Nat) (f : Cmd → Cmd) : (s.modCmd m f).drains = s.drains := rfl
@[simp] theorem State.modCmd_jobs (s : State) (m : Nat) (f : Cmd → Cmd) : (s.modCmd m f).jobs = s.jobs := rfl
@[simp] theorem State.modCmd_nodes (s : State) (m : Nat) (f : Cmd → Cmd) : (s.modCmd m f).nodes = s.nodes := rfl
@[simp] theorem State.modCmd_units (s : State) (m : Nat) (f : Cmd → Cmd) : (s.modCmd m f).units = s.units := rfl
@[simp] theorem State.modCmd_cores (s : State) (m : Nat) (f : Cmd → Cmd) : (s.modCmd m f).cores = s.cores := rfl
@[simp] theorem State.modCmd_dies (s : State) (m : Nat) (f : Cmd → Cmd) : (s.modCmd m f).dies = s.dies := rfl
@[simp] theorem State.modCmd_stks (s : State) (m : Nat) (f : Cmd → Cmd) : (s.modCmd m f).stks = s.stks := rfl
@[simp] theorem State.modCmd_ops (s : State) (m : Nat) (f : Cmd → Cmd) : (s.modCmd m f).ops = s.ops := rfl
@[simp] theorem State.modCmd_gifts (s : State) (m : Nat) (f : Cmd → Cmd) : (s.modCmd m f).gifts = s.gifts := rfl
@[simp] theorem State.modCmd_slots (s : State) (m : Nat) (f : Cmd → Cmd) : (s.modCmd m f).slots = s.slots := rfl
@[simp] theorem State.modCmd_found (s : State) (m : Nat) (f : Cmd → Cmd) : (s.modCmd m f).found = s.found := rfl
@[simp] theorem State.modCmd_ready (s : State) (m : Nat) (f : Cmd → Cmd) : (s.modCmd m f).ready = s.ready := rfl
@[simp] theorem State.modCmd_telemetry (s : State) (m : Nat) (f : Cmd → Cmd) : (s.modCmd m f).telemetry = s.telemetry := rfl
@[simp] theorem State.modCmd_ports (s : State) (m : Nat) (f : Cmd → Cmd) : (s.modCmd m f).ports = s.ports := rfl
@[simp] theorem State.modCmd_devId (s : State) (m : Nat) (f : Cmd → Cmd) : (s.modCmd m f).devId = s.devId := rfl
@[simp] theorem State.modCmd_chart (s : State) (m : Nat) (f : Cmd → Cmd) : (s.modCmd m f).chart = s.chart := rfl
@[simp] theorem State.modCmd_jobctl (s : State) (m : Nat) (f : Cmd → Cmd) : (s.modCmd m f).jobctl = s.jobctl := rfl
@[simp] theorem State.modCmd_dcls (s : State) (m : Nat) (f : Cmd → Cmd) : (s.modCmd m f).dcls = s.dcls := rfl
@[simp] theorem State.modCmd_tlbinv (s : State) (m : Nat) (f : Cmd → Cmd) : (s.modCmd m f).tlbinv = s.tlbinv := rfl
@[simp] theorem State.modCmd_tlbinvJob (s : State) (m : Nat) (f : Cmd → Cmd) : (s.modCmd m f).tlbinvJob = s.tlbinvJob := rfl
@[simp] theorem State.modCmd_ckptReg (s : State) (m : Nat) (f : Cmd → Cmd) : (s.modCmd m f).ckptReg = s.ckptReg := rfl
@[simp] theorem State.modCmd_bmclr (s : State) (m : Nat) (f : Cmd → Cmd) : (s.modCmd m f).bmclr = s.bmclr := rfl
@[simp] theorem State.modCmd_mchecks (s : State) (m : Nat) (f : Cmd → Cmd) : (s.modCmd m f).mchecks = s.mchecks := rfl
@[simp] theorem State.modCmd_bound (s : State) (m : Nat) (f : Cmd → Cmd) : (s.modCmd m f).bound = s.bound := rfl
@[simp] theorem State.modCmd_hostLog (s : State) (m : Nat) (f : Cmd → Cmd) : (s.modCmd m f).hostLog = s.hostLog := rfl
@[simp] theorem State.modCmd_ckpts (s : State) (m : Nat) (f : Cmd → Cmd) : (s.modCmd m f).ckpts = s.ckpts := rfl

-- UnitSt.setReg ----------------------------------------------------------------------------------------------------
@[simp] theorem UnitSt.setReg_cfg (x : UnitSt) (c l r : Nat) (v : Word) : (x.setReg c l r v).cfg = x.cfg := rfl
@[simp] theorem UnitSt.setReg_status (x : UnitSt) (c l r : Nat) (v : Word) : (x.setReg c l r v).status = x.status := rfl
@[simp] theorem UnitSt.setReg_engSaved (x : UnitSt) (c l r : Nat) (v : Word) : (x.setReg c l r v).engSaved = x.engSaved := rfl
@[simp] theorem UnitSt.setReg_core (x : UnitSt) (c l r : Nat) (v : Word) : (x.setReg c l r v).core = x.core := rfl
@[simp] theorem UnitSt.setReg_lastCore (x : UnitSt) (c l r : Nat) (v : Word) : (x.setReg c l r v).lastCore = x.lastCore := rfl
@[simp] theorem UnitSt.setReg_startedAt (x : UnitSt) (c l r : Nat) (v : Word) : (x.setReg c l r v).startedAt = x.startedAt := rfl
@[simp] theorem UnitSt.setReg_xroot (x : UnitSt) (c l r : Nat) (v : Word) : (x.setReg c l r v).xroot = x.xroot := rfl
@[simp] theorem UnitSt.setReg_engQueued (x : UnitSt) (c l r : Nat) (v : Word) : (x.setReg c l r v).engQueued = x.engQueued := rfl
@[simp] theorem UnitSt.setReg_engPower (x : UnitSt) (c l r : Nat) (v : Word) : (x.setReg c l r v).engPower = x.engPower := rfl
@[simp] theorem UnitSt.setReg_engBusy (x : UnitSt) (c l r : Nat) (v : Word) : (x.setReg c l r v).engBusy = x.engBusy := rfl
@[simp] theorem UnitSt.setReg_scr (x : UnitSt) (c l r : Nat) (v : Word) : (x.setReg c l r v).scr = x.scr := rfl
@[simp] theorem UnitSt.setReg_acc (x : UnitSt) (c l r : Nat) (v : Word) : (x.setReg c l r v).acc = x.acc := rfl
@[simp] theorem UnitSt.setReg_book (x : UnitSt) (c l r : Nat) (v : Word) : (x.setReg c l r v).book = x.book := rfl
@[simp] theorem UnitSt.setReg_rules (x : UnitSt) (c l r : Nat) (v : Word) : (x.setReg c l r v).rules = x.rules := rfl
@[simp] theorem UnitSt.setReg_bas (x : UnitSt) (c l r : Nat) (v : Word) : (x.setReg c l r v).bas = x.bas := rfl
@[simp] theorem UnitSt.setReg_staging (x : UnitSt) (c l r : Nat) (v : Word) : (x.setReg c l r v).staging = x.staging := rfl
@[simp] theorem UnitSt.setReg_ubarGen (x : UnitSt) (c l r : Nat) (v : Word) : (x.setReg c l r v).ubarGen = x.ubarGen := rfl
@[simp] theorem UnitSt.setReg_gbarGen (x : UnitSt) (c l r : Nat) (v : Word) : (x.setReg c l r v).gbarGen = x.gbarGen := rfl
@[simp] theorem UnitSt.setReg_turnDrained (x : UnitSt) (c l r : Nat) (v : Word) : (x.setReg c l r v).turnDrained = x.turnDrained := rfl
@[simp] theorem UnitSt.setReg_draining (x : UnitSt) (c l r : Nat) (v : Word) : (x.setReg c l r v).draining = x.draining := rfl
@[simp] theorem UnitSt.setReg_compare (x : UnitSt) (c l r : Nat) (v : Word) : (x.setReg c l r v).compare = x.compare := rfl
@[simp] theorem UnitSt.setReg_sweeps (x : UnitSt) (c l r : Nat) (v : Word) : (x.setReg c l r v).sweeps = x.sweeps := rfl
@[simp] theorem UnitSt.setReg_shadow (x : UnitSt) (c l r : Nat) (v : Word) : (x.setReg c l r v).shadow = x.shadow := rfl
@[simp] theorem UnitSt.setReg_barWaits (x : UnitSt) (c l r : Nat) (v : Word) : (x.setReg c l r v).barWaits = x.barWaits := rfl
@[simp] theorem UnitSt.setReg_preempting (x : UnitSt) (c l r : Nat) (v : Word) : (x.setReg c l r v).preempting = x.preempting := rfl
@[simp] theorem UnitSt.setReg_stopping (x : UnitSt) (c l r : Nat) (v : Word) : (x.setReg c l r v).stopping = x.stopping := rfl
@[simp] theorem UnitSt.setReg_cancelled (x : UnitSt) (c l r : Nat) (v : Word) : (x.setReg c l r v).cancelled = x.cancelled := rfl
@[simp] theorem UnitSt.setReg_ended (x : UnitSt) (c l r : Nat) (v : Word) : (x.setReg c l r v).ended = x.ended := rfl
@[simp] theorem UnitSt.setReg_told (x : UnitSt) (c l r : Nat) (v : Word) : (x.setReg c l r v).told = x.told := rfl
@[simp] theorem UnitSt.setReg_leftAt (x : UnitSt) (c l r : Nat) (v : Word) : (x.setReg c l r v).leftAt = x.leftAt := rfl
@[simp] theorem UnitSt.setReg_crews (x : UnitSt) (c l r : Nat) (v : Word) : (x.setReg c l r v).crews = x.crews := rfl
@[simp] theorem UnitSt.setReg_fibs (x : UnitSt) (c l r : Nat) (v : Word) : (x.setReg c l r v).fibs = x.fibs := rfl

-- UnitSt.setScr ----------------------------------------------------------------------------------------------------
@[simp] theorem UnitSt.setScr_cfg (x : UnitSt) (o : Nat) (bs : List Byte) : (x.setScr o bs).cfg = x.cfg := rfl
@[simp] theorem UnitSt.setScr_status (x : UnitSt) (o : Nat) (bs : List Byte) : (x.setScr o bs).status = x.status := rfl
@[simp] theorem UnitSt.setScr_engSaved (x : UnitSt) (o : Nat) (bs : List Byte) : (x.setScr o bs).engSaved = x.engSaved := rfl
@[simp] theorem UnitSt.setScr_core (x : UnitSt) (o : Nat) (bs : List Byte) : (x.setScr o bs).core = x.core := rfl
@[simp] theorem UnitSt.setScr_lastCore (x : UnitSt) (o : Nat) (bs : List Byte) : (x.setScr o bs).lastCore = x.lastCore := rfl
@[simp] theorem UnitSt.setScr_startedAt (x : UnitSt) (o : Nat) (bs : List Byte) : (x.setScr o bs).startedAt = x.startedAt := rfl
@[simp] theorem UnitSt.setScr_xroot (x : UnitSt) (o : Nat) (bs : List Byte) : (x.setScr o bs).xroot = x.xroot := rfl
@[simp] theorem UnitSt.setScr_engQueued (x : UnitSt) (o : Nat) (bs : List Byte) : (x.setScr o bs).engQueued = x.engQueued := rfl
@[simp] theorem UnitSt.setScr_engPower (x : UnitSt) (o : Nat) (bs : List Byte) : (x.setScr o bs).engPower = x.engPower := rfl
@[simp] theorem UnitSt.setScr_engBusy (x : UnitSt) (o : Nat) (bs : List Byte) : (x.setScr o bs).engBusy = x.engBusy := rfl
@[simp] theorem UnitSt.setScr_regs (x : UnitSt) (o : Nat) (bs : List Byte) : (x.setScr o bs).regs = x.regs := rfl
@[simp] theorem UnitSt.setScr_acc (x : UnitSt) (o : Nat) (bs : List Byte) : (x.setScr o bs).acc = x.acc := rfl
@[simp] theorem UnitSt.setScr_book (x : UnitSt) (o : Nat) (bs : List Byte) : (x.setScr o bs).book = x.book := rfl
@[simp] theorem UnitSt.setScr_rules (x : UnitSt) (o : Nat) (bs : List Byte) : (x.setScr o bs).rules = x.rules := rfl
@[simp] theorem UnitSt.setScr_bas (x : UnitSt) (o : Nat) (bs : List Byte) : (x.setScr o bs).bas = x.bas := rfl
@[simp] theorem UnitSt.setScr_staging (x : UnitSt) (o : Nat) (bs : List Byte) : (x.setScr o bs).staging = x.staging := rfl
@[simp] theorem UnitSt.setScr_ubarGen (x : UnitSt) (o : Nat) (bs : List Byte) : (x.setScr o bs).ubarGen = x.ubarGen := rfl
@[simp] theorem UnitSt.setScr_gbarGen (x : UnitSt) (o : Nat) (bs : List Byte) : (x.setScr o bs).gbarGen = x.gbarGen := rfl
@[simp] theorem UnitSt.setScr_turnDrained (x : UnitSt) (o : Nat) (bs : List Byte) : (x.setScr o bs).turnDrained = x.turnDrained := rfl
@[simp] theorem UnitSt.setScr_draining (x : UnitSt) (o : Nat) (bs : List Byte) : (x.setScr o bs).draining = x.draining := rfl
@[simp] theorem UnitSt.setScr_compare (x : UnitSt) (o : Nat) (bs : List Byte) : (x.setScr o bs).compare = x.compare := rfl
@[simp] theorem UnitSt.setScr_sweeps (x : UnitSt) (o : Nat) (bs : List Byte) : (x.setScr o bs).sweeps = x.sweeps := rfl
@[simp] theorem UnitSt.setScr_shadow (x : UnitSt) (o : Nat) (bs : List Byte) : (x.setScr o bs).shadow = x.shadow := rfl
@[simp] theorem UnitSt.setScr_barWaits (x : UnitSt) (o : Nat) (bs : List Byte) : (x.setScr o bs).barWaits = x.barWaits := rfl
@[simp] theorem UnitSt.setScr_preempting (x : UnitSt) (o : Nat) (bs : List Byte) : (x.setScr o bs).preempting = x.preempting := rfl
@[simp] theorem UnitSt.setScr_stopping (x : UnitSt) (o : Nat) (bs : List Byte) : (x.setScr o bs).stopping = x.stopping := rfl
@[simp] theorem UnitSt.setScr_cancelled (x : UnitSt) (o : Nat) (bs : List Byte) : (x.setScr o bs).cancelled = x.cancelled := rfl
@[simp] theorem UnitSt.setScr_ended (x : UnitSt) (o : Nat) (bs : List Byte) : (x.setScr o bs).ended = x.ended := rfl
@[simp] theorem UnitSt.setScr_told (x : UnitSt) (o : Nat) (bs : List Byte) : (x.setScr o bs).told = x.told := rfl
@[simp] theorem UnitSt.setScr_leftAt (x : UnitSt) (o : Nat) (bs : List Byte) : (x.setScr o bs).leftAt = x.leftAt := rfl
@[simp] theorem UnitSt.setScr_crews (x : UnitSt) (o : Nat) (bs : List Byte) : (x.setScr o bs).crews = x.crews := rfl
@[simp] theorem UnitSt.setScr_fibs (x : UnitSt) (o : Nat) (bs : List Byte) : (x.setScr o bs).fibs = x.fibs := rfl

-- UnitSt.soil ------------------------------------------------------------------------------------------------------
@[simp] theorem UnitSt.soil_cfg (x : UnitSt) (rs : List Nat) : (x.soil rs).cfg = x.cfg := rfl
@[simp] theorem UnitSt.soil_status (x : UnitSt) (rs : List Nat) : (x.soil rs).status = x.status := rfl
@[simp] theorem UnitSt.soil_engSaved (x : UnitSt) (rs : List Nat) : (x.soil rs).engSaved = x.engSaved := rfl
@[simp] theorem UnitSt.soil_core (x : UnitSt) (rs : List Nat) : (x.soil rs).core = x.core := rfl
@[simp] theorem UnitSt.soil_lastCore (x : UnitSt) (rs : List Nat) : (x.soil rs).lastCore = x.lastCore := rfl
@[simp] theorem UnitSt.soil_startedAt (x : UnitSt) (rs : List Nat) : (x.soil rs).startedAt = x.startedAt := rfl
@[simp] theorem UnitSt.soil_xroot (x : UnitSt) (rs : List Nat) : (x.soil rs).xroot = x.xroot := rfl
@[simp] theorem UnitSt.soil_engQueued (x : UnitSt) (rs : List Nat) : (x.soil rs).engQueued = x.engQueued := rfl
@[simp] theorem UnitSt.soil_engPower (x : UnitSt) (rs : List Nat) : (x.soil rs).engPower = x.engPower := rfl
@[simp] theorem UnitSt.soil_engBusy (x : UnitSt) (rs : List Nat) : (x.soil rs).engBusy = x.engBusy := rfl
@[simp] theorem UnitSt.soil_regs (x : UnitSt) (rs : List Nat) : (x.soil rs).regs = x.regs := rfl
@[simp] theorem UnitSt.soil_scr (x : UnitSt) (rs : List Nat) : (x.soil rs).scr = x.scr := rfl
@[simp] theorem UnitSt.soil_acc (x : UnitSt) (rs : List Nat) : (x.soil rs).acc = x.acc := rfl
@[simp] theorem UnitSt.soil_book (x : UnitSt) (rs : List Nat) : (x.soil rs).book = x.book := rfl
@[simp] theorem UnitSt.soil_rules (x : UnitSt) (rs : List Nat) : (x.soil rs).rules = x.rules := rfl
@[simp] theorem UnitSt.soil_bas (x : UnitSt) (rs : List Nat) : (x.soil rs).bas = x.bas := rfl
@[simp] theorem UnitSt.soil_staging (x : UnitSt) (rs : List Nat) : (x.soil rs).staging = x.staging := rfl
@[simp] theorem UnitSt.soil_ubarGen (x : UnitSt) (rs : List Nat) : (x.soil rs).ubarGen = x.ubarGen := rfl
@[simp] theorem UnitSt.soil_gbarGen (x : UnitSt) (rs : List Nat) : (x.soil rs).gbarGen = x.gbarGen := rfl
@[simp] theorem UnitSt.soil_turnDrained (x : UnitSt) (rs : List Nat) : (x.soil rs).turnDrained = x.turnDrained := rfl
@[simp] theorem UnitSt.soil_draining (x : UnitSt) (rs : List Nat) : (x.soil rs).draining = x.draining := rfl
@[simp] theorem UnitSt.soil_compare (x : UnitSt) (rs : List Nat) : (x.soil rs).compare = x.compare := rfl
@[simp] theorem UnitSt.soil_sweeps (x : UnitSt) (rs : List Nat) : (x.soil rs).sweeps = x.sweeps := rfl
@[simp] theorem UnitSt.soil_shadow (x : UnitSt) (rs : List Nat) : (x.soil rs).shadow = x.shadow := rfl
@[simp] theorem UnitSt.soil_barWaits (x : UnitSt) (rs : List Nat) : (x.soil rs).barWaits = x.barWaits := rfl
@[simp] theorem UnitSt.soil_preempting (x : UnitSt) (rs : List Nat) : (x.soil rs).preempting = x.preempting := rfl
@[simp] theorem UnitSt.soil_stopping (x : UnitSt) (rs : List Nat) : (x.soil rs).stopping = x.stopping := rfl
@[simp] theorem UnitSt.soil_cancelled (x : UnitSt) (rs : List Nat) : (x.soil rs).cancelled = x.cancelled := rfl
@[simp] theorem UnitSt.soil_ended (x : UnitSt) (rs : List Nat) : (x.soil rs).ended = x.ended := rfl
@[simp] theorem UnitSt.soil_told (x : UnitSt) (rs : List Nat) : (x.soil rs).told = x.told := rfl
@[simp] theorem UnitSt.soil_leftAt (x : UnitSt) (rs : List Nat) : (x.soil rs).leftAt = x.leftAt := rfl
@[simp] theorem UnitSt.soil_crews (x : UnitSt) (rs : List Nat) : (x.soil rs).crews = x.crews := rfl
@[simp] theorem UnitSt.soil_fibs (x : UnitSt) (rs : List Nat) : (x.soil rs).fibs = x.fibs := rfl

-- UnitSt.modRow ----------------------------------------------------------------------------------------------------
@[simp] theorem UnitSt.modRow_cfg (x : UnitSt) (r : Nat) (f : Row → Row) : (x.modRow r f).cfg = x.cfg := rfl
@[simp] theorem UnitSt.modRow_status (x : UnitSt) (r : Nat) (f : Row → Row) : (x.modRow r f).status = x.status := rfl
@[simp] theorem UnitSt.modRow_engSaved (x : UnitSt) (r : Nat) (f : Row → Row) : (x.modRow r f).engSaved = x.engSaved := rfl
@[simp] theorem UnitSt.modRow_core (x : UnitSt) (r : Nat) (f : Row → Row) : (x.modRow r f).core = x.core := rfl
@[simp] theorem UnitSt.modRow_lastCore (x : UnitSt) (r : Nat) (f : Row → Row) : (x.modRow r f).lastCore = x.lastCore := rfl
@[simp] theorem UnitSt.modRow_startedAt (x : UnitSt) (r : Nat) (f : Row → Row) : (x.modRow r f).startedAt = x.startedAt := rfl
@[simp] theorem UnitSt.modRow_xroot (x : UnitSt) (r : Nat) (f : Row → Row) : (x.modRow r f).xroot = x.xroot := rfl
@[simp] theorem UnitSt.modRow_engQueued (x : UnitSt) (r : Nat) (f : Row → Row) : (x.modRow r f).engQueued = x.engQueued := rfl
@[simp] theorem UnitSt.modRow_engPower (x : UnitSt) (r : Nat) (f : Row → Row) : (x.modRow r f).engPower = x.engPower := rfl
@[simp] theorem UnitSt.modRow_engBusy (x : UnitSt) (r : Nat) (f : Row → Row) : (x.modRow r f).engBusy = x.engBusy := rfl
@[simp] theorem UnitSt.modRow_regs (x : UnitSt) (r : Nat) (f : Row → Row) : (x.modRow r f).regs = x.regs := rfl
@[simp] theorem UnitSt.modRow_scr (x : UnitSt) (r : Nat) (f : Row → Row) : (x.modRow r f).scr = x.scr := rfl
@[simp] theorem UnitSt.modRow_acc (x : UnitSt) (r : Nat) (f : Row → Row) : (x.modRow r f).acc = x.acc := rfl
@[simp] theorem UnitSt.modRow_book (x : UnitSt) (r : Nat) (f : Row → Row) : (x.modRow r f).book = x.book := rfl
@[simp] theorem UnitSt.modRow_rules (x : UnitSt) (r : Nat) (f : Row → Row) : (x.modRow r f).rules = x.rules := rfl
@[simp] theorem UnitSt.modRow_bas (x : UnitSt) (r : Nat) (f : Row → Row) : (x.modRow r f).bas = x.bas := rfl
@[simp] theorem UnitSt.modRow_staging (x : UnitSt) (r : Nat) (f : Row → Row) : (x.modRow r f).staging = x.staging := rfl
@[simp] theorem UnitSt.modRow_ubarGen (x : UnitSt) (r : Nat) (f : Row → Row) : (x.modRow r f).ubarGen = x.ubarGen := rfl
@[simp] theorem UnitSt.modRow_gbarGen (x : UnitSt) (r : Nat) (f : Row → Row) : (x.modRow r f).gbarGen = x.gbarGen := rfl
@[simp] theorem UnitSt.modRow_turnDrained (x : UnitSt) (r : Nat) (f : Row → Row) : (x.modRow r f).turnDrained = x.turnDrained := rfl
@[simp] theorem UnitSt.modRow_draining (x : UnitSt) (r : Nat) (f : Row → Row) : (x.modRow r f).draining = x.draining := rfl
@[simp] theorem UnitSt.modRow_compare (x : UnitSt) (r : Nat) (f : Row → Row) : (x.modRow r f).compare = x.compare := rfl
@[simp] theorem UnitSt.modRow_sweeps (x : UnitSt) (r : Nat) (f : Row → Row) : (x.modRow r f).sweeps = x.sweeps := rfl
@[simp] theorem UnitSt.modRow_shadow (x : UnitSt) (r : Nat) (f : Row → Row) : (x.modRow r f).shadow = x.shadow := rfl
@[simp] theorem UnitSt.modRow_barWaits (x : UnitSt) (r : Nat) (f : Row → Row) : (x.modRow r f).barWaits = x.barWaits := rfl
@[simp] theorem UnitSt.modRow_preempting (x : UnitSt) (r : Nat) (f : Row → Row) : (x.modRow r f).preempting = x.preempting := rfl
@[simp] theorem UnitSt.modRow_stopping (x : UnitSt) (r : Nat) (f : Row → Row) : (x.modRow r f).stopping = x.stopping := rfl
@[simp] theorem UnitSt.modRow_cancelled (x : UnitSt) (r : Nat) (f : Row → Row) : (x.modRow r f).cancelled = x.cancelled := rfl
@[simp] theorem UnitSt.modRow_ended (x : UnitSt) (r : Nat) (f : Row → Row) : (x.modRow r f).ended = x.ended := rfl
@[simp] theorem UnitSt.modRow_told (x : UnitSt) (r : Nat) (f : Row → Row) : (x.modRow r f).told = x.told := rfl
@[simp] theorem UnitSt.modRow_leftAt (x : UnitSt) (r : Nat) (f : Row → Row) : (x.modRow r f).leftAt = x.leftAt := rfl
@[simp] theorem UnitSt.modRow_crews (x : UnitSt) (r : Nat) (f : Row → Row) : (x.modRow r f).crews = x.crews := rfl
@[simp] theorem UnitSt.modRow_fibs (x : UnitSt) (r : Nat) (f : Row → Row) : (x.modRow r f).fibs = x.fibs := rfl

-- the parts after an update ------------------------------------------------------------------------------------------

/-- A list read with a default after `modify`. -/
theorem getD_modify {α : Type} (l : List α) (i j : Nat) (f : α → α) (d : α) :
    (l.modify i f).getD j d = if i = j ∧ j < l.length then f (l.getD j d) else l.getD j d := by
  simp only [List.getD_eq_getElem?_getD, List.getElem?_modify]
  by_cases h : j < l.length
  · by_cases h' : i = j <;> simp [h, h']
  · simp [h]

theorem State.unit_modUnit (s : State) (u v : Nat) (f : UnitSt → UnitSt) :
    (s.modUnit u f).unit v = if u = v ∧ v < s.units.length then f (s.unit v) else s.unit v := getD_modify ..

@[simp] theorem State.units_length_modUnit (s : State) (u : Nat) (f : UnitSt → UnitSt) :
    (s.modUnit u f).units.length = s.units.length := by simp [State.modUnit]

theorem State.unit_modUnit_same {s : State} {u : Nat} (f : UnitSt → UnitSt) (h : u < s.units.length) :
    (s.modUnit u f).unit u = f (s.unit u) := by simp [State.unit_modUnit, h]

theorem State.unit_modUnit_ne {s : State} {u v : Nat} (f : UnitSt → UnitSt) (h : u ≠ v) :
    (s.modUnit u f).unit v = s.unit v := by simp [State.unit_modUnit, h]

theorem State.modUnit_modUnit (s : State) (u : Nat) (f g : UnitSt → UnitSt) :
    (s.modUnit u f).modUnit u g = s.modUnit u (fun x => g (f x)) := by
  simp only [State.modUnit, State.mk.injEq, true_and, and_true]
  apply List.ext_getElem?
  intro i
  simp only [List.getElem?_modify]
  split <;> simp_all [Option.map_map, Function.comp_def]

theorem UnitSt.crew_modify (x : UnitSt) (c d : Nat) (f : Crew → Crew) :
    ({ x with crews := x.crews.modify c f } : UnitSt).crew d = if c = d ∧ d < x.crews.length then f (x.crew d) else x.crew d :=
  getD_modify ..

theorem UnitSt.fib_modify (x : UnitSt) (k j : Nat) (f : Fibre → Fibre) :
    ({ x with fibs := x.fibs.modify k f } : UnitSt).fib j = if k = j ∧ j < x.fibs.length then f (x.fib j) else x.fib j :=
  getD_modify ..

theorem Crew.entry_modify (x : Crew) (e k : Nat) (f : Entry → Entry) :
    ({ x with split := x.split.modify e f } : Crew).entry k = if e = k ∧ k < x.split.length then f (x.entry k) else x.entry k :=
  getD_modify ..

theorem State.node_modNode (s : State) (n k : Nat) (f : NodeSt → NodeSt) :
    (s.modNode n f).node k = if n = k ∧ k < s.nodes.length then f (s.node k) else s.node k := getD_modify ..

end Sys2Proof.Machine
end

