-- ==== Sys2Proof/Laws/Issue.lean ====
section
/-! SUPPORT. What the gate answers where an instruction is ready, what the lanes of an instruction leave (`applyLanes_done`), and what the shared
forms of a meaning come to. -/

namespace Sys2Proof.Machine

-- standing -----------------------------------------------------------------------------------------------------------

theorem standing_unit {s : State} (h : standing s = true) : s.ctx.u < s.units.length := by
  by_contra hn
  simp [standing, List.getElem?_eq_none (Nat.le_of_not_lt hn : s.units.length ≤ s.cur.1)] at h

theorem rd_eq_opnd (s : State) (l : Nat) (r : VReg) : s.ctx.rd s l r = s.opnd l r.toNat := by
  simp [Ctx.rd, State.ctx, State.opnd, State.here]

theorem p_eq_prd (s : State) (l : Nat) (p : Nib) : s.ctx.p s l p = s.prd l p := rfl

-- states that differ in the marks of lines only ------------------------------------------------------------------------

theorem State.modUnit_self (s : State) (u : Nat) : s.modUnit u (fun y => y) = s := by
  have h : s.units.modify u (fun y => y) = s.units := List.modify_id u s.units
  simp only [State.modUnit, h]

/-- Only what a change makes of the unit that is there matters. -/
theorem State.modUnit_congr {s : State} {u : Nat} (h : u < s.units.length) {f g : UnitSt → UnitSt} (hf : f (s.unit u) = g (s.unit u)) :
    s.modUnit u f = s.modUnit u g := by
  simp only [State.modUnit, State.mk.injEq, true_and, and_true]
  apply List.ext_getElem?
  intro k
  simp only [List.getElem?_modify]
  by_cases hk : u = k
  · subst hk
    have hx : s.units[u]? = some (s.unit u) := by simp [State.unit, List.getElem?_eq_getElem h]
    simp [hx, hf]
  · simp [hk]

/-- A change of the marks of a unit's lines. -/
theorem State.unit_rows (s : State) (u v : Nat) (f : UnitSt → SMap Row) :
    ∃ W, (s.modUnit u (fun y => { y with rows := f y })).unit v = { s.unit v with rows := W } := by
  rw [State.unit_modUnit]
  split
  · exact ⟨_, rfl⟩
  · exact ⟨_, rfl⟩

theorem State.used_unit (s : State) (i : Instr) (v : Nat) : ∃ W, (s.used i).unit v = { s.unit v with rows := W } := State.unit_rows s _ v _

@[simp] theorem State.used_rd (s : State) (i : Instr) (x : Ctx) (l : Nat) (r : VReg) : x.rd (s.used i) l r = x.rd s l r := by
  obtain ⟨W, h⟩ := s.used_unit i x.u
  simp only [Ctx.rd, h]; rfl

@[simp] theorem State.used_p (s : State) (i : Instr) (x : Ctx) (l : Nat) (p : Nib) : x.p (s.used i) l p = x.p s l p := by
  obtain ⟨W, h⟩ := s.used_unit i x.u
  simp only [Ctx.p, h]; rfl

@[simp] theorem State.used_fibre (s : State) (i : Instr) (x : Ctx) (l : Nat) : x.fibre (s.used i) l = x.fibre s l := by
  obtain ⟨W, h⟩ := s.used_unit i x.u
  simp only [Ctx.fibre, Ctx.f, h]; rfl

-- the gate -----------------------------------------------------------------------------------------------------------

/-- A line with no symbol in error reads as it is. -/
theorem touchRow_holds {s : State} {u r : Nat} (h : (s.unit u).Holds r) : touchRow s u r = s := by
  unfold touchRow
  simp only [h.2, List.filter_nil]
  split <;> exact if_pos (by simp [h.1])

theorem touchRows_holds {s : State} {u : Nat} (rs : List Nat) (h : (s.unit u).HoldsAll rs) : rs.foldl (fun s r => touchRow s u r) s = s := by
  induction rs with
  | nil => rfl
  | cons r rs ih => rw [List.foldl_cons, touchRow_holds (h r (by simp)), ih (fun x hx => h x (by simp [hx]))]

/-- Lines that the pool holds, sound where they are read, are there for the asking: they have been used now. -/
theorem askRows_ok {s : State} {u c : Nat} {reads part whole : List Nat} (hr : (s.unit u).Reads reads) (hp : (s.unit u).HoldsAll part)
    (hw : ∀ r ∈ whole, ((s.unit u).row r).here = true) : askRows s u c reads part whole = (.ok, useRows s u (reads ++ part ++ whole)) := by
  have h1 : ∀ ws : List Nat, (∀ r ∈ ws, ((s.unit u).row r).here = true) → rowsAre s u reads ws = .ok := by
    intro ws hws
    have ha : (reads ++ ws).any (fun r => !((s.unit u).row r).here) = false := by
      simp only [List.any_eq_false, List.mem_append, Bool.not_eq_true, Bool.not_eq_false']
      rintro r (h | h)
      · exact (hr r h).1.1
      · exact hws r h
    have hb : reads.any (fun r => ((s.unit u).row r).poison) = false := by
      simp only [List.any_eq_false, Bool.not_eq_true]
      exact fun r h => (hr r h).2
    simp only [rowsAre, ha, hb, Bool.false_eq_true, if_false]
  have ht : (reads ++ part).foldl (fun s r => touchRow s u r) s = s := touchRows_holds _ (by
    intro r h
    rcases List.mem_append.1 h with h | h
    · exact (hr r h).1
    · exact hp r h)
  have h2 := h1 (part ++ whole) (by
    intro r h
    rcases List.mem_append.1 h with h | h
    · exact (hp r h).1
    · exact hw r h)
  have h3 := h1 [] (by simp)
  simp only [askRows, h2, ht, h3]
  rfl

/-- The lines that an instruction here writes, in part or whole, are the lines of its destinations. -/
theorem gate_ready {i : Instr} {s : State} (h : Ready i s) {pre : Ctx → State → Option State} (hp : pre s.ctx s = none) :
    gate i pre s = .go s.ctx [] (s.used i) := by
  have ha : s.ctx.act ≠ 0#32 := h.active
  have hk : askRows s s.ctx.u s.ctx.c (readRows s s.ctx i) (walkRows s s.ctx i ++ if wholeLines s s.ctx = true then [] else destRows s s.ctx i)
      (if wholeLines s s.ctx = true then destRows s s.ctx i else []) = (.ok, s.used i) := by
    have hw : walkRows s s.ctx i = [] := by
      simp only [walkRows, strmClears, h.unbound, regRows, List.flatMap_nil, List.map_nil]
      rw [List.flatMap_eq_nil_iff.mpr (fun _ _ => rfl)]
      rfl
    rw [hw, List.nil_append, askRows_ok h.reads]
    · split <;> simp [State.used, hw]
    · split
      · intro r hr; cases hr
      · exact h.writes
    · split
      · exact fun r hr => (h.writes r hr).1
      · intro r hr; cases hr
  have hs : streamsOf (s.used i) s.ctx i = [] := by
    obtain ⟨W, hu⟩ := s.used_unit i s.ctx.u
    have : streamsOf (s.used i) s.ctx i = streamsOf s s.ctx i := by
      simp only [streamsOf, hu]; rfl
    rw [this, h.unbound]
  simp only [gate, h.stands, Bool.not_true, Bool.false_eq_true, if_false, h.awake, h.checks, h.free, hp, hk]
  simp [withStreams, hs, ha]

theorem withIssueE_ready {i : Instr} {s : State} (h : Ready i s) {pre : Ctx → State → Option State} (hp : pre s.ctx s = none)
    (body : Ctx → List Trap → State → Except (State → State) State) :
    withIssueE i s pre body = match body s.ctx [] (s.used i) with | .ok t => .next t | .error f => .next (f s) := by
  have ha : s.ctx.act ≠ 0#32 := h.active
  simp only [withIssueE, gate_ready h hp]
  exact if_neg ha

theorem withIssue_ready {i : Instr} {s : State} (h : Ready i s) (body : Ctx → List Trap → State → State) :
    withIssue i s body = .next (body s.ctx [] (s.used i)) := by
  simp [withIssue, withIssueE_ready h]

-- lanes --------------------------------------------------------------------------------------------------------------

/-- The mark of a line after writes to it. -/
theorem soil_idem (w : Row) : w.soil.soil = w.soil := by
  unfold Row.soil; split <;> simp_all

/-- What writes of registers of one lane leave. -/
theorem setRegs_eq (c l : Nat) (rs : List (Nat × Word)) (w : Nat) (y : UnitSt) : ∃ R W,
    rs.foldl (fun x rv => x.setReg c l (w + rv.1) rv.2) y = { y with regs := R, rows := W } ∧
    (∀ k, SMap.get 0 R k = rs.foldl (fun v rv => if regKey c (w + rv.1) l = k then rv.2 else v) (SMap.get 0 y.regs k)) ∧
    ∀ k, SMap.get {} W k = if ∃ rv ∈ rs, rowReg c (w + rv.1) = k then (y.row k).soil else y.row k := by
  induction rs generalizing y with
  | nil => exact ⟨y.regs, y.rows, rfl, fun _ => rfl, fun _ => by simp [UnitSt.row]⟩
  | cons e es ih =>
    obtain ⟨R, W, h, hR, hW⟩ := ih (y.setReg c l (w + e.1) e.2)
    refine ⟨R, W, ?_, fun k => ?_, fun k => ?_⟩
    · rw [List.foldl_cons, h]; rfl
    · rw [hR k, List.foldl_cons, UnitSt.setReg]
      simp only [SMap.get_set]
    · have hk : (y.setReg c l (w + e.1) e.2).row k = if rowReg c (w + e.1) = k then (y.row k).soil else y.row k := by
        show SMap.get {} (SMap.upd {} y.rows _ Row.soil) k = _
        rw [SMap.get_upd]
        by_cases he : rowReg c (w + e.1) = k
        · simp [he, UnitSt.row]
        · simp [he, UnitSt.row]
      rw [hW k, hk]
      simp only [List.mem_cons, exists_eq_or_imp]
      by_cases he : rowReg c (w + e.1) = k
      · simp [he, soil_idem]
      · simp only [he, if_false, false_or]

theorem LaneFx.apply_eq (fx : LaneFx) (c l : Nat) (x : UnitSt) : ∃ R W,
    fx.apply c l x = { x with regs := R, rows := W, fibs := x.fibs.modify ((x.crew c).fib l) fx.fibre } ∧
    (∀ k, SMap.get 0 R k = (fx.regs.foldl (fun v rv => if regKey c (x.wb c l + rv.1) l = k then rv.2 else v) (SMap.get 0 x.regs k))) ∧
    ∀ k, SMap.get {} W k = if ∃ rv ∈ fx.regs, rowReg c (x.wb c l + rv.1) = k then (x.row k).soil else x.row k := by
  obtain ⟨R, W, h, hR, hW⟩ := setRegs_eq c l fx.regs (x.wb c l) x
  refine ⟨R, W, ?_, hR, hW⟩
  simp only [LaneFx.apply, h]
  split
  · rename_i hz
    simp only [Bool.and_eq_true, List.isEmpty_iff, beq_iff_eq, Option.isNone_iff_eq_none] at hz
    have hid : fx.fibre = id := by
      funext f
      have hlt := f.sat.isLt
      simp only [LaneFx.fibre, hz.1.1.1, hz.1.1.2, hz.1.2, hz.2, List.foldl_nil, Option.getD_none, Nat.add_zero, if_pos hlt]
      simp
    rw [hid]
    simp
  · rfl

/-- What the effects of a list of lanes come to, one after the other. -/
theorem foldLanes_eq (c : Nat) (fx : Nat → LaneFx) (ls : List Nat) (x : UnitSt) : ∃ R F W,
    ls.foldl (fun y l => (fx l).apply c l y) x = { x with regs := R, fibs := F, rows := W } ∧
    (∀ f, F[f]? = x.fibs[f]?.map (fun z => ls.foldl (fun z l => if (x.crew c).fib l = f then (fx l).fibre z else z) z)) ∧
    (∀ k, SMap.get 0 R k = ls.foldl (fun v l => (fx l).regs.foldl (fun v rv =>
      if regKey c (x.wb c l + rv.1) l = k then rv.2 else v) v) (SMap.get 0 x.regs k)) ∧
    ∀ k, SMap.get {} W k = if ∃ l ∈ ls, ∃ rv ∈ (fx l).regs, rowReg c (x.wb c l + rv.1) = k then (x.row k).soil else x.row k := by
  induction ls generalizing x with
  | nil => exact ⟨x.regs, x.fibs, x.rows, rfl, fun f => by simp, fun k => rfl, fun k => by simp [UnitSt.row]⟩
  | cons a r ih =>
    obtain ⟨R1, W1, h1, hR1, hW1⟩ := LaneFx.apply_eq (fx a) c a x
    obtain ⟨R, F, W, h, hF, hR, hW⟩ := ih ((fx a).apply c a x)
    have hwb : ∀ l, ((fx a).apply c a x).wb c l = x.wb c l := by
      intro l
      rw [h1, UnitSt.wb, UnitSt.wb]
      show ((x.fibs.modify _ _).getD _ {}).wb = (x.fibs.getD _ {}).wb
      rw [getD_modify]
      split
      · rfl
      · rfl
    have hcr : ((fx a).apply c a x).crew c = x.crew c := by rw [h1]; rfl
    refine ⟨R, F, W, ?_, fun f => ?_, fun k => ?_, fun k => ?_⟩
    · rw [List.foldl_cons, h, h1]
    · rw [hF f, hcr]
      have : ((fx a).apply c a x).fibs = x.fibs.modify ((x.crew c).fib a) (fx a).fibre := by rw [h1]
      rw [this, List.getElem?_modify]
      rcases x.fibs[f]? with _ | z
      · rfl
      · by_cases he : (x.crew c).fib a = f <;> simp [he]
    · rw [hR k, List.foldl_cons]
      have : SMap.get 0 ((fx a).apply c a x).regs k = (fx a).regs.foldl (fun v rv =>
          if regKey c (x.wb c a + rv.1) a = k then rv.2 else v) (SMap.get 0 x.regs k) := by rw [h1]; exact hR1 k
      rw [this]
      simp only [hwb]
    · rw [hW k]
      have : ((fx a).apply c a x).row k = if ∃ rv ∈ (fx a).regs, rowReg c (x.wb c a + rv.1) = k then (x.row k).soil else x.row k := by
        rw [h1]; exact hW1 k
      rw [this]
      simp only [hwb, List.mem_cons, exists_eq_or_imp]
      by_cases p : ∃ rv ∈ (fx a).regs, rowReg c (x.wb c a + rv.1) = k
      · by_cases q : ∃ l ∈ r, ∃ rv ∈ (fx l).regs, rowReg c (x.wb c l + rv.1) = k
        · simp only [if_pos p, if_pos q, if_pos (Or.inl p), soil_idem]
        · simp only [if_pos p, if_neg q, if_pos (Or.inl p)]
      · by_cases q : ∃ l ∈ r, ∃ rv ∈ (fx l).regs, rowReg c (x.wb c l + rv.1) = k
        · simp only [if_neg p, if_pos q, if_pos (Or.inr q)]
        · simp only [if_neg p, if_neg q, if_neg (not_or.2 ⟨p, q⟩)]

/-- A register line in a lane has one key. -/
theorem regKey_eq {c r l c' r' l' : Nat} (h : l < 32) (h' : l' < 32) : regKey c r l = regKey c' r' l' ↔ rowReg c r = rowReg c' r' ∧ l = l' := by
  simp only [regKey, rowReg]; omega

theorem foldl_miss {α β : Type} (p : α → Bool) (g : α → β) (es : List α) (v : β) (h : ∀ e ∈ es, p e = false) :
    es.foldl (fun v e => if p e then g e else v) v = v := by
  induction es with
  | nil => rfl
  | cons e es ih => simp only [List.foldl_cons, h e List.mem_cons_self, Bool.false_eq_true, if_false]; exact ih (fun x hx => h x (List.mem_cons_of_mem _ hx))

/-- The last match of a list with distinct keys is the first. -/
theorem foldl_find {β : Type} (q : Nat → Bool) (hq : ∀ a b, q a = true → q b = true → a = b) (es : List (Nat × β)) (hn : (es.map Prod.fst).Nodup) (v : β) :
    es.foldl (fun v e => if q e.1 then e.2 else v) v = ((es.find? (fun e => q e.1)).map Prod.snd).getD v := by
  induction es generalizing v with
  | nil => rfl
  | cons e es ih =>
    simp only [List.map_cons, List.nodup_cons] at hn
    simp only [List.foldl_cons, List.find?_cons]
    by_cases h : q e.1
    · simp only [h, if_true, Option.map_some, Option.getD_some]
      apply foldl_miss (fun e : Nat × β => q e.1) Prod.snd es e.2
      intro x hx
      by_contra hx'
      apply hn.1
      rw [hq e.1 x.1 h (by simpa using hx')]
      exact List.mem_map_of_mem hx
    · simp only [h, Bool.false_eq_true, if_false]; exact ih hn.2 v

/-- A fold in which no element, or just one, changes the value. -/
theorem foldl_none {β : Type} (p : Nat → Prop) [DecidablePred p] (g : Nat → β → β) (ls : List Nat) (h : ∀ k ∈ ls, ¬p k) (z : β) :
    ls.foldl (fun z k => if p k then g k z else z) z = z := by
  induction ls with
  | nil => rfl
  | cons a r ih => rw [List.foldl_cons, if_neg (h a List.mem_cons_self)]; exact ih (fun k hk => h k (List.mem_cons_of_mem _ hk))

theorem foldl_one {β : Type} (p : Nat → Prop) [DecidablePred p] (g : Nat → β → β) (ls : List Nat) (hn : ls.Nodup) (l : Nat) (hl : l ∈ ls) (hp : p l)
    (h : ∀ k ∈ ls, p k → k = l) (z : β) : ls.foldl (fun z k => if p k then g k z else z) z = g l z := by
  obtain ⟨a, b, rfl⟩ := List.append_of_mem hl
  rw [List.nodup_append] at hn
  rw [List.foldl_append, List.foldl_cons, foldl_none p g a (fun k hk hk' => hn.2.2 k hk l (by simp) (h k (by simp [hk]) hk')), if_pos hp]
  exact foldl_none p g b (fun k hk hk' => (List.nodup_cons.1 hn.2.1).1 (h k (by simp [hk]) hk' ▸ hk)) _

/-- A fold of changes of marks, each of one line, that come to the same done twice. -/
theorem updAll_get (f : Row → Row) (hf : ∀ w, f (f w) = f w) (rs : List Nat) (m : SMap Row) (k : Nat) :
    SMap.get {} (rs.foldl (fun m r => SMap.upd {} m r f) m) k = if k ∈ rs then f (SMap.get {} m k) else SMap.get {} m k := by
  induction rs generalizing m with
  | nil => simp
  | cons r rs ih =>
    rw [List.foldl_cons, ih, SMap.get_upd]
    by_cases h : r = k
    · subst h; simp [hf]
    · simp [h, Ne.symm h]

/-- The marks after an instruction has asked for its lines. -/
theorem used_row (s : State) (i : Instr) (hs : standing s = true) (k : Nat) : ∃ n, (s.used i).here.row k = { (s.here.row k) with used := n } := by
  have hu : (s.used i).here = { s.here with
      rows := (readRows s s.ctx i ++ (walkRows s s.ctx i ++ destRows s s.ctx i)).foldl (fun m r => SMap.upd {} m r (fun w => if w.here then { w with used := s.now } else w)) s.here.rows } := by
    show (s.used i).unit _ = _
    have hc : (s.used i).ctx.u = s.ctx.u := rfl
    rw [hc, State.used, useRows, State.unit_modUnit_same _ (standing_unit hs)]
    rfl
  rw [hu]
  simp only [UnitSt.row]
  rw [updAll_get _ (by intro w; split <;> simp_all)]
  split
  · split
    · exact ⟨_, rfl⟩
    · exact ⟨(SMap.get {} s.here.rows k).used, rfl⟩
  · exact ⟨(SMap.get {} s.here.rows k).used, rfl⟩

/-- What a lane instruction that is ready answers: the effects of its lanes, and then the entry goes on. -/
theorem laneInstr_ready {i : Instr} {s : State} (h : Ready i s) (fx : Ctx → State → Nat → LaneFx) :
    laneInstr i s fx = .next (finish s.ctx i [] (wroteRegs s.ctx i (applyLanes s.ctx (fx s.ctx (s.used i)) (s.used i)))) := by
  rw [laneInstr, withIssue_ready h]

/-- The effects of the active lanes, as a claim says them: `fx` writes the registers that the instruction names as its destinations. -/
theorem applyLanes_done {i : Instr} {s : State} (hr : Ready i s) (fx : Nat → LaneFx) (hn : ∀ l, ((fx l).regs.map Prod.fst).Nodup)
    (hd : ∀ l n, n ∈ dsts i ↔ n ∈ (fx l).regs.map Prod.fst) :
    LanesDo s (wroteRegs s.ctx i (applyLanes s.ctx fx (s.used i))) (fun l => (fx l).regs) (fun l => (fx l).fibre) := by
  classical
  have hs := hr.stands
  have hlt := standing_unit hs
  obtain ⟨U, hU⟩ := s.used_unit i s.ctx.u
  obtain ⟨R, F, W, h, hF, hR, hW⟩ := foldLanes_eq s.ctx.c fx (lanesOf s.ctx.act) ((s.used i).unit s.ctx.u)
  -- the unit after the lanes have acted, and after whole lines are clean
  have hlt' : s.ctx.u < (s.used i).units.length := by simpa [State.used, useRows] using hlt
  have e1 : applyLanes s.ctx fx (s.used i) = s.modUnit s.ctx.u (fun y => { y with regs := R, fibs := F, rows := W }) := by
    rw [applyLanes, State.modUnit_congr hlt' (g := fun y => { y with regs := R, fibs := F, rows := W }) (by rw [h])]
    rw [State.used, useRows, State.modUnit_modUnit]
  have hx : wholeLines (applyLanes s.ctx fx (s.used i)) s.ctx = wholeLines s s.ctx := by
    have hwb : ∀ l, ((applyLanes s.ctx fx (s.used i)).unit s.ctx.u).wb s.ctx.c l = (s.unit s.ctx.u).wb s.ctx.c l := by
      intro l
      have := foldLanes_eq s.ctx.c fx (lanesOf s.ctx.act) ((s.used i).unit s.ctx.u)
      rw [e1, State.unit_modUnit_same _ hlt]
      show (F.getD ((s.unit s.ctx.u).crew s.ctx.c |>.fib l) {}).wb = ((s.unit s.ctx.u).fibs.getD _ {}).wb
      simp only [List.getD_eq_getElem?_getD, hF, hU]
      rcases (s.unit s.ctx.u).fibs[((s.unit s.ctx.u).crew s.ctx.c).fib l]? with _ | z
      · rfl
      · have : ∀ (ls : List Nat) (q : Nat → Prop) [DecidablePred q] (z : Fibre), (ls.foldl (fun z l => if q l then (fx l).fibre z else z) z).wb = z.wb := by
          intro ls q _
          induction ls with
          | nil => intro z; rfl
          | cons a r ih => intro z; rw [List.foldl_cons, ih]; split <;> rfl
        simp only [Option.map_some, Option.getD_some]
        exact this _ _ z
    simp only [wholeLines, hwb]
  have hdr : destRows (applyLanes s.ctx fx (s.used i)) s.ctx i = destRows s s.ctx i := by
    have hwb : ∀ l, ((applyLanes s.ctx fx (s.used i)).unit s.ctx.u).wb s.ctx.c l = (s.unit s.ctx.u).wb s.ctx.c l := by
      intro l
      rw [e1, State.unit_modUnit_same _ hlt]
      show (F.getD ((s.unit s.ctx.u).crew s.ctx.c |>.fib l) {}).wb = ((s.unit s.ctx.u).fibs.getD _ {}).wb
      simp only [List.getD_eq_getElem?_getD, hF, hU]
      rcases (s.unit s.ctx.u).fibs[((s.unit s.ctx.u).crew s.ctx.c).fib l]? with _ | z
      · rfl
      · have : ∀ (ls : List Nat) (q : Nat → Prop) [DecidablePred q] (z : Fibre), (ls.foldl (fun z l => if q l then (fx l).fibre z else z) z).wb = z.wb := by
          intro ls q _
          induction ls with
          | nil => intro z; rfl
          | cons a r ih => intro z; rw [List.foldl_cons, ih]; split <;> rfl
        simp only [Option.map_some, Option.getD_some]
        exact this _ _ z
    simp only [destRows, regRows, hwb]
  let f : Row → Row := fun w => { w with poison := false, bad := [] }
  let V : SMap Row := if wholeLines s s.ctx = true then (destRows s s.ctx i).foldl (fun m r => SMap.upd {} m r f) W else W
  have e2 : wroteRegs s.ctx i (applyLanes s.ctx fx (s.used i)) = s.modUnit s.ctx.u (fun y => { y with regs := R, fibs := F, rows := V }) := by
    rw [wroteRegs, hx, hdr]
    by_cases hw : wholeLines s s.ctx = true
    · simp only [hw, if_true, V, cleanRows, e1, State.modUnit_modUnit]; rfl
    · simp only [hw, V, e1]; rfl
  have hu : (wroteRegs s.ctx i (applyLanes s.ctx fx (s.used i))).here = { s.here with regs := R, fibs := F, rows := V } := by
    rw [e2]
    show (s.modUnit _ _).unit s.ctx.u = _
    rw [State.unit_modUnit_same _ hlt]
    rfl
  -- which lines are written
  have hdest : ∀ r, r ∈ destRows s s.ctx i ↔ s.writesReg (fun l => (fx l).regs) r := by
    intro r
    simp only [destRows, regRows, List.mem_eraseDups, List.mem_flatMap, List.mem_map, State.writesReg, State.acts]
    constructor
    · rintro ⟨l, hl, n, hn', rfl⟩
      obtain ⟨e, he, rfl⟩ := List.mem_map.1 ((hd l n).1 hn')
      exact ⟨l, hl, e, he, rfl⟩
    · rintro ⟨l, hl, e, he, rfl⟩
      exact ⟨l, hl, e.1, (hd l _).2 (List.mem_map_of_mem he), rfl⟩
  have hrow : ∀ k, ∃ n, SMap.get {} W k = if s.writesReg (fun l => (fx l).regs) k then { (s.here.row k).soil with used := n } else { (s.here.row k) with used := n } := by
    intro k
    obtain ⟨n, hn'⟩ := used_row s i hs k
    have hk : ((s.used i).unit s.ctx.u).row k = { (s.here.row k) with used := n } := hn'
    have hiff : (∃ l ∈ lanesOf s.ctx.act, ∃ rv ∈ (fx l).regs, rowReg s.ctx.c (((s.used i).unit s.ctx.u).wb s.ctx.c l + rv.1) = k) ↔
        s.writesReg (fun l => (fx l).regs) k := by
      simp only [State.writesReg, State.acts, hU]
      exact ⟨fun ⟨l, hl, e, he, h⟩ => ⟨l, hl, e, he, h.symm⟩, fun ⟨l, hl, e, he, h⟩ => ⟨l, hl, e, he, h.symm⟩⟩
    refine ⟨n, ?_⟩
    rw [hW k, hk]
    by_cases hp : s.writesReg (fun l => (fx l).regs) k
    · rw [if_pos (hiff.2 hp), if_pos hp]
      unfold Row.soil; split <;> rfl
    · rw [if_neg (fun h => hp (hiff.1 h)), if_neg hp]
  have hV : ∀ k, SMap.get {} V k = if wholeLines s s.ctx = true ∧ s.writesReg (fun l => (fx l).regs) k then f (SMap.get {} W k) else SMap.get {} W k := by
    intro k
    by_cases hw : wholeLines s s.ctx = true
    · simp only [V, hw, if_true]
      rw [updAll_get f (by intro w; rfl)]
      by_cases hk : k ∈ destRows s s.ctx i
      · rw [if_pos hk, if_pos ⟨trivial, (hdest k).1 hk⟩]
      · rw [if_neg hk, if_neg (fun h => hk ((hdest k).2 h.2))]
    · simp [V, hw]
  refine ⟨⟨R, F, V, e2, ?_, ?_, ?_, ?_⟩, ?_, ?_, ?_⟩
  · intro r
    obtain ⟨n, hn'⟩ := hrow r
    rw [hV r, hn']
    split <;> split <;> first | rfl | (simp only [f, Row.soil]; split <;> rfl)
  · intro r
    obtain ⟨n, hn'⟩ := hrow r
    rw [hV r, hn']
    by_cases hp : s.writesReg (fun l => (fx l).regs) r <;> by_cases hh : (s.here.row r).here = true <;> by_cases hw : wholeLines s s.ctx = true <;>
      simp [hp, hh, hw, f, Row.soil]
  · intro r
    obtain ⟨n, hn'⟩ := hrow r
    rw [hV r, hn']
    by_cases hp : s.writesReg (fun l => (fx l).regs) r <;> by_cases hh : (s.here.row r).here = true <;> by_cases hw : wholeLines s s.ctx = true <;>
      simp [hp, hh, hw, f, Row.soil]
  · intro r
    obtain ⟨n, hn'⟩ := hrow r
    rw [hV r, hn']
    by_cases hp : s.writesReg (fun l => (fx l).regs) r <;> by_cases hh : (s.here.row r).here = true <;> by_cases hw : wholeLines s s.ctx = true <;>
      simp [hp, hh, hw, f, Row.soil]
  · intro l c r hl
    rw [hu]
    show SMap.get 0 R (regKey c r l) = _
    rw [hR, hU]
    have other : ∀ (ls : List Nat) (v : Word), (∀ k ∈ ls, k < 32 ∧ k ≠ l) → ls.foldl (fun v l' => (fx l').regs.foldl (fun v rv =>
        if regKey s.ctx.c (s.here.wb s.ctx.c l' + rv.1) l' = regKey c r l then rv.2 else v) v) v = v := by
      intro ls
      induction ls with
      | nil => intros; rfl
      | cons a q ih =>
        intro v hv
        rw [List.foldl_cons, ih _ (fun k hk => hv k (List.mem_cons_of_mem _ hk))]
        have ha := hv a List.mem_cons_self
        have := foldl_miss (fun rv : Nat × Word => decide (regKey s.ctx.c (s.here.wb s.ctx.c a + rv.1) a = regKey c r l)) Prod.snd (fx a).regs v
          (fun e _ => by simp [regKey_eq ha.1 hl, ha.2])
        simpa using this
    show (lanesOf s.ctx.act).foldl (fun v l' => (fx l').regs.foldl (fun v rv =>
        if regKey s.ctx.c (s.here.wb s.ctx.c l' + rv.1) l' = regKey c r l then rv.2 else v) v) (SMap.get 0 s.here.regs (regKey c r l)) = _
    by_cases ha : s.ctx.act.getLsbD l
    · have hm : l ∈ lanesOf s.ctx.act := mem_lanesOf.2 ⟨hl, ha⟩
      obtain ⟨p, q, hpq⟩ := List.append_of_mem hm
      have hnd := lanesOf_nodup s.ctx.act
      have hb : ∀ k ∈ lanesOf s.ctx.act, k < 32 := fun k hk => (mem_lanesOf.1 hk).1
      rw [hpq] at hnd hb ⊢
      rw [List.nodup_append] at hnd
      rw [List.foldl_append, List.foldl_cons,
        other p _ (fun k hk => ⟨hb k (by simp [hk]), fun he => hnd.2.2 k hk l (by simp) he⟩),
        other q _ (fun k hk => ⟨hb k (by simp [hk]), fun he => (List.nodup_cons.1 hnd.2.1).1 (he ▸ hk)⟩)]
      simp only [ha, if_true]
      have := foldl_find (fun n => decide (rowReg c r = rowReg s.ctx.c (s.here.wb s.ctx.c l + n)))
        (fun a b ha hb => by have := of_decide_eq_true ha; have := of_decide_eq_true hb; simp only [rowReg] at *; omega) (fx l).regs (hn l) (SMap.get 0 s.here.regs (regKey c r l))
      simp only [regKey_eq hl hl, and_true]
      simpa [eq_comm, UnitSt.reg] using this
    · rw [other _ _ (fun k hk => ⟨(mem_lanesOf.1 hk).1, fun he => ha (he ▸ (mem_lanesOf.1 hk).2)⟩)]
      simp [ha, UnitSt.reg]
  · intro n hf
    rw [hu]
    show F[n]? = _
    rw [hF n, hU]
    show Option.map _ s.here.fibs[n]? = _
    rcases s.here.fibs[n]? with _ | z
    · rfl
    · exact congrArg some (foldl_none (fun l => s.fibOf l = n) (fun l => (fx l).fibre) _ hf z)
  · intro l y hl ha hy
    rw [hu]
    show F[_]? = _
    rw [hF, hU]
    show Option.map _ s.here.fibs[_]? = _
    rw [hy]
    exact congrArg some (foldl_one (fun k => s.fibOf k = s.fibOf l) (fun l => (fx l).fibre) _ (lanesOf_nodup _) l hl rfl ha y)

/-- A lane instruction that is ready: what its lanes do, and then the entry goes on. -/
theorem laneInstr_lanes {i : Instr} {s : State} (h : Ready i s) (fx : Ctx → State → Nat → LaneFx)
    (hn : ∀ l, ((fx s.ctx (s.used i) l).regs.map Prod.fst).Nodup) (hd : ∀ l n, n ∈ dsts i ↔ n ∈ (fx s.ctx (s.used i) l).regs.map Prod.fst) :
    ∃ t, laneInstr i s fx = .next (finish s.ctx i [] t) ∧
      LanesDo s t (fun l => (fx s.ctx (s.used i) l).regs) (fun l => (fx s.ctx (s.used i) l).fibre) :=
  ⟨_, laneInstr_ready h fx, applyLanes_done h _ hn hd⟩

/-- A fibre after an effect that saturates nothing. -/
theorem LaneFx.fibre_plain (fx : LaneFx) (h : fx.sats = 0) (f : Fibre) :
    fx.fibre f = { f with pred := fx.preds.foldl (fun w p => setPred w p.1 p.2) f.pred, fpflags := f.fpflags ||| fx.flags, amax := fx.amax.getD f.amax } := by
  have hlt : f.sat.toNat + 0 < 2 ^ 32 := f.sat.isLt
  simp only [LaneFx.fibre, h, if_pos hlt]
  simp

theorem wr_fibre (d : VReg) (v : Word) : (wr d v).fibre = fun y => y := by
  funext f
  rw [LaneFx.fibre_plain _ rfl]
  simp [wr]

theorem wrf_fibre (d : VReg) (v : Word × BitVec 8) : (wrf d v).fibre = fun y => { y with fpflags := y.fpflags ||| v.2 } := by
  funext f
  rw [LaneFx.fibre_plain _ rfl]
  rfl

theorem wp_fibre (p : Nib) (v : Bool) : (wp p v).fibre = fun y => { y with pred := setPred y.pred p v } := by
  funext f
  rw [LaneFx.fibre_plain _ rfl]
  simp [wp]

/-- One register written in each lane: `v` is read in the state in which the lines have been used, where every operand reads as before (`State.used_rd`). -/
theorem laneInstr_setsReg {i : Instr} {s : State} (h : Ready i s) (d : VReg) (v : Ctx → State → Nat → Word) (hd : dsts i = [d.toNat])
    (he : exec i s = laneInstr i s (fun x s l => wr d (v x s l))) : SetsReg i s d.toNat (v s.ctx (s.used i)) := by
  obtain ⟨t, ht, hl⟩ := laneInstr_lanes h (fun x s l => wr d (v x s l)) (fun l => by simp [wr]) (fun l n => by simp [wr, hd])
  simp only [wr_fibre] at hl
  exact ⟨t, he.trans ht, hl⟩

/-- One register written in each lane, with flags. -/
theorem laneInstr_setsFloat {i : Instr} {s : State} (h : Ready i s) (d : VReg) (v : Ctx → State → Nat → Word × BitVec 8) (hd : dsts i = [d.toNat])
    (he : exec i s = laneInstr i s (fun x s l => wrf d (v x s l))) : SetsFloat i s d.toNat (v s.ctx (s.used i)) := by
  obtain ⟨t, ht, hl⟩ := laneInstr_lanes h (fun x s l => wrf d (v x s l)) (fun l => by simp [wrf]) (fun l n => by simp [wrf, hd])
  simp only [wrf_fibre] at hl
  exact ⟨t, he.trans ht, hl⟩

/-- One predicate written in each lane. -/
theorem laneInstr_setsPred {i : Instr} {s : State} (h : Ready i s) (p : Nib) (v : Ctx → State → Nat → Bool) (hd : dsts i = [])
    (he : exec i s = laneInstr i s (fun x s l => wp p (v x s l))) : SetsPred i s p (v s.ctx (s.used i)) := by
  obtain ⟨t, ht, hl⟩ := laneInstr_lanes h (fun x s l => wp p (v x s l)) (fun l => by simp [wp]) (fun l n => by simp [wp, hd])
  simp only [wp_fibre] at hl
  exact ⟨t, he.trans ht, hl⟩

end Sys2Proof.Machine
end

