-- ==== Sys2Proof/Laws/Landing.lean ====
section
/-! SUPPORT. Every operation that writes memory keeps it in its canonical form, and what a write of the model's primitives leaves at an address. -/

namespace Sys2Proof.Machine

/-- A fold keeps what each of its steps keeps. -/
theorem foldl_keeps {α β : Type} (P : β → Prop) (f : β → α → β) (h : ∀ b a, P b → P (f b a)) (l : List α) (b : β) (hb : P b) : P (l.foldl f b) := by
  induction l generalizing b with
  | nil => exact hb
  | cons a l ih => exact ih _ (h b a hb)

theorem memOk_of_mem {s t : State} (h : t.mem = s.mem) (hs : s.MemOk) : t.MemOk := by
  unfold State.MemOk; rw [h]; exact hs

theorem State.modUnit_memOk (s : State) (u : Nat) (f : UnitSt → UnitSt) (h : s.MemOk) : (s.modUnit u f).MemOk := h

theorem reset_memOk : State.reset.MemOk := SMap.wf_nil _

@[simp] theorem fire_mem (s : State) (ls : List Nat) : (fire s ls).mem = s.mem := rfl

@[simp] theorem fireIn_mem (s : State) (p : UnitSt → Bool) (ls : List Nat) : (fireIn s p ls).mem = s.mem := rfl

/-- Cells written one by one: the canonical form stays. -/
theorem Memory.wf_cells (m : Memory) (cells : List (Nat × Byte)) (h : Memory.wf m) :
    Memory.wf (cells.foldl (fun m c => Memory.write m c.1 c.2) m) :=
  foldl_keeps Memory.wf _ (fun _ c hb => Memory.wf_write c.1 c.2 hb) cells m h

/-- An address that no cell names reads as before. -/
theorem Memory.read_cells (m : Memory) (cells : List (Nat × Byte)) (a : Nat) (h : ∀ c ∈ cells, c.1 ≠ a) :
    Memory.read (cells.foldl (fun m c => Memory.write m c.1 c.2) m) a = Memory.read m a := by
  induction cells generalizing m with
  | nil => rfl
  | cons c cs ih =>
    rw [List.foldl_cons, ih _ (fun d hd => h d (by simp [hd])), Memory.read_write, if_neg (h c (by simp))]

/-- A fold over states that changes no memory. -/
theorem foldl_mem {α : Type} (f : State → α → State) (h : ∀ s a, (f s a).mem = s.mem) (l : List α) (s : State) : (l.foldl f s).mem = s.mem := by
  induction l generalizing s with
  | nil => rfl
  | cons a l ih => rw [List.foldl_cons, ih, h]

/-- What a write leaves in memory: its cells, in order. -/
theorem State.put_mem (s : State) (n : Option Nat) (direct : Bool) (cells : List (Nat × Byte)) :
    (s.put n direct cells).mem = cells.foldl (fun m c => Memory.write m c.1 c.2) s.mem := by
  have key : ∀ (l : List Nat) (f : State → Nat → LineSt → LineSt) (r : State),
      (l.foldl (fun s k => s.modLine k (f s k)) r).mem = r.mem := fun l f r => foldl_mem (fun s k => s.modLine k (f s k)) (fun _ _ => rfl) l r
  have mark : ∀ (b : Bool) (t : State) (w : Nat) (f : NodeSt → NodeSt), (if b then t.modNode w f else t).mem = t.mem := by
    intro b t w f; cases b <;> rfl
  unfold State.put
  cases n with
  | none => exact key _ _ _
  | some w => exact (mark _ _ _ _).trans (key _ _ _)

theorem State.land_mem (s : State) (n : Option Nat) (direct : Bool) (cells : List (Nat × Byte)) :
    (s.land n direct cells).mem = cells.foldl (fun m c => Memory.write m c.1 c.2) s.mem := State.put_mem s n direct cells

theorem State.put_memOk (s : State) (n : Option Nat) (direct : Bool) (cells : List (Nat × Byte)) (h : s.MemOk) : (s.put n direct cells).MemOk := by
  unfold State.MemOk; rw [State.put_mem]; exact Memory.wf_cells _ _ h

theorem State.land_memOk (s : State) (n : Option Nat) (direct : Bool) (cells : List (Nat × Byte)) (h : s.MemOk) : (s.land n direct cells).MemOk :=
  State.put_memOk s n direct cells h

/-- Poison in a line, and the entries that it loses, change no byte. -/
@[simp] theorem poisonLine_mem (s : State) (k : Nat) : (poisonLine s k).mem = s.mem := by
  unfold poisonLine
  simp only
  split <;> rfl

/-- The DRAM outcome of a sector changes no byte. -/
theorem decodeSector_mem (s : State) (k : Nat) : (decodeSector s k).mem = s.mem := by
  unfold decodeSector
  split
  · rfl
  · simp only; split
    · rfl
    · exact poisonLine_mem _ _
    · exact poisonLine_mem _ _

theorem decodeRange_mem (s : State) (loc n : Nat) : (decodeRange s loc n).mem = s.mem := by
  unfold decodeRange
  split
  · rfl
  · exact foldl_mem _ decodeSector_mem _ _

/-- A symbol error of a row, and its correction, change no byte of memory. -/
theorem touchRow_mem (s : State) (u row : Nat) : (touchRow s u row).mem = s.mem := by
  unfold touchRow
  simp only
  repeat' split
  all_goals rfl

theorem stageLine_memOk (s : State) (n : Option Nat) (l : Leaf) (o : Nat) (h : s.MemOk) : (stageLine s n l o).MemOk := by
  unfold stageLine
  simp only
  split
  · exact h
  · refine Memory.wf_writeN _ _ ?_
    rw [decodeRange_mem]; exact h

/-- Bytes that land on a page, staged or not, keep the canonical form. -/
theorem landPage_memOk (s : State) (n : Option Nat) (l : Leaf) (b : Nat) (offs : List (Nat × Byte)) (h : s.MemOk) : (landPage s n l b offs).MemOk := by
  unfold landPage
  split
  · exact State.put_memOk _ _ _ _ (foldl_keeps State.MemOk _ (fun s k hs => stageLine_memOk s n l _ hs) _ _ h)
  · exact State.land_memOk _ _ _ _ h

-- the pool and the image ---------------------------------------------------------------------------------------------

theorem setPresence_memOk (s : State) (u row : Nat) (h : s.MemOk) : (setPresence s u row).MemOk := Memory.wf_write _ _ h

theorem writeBack_memOk (s : State) (u row : Nat) (h : s.MemOk) : (writeBack s u row).MemOk :=
  setPresence_memOk _ _ _ (Memory.wf_writeN _ _ h)

theorem evictRow_memOk (s : State) (u row : Nat) (h : s.MemOk) : (evictRow s u row).MemOk := by
  refine State.modUnit_memOk _ _ _ ?_
  split
  · exact writeBack_memOk _ _ _ (memOk_of_mem (touchRow_mem _ _ _) h)
  · exact h

theorem fillRow_mem (s : State) (u row : Nat) : (fillRow s u row).mem = s.mem := by
  have key : ∀ (b : Bool) (t : State) (f : UnitSt → UnitSt), t.mem = s.mem → ((if b then t else s).modUnit u f).mem = s.mem := by
    intro b t f ht; cases b
    · rfl
    · exact ht
  unfold fillRow
  split
  · rfl
  · exact key _ _ _ (decodeRange_mem _ _ _)

theorem fillRow_memOk (s : State) (u row : Nat) (h : s.MemOk) : (fillRow s u row).MemOk := memOk_of_mem (fillRow_mem s u row) h

theorem fetchRow_memOk (s : State) (u row : Nat) (h : s.MemOk) : (fetchRow s u row).MemOk := by
  unfold fetchRow
  split
  · exact h
  · refine fillRow_memOk _ _ _ ?_
    split
    · split
      · exact evictRow_memOk _ _ _ h
      · exact h
    · exact h

theorem writeThrough_memOk (s : State) (u row : Nat) (cells : List (Nat × Byte)) (whole mark : Bool) (h : s.MemOk) :
    (writeThrough s u row cells whole mark).MemOk := by
  unfold writeThrough
  refine setPresence_memOk _ _ _ (foldl_keeps Memory.wf _ (fun m c hm => Memory.wf_write _ _ hm) _ _ ?_)
  have hd : Memory.wf (if presence s u row && !whole then decodeRange s (rowPlace (s.unit u) row) 128 else s).mem := by
    split
    · rw [decodeRange_mem]; exact h
    · exact h
  split
  · exact hd
  · exact Memory.wf_writeN _ _ hd

/-- Bytes that land in a line of a unit, wherever it lies, keep the canonical form of memory. -/
theorem landRow_memOk (s : State) (u row : Nat) (cells : List (Nat × Byte)) (mark : Bool) (h : s.MemOk) : (landRow s u row cells mark).MemOk := by
  have hf : (if (s.unit u).core.isSome then fetchRow s u row else s).MemOk := by
    split
    · exact fetchRow_memOk _ _ _ h
    · exact h
  have key : ∀ (t : State) (w : Bool) (f : State → UnitSt → UnitSt), t.MemOk →
      ((if w then t else touchRow t u row).modUnit u (f (if w then t else touchRow t u row))).MemOk := by
    intro t w f ht; cases w
    · exact State.modUnit_memOk _ _ _ (memOk_of_mem (touchRow_mem _ _ _) ht)
    · exact State.modUnit_memOk _ _ _ ht
  have both : ∀ (t : State) (w : Bool) (f : State → UnitSt → UnitSt), t.MemOk →
      (if !((t.unit u).row row).here then writeThrough t u row cells w mark
       else (if w then t else touchRow t u row).modUnit u (f (if w then t else touchRow t u row))).MemOk := by
    intro t w f ht
    split
    · exact writeThrough_memOk _ _ _ _ _ _ ht
    · exact key _ _ _ ht
  exact both _ _ (fun t y => (y.putCells row cells).modRow row (fun w => { w with
    dirty := true, used := t.now, poison := mark || (w.poison && !decide (128 ≤ ((cells.map (fun c => c.1)).eraseDups).length)),
    bad := if decide (128 ≤ ((cells.map (fun c => c.1)).eraseDups).length) then [] else w.bad })) hf

theorem landScr_memOk (s : State) (u off : Nat) (cells : List (Nat × Byte)) (bad : List Nat) (h : s.MemOk) : (landScr s u off cells bad).MemOk :=
  foldl_keeps State.MemOk _ (fun t _ ht => landRow_memOk t _ _ _ _ ht) _ _ h

theorem landRegs_memOk (s : State) (u c : Nat) (vs : List (Nat × Nat × Word)) (bad : List Nat) (h : s.MemOk) : (landRegs s u c vs bad).MemOk :=
  foldl_keeps State.MemOk _ (fun t _ ht => landRow_memOk t _ _ _ _ ht) _ _ h

theorem State.poke_memOk (s : State) (a x n : Nat) (h : s.MemOk) : (s.poke a x n).MemOk := Memory.wf_writeN _ _ h

theorem pokeAll_memOk (s : State) (a n : Nat) (xs : List Nat) (h : s.MemOk) : (pokeAll s a n xs).MemOk :=
  foldl_keeps State.MemOk _ (fun t _ ht => State.poke_memOk t _ _ _ ht) _ _ h

end Sys2Proof.Machine
end

