-- ==== Sys2Proof/Laws/Preds.lean ====
section
/-! SUPPORT. The predicate words: `p0` stays true under a write of any predicate, and under the ways in which fibres and units change. -/

namespace Sys2Proof.Machine

/-- A write of a predicate leaves bit 0 (R3: a write of `p0` is discarded). -/
theorem setPred_zero (w : BitVec 16) (p : Nib) (v : Bool) : (setPred w p v).getLsbD 0 = w.getLsbD 0 := by
  unfold setPred
  by_cases h : p = 0
  · simp [h]
  · have h0 : p.toNat ≠ 0 := fun e => h (BitVec.eq_of_toNat_eq (by simpa using e))
    rw [if_neg h]
    cases v <;> simp [h0.symm]

/-- Writes of several predicates leave bit 0. -/
theorem setPreds_zero (l : List (Nib × Bool)) (w : BitVec 16) : (l.foldl (fun w p => setPred w p.1 p.2) w).getLsbD 0 = w.getLsbD 0 := by
  induction l generalizing w with
  | nil => rfl
  | cons p l ih => rw [List.foldl_cons, ih, setPred_zero]

/-- What `State.P0` says of one unit. -/
def UnitSt.P0 (y : UnitSt) : Prop := ∀ f ∈ y.fibs, f.pred.getLsbD 0 = true

theorem State.P0_iff (s : State) : s.P0 ↔ ∀ y ∈ s.units, y.P0 := Iff.rfl

theorem reset_P0 : State.reset.P0 := by simp [State.P0, State.reset]

/-- A change of one unit keeps `P0` where it keeps it of that unit. -/
theorem State.modUnit_P0 (s : State) (u : Nat) (f : UnitSt → UnitSt) (hf : ∀ y, y.P0 → (f y).P0) (h : s.P0) : (s.modUnit u f).P0 := by
  intro y hy
  obtain ⟨k, hk, rfl⟩ := List.mem_iff_getElem.mp hy
  have hk' : k < s.units.length := by simpa [State.modUnit] using hk
  have e : (s.modUnit u f).units[k] = if u = k then f s.units[k] else s.units[k] := by simp [State.modUnit, List.getElem_modify]
  rw [e]
  split
  · exact hf _ (h _ (List.getElem_mem hk'))
  · exact h _ (List.getElem_mem hk')

/-- A change of one fibre keeps `P0` of a unit where it keeps bit 0 of the predicate word. -/
theorem UnitSt.modFib_P0 (y : UnitSt) (k : Nat) (f : Fibre → Fibre) (hf : ∀ x, x.pred.getLsbD 0 = true → (f x).pred.getLsbD 0 = true) (h : y.P0) :
    ({ y with fibs := y.fibs.modify k f } : UnitSt).P0 := by
  intro x hx
  obtain ⟨j, hj, rfl⟩ := List.mem_iff_getElem.mp hx
  have hj' : j < y.fibs.length := by simpa using hj
  have e : (y.fibs.modify k f)[j] = if k = j then f y.fibs[j] else y.fibs[j] := by simp [List.getElem_modify]
  rw [e]
  split
  · exact hf _ (h _ (List.getElem_mem hj'))
  · exact h _ (List.getElem_mem hj')

theorem State.modFib_P0 (s : State) (u k : Nat) (f : Fibre → Fibre) (hf : ∀ x, x.pred.getLsbD 0 = true → (f x).pred.getLsbD 0 = true) (h : s.P0) :
    (s.modFib u k f).P0 := State.modUnit_P0 s u _ (fun y hy => UnitSt.modFib_P0 y k f hf hy) h

/-- A crew is no part of `P0`. -/
theorem State.modCrew_P0 (s : State) (u c : Nat) (f : Crew → Crew) (h : s.P0) : (s.modCrew u c f).P0 :=
  State.modUnit_P0 s u _ (fun _ hy => hy) h

/-- A fibre that a basin slot starts has `p0` true, whatever the slot's bytes are. -/
theorem slotAt_P0 (s : State) (u k : Nat) : (slotAt s u k).pred.getLsbD 0 = true := by
  show (BitVec.ofNat 16 _ ||| 1).getLsbD 0 = true
  simp

/-- The effects of an instruction in its lanes keep `P0`, where what they do to the fibre beside its predicates does. -/
theorem LaneFx.fibre_P0 (fx : LaneFx) (f : Fibre) (h : f.pred.getLsbD 0 = true) : (fx.fibre f).pred.getLsbD 0 = true := by
  show (fx.preds.foldl (fun w p => setPred w p.1 p.2) f.pred).getLsbD 0 = true
  rw [setPreds_zero]; exact h

end Sys2Proof.Machine
end

