-- ==== Sys2Proof/Tests/Slice0.lean ====
section
/-! SUPPORT. Tests: ill-formed terms that the checks refuse, words written out from the encodings of the spec, one step of single instructions with
results worked out from the spec, and for each statement a state and operands that meet its hypotheses. -/

namespace Sys2Proof.Tests

open Sys2Proof.Machine

set_option maxRecDepth 20000
set_option Elab.async false

-- small states -------------------------------------------------------------------------------------------------------

/-- One fibre in lane 0 of crew 0 of unit 0, at the last instruction of its clause. -/
def base : State := (placeFetch State.reset 0).modUnit 0 (fun y => { y with rows := (List.range 64 ++ [1023, 32768, 32769, 32770, 38911, 49152, 49153, 49154, 49155, 49280, 49281, 51200, 51201, 51202]).map (fun r => (r, { here := true })) })
/-- The same inside a clause of two instructions. -/
def mid : State := base.modEntry 0 0 0 (fun e => { e with hdr := 0xE001FE20 })
/-- The fibre runs its handler. -/
def hand : State := base.modEntry 0 0 0 (fun e => { e with handler := true })
/-- The unit holds its core's engine. -/
def eng : State := { base with cores := [(0, { engine := some 0 })] }
/-- A deterministic launch. -/
def det : State := base.modUnit 0 (fun y => { y with cfg := { y.cfg with det := true } })
/-- A fibre of the unit's redundant leading copy. -/
def red : State := base.modUnit 0 (fun y => { y with cfg := { y.cfg with red := true } })
/-- Registers of lane 0. -/
def regs (s : State) (rs : List (Nat × Word)) : State :=
  s.modUnit 0 (fun y => { y with regs := rs.foldl (fun m e => SMap.set 0 m (regKey 0 e.1 0) e.2) y.regs })
/-- The state an instruction leaves. -/
def after (i : Instr) (s : State) : State := match exec i s with | .next t => t | _ => State.reset
/-- A register of lane 0. -/
def r (s : State) (k : Nat) : Word := (s.unit 0).reg 0 0 k
/-- The fibre of lane 0. -/
def fib (s : State) : Fibre := (s.unit 0).fib 0

/-- The pool holds these lines of the unit here, sound; `clean`: and none of them is poisoned. -/
def linesOk (s : State) (rs : List Nat) (clean : Bool) : Bool :=
  rs.all (fun r => (s.here.row r).here && (s.here.row r).bad == [] && !(clean && (s.here.row r).poison))

/-- The conditions of `Ready`, as a Boolean. -/
def readyOk (i : Instr) (s : State) : Bool :=
  standing s && !waiting s s.ctx && s.ctx.act != 0 && (dynCheck s s.ctx i).isNone && !scoreboard s s.ctx i && linesOk s (readRows s s.ctx i) true &&
    linesOk s (destRows s s.ctx i) false && streamsOf s s.ctx i == []

theorem reads_of {s : State} {rs : List Nat} (h : linesOk s rs true = true) : s.here.Reads rs := by
  intro r hr
  have := List.all_eq_true.mp h r hr
  simp only [Bool.and_eq_true, beq_iff_eq, Bool.true_and, Bool.not_eq_true'] at this
  exact ⟨⟨this.1.1, this.1.2⟩, this.2⟩

theorem holds_of {s : State} {rs : List Nat} (h : linesOk s rs false = true) : s.here.HoldsAll rs := by
  intro r hr
  have := List.all_eq_true.mp h r hr
  simp only [Bool.and_eq_true, beq_iff_eq] at this
  exact this.1

theorem ready_of {i : Instr} {s : State} (h : readyOk i s = true) : Ready i s := by
  simp only [readyOk, Bool.and_eq_true, Bool.not_eq_true', bne_iff_ne, ne_eq, Option.isNone_iff_eq_none, beq_iff_eq] at h
  obtain ⟨⟨⟨⟨⟨⟨⟨a, b⟩, c⟩, d⟩, e⟩, f⟩, g⟩, k⟩ := h
  exact ⟨a, b, c, d, e, reads_of f, holds_of g, k⟩

/-- A property of every entry of a crew, from the entries that its table lists. -/
theorem entries_of {c : Crew} {p : Entry → Prop} (h : ∀ e ∈ c.split, p e) (d : p {}) (k : Nat) : p (c.entry k) := by
  unfold Crew.entry
  rw [List.getD_eq_getElem?_getD]
  rcases hk : c.split[k]? with _ | e
  · simpa using d
  · simpa using h e (List.mem_of_getElem? hk)

-- what the checks refuse ---------------------------------------------------------------------------------------------

/-- Check 3 of Table 11-15: a reserved code (a fault kind of FINJ above 2, a stage of XBFLY above 4, an empty path set of FENCE.X). -/
theorem test_wf_reserved : ([.finj 1 2 3, .xbfly 5 .bit 1 2, .fenceX 0 1, .strm 0 16 3 0, .rept 1 0 0 0 0 5 false] : List Instr).all
    (fun i => !i.resOk && !i.wf) = true := by decide
/-- Check 4: a pair from register 127, a block past the window, a mask above 11, TRAP 15. -/
theorem test_wf_range : ([.ldW .rlx 7 1 127 0, .ldQ .rlx 7 125 2 0, .join 12, .trap 15, .copy 121, .cyc 127] : List Instr).all
    (fun i => !i.rangeOk && !i.wf) = true := by decide
/-- Check 5: a load that releases, a store that acquires. -/
theorem test_wf_order : ([.ldW .rel 7 1 2 0, .stW .acq 7 1 2 0] : List Instr).all (fun i => !i.ordOk && !i.wf) = true := by decide
/-- Check 8: E8M0 as a destination, and INT8 as A of an FP32 product; the word decodes all the same. -/
theorem test_wf_combination : ([.cvt .f32 .e8m0 false .rne 1 2, .mma 0 32 40 .i8 .bf16 .f32] : List Instr).all (fun i => !i.comboOk) = true := by decide
/-- An event has no instruction word. -/
theorem test_wf_event : (Instr.powerOn.wf, encode .powerOn) = (false, none) := by decide

-- words written out from the encodings -------------------------------------------------------------------------------

/-- A word of format R (Table 11-2): major, minor, d, a, b. -/
def wR (major : BitVec 6) (minor : BitVec 5) (d a b : BitVec 7) : Word := major ++ minor ++ d ++ a ++ b

/-- Formats B, J, L, X (Tables 11-4 to 11-6, 11-8): control, masks, loops, windows. -/
theorem test_decode_control :
    decodeWord (0x01#6 ++ 3#4 ++ 0#1 ++ 5#21) = .ok (.br 3 false 5) ∧ decodeWord (0x02#6 ++ 0x3FFFFFF#26) = .ok (.bra 0x3FFFFFF) ∧
    decodeWord (0x03#6 ++ 9#7 ++ 0#1 ++ 12#18) = .ok (.call 9 12) ∧ decodeWord (0x03#6 ++ 9#7 ++ 1#1 ++ 4#7 ++ 0#11) = .ok (.callReg 9 4) ∧
    decodeWord (0x05#6 ++ 0#1 ++ 7#6 ++ 0x7FFFF#19) = .ok (.brFar 7 0x7FFFF) ∧ decodeWord (wR 0x06 3 9 4 5) = .ok (.fork 3 9 4 5) ∧
    decodeWord (wR 0x07 3 9 0 11) = .ok (.mread 9 11) ∧
    decodeWord (0x08#6 ++ 5#7 ++ 3#2 ++ 2#2 ++ 1#2 ++ 0#2 ++ 8#7 ++ 1#1 ++ 0#3) = .ok (.rept 5 3 2 1 0 8 true) ∧
    decodeWord (0x09#6 ++ 0#1 ++ 2#2 ++ 16#7 ++ 1#2 ++ 2#2 ++ 0#12) = .ok (.strm 2 16 1 2) ∧
    decodeWord (0x09#6 ++ 1#1 ++ 3#2 ++ 0#23) = .ok (.strmOff 3) ∧ decodeWord (wR 0x0A 1 0 0 0x7F) = .ok (.wbaseRel 0x7F) ∧
    decodeWord (wR 0x0A 9 0x10 4 0) = .ok (.swrite .fpmode 4) := by decide

/-- The example program of the manual (file 11) and a few words of the integer families. -/
theorem test_decode_integer :
    decodeWord 0x29004000 = .ok (.sread 1 .fibreIdx) ∧ decodeWord 0x2C008081 = .ok (.iadd 2 1 1) ∧ decodeWord 0x38181064 = .ok (.addi 3 1 100) ∧
    decodeWord 0x9C00C120 = .ok (.stS .rlx 0 3 2 .w 0) ∧ decodeWord 0x19000000 = .ok .endFibre ∧
    decodeWord (wR 0x0C 4 1 2 3) = .ok (.imadS 1 2 3) ∧ decodeWord (wR 0x0D 5 1 2 3) = .ok (.bfi 1 2 3) ∧
    decodeWord (0x12#6 ++ 1#7 ++ 2#7 ++ 2#2 ++ 0#5 ++ 9#5) = .ok (.shriI 1 2 9) ∧ decodeWord (0x14#6 ++ 1#7 ++ 0x40000#19) = .ok (.movh 1 0x40000) ∧
    decodeWord (wR 0x15 0b01110 3 1 2) = .ok (.icmp .le true 3 1 2) ∧ decodeWord (wR 0x16 0b00101 3 1 2) = .ok (.plop .or false true 3 1 2) ∧
    decodeWord (wR 0x17 31 1 2 3) = .ok (.lea 31 1 2 3) := by decide

/-- Floating point, conversion and exchange. -/
theorem test_decode_float :
    decodeWord (wR 0x18 8 1 2 3) = .ok (.fsub .rdn 1 2 3) ∧ decodeWord (wR 0x19 0b10100 1 2 3) = .ok (.ffma true false .fpm 1 2 3) ∧
    decodeWord (wR 0x1A 2 6 3 1) = .ok (.fsqrt .rtz 6 3) ∧ decodeWord (wR 0x1A 10 7 3 0) = .ok (.fclass 7 3) ∧
    decodeWord (wR 0x1B 0b11000 3 1 2) = .ok (.fcmp .un 3 1 2) ∧ decodeWord (wR 0x1C 0b00001 9 8 0b0011010) = .ok (.cvt .f32 .e4m3 true .rup 9 8) ∧
    decodeWord (wR 0x1D 0b10100 9 8 0b0011100) = .ok (.cvtS .i8 false false 9 8 7 0) ∧ decodeWord (wR 0x1E 4 1 2 3) = .ok (.pickMir 1 2 3) ∧
    decodeWord (wR 0x1F 0b10010 32 32 0) = .ok (.xbfly 4 .word 32 32) ∧ decodeWord (wR 0x20 9 1 2 0) = .ok (.foldMinI 1 2) := by decide

/-- Memory, atomics and synchronisation: minor is ORD and SCOPE (R252). -/
theorem test_decode_memory :
    decodeWord (wR 0x21 0b01101 1 2 0x7F) = .ok (.ldW .acq 5 1 2 0x7F) ∧ decodeWord (wR 0x23 0b00111 1 2 0b1000011) = .ok (.ldH .rlx 7 1 2 3) ∧
    decodeWord (wR 0x27 0b00011 1 2 0b1101111) = .ok (.stG .rlx 3 1 2 .q 7) ∧
    decodeWord (wR 0x28 0b11111 0b0001011 2 3) = .ok (.atom .ar 7 false .min .n32 true 2 3) ∧
    decodeWord (wR 0x2B 0b00111 1 2 0b1000000) = .ok (.addDs .rlx 7 1 2) ∧ decodeWord 0xB0010110 = .ok (.fenceX 4 2) ∧
    decodeWord (wR 0x2D 0b00010 3 2 0b0110000) = .ok (.barArrw 2 3 2) ∧ decodeWord 0xB8018180 = .ok (.berOpen 6 3) := by decide

/-- The tile engine, engine commands, work and system. -/
theorem test_decode_tile :
    decodeWord (0x2F#6 ++ 0#4 ++ 32#7 ++ 40#7 ++ 1#3 ++ 3#3 ++ 0#2) = .ok (.mma 0 32 40 .f16 .e5m2 .f32) ∧
    decodeWord 0xC8000214 = .ok (.scacc 0 4 20) ∧ decodeWord 0xC820C400 = .ok (.accLd 3 8 false 0) ∧ decodeWord 0xC840C405 = .ok (.accSt 3 8 true 1) ∧
    decodeWord 0xC8A40101 = .ok (.plane 16 2 .bf16) ∧ decodeWord 0xCC004100 = .ok (.ruleLd 1 2) ∧ decodeWord 0xCC200400 = .ok (.sweep 0 0 8 0) ∧
    decodeWord 0xD0004000 = .ok (.engAcq 1) ∧ decodeWord 0xD0400800 = .ok (.copy 16) ∧ decodeWord 0xD4200800 = .ok (.frame 16) ∧
    decodeWord 0xD8600000 = .ok .stepAdv := by decide

/-- The examples of illegal words of the manual (file 11): a combination, a reserved code, a marker bit. -/
theorem test_decode_traps :
    decodeWord 0xBC102803 = .error .reserved ∧ Bad.cause .reserved = 1 ∧ decodeWord 0xE0000000 = .error .marker ∧ Bad.cause .marker = 6 ∧ decodeWord 0xBC102854 = .ok (.mma 0 32 40 .e4m3 .i4 .f32) ∧
    Instr.comboOk (.mma 0 32 40 .e4m3 .i4 .f32) = false := by decide

-- every instruction word runs somewhere ------------------------------------------------------------------------------

/-- `Ready` holds for control, integer, floating-point and exchange instructions where the fibre of `base` stands. -/
theorem test_ready_lanes : ([.br 1 true 2, .bra 2, .call 1 2, .callReg 1 2, .ret 1, .jr 1, .brFar 3 2, .fork 0 1 2 3, .endFibre, .join 3, .leave 3, .wait 3,
    .mread 1 3, .rept 1 0 1 1 0 0 false, .wbase 2, .wbaseRel 2, .wbaseReg 2, .sread 1 .cyc, .swrite .fpmode 1, .iadd 1 2 3, .iaddS 1 2 3,
    .isub 1 2 3, .isubS 1 2 3, .iminI 1 2 3, .iminN 1 2 3, .imaxI 1 2 3, .imaxN 1 2 3, .iand 1 2 3, .ior 1 2 3, .ixor 1 2 3, .iandn 1 2 3,
    .shl 1 2 3, .shrN 1 2 3, .shrI 1 2 3, .rot 1 2 3, .sel 1 2 3, .iabs 1 2, .ineg 1 2, .imul 1 2 3, .imulhI 1 2 3, .imulhN 1 2 3,
    .imad 1 2 3, .imadS 1 2 3, .idivI 1 2 3, .idivN 1 2 3, .iremI 1 2 3, .iremN 1 2 3, .popc 1 2, .clz 1 2, .ctz 1 2, .brev 1 2,
    .bfx 1 2 3, .bfi 1 2 3, .addi 1 2 3, .andi 1 2 3, .ori 1 2 3, .xori 1 2 3, .shli 1 2 3, .shriN 1 2 3, .shriI 1 2 3, .roti 1 2 3,
    .movi 1 2, .movh 1 2, .icmp .lt false 1 2 3, .plop .and false true 1 2 3, .lea 2 1 2 3, .fadd .rne 1 2 3, .fsub .rne 1 2 3,
    .fmul .rne 1 2 3, .fmin 1 2 3, .fmax 1 2 3, .ffma false false .rne 1 2 3, .frcp .rne 1 2, .frsq .rne 1 2, .fsqrt .rne 1 2,
    .fexp2 .rne 1 2, .flog2 .rne 1 2, .fabs 1 2, .fneg 1 2, .ffloor 1 2, .fceil 1 2, .frint .rne 1 2, .fclass 1 2, .fcmp .eq 1 2 3,
    .cvt .f32 .bf16 false .rne 1 2, .cvt .e8m0 .f32 false .rne 1 2, .cvtS .e4m3 false false 1 2 3 0, .pickAt 1 2 3, .pickLead 1 2 3,
    .pickBack 1 2 3, .pickFwd 1 2 3, .pickMir 1 2 3, .xbfly 4 .word 32 32, .pollEvery 1 2, .pollSome 1 2, .pollMap 1 2, .foldAdd 1 2,
    .foldMinI 1 2, .foldMinN 1 2, .foldMaxI 1 2, .foldMaxN 1 2, .foldAnd 1 2, .foldOr 1 2, .foldXor 1 2, .nop, .bkpt, .halt,
    .trap 3, .cyc 2] : List Instr).all (fun i => i.wf && readyOk i base) = true := by decide

/-- The same for memory, synchronisation, berth, engine-command and work instructions. -/
theorem test_ready_memory : ([.ldW .rlx 7 8 2 0, .ldQ .acq 7 8 2 0, .ldB .rlx 7 8 2 0, .ldH .rlx 7 8 2 0, .stW .rel 7 8 2 0, .stQ .rlx 7 8 2 0, .stB .rlx 7 8 2 0,
    .stH .rlx 7 8 2 0, .ldS .rlx 0 8 2 .w 0, .stS .rlx 0 8 2 .q 0, .ldG .rlx 3 8 2 .w 0, .stG .rlx 3 8 2 .b 0, .atom .ar 7 false .add .i32 false 2 4,
    .red .rlx 7 true .add .f32 false 2 4, .atomc .rlx 7 false 2 4, .ldDs .rlx 7 8 2, .stDs .rlx 7 8 2, .addDs .rlx 7 8 2,
    .redDs .rlx 7 8 2, .fence .ar 7, .fenceX 1 2, .monitor 2, .mwait 7, .tagSet .rlx 7 8 2, .tagGet .rlx 7 8 2, .pref 2, .barInit 8 2 false,
    .barArr 3 2, .barWait 0 2, .barArrw 0 1 2, .unitSync, .gangSync, .berOpen 8 1, .berPub 2, .stBerth .rlx 7 8 2, .tagRetire 2,
    .engAcq 1, .engRel, .copy 16, .gather 16, .coll 16, .frame 16, .post 8 2 4, .cancel 8 2 0, .cntRd 8 2 0, .stepAdv, .rednCtlSync] : List Instr).all
    (fun i => i.wf && readyOk i base) = true := by decide

/-- The same for the tile engine, in a unit that holds it. -/
theorem test_ready_tile : ([.mma 0 32 8 .bf16 .bf16 .f32, .mmaSp 0 32 8 .bf16 .bf16 .f32, .mmaP 0 32 8 .bf16 .bf16 .f32, .scacc 0 1 8, .accLd 0 8 false 0, .accSt 0 8 true 1, .accZero 0 false 0,
    .accCvt .bf16 0 8 false false 0 false 0, .plane 4 8 .bf16, .unplane 4 8 .i4, .cbLd 8, .ruleLd 0 8, .sweep 0 0 8 0, .sweepR 0 0 8 0,
    .trace 16 8, .bndIn 8 16, .bndOut 0 0 8] : List Instr).all (fun i => i.wf && readyOk i eng) = true := by decide

/-- ERET and the reads of handler mode, FINJ with TESTEN set, and the stream forms without the LOOP option. -/
theorem test_ready_modes : ([.eret false, .eret true, .rednCtlCount 1, .swrite .trapinfo0 1, .sread 1 .xrootLo] : List Instr).all (fun i => readyOk i hand) = true ∧
    readyOk (.finj 1 2 0) { base with jobctl := 0x200000000 } = true ∧
    ([.strm 0 16 0 0, .strmOff 0] : List Instr).all (fun i => readyOk i (base.modUnit 0 (fun y => { y with cfg := { y.cfg with part := 0x4610 } }))) = true := by decide

-- one step, with results worked out from the spec --------------------------------------------------------------------

/-- Table 12-1: IADD wraps, and the saturating form clamps and sets ISAT. -/
theorem test_iadd : let s := regs base [(1, 0x7FFFFFFF), (2, 1)]
    r (after (.iadd 3 1 2) s) 3 = 0x80000000 ∧ r (after (.iaddS 3 1 2) s) 3 = 0x7FFFFFFF ∧ (fib (after (.iaddS 3 1 2) s)).fpflags = 0x20 := by decide
/-- R274, Table 10-10: division by zero, and the one overflow. -/
theorem test_idiv : let s := regs base [(1, 0x80000000), (2, 0xFFFFFFFF), (3, 0)]
    r (after (.idivI 4 1 2) s) 4 = 0x80000000 ∧ r (after (.iremI 4 1 2) s) 4 = 0 ∧ r (after (.idivI 4 1 3) s) 4 = 0xFFFFFFFF ∧
    r (after (.iremN 4 1 3) s) 4 = 0x80000000 := by decide
/-- A count of 32 or more gives 0 or the sign; ROT takes the count modulo 32. -/
theorem test_shift : let s := regs base [(1, 0x80000001), (2, 33)]
    r (after (.shl 4 1 2) s) 4 = 0 ∧ r (after (.shrI 4 1 2) s) 4 = 0xFFFFFFFF ∧ r (after (.rot 4 1 2) s) 4 = 3 := by decide
/-- The source may be the destination: SEL reads d before it writes it. -/
theorem test_sel : r (after (.sel 3 1 2) (regs base [(1, 0xAAAA5555), (2, 0x12345678), (3, 0xFFFF0000)])) 3 = 0xAAAA5678 := by decide
/-- BFX with length 0 takes 32 bits from its position. -/
theorem test_bfx : r (after (.bfx 3 1 2) (regs base [(1, 0xABCD1234), (2, 16)])) 3 = 0xABCD := by decide
theorem test_movh : r (after (.movh 3 0x55555) (regs base [(3, 0xFFFFFFFF)])) 3 = 0xAAAABFFF := by decide
/-- 1.0 + 1.0 = 2.0 with no flag; 1.0 / 0 is an infinity with DZ. -/
theorem test_fadd : let t := after (.fadd .rne 3 1 2) (regs base [(1, 0x3F800000), (2, 0x3F800000)])
    r t 3 = 0x40000000 ∧ (fib t).fpflags = 0 := by decide
/-- R294: ∞ − ∞ is invalid. -/
theorem test_fsub_invalid : let t := after (.fsub .rne 3 1 2) (regs base [(1, 0x7F800000), (2, 0x7F800000)])
    r t 3 = 0x7FC00000 ∧ (fib t).fpflags = 1 := by decide
/-- R295: −0 is below +0, and a number is preferred to a NaN. -/
theorem test_fmin : let s := regs base [(1, 0), (2, 0x80000000), (3, 0x7FC00000)]
    r (after (.fmin 4 1 2) s) 4 = 0x80000000 ∧ r (after (.fmax 4 1 3) s) 4 = 0 := by decide
/-- R299: a negative subnormal is class 2. -/
theorem test_fclass : r (after (.fclass 3 1) (regs base [(1, 0x80000001)])) 3 = 4 := by decide
/-- FP32 1.5 to BF16 and back keeps its bits; E8M0 code 127 is 1.0. -/
theorem test_cvt : let s := regs base [(1, 0x3FC00000), (2, 127)]
    r (after (.cvt .f32 .bf16 false .rne 3 1) s) 3 = 0x3FC0 ∧ r (after (.cvt .e8m0 .f32 false .rne 3 2) s) 3 = 0x3F800000 := by decide
/-- FIBRE.IDX of another lane's register is not this lane's: a lane that holds no fibre supplies zero. -/
theorem test_pick : r (after (.pickAt 3 1 2) (regs base [(1, 7), (2, 0)])) 3 = 7 ∧ r (after (.pickAt 3 1 2) (regs base [(1, 7), (2, 5)])) 3 = 0 := by decide
/-- R256: SWRITE of a read-only register traps PRIV and parks the lane, since the unit has no handler. -/
theorem test_swrite_priv : let t := after (.swrite .cyc 1) base
    ((fib t).code, (fib t).cause) = (0x12, 0) ∧ (((t.unit 0).crew 0).entry 0).status = .parked := by decide
/-- R183: a trap that has a handler puts the lane there, with the low half of its PC in register 1,023. -/
theorem test_trap_handler : let t := after (.trap 5) (base.modUnit 0 (fun y => { y with cfg := { y.cfg with handler := 0x40000 } }))
    let e := ((t.unit 0).crew 0).entry 0
    (e.status, e.handler, e.pc, r t 1023, (fib t).code, (fib t).cause) = (.runnable, true, 0x40000, 0x1000, 0x70, 5) := by decide
/-- R288: ERET resumes at the address in register 1,023. -/
theorem test_eret : let e := (((after (.eret false) (regs hand [(1023, 0x2003)])).unit 0).crew 0).entry 0
    (e.pc, e.handler, e.status) = (0x2000, false, .runnable) := by decide
/-- R263, R251: a taken branch goes back four words; one not taken goes to the next header. -/
theorem test_br : ((((after (.br 0 false 0x1FFFFC) base).unit 0).crew 0).entry 0).pc = 0xFF0 ∧
    ((((after (.br 0 true 0x1FFFFC) base).unit 0).crew 0).entry 0).pc = 0x1004 := by decide
theorem test_call : let t := after (.call 9 4) base
    r t 9 = 0x1004 ∧ (((t.unit 0).crew 0).entry 0).pc = 0x1010 := by decide
set_option maxRecDepth 10000 in
/-- R188: END empties the lane. -/
theorem test_end : let t := after .endFibre base
    (((t.unit 0).crew 0).lanes.getD 0 none, (fib t).ended) = (none, true) := by decide
/-- A load sends one read of four bytes at the pair plus four times the offset; the entry waits for it. -/
theorem test_ldw : let t := after (.ldW .rlx 7 5 2 3) (regs base [(2, 0x100)])
    t.ops.map (fun o => (o.loc, o.size, o.dst, o.key)) = [(0x10C, 4, [5], none)] ∧ (((t.unit 0).crew 0).entry 0).hold = t.ops.map (fun o => o.id) := by decide
/-- A store enters the crew's queue with its low byte first. -/
theorem test_sth : let t := after (.stH .rlx 7 5 2 0) (regs base [(2, 0x100), (5, 0xAABBCCDD)])
    t.ops.map (fun o => (o.loc, o.data, o.phase)) = [(0x100, [0xDD, 0xCC], .queued)] ∧ ((t.unit 0).crew 0).fifo = t.ops.map (fun o => o.id) := by decide
/-- Table 1-6: a misaligned word traps ALIGN with its address. -/
theorem test_ldw_misaligned : let t := after (.ldW .rlx 7 5 2 0) (regs base [(2, 0x102)])
    ((fib t).code, (fib t).faddr, t.ops) = (0x23, 0x102, []) := by decide
/-- R322: LD.S zero-extends a byte. -/
theorem test_lds : let s := (regs base [(2, 0x10)]).modUnit 0 (fun y => { y with scr := [(0x10, 0xFE), (0x11, 0x77)] })
    r (after (.ldS .rlx 0 5 2 .b 0) s) 5 = 0xFE := by decide
/-- R346: a tile-engine instruction in a unit that does not hold the engine traps ENG_NOT_HELD. -/
theorem test_engine_held : (fib (after (.accZero 0 false 0) base)).code = 0x41 := by decide
/-- R241: ACC.ZERO clears one row of a tile. -/
theorem test_acc_zero : (after (.accZero 1 true 1) (eng.modUnit 0 (fun y => { y with acc := [(accKey 1 0 32, 9), (accKey 1 0 64, 9)] }))).units.map (fun y => y.acc)
    = [[(accKey 1 0 64, 9)]] := by decide
/-- R185, R186. -/
theorem test_join_leave : let t := after (.join 3) base
    ((t.unit 0).crew 0).masks.getD 3 0 = 1 ∧ (((after (.leave 3) { t with cur := (0, 0, 0), units := t.units.map (fun y => { y with crews := y.crews.map (fun c =>
      { c with split := (base.unit 0).crews.flatMap (fun d => d.split) }) }) }).unit 0).crew 0).masks.getD 3 9 = 0 := by decide
/-- R330: an address register pair above bit 55 is not canonical. -/
theorem test_monitor : (fib (after (.monitor 2) (regs base [(2, 0x280)]))).watch = some 5 ∧
    (fib (after (.monitor 2) (regs base [(3, 0x01000000)]))).code = 0x20 := by decide

-- what meets the hypotheses of the statements ------------------------------------------------------------------------

/-- What holds in lane 0 holds in every active lane where lane 0 is the only one. -/
theorem lane0 {s : State} {p : Nat → Prop} (h : lanesOf s.ctx.act = [0]) (h0 : p 0) : ∀ l, s.acts l → p l := by
  intro l hl
  have : l ∈ [0] := h ▸ hl
  rcases List.mem_singleton.mp this with rfl
  exact h0

theorem released_of {sc : Nat} {s : State} (h : lanesOf s.ctx.act = [0]) (hp : (s.fibre 0).pending = []) (ho : s.ops = []) (hb : s.here.barWaits = []) :
    Released sc s :=
  ⟨lane0 h hp, by simp [ho], Or.inr (by simp [hb])⟩

theorem room_of {s : State} {n : Nat} (h : (decide (s.crewHere.split.length ≤ 8) &&
    decide (n ≤ 1 + (s.crewHere.split.filter (fun e => e.status == .empty)).length)) = true) : Room s n := by
  simpa [Room, Bool.and_eq_true] using h

theorem draw_of {s : State} (h : lanesOf s.ctx.act = [0]) (hl : (decide (((s.fibre 0).serial - (s.fibre 0).low).toNat + 32 < 32768) &&
    decide (s.outst s.ctx.u (s.fibOf 0) + 32 ≤ 256) && decide ((s.ops.filter (fun o => o.phase != .answered && o.u == some s.ctx.u && o.cmd.isNone && !o.kind.own)).length + 32 ≤ 4096)) = true) :
    MayDraw s := by
  simp only [Bool.and_eq_true, decide_eq_true_eq] at hl
  exact ⟨lane0 h ⟨hl.1.1, hl.1.2⟩, hl.2⟩

/-- A fibre whose registers 2 and 3 hold a global address and whose register 4 a value. -/
def addr : State := regs base [(2, 0x100), (4, 7)]
/-- The place of that address. -/
def place : Place := ⟨.die 0, 0x100, 0x100, some ⟨0x201F, 2 ^ 36, 0x100⟩⟩
/-- The same in a deterministic launch. -/
def addrDet : State := addr.modUnit 0 (fun y => { y with cfg := { y.cfg with det := true, part := 0xC4610 } })

theorem test_hyp_IntegerArithmetic_IntegerAlu : Ready (.iadd 3 1 2) base := ready_of (by decide)
theorem test_hyp_IntegerArithmetic_IntegerSaturates : Ready (.iaddS 3 1 2) base := ready_of (by decide)
theorem test_hyp_MultiplyDivideImmediates_MultiplyDivide : Ready (.idivI 3 1 2) base := ready_of (by decide)
theorem test_hyp_BitsPredicates_BitInstructions : Ready (.bfi 3 1 2) base := ready_of (by decide)
theorem test_hyp_MultiplyDivideImmediates_Immediates : Ready (.lea 2 3 1 2) base := ready_of (by decide)
theorem test_hyp_BitsPredicates_PredicateWriters : Ready (.icmp .lt true 1 2 3) base := ready_of (by decide)
theorem test_hyp_FloatResultsExact_FloatResults : Ready (.ffma true false .fpm 3 1 2) base := ready_of (by decide)

/-- 1.0 + 1.0 = 2.0, and 1.0 · 1.0 = 1.0. -/
theorem test_hyp_FloatResultsExact_FloatExact :
    f32 0x3F800000 = .fin false 0x800000 (-23) ∧ f32 0x40000000 = .fin false 0x800000 (-22) ∧
    dyInt false 0x800000 (-23) (-23) + dyInt false 0x800000 (-23) (-23) = dyInt false 0x800000 (-22) (-23) ∧
    dyInt false (0x800000 * 0x800000) (-46) (-46) = dyInt false 0x800000 (-23) (-46) := by decide

/-- An infinity from which an infinity is taken is invalid. -/
theorem test_hyp_FloatSpecials_FloatNaN : let s := regs base [(1, 0x7F800000), (2, 0x7F800000)]
    Ready (.fsub .rne 3 1 2) s ∧ (s.opnd 0 1 == 0x7F800000 && s.opnd 0 2 == 0x7F800000) = true := ⟨ready_of (by decide), by decide⟩
theorem test_hyp_FloatSpecials_FloatMinMax : Ready (.fmax 3 1 2) base ∧ Ready (.fmin 3 1 2) base := ⟨ready_of (by decide), ready_of (by decide)⟩
theorem test_hyp_FloatSpecials_FloatSign : Ready (.fneg 3 1) base ∧ Ready (.fabs 3 1) base := ⟨ready_of (by decide), ready_of (by decide)⟩
theorem test_hyp_FclassMask : Ready (.fclass 3 1) base := ready_of (by decide)
theorem test_hyp_FloatSpecials_FcmpConditions : Ready (.fcmp .lt 2 3 1) base := ready_of (by decide)
theorem test_hyp_ConvertE8m0 : (Instr.cvt .e8m0 .f32 false .rne 3 1).comboOk = true ∧ Ready (.cvt .e8m0 .f32 false .rne 3 1) base :=
  ⟨by decide, ready_of (by decide)⟩
theorem test_hyp_ConvertScaled : Ready (.cvtS .e4m3 false true 3 1 2 0) base ∧ scaleReg base base.ctx 2 + 1 ≤ 127 ∧
    regsBusy base base.ctx base.ctx.act [scaleReg base base.ctx 2, scaleReg base base.ctx 2 + 1] = false := ⟨ready_of (by decide), by decide, by decide⟩
theorem test_hyp_ExchangesButterfly_Exchanges : Ready (.pickBack 3 1 2) base := ready_of (by decide)
theorem test_hyp_ExchangesButterfly_Butterfly : Ready (.xbfly 4 .word 32 32) base ∧ (Instr.xbfly 4 .word 32 32).wf = true := ⟨ready_of (by decide), by decide⟩
theorem test_hyp_SpecialRegisters_SpecialReads : Ready (.mread 1 3) base ∧ Ready (.sread 1 .cyc) base ∧ Ready (.sread 1 .xrootHi) hand ∧ Ready (.cyc 2) base ∧
    Ready (.rednCtlCount 1) hand := ⟨ready_of (by decide), ready_of (by decide), ready_of (by decide), ready_of (by decide), ready_of (by decide)⟩
/-- A write of FPMODE, and the two that are refused: of a register that is read only, and of TRAPINFO outside a handler. -/
theorem test_hyp_SpecialRegisters_SpecialWrites : Ready (.swrite .fpmode 1) base ∧ Ready (.swrite .trapinfo2 1) hand ∧
    (SReg.cyc ∉ ([.fpmode, .fpflags, .statAmax, .statSat, .trapinfo0, .trapinfo1, .trapinfo2] : List SReg) ∧
      SReg.trapinfo0 ∈ ([.trapinfo0, .trapinfo1, .trapinfo2] : List SReg) ∧ base.ctx.ent.handler = false ∧ standing base = true ∧
      waiting base base.ctx = false ∧ base.ctx.act ≠ 0) := ⟨ready_of (by decide), ready_of (by decide), by decide⟩
theorem test_hyp_SpecialRegisters_WindowMoves : Ready (.wbaseRel 0x7F) base ∧ Ready (.wbaseReg 1) base := ⟨ready_of (by decide), ready_of (by decide)⟩

theorem test_hyp_AdvanceClauseEnd_Advance : standing mid = true ∧ mid.ctx.ent.mask ≠ 0 ∧ mid.ctx.ent.idx < hdrN mid.ctx.ent.hdr := by decide
/-- The clause of one word ends; in the second state an entry stands at the next header. -/
theorem test_hyp_AdvanceClauseEnd_ClauseEnd : let s := base.modEntry 0 0 1 (fun _ => { pc := 0x1004, mask := 2, status := .runnable })
    (standing base = true ∧ base.ctx.ent.mask ≠ 0 ∧ hdrN base.ctx.ent.hdr ≤ base.ctx.ent.idx ∧ base.crewHere.loops = [] ∧ base.crewHere.split.length ≤ 8) ∧
    (standing s = true ∧ s.ctx.ent.mask ≠ 0 ∧ hdrN s.ctx.ent.hdr ≤ s.ctx.ent.idx ∧ s.crewHere.loops = [] ∧ s.crewHere.split.length ≤ 8 ∧
      1 ≠ s.ctx.e ∧ (s.crewHere.entry 1).status = .runnable ∧ (s.crewHere.entry 1).started = false ∧ (s.crewHere.entry 1).pc = s.pcNext ∧
      (s.crewHere.entry 1).handler = s.ctx.ent.handler) := by decide
theorem test_hyp_TransfersCalls_ControlTransfers : Ready (.br 1 true 2) base ∧ Room base 1 := ⟨ready_of (by decide), room_of (by decide)⟩
theorem test_hyp_TransfersCalls_Calls : Ready (.callReg 9 1) base ∧ Room base 1 := ⟨ready_of (by decide), room_of (by decide)⟩
theorem test_hyp_EndDivertFork_EndEnds : Ready .endFibre base ∧ base.crewHere.serial = false ∧ base.crewHere.split.length ≤ 8 ∧
    (∀ e, (base.crewHere.entry e).status ≠ .waiting) ∧ base.ops = [] ∧ base.cmds = [] ∧ base.here.sweeps = [] ∧ ∀ l, base.acts l → (base.fibre l).pending = [] :=
  ⟨ready_of (by decide), by decide, by decide, entries_of (p := fun e => e.status ≠ .waiting) (by decide) (by decide), by decide, by decide, by decide, by decide⟩
theorem test_hyp_EndDivertFork_BrFarDiverts : Ready (.brFar 3 2) base ∧ base.crewHere.serial = false ∧ base.crewHere.split.length ≤ 8 ∧
    (∀ e, (base.crewHere.entry e).status ≠ .waiting) ∧ Released 7 base ∧ recordFull base base.here.cfg.node (seenOf base base.ctx) = false ∧
    base.ops = [] ∧ base.cmds = [] ∧ base.here.sweeps = [] ∧
    (let slots := (lanesOf base.ctx.act).zip (freeSlots base base.ctx.u (lanesOf base.ctx.act).length)
     slots.length = (lanesOf base.ctx.act).length ∧ slots.all (fun q => linesOk base (slotRows q.2) false) = true) :=
  ⟨ready_of (by decide), by decide, by decide, entries_of (p := fun e => e.status ≠ .waiting) (by decide) (by decide),
    released_of (by decide) (by decide) (by decide) (by decide), by decide, by decide, by decide, by decide, by decide⟩
/-- There is a fibre to start in the second state. -/
theorem test_hyp_EndDivertFork_ForkStarts : let s := base.modUnit 0 (fun y => { y with fibs := y.fibs ++ [{}] })
    (Ready (.fork 0 1 2 3) base ∧ Released 7 base ∧ (3 : VReg).toNat + (0 : BitVec 3).toNat < 128) ∧ Ready (.fork 0 1 2 3) s ∧ Released 7 s ∧
    (s.here.fib 1).exists_ = false ∧
    (let free := (List.range s.here.fibs.length).filter (fun k => !(s.here.fib k).exists_)
     let made := ((lanesOf s.ctx.act).zip free).zip (freeSlots s s.ctx.u (min (lanesOf s.ctx.act).length free.length))
     made.length = 1 ∧ min (lanesOf s.ctx.act).length free.length = 1 ∧ made.all (fun q => linesOk s (slotRows q.2) false) = true) :=
  ⟨⟨ready_of (by decide), released_of (by decide) (by decide) (by decide) (by decide), by decide⟩, ready_of (by decide),
    released_of (by decide) (by decide) (by decide) (by decide), by decide, by decide⟩
theorem test_hyp_JoinSets : Ready (.join 11) base := ready_of (by decide)
theorem test_hyp_LeaveAndStreams_LeaveClears : Ready (.leave 11) base ∧ (∀ e ∈ base.crewHere.split, e.status = .waiting → e.waitOn ≠ 11) ∧
    (∀ w ∈ base.crewHere.tab, w.lst = .waiting → w.waitOn ≠ 11) := ⟨ready_of (by decide), by decide, by decide⟩
/-- The mask holds a lane that is not here, and in the second state only this one. -/
theorem test_hyp_WaitMeets : let s := mid.modCrew 0 0 (fun y => { y with masks := [3] })
    let t := mid.modCrew 0 0 (fun y => { y with masks := [1] })
    (Ready (.wait 0) s ∧ s.crewHere.serial = false ∧ s.crewHere.split.length ≤ 8 ∧ s.ctx.act = s.ctx.ent.mask ∧ s.ctx.e < s.crewHere.split.length ∧
      s.ctx.ent.idx < hdrN s.ctx.ent.hdr ∧ (∀ e, e ≠ s.ctx.e → (s.crewHere.entry e).status ≠ .waiting) ∧ s.crewHere.masks.getD 0 0 &&& ~~~s.ctx.act ≠ 0) ∧
    Ready (.wait 0) t ∧ t.crewHere.masks.getD 0 0 &&& ~~~t.ctx.act = 0 :=
  ⟨⟨ready_of (by decide), by decide, by decide, by decide, by decide, by decide,
    fun e _ => entries_of (p := fun e => e.status ≠ .waiting) (by decide) (by decide) e, by decide⟩, ready_of (by decide), by decide⟩
/-- Counts 0, 255 and 256. -/
theorem test_hyp_ReptLoop_ReptOpens : let i : Instr := .rept 1 0 1 1 0 0 false
    let s := fun n => regs base [(1, n)]
    ([0, 255, 256] : List Word).all (fun n => readyOk i (s n) && (s n).opnd 0 1 == n && (s n).sectors == [] && (match checkGlobal (s n) (s n).here.core (some (s n).here.cfg.node) (s n).here.cfg.job
      (s n).here.xroot 8 (s n).ctx.ent.handler false .fetch (s n).pcNext 0 with | .ok k => !reserved k.loc | .error _ => false)) = true ∧ Room (s 256) 2 := ⟨by decide, room_of (by decide)⟩
/-- The body that follows a REPT, on pass 0 of 2. -/
theorem test_hyp_ReptLoop_ReptPassEnds : let s : State := { base with mem := Memory.writeN base.mem 0xFF8 (leBytes ((encode (.rept 5 0 1 1 0 8 true)).getD 0).toNat 4) }
    let s := s.modCrew 0 0 (fun y => { y with loops := [(0, 0x200)] })
    standing s = true ∧ s.ctx.ent.mask ≠ 0 ∧ hdrN s.ctx.ent.hdr ≤ s.ctx.ent.idx ∧ inBody s s.ctx = true ∧
    reptOf s s.ctx.u s.ctx.ent.handler s.ctx.ent.header = some (.rept 5 0 1 1 0 8 true) ∧ s.crewHere.loopN 0 = 2 ∧ s.crewHere.loopK 0 = 0 ∧
    linesOk s ((List.range 3).map (fun j => rowReg s.ctx.c (s.here.wb s.ctx.c 0 + 8 + j))) true = true ∧
    (decide (s.crewHere.split.length ≤ 8) && decide (2 ≤ 1 + (s.crewHere.split.filter (fun e => e.status == .empty)).length)) = true := by decide
theorem test_hyp_LeaveAndStreams_StreamBinding : Ready (.strm 0 16 0 0) (base.modUnit 0 (fun y => { y with cfg := { y.cfg with part := 0x4610 } })) := ready_of (by decide)
theorem test_hyp_NopTrapHalt_NopTrap : Ready .nop base ∧ Ready (.pref 1) base ∧ Ready (.trap 14) base ∧ Ready .bkpt base :=
  ⟨ready_of (by decide), ready_of (by decide), ready_of (by decide), ready_of (by decide)⟩
/-- With a handler to take the trap, and without. -/
theorem test_hyp_TrapTaken : let s := base.modUnit 0 (fun y => { y with cfg := { y.cfg with handler := 0x40000 } })
    (standing s = true ∧ s.ctx.act ≠ 0 ∧ s.crewHere.serial = false ∧ s.ctx.act = s.ctx.ent.mask ∧ s.ctx.ent.handler = false ∧ s.here.cfg.handler ≠ 0 ∧
      (0x70 : BitVec 8) ∉ ([0x50, 0x51, 0x52, 0x60] : List (BitVec 8))) ∧
    (standing base = true ∧ base.ctx.act ≠ 0 ∧ base.crewHere.serial = false ∧ base.ctx.act = base.ctx.ent.mask ∧ base.here.cfg.handler = 0) ∧ Room base 1 ∧
    (base.ctx.c < 32 ∧ linesOk base [rowReg base.ctx.c 1023] false = true) :=
  ⟨by decide, by decide, room_of (by decide), by decide⟩
theorem test_hyp_NopTrapHalt_HaltParks : Ready .halt base ∧ base.crewHere.serial = false ∧ Room base 2 ∧ drawOf base base.ctx.u (base.fibOf 0) = .ok :=
  ⟨ready_of (by decide), by decide, room_of (by decide), by decide⟩
theorem test_hyp_EretResumes : Ready (.eret true) hand ∧ hand.crewHere.serial = false ∧ (∀ o ∈ hand.ops, o.fated = false) ∧ (∀ m ∈ hand.cmds, m.fate = false) ∧ linesOk hand [rowReg hand.ctx.c 1023] true = true ∧ Room hand 1 ∧
    hand.crewHere.loops = [] ∧ ∀ k, k ≠ hand.ctx.e → (hand.crewHere.entry k).status = .empty := by
  have h : ∀ k < 8, k ≠ 0 → (hand.crewHere.entry k).status = .empty := by decide
  refine ⟨ready_of (by decide), by decide, by decide, by decide, by decide, room_of (by decide), by decide, fun k hk => ?_⟩
  rcases Nat.lt_or_ge k 8 with hl | hl
  · exact h k hl hk
  · have n : hand.crewHere.split.length = 8 := by decide
    unfold Crew.entry
    rw [List.getD_eq_default _ _ (n ▸ hl)]

-- memory, atomics ----------------------------------------------------------------------------------------------------

theorem addr_lanes : lanesOf addr.ctx.act = [0] := by decide

theorem test_hyp_LoadsSend : Ready (.ldW .acq 7 5 2 0) addr ∧ (Instr.ldW .acq 7 5 2 0).wf = true ∧
    MayLog addr ∧ addr.sectors = [] ∧ ∀ l, addr.acts l → (Target.glob ((addr.opnd l 3 ++ addr.opnd l 2) + BitVec.ofInt 64 (4 * (0 : BitVec 7).toInt))).check addr addr.ctx .ld 4 4 0 = .ok place ∧
      addr.unraced place ∧ mustWait addr addr.ctx.u addr.ctx.c place.owner place.leaf place.loc 4 = false :=
  ⟨ready_of (by decide), by decide, by unfold MayLog; decide, by decide, lane0 addr_lanes ⟨by rfl, .inl (by decide), by decide⟩⟩
theorem test_hyp_StoresReductionsQueue_StoresQueue : Ready (.stW .rel 7 5 2 0) addr ∧ (Instr.stW .rel 7 5 2 0).wf = true ∧ MayDraw addr ∧ addr.sectors = [] ∧ Released 7 addr ∧
    ∀ l, addr.acts l → (Target.glob ((addr.opnd l 3 ++ addr.opnd l 2) + BitVec.ofInt 64 (4 * (0 : BitVec 7).toInt))).check addr addr.ctx .st 4 4 0 = .ok place ∧
      addr.unraced place :=
  ⟨ready_of (by decide), by decide, draw_of (by decide) (by decide), by decide, released_of (by decide) (by decide) (by decide) (by decide),
    lane0 addr_lanes ⟨by rfl, .inl (by decide)⟩⟩
theorem test_hyp_AtomicsSend : Ready (.atom .ar 7 false .add .i32 false 2 4) addr ∧ (Instr.atom .ar 7 false .add .i32 false 2 4).wf = true ∧ MayDraw addr ∧ addr.sectors = [] ∧
    Released 7 addr ∧ ∀ l, addr.acts l → (Target.glob (addr.opnd l 3 ++ addr.opnd l 2)).check addr addr.ctx .rmw 4 4 0 = .ok place ∧ addr.unraced place :=
  ⟨ready_of (by decide), by decide, draw_of (by decide) (by decide), by decide, released_of (by decide) (by decide) (by decide) (by decide),
    lane0 addr_lanes ⟨by rfl, .inl (by decide)⟩⟩
theorem test_hyp_StoresReductionsQueue_ReductionsQueue : Ready (.red .rel 7 false .add .f32 false 2 4) addr ∧ (Instr.red .rel 7 false .add .f32 false 2 4).wf = true ∧
    addr.here.cfg.det = false ∧ MayDraw addr ∧ addr.sectors = [] ∧ Released 7 addr ∧
    ∀ l, addr.acts l → (Target.glob (addr.opnd l 3 ++ addr.opnd l 2)).check addr addr.ctx .rmw 4 4 0 = .ok place ∧ addr.unraced place :=
  ⟨ready_of (by decide), by decide, by decide, draw_of (by decide) (by decide), by decide, released_of (by decide) (by decide) (by decide) (by decide),
    lane0 addr_lanes ⟨by rfl, .inl (by decide)⟩⟩
theorem test_hyp_ReductionsStage : Ready (.red .rlx 7 false .add .f32 false 2 4) addrDet ∧ (Instr.red .rlx 7 false .add .f32 false 2 4).wf = true ∧
    addrDet.here.cfg.det = true ∧ MayDraw addrDet ∧ addrDet.sectors = [] ∧ addrDet.here.staging.length + 32 ≤ 2048 + addrDet.here.cfg.stglen ∧
    ∀ l, addrDet.acts l → (Target.glob (addrDet.opnd l 3 ++ addrDet.opnd l 2)).check addrDet addrDet.ctx .rmw 4 4 0 = .ok place :=
  ⟨ready_of (by decide), by decide, by decide, draw_of (by decide) (by decide), by decide, by decide, lane0 (by decide) (by rfl)⟩
/-- The last word of a scratchpad of 24 blocks. -/
theorem test_hyp_Scratchpad : let s := regs base [(2, 0xBFFFC)]
    Ready (.ldS .rlx 0 5 2 .w 0) s ∧ Ready (.stS .rlx 0 5 2 .w 0) s ∧ s.here.cfg.det = false ∧
    (∀ l, s.acts l → (s.opnd l 2).toNat % 4 = 0 ∧ (s.opnd l 2).toNat < 2 ^ 21 ∧ (s.opnd l 2).toNat + 4 ≤ 32768 * (s.here.cfg.part.toNat / 64 % 64)) ∧
    (∀ l, s.acts l → mustWait s s.ctx.u s.ctx.c (.pool s.ctx.u) none (s.opnd l 2).toNat 4 = false) ∧ linesOk s (scrRows 0xBFFFC 4) true = true ∧
    let t := regs base [(2, 0xC0000)]
    Ready (.stS .rlx 0 5 2 .w 0) t ∧ ∀ l, t.acts l → (t.opnd l 2).toNat % 4 = 0 ∧ 32768 * (t.here.cfg.part.toNat / 64 % 64) < (t.opnd l 2).toNat + 4 :=
  ⟨ready_of (by decide), ready_of (by decide), by decide, by decide, by decide, by decide, ready_of (by decide), by decide⟩

-- fences, monitors, synchronisation ----------------------------------------------------------------------------------

theorem base_released (sc : Nat) : Released sc base := released_of (by decide) (by decide) (by decide) (by decide)
theorem mid_released (sc : Nat) : Released sc mid := released_of (by decide) (by decide) (by decide) (by decide)

theorem test_hyp_FencesReleases_FencesComplete : Ready (.fence .ar 7) base ∧ Ready (.fenceX 63 1) base ∧ Ready .rednCtlSync base ∧ Released 7 base ∧
    recordFull base base.here.cfg.node (seenOf base base.ctx) = false ∧ base.here.sweeps = [] ∧ base.cmds = [] ∧ base.ops = [] :=
  ⟨ready_of (by decide), ready_of (by decide), ready_of (by decide), base_released 7, by decide, by decide, by decide, by decide⟩
/-- A store of the crew is in its queue. -/
theorem test_hyp_FencesReleases_ReleasesWait : let s : State := { base with ops := [{ id := 0, kind := .store, u := some 0, key := some ⟨0, 0, 0, 0, 0, 0⟩, phase := .queued }], nextId := 1 }
    Ready (.fence .rel 7) s ∧ Ready .unitSync s ∧ (∀ l, s.acts l → (s.fibre l).pending = []) ∧
    ∃ o ∈ s.ops, o.id < s.crewHere.tryAt.getD s.nextId ∧ relBlocks s s.ctx.u s.ctx.c 7 o = true ∧ relBlocks s s.ctx.u s.ctx.c 0 o = true :=
  ⟨ready_of (by decide), ready_of (by decide), by decide, by decide⟩
/-- A watch that is not armed, and one that is. -/
theorem test_hyp_MonitorSyncsWait_MonitorWait : let s := mid.modFib 0 0 (fun f => { f with watch := some 2 })
    (Ready (.monitor 2) addr ∧ addr.sectors = [] ∧ ∀ l, addr.acts l → (Target.glob (addr.opnd l 3 ++ addr.opnd l 2)).check addr addr.ctx .ld 1 1 0 = .ok place) ∧
    (Ready (.mwait 7) base ∧ base.acts 0 ∧ (base.fibre 0).watch = none ∧ recordFull base base.here.cfg.node (watchedWriters base base.ctx base.ctx.act) = false) ∧
    Ready (.mwait 7) s ∧ (∀ l, s.acts l → (s.fibre l).watch ≠ none ∧ (s.fibre l).fired = false) ∧ s.crewHere.serial = false ∧ Room s 2 ∧ s.ctx.act = s.ctx.ent.mask :=
  ⟨⟨ready_of (by decide), by decide, lane0 addr_lanes (by rfl)⟩, ⟨ready_of (by decide), by decide, by decide, by decide⟩,
    ready_of (by decide), by decide, by decide, room_of (by decide), by decide⟩

/-- The last barrier of the scratchpad, as the state says, named by register 2. -/
def barred (b : Barrier) : State :=
  (regs base [(2, 0xBFFF0)]).modUnit 0 (fun y => { y with scr := Memory.writeN [] 0xBFFF0 b.toBytes })
def bar (expect count : Nat) : Barrier := { expect := expect, count := count, armed := true, bytes := false, unarmed := false, gen := 1, aux := 0xFFFFFFFF }
theorem barred_in (b : Barrier) (h : lanesOf (barred b).ctx.act = [0]) (ha : ((barred b).opnd 0 2).toNat = 0xBFFF0)
    (hp : (barred b).here.cfg.part = 0x44610) : ∀ l, (barred b).acts l → (barred b).inScr ((barred b).opnd l 2).toNat 16 16 :=
  lane0 h (by rw [ha]; exact ⟨by decide, by decide, by rw [hp]; decide⟩)

theorem test_hyp_BarrierObjects_BarrierInitArrive : Ready (.barInit 1 2 false) (barred (bar 2 0)) ∧ Ready (.barArr 3 2) (barred (bar 2 0)) ∧ Released 3 (barred (bar 2 0)) ∧
    (∀ l, (barred (bar 2 0)).acts l → (barred (bar 2 0)).inScr ((barred (bar 2 0)).opnd l 2).toNat 16 16) ∧ (barred (bar 2 0)).ops = [] ∧
    ((barred (bar 2 0)).here.bar 0xBFFF0).unarmed = false ∧ linesOk (barred (bar 2 0)) (scrRows 0xBFFF0 16) true = true ∧
    mustWait (barred (bar 2 0)) 0 0 (.pool 0) none 0xBFFF0 16 = false :=
  ⟨ready_of (by decide), ready_of (by decide), released_of (by decide) (by decide) (by decide) (by decide), barred_in _ (by decide) (by decide) (by decide),
    by decide, by decide, by decide, by decide⟩
/-- Complete, not complete, and arrived at before it was armed. -/
theorem test_hyp_BarrierObjects_BarrierWait : let c := barred (bar 2 2); let n := barred (bar 2 1); let u := barred { bar 0 1 with armed := false, unarmed := true }
    (Ready (.barWait 0 2) c ∧ (∀ l, c.acts l → c.inScr (c.opnd l 2).toNat 16 16) ∧ c.ops = [] ∧ (c.here.bar 0xBFFF0).armed = true ∧
      (c.here.bar 0xBFFF0).unarmed = false ∧ (c.here.bar 0xBFFF0).expect ≤ (c.here.bar 0xBFFF0).count) ∧
    (Ready (.barWait 0 2) n ∧ (n.here.bar 0xBFFF0).unarmed = false ∧ ¬ (n.here.bar 0xBFFF0).expect ≤ (n.here.bar 0xBFFF0).count) ∧
    Ready (.barWait 0 2) u ∧ (u.here.bar 0xBFFF0).unarmed = true :=
  ⟨⟨ready_of (by decide), barred_in _ (by decide) (by decide) (by decide), by decide, by decide, by decide, by decide⟩,
    ⟨ready_of (by decide), by decide, by decide⟩, ready_of (by decide), by decide⟩
/-- The arrival completes the object, and in the second state it does not. -/
theorem test_hyp_BarrierObjects_BarrierArriveWait : let c := barred (bar 1 0); let n := barred (bar 2 0)
    (Ready (.barArrw 0 1 2) c ∧ Released 0 c ∧ c.ctx.ent.arrived = 0 ∧ c.ctx.ent.closer = 0 ∧ (∀ l, c.acts l → c.inScr (c.opnd l 2).toNat 16 16) ∧
      (c.here.bar 0xBFFF0).armed = true ∧ (c.here.bar 0xBFFF0).unarmed = false ∧ (c.here.bar 0xBFFF0).expect = 1) ∧
    Ready (.barArrw 0 1 2) n ∧ (n.here.bar 0xBFFF0).armed = true ∧ (n.here.bar 0xBFFF0).expect = 2 :=
  ⟨⟨ready_of (by decide), released_of (by decide) (by decide) (by decide) (by decide), by decide, by decide, barred_in _ (by decide) (by decide) (by decide),
    by decide, by decide, by decide⟩, ready_of (by decide), by decide, by decide⟩
theorem test_hyp_MonitorSyncsWait_SyncsWait : Ready .unitSync mid ∧ Ready .gangSync mid ∧ Released 0 mid ∧ Released 3 mid ∧ mid.crewHere.serial = false ∧ Room mid 2 ∧
    mid.ctx.act = mid.ctx.ent.mask :=
  ⟨ready_of (by decide), ready_of (by decide), mid_released 0, mid_released 3, by decide, room_of (by decide), by decide⟩

-- work, berths, counters ---------------------------------------------------------------------------------------------

theorem base_draws : MayDraw base := draw_of (by decide) (by decide)

/-- A card at address 0 for die 0; berth 0, tag 0; node 0. -/
theorem test_hyp_MasterSends_DispatcherSends : Ready (.berOpen 8 1) base ∧ Ready (.berPub 2) base ∧ Ready (.tagRetire 2) base ∧ Ready (.cancel 8 2 3) base ∧
    Ready (.post 8 2 4) base ∧ MayDraw base ∧ Released 7 base ∧ base.opnd 0 2 &&& 0xFFC0C0F8 = 0 ∧ (base.opnd 0 2).toNat = base.here.cfg.job ∧
    (base.opnd 0 3 ++ base.opnd 0 2 : BitVec 64).toNat % 64 = 0 ∧ (base.opnd 0 4).toNat / 16 = 0 :=
  ⟨ready_of (by decide), ready_of (by decide), ready_of (by decide), ready_of (by decide), ready_of (by decide), base_draws, base_released 7, by decide, by decide,
    by decide, by decide⟩
/-- A phase's identifier is at most 4,095; 4,096 is none, and target 16 names no die. -/
theorem test_hyp_MasterSends_CounterReads : let s := fun v => regs base [(2, v), (4, 16)]
    Ready (.cntRd 8 2 2) (s 4095) ∧ ((s 4095).opnd 0 2).toNat < 2 ^ 12 ∧ Ready (.cntRd 8 2 2) (s 4096) ∧ Ready (.cancel 8 2 2) (s 4096) ∧
    ¬ ((s 4096).opnd 0 2).toNat < 2 ^ 12 ∧ Ready (.post 8 2 4) (s 4096) ∧ ((s 4096).opnd 0 3 ++ (s 4096).opnd 0 2 : BitVec 64).toNat % 64 = 0 ∧
    ¬ ((s 4096).opnd 0 4).toNat / 16 = 0 :=
  ⟨ready_of (by decide), by decide, ready_of (by decide), ready_of (by decide), by decide, ready_of (by decide), by decide, by decide⟩
theorem test_hyp_MasterSends_StepAdvSends : Ready .stepAdv base ∧ MayDraw base ∧ Released 7 base := ⟨ready_of (by decide), base_draws, base_released 7⟩
/-- Each kind of fault, ONCE set and the copy not named. -/
theorem test_hyp_FaultInjection : let s : State := { regs base [(2, 0x85)] with jobctl := 0x200000000 }
    (Ready (.finj 1 2 0) s ∧ Ready (.finj 1 2 1) s ∧ Ready (.finj 1 2 2) s) ∧ (∀ k < 3, (Instr.finj 1 2 (BitVec.ofNat 3 k)).wf = true) ∧
    s.acts 0 ∧ (s.opnd 0 2).toNat / 32 % 4 = 0 ∧ (s.node s.here.cfg.node).first = true :=
  ⟨⟨ready_of (by decide), ready_of (by decide), ready_of (by decide)⟩, by decide, by decide, by decide, by decide⟩

-- the tile engine ----------------------------------------------------------------------------------------------------

/-- The unit that holds the engine, with 144 lines of its scratchpad and rows of its accumulators in the pool. -/
def full : State := eng.modUnit 0 (fun y => { y with rows := (List.range 64 ++ (List.range 144).map (fun i => 32768 + i) ++ (List.range 4).map (fun k => rowAcc 0 0 (32 * k)) ++
  [rowAcc 7 0 0, rowAcc 7 0 32, rowAcc 7 0 64] ++ (List.range 32).map (fun j => rowAcc 7 j 96)).map (fun r => (r, { here := true })) })

theorem tile_of {i : Instr} (h : (readyOk i full && i.wf) = true) : TileReady i full := by
  simp only [Bool.and_eq_true] at h
  exact ⟨ready_of h.1, h.2, by decide +kernel, by decide +kernel⟩

theorem full_in {lo n al : Nat} (h : (decide (lo % al = 0) && decide (lo < 2 ^ 21) && decide (lo + n ≤ 32768 * 24)) = true) : full.inScr lo n al := by
  simp only [Bool.and_eq_true, decide_eq_true_eq] at h
  have p : full.here.cfg.part.toNat / 64 % 64 = 24 := by decide +kernel
  exact ⟨h.1.1, h.1.2, by rw [p]; exact h.2⟩

theorem eng_in {lo n al : Nat} (h : (decide (lo % al = 0) && decide (lo < 2 ^ 21) && decide (lo + n ≤ 32768 * 24)) = true) : eng.inScr lo n al := by
  simp only [Bool.and_eq_true, decide_eq_true_eq] at h
  have p : eng.here.cfg.part.toNat / 64 % 64 = 24 := by decide +kernel
  exact ⟨h.1.1, h.1.2, by rw [p]; exact h.2⟩

theorem test_hyp_Products : TileReady (.mma 7 32 8 .bf16 .bf16 .f32) full ∧ TileReady (.mmaSp 7 32 8 .bf16 .bf16 .f32) full ∧
    TileReady (.mmaP 7 32 8 .bf16 .bf16 .f32) full ∧ (7 : Nib).toNat < full.here.tiles ∧ (full.opnd 0 8).toNat = 0 ∧
    full.inScr 0 (64 * mfmtRowBytes .bf16) 16 ∧ full.inScr 0 (sparseSize .bf16 0) 16 ∧
    linesOk full (scrRows 0 (64 * mfmtRowBytes .bf16)) true = true ∧ linesOk full ((List.range 4).map (fun k => rowAcc 7 0 (32 * k))) true = true :=
  ⟨tile_of (by decide +kernel), tile_of (by decide +kernel), tile_of (by decide +kernel), by decide +kernel, by decide +kernel, full_in (by decide +kernel), full_in (by decide +kernel), by decide +kernel, by decide +kernel⟩
/-- The whole row, and the last sub-tile of the last tile. -/
theorem test_hyp_AccumulatorRowsConvert_AccumulatorRows : TileReady (.scacc 0 7 8) full ∧ TileReady (.accLd 7 8 true 3) full ∧ TileReady (.accZero 7 true 3) full ∧
    TileReady (.accSt 7 8 false 0) full ∧ (7 : Nib).toNat < full.here.tiles ∧ (full.opnd 0 8).toNat = 0 ∧ (full.opnd 0 9).toNat = 0 ∧ full.inScr 0 512 16 ∧
    linesOk full (scrRows 0 512) true = true ∧ linesOk full ((List.range 4).flatMap (fun k => [rowAcc 0 0 (32 * k), rowAcc 7 0 (32 * k)])) true = true :=
  ⟨tile_of (by decide +kernel), tile_of (by decide +kernel), tile_of (by decide +kernel), tile_of (by decide +kernel), by decide +kernel, by decide +kernel, by decide +kernel, full_in (by decide +kernel), by decide +kernel, by decide +kernel⟩
theorem test_hyp_AccumulatorRowsConvert_AccumulatorConvert : TileReady (.accCvt .e2m1 7 8 false true 0 true 3) full ∧ (7 : Nib).toNat < full.here.tiles ∧ (full.opnd 0 8).toNat = 0 ∧
    full.inScr 0 (32 * 4 / 8) 16 ∧ linesOk full (scrRows 0 16) false = true ∧ linesOk full [rowAcc 7 0 96] true = true :=
  ⟨tile_of (by decide +kernel), by decide +kernel, by decide +kernel, full_in (by decide +kernel), by decide +kernel, by decide +kernel⟩
theorem test_hyp_PlanesRoundTrip : ∀ n : Nat, (fun _ => 65535) n < 2 ^ (pfmtPlanes .bf16).width := fun _ => (by decide +kernel : 65535 < 2 ^ (pfmtPlanes .bf16).width)
/-- The rule of zeros is sound; one with a bit in a reserved field is not. -/
theorem test_hyp_TileBlocks : TileReady (.plane 4 8 .bf16) full ∧ TileReady (.unplane 4 8 .i4) full ∧ TileReady (.cbLd 8) full ∧ TileReady (.ruleLd 3 8) full ∧
    TileReady (.bndIn 8 16) full ∧ TileReady (.bndOut 7 3 8) full ∧ (7 : Nib).toNat < full.here.tiles ∧ (full.opnd 0 8).toNat = 0 ∧ (full.opnd 0 9).toNat < 1024 ∧
    full.inScr 0 512 16 ∧ linesOk full (scrRows 0 512) true = true ∧ linesOk full ((List.range 32).map (fun j => rowAcc 7 j 96)) true = true ∧ Rule.ok (leNat (Memory.readN full.here.scr 0 64)) = true ∧ Rule.ok (2 ^ 9) = false :=
  ⟨tile_of (by decide +kernel), tile_of (by decide +kernel), tile_of (by decide +kernel), tile_of (by decide +kernel), tile_of (by decide +kernel), tile_of (by decide +kernel), by decide +kernel, by decide +kernel, by decide +kernel,
    full_in (by decide +kernel), by decide +kernel, by decide +kernel, by decide +kernel, by decide +kernel⟩
/-- SWEEP of one cell; SWEEP.R from sub-tile 0 into sub-tile 31; TRACE from cell 0. -/
theorem test_hyp_EngineSweeps_SweepsStart : Ready (.sweep 7 3 8 3) eng ∧ Ready (.sweepR 7 3 8 3) eng ∧ Ready (.trace 16 8) eng ∧ eng.here.cfg.det = false ∧
    slotsUsed eng (eng.here.core.getD 0) < 16 ∧ (7 : Nib).toNat < eng.here.tiles ∧ leNat (Memory.readN eng.here.rules 192 64) / 32 % 8 = 0 ∧
    (∀ k < 6, (eng.opnd 0 (8 + k)).toNat = 0) ∧ eng.inScr 0 256 16 ∧ eng.inScr 0 272 16 ∧ eng.inScr 0 528 16 :=
  ⟨ready_of (by decide), ready_of (by decide), ready_of (by decide), by decide, by decide, by decide, by decide, by decide, eng_in (by decide), eng_in (by decide),
    eng_in (by decide)⟩
/-- One of each kind alone in its unit: a sweep of one cell from sub-tile 0, its adjoint into sub-tile 4, and a walk of a tile into registers 9 to 13. -/
theorem test_hyp_SweepCells : [(0, 0), (1, 4), (2, 0)].all (fun e =>
    let w : SweepCmd := { kind := e.1, crew := 0, sub := e.2, a := 8, d := 9, slot := 0, active := 1, flag := none, regs := List.replicate 84 0 }
    let s := eng.modUnit 0 (fun y => { y with sweeps := [w], rows := ((w.reads ++ w.writes).eraseDups).map (fun r => (r, { here := true })) })
    linesOk s w.reads true && linesOk s w.writes false && (s.unit 0).sweeps == w :: [] && decide ((w.regs.getD 2 0).toNat + w.d.toNat + 4 < 1024)) = true := by decide +kernel
/-- Held; held by another; free with grants to give; and free with none. -/
theorem test_hyp_EngineSweeps_EngineHolding : let s := fun e h => ({ base with cores := [(0, { engine := e })], dies := [(0, { hcap := h })] } : State)
    (Ready (.engAcq 1) (s (some 0) 180) ∧ ((s (some 0) 180).core 0).engine = some 0) ∧ (Ready (.engAcq 1) (s (some 5) 180) ∧ ((s (some 5) 180).core 0).engine = some 5) ∧
    (Ready (.engAcq 1) (s none 1) ∧ ((s none 1).core 0).engine = none ∧ ((s none 1).die (dieOf 0)).hcap = 1 ∧ ((s none 1).die (dieOf 0)).queue = []) ∧
    (Ready (.engAcq 1) (s none 0) ∧ ((s none 0).die (dieOf 0)).hcap = 0 ∧ ((s none 0).die (dieOf 0)).served = []) ∧
    Ready .engRel (s (some 0) 180) ∧ Ready .engRel (s none 180) ∧ (s none 180).here.core = some 0 ∧ (s none 180).here.sweeps = [] :=
  ⟨⟨ready_of (by decide), by decide⟩, ⟨ready_of (by decide), by decide⟩, ⟨ready_of (by decide), by decide, by decide, by decide⟩,
    ⟨ready_of (by decide), by decide, by decide⟩, ready_of (by decide), ready_of (by decide), by decide, by decide⟩

/-- A fibre with an engine's block of 256 bits in registers 16 to 23, in job 0 with a group of one member. -/
def blocked (b : Nat) : State :=
  let s := regs base ((List.range 8).map (fun j => (16 + j, BitVec.ofNat 32 (b / 2 ^ (32 * j)))))
  let s : State := { s with jobs := [(0, { root := 0x2000, groups := [(0, (0x3100000, 0))] })] }
  { s with mem := Memory.writeN s.mem 0x3100000 (leBytes (memberWord s 0) 8) }
/-- COPY of 64 bytes into the scratchpad; the same by GATHER, of one row by index 0; COLL of 32 elements from the scratchpad to it; FRAME of 100 bytes. -/
theorem test_hyp_CommandsQueue : let c := blocked (0x3000000 + 2 ^ 64 * (15 * 2 ^ 56) + 2 ^ 128 * 64)
    let g := blocked (0x3000000 + 2 ^ 64 * (15 * 2 ^ 56) + 2 ^ 128 + 2 ^ 160 * 128 + 2 ^ 192 * 8)
    let l := blocked (15 * 2 ^ 56 + 2 ^ 64 * (15 * 2 ^ 56 + 4096) + 2 ^ 128 * 31)
    let f := blocked (0x3000000 + 2 ^ 64 * 0x3080000 + 2 ^ 128 * 0x30C0000 + 2 ^ 192 * 100)
    (Ready (.copy 16) c ∧ MayDraw c ∧ c.sectors = [] ∧ c.ctx.ent.arrived = 0 ∧ linesOk g (scrRows 128 4) false = true ∧ c.cmds = [] ∧ hdrFlag c.ctx.ent.hdr c.ctx.ent.llDone = none) ∧
    ((cmdChecks .copy c 0 false 0x1000 (wordsNat ((List.range 8).map (fun j => c.opnd 0 (16 + j))))).isOk &&
     (cmdChecks .gather g 0 false 0x1000 (wordsNat ((List.range 8).map (fun j => g.opnd 0 (16 + j))))).isOk &&
     (cmdChecks .coll l 0 false 0x1000 (wordsNat ((List.range 8).map (fun j => l.opnd 0 (16 + j))))).isOk &&
     (cmdChecks .frame f 0 false 0x1000 (wordsNat ((List.range 8).map (fun j => f.opnd 0 (16 + j))))).isOk) = true ∧
    Ready (.gather 16) g ∧ Ready (.coll 16) l ∧ Ready (.frame 16) f ∧ chunkOpen l 0 (wordsNat ((List.range 8).map (fun j => l.opnd 0 (16 + j)))) = false :=
  ⟨⟨ready_of (by decide), draw_of (by decide) (by decide), by decide, by decide, by decide, by decide, by decide⟩, by decide +kernel, ready_of (by decide), ready_of (by decide), ready_of (by decide),
    by decide +kernel⟩

-- events -------------------------------------------------------------------------------------------------------------

/-- A node of job 0 runs in the first state, and none in the second; a clearing of the backing map is in progress in the third. -/
theorem test_hyp_ManagementRegisters : let s : State := { base with tlbinv := 0 }; let t : State := { State.reset with bmclr := 0x100000 }
    let runs := fun (x : State) => x.nodes.any (fun n => n.job == x.ctlJob && n.uncommitted && n.doom != 4)
    (runs s = true ∧ s.tlbinv.getLsbD 0 = false) ∧
    (runs State.reset = false ∧ State.reset.tlbinv.getLsbD 0 = true ∧ State.reset.bmclr.getLsbD 63 = true ∧ State.reset.units = [] ∧
      State.reset.ckptReg.toNat / 2 ^ 14 % 4 = 0) ∧
    t.bmclr.getLsbD 63 = false ∧ (0xC00000 : BitVec 64).toNat / 2 ^ 22 % 4 = 3 ∧ (0x2000 : BitVec 64).getLsbD 13 = true := by decide

/-- A line that a crew waits for comes into a free row, and in the place of another line of a share without one. -/
theorem test_hyp_PartEvents :
    let s : State := { State.reset with
      units := [{ cfg := { part := 0x44610 }, core := some 0, crews := [{ miss := [7] }] }], sectors := [(5, .misdirected)]
      cores := [(0, { bankErrs := (List.range 64).map (fun k => (3, 0, k, 0)), replays := List.replicate 65537 0 })]
      found := { banks := [(2, 1)], ports := [(35, 224)] }
      ops := [{ id := 1, kind := .load, u := some 0, sentAt := 0 }, { id := 2, kind := .load, u := some 0, sentAt := 5 }], now := 70000 }
    let v : State := { s with units := [{ cfg := { bases := [4096, 8192, 12288, 16384, 20480, 24576, 28672, 32768] }, core := some 0, crews := [{ miss := [7] }], rows := [(3, { here := true, dirty := true })] }], sectors := [] }
    ((s.unit 0).core = some 0 ∧ (s.unit 0).cancelled = false ∧ ((s.unit 0).row 7).here = false ∧ (∃ x ∈ (s.unit 0).crews, 7 ∈ x.miss) ∧ victimOf s 0 0 7 = some none) ∧
    (v.sectors = [] ∧ victimOf v 0 0 7 = some (some (0, 3)) ∧ ((v.unit 0).row 3).bad = [] ∧ ((v.unit 0).row 3).dirty = true ∧
      (bitPlace (v.unit 0) 3 < rowPlace (v.unit 0) 3 ∨ rowPlace (v.unit 0) 3 + 128 ≤ bitPlace (v.unit 0) 3)) ∧
    (s.core 0).mirror.length < 1024 ∧ (s.sectors.find? (fun x => x.1 = 0 * 2 ^ 31 + 5) = some (5, .misdirected) ∧ ∀ d ∈ s.journal, d.kept = false) ∧
    ((s.core 0).bank = none ∧ 64 ≤ ((((s.core 0).bankErrs.filter (fun e => e.1 == 3 && decide (s.now < e.2.2.2 + 2 ^ 20))).map (fun e => (e.2.1, e.2.2.1))).eraseDups).length) ∧
    65536 < (s.core 0).replays.countP (fun t => decide (s.now < t + 2 ^ 24)) ∧ (s.core 1).replays = [] ∧ (∀ y ∈ s.units, y.core ≠ some 1) ∧
    (s.ready = false ∧ (∀ b ∈ s.found.banks, ∀ d ∈ s.found.banks, d.1 = b.1 → d = b) ∧ (s.ports.getD 35 {}).up = false ∧ 35 < s.ports.length) ∧
    ((s.op? 1).map (fun o => decide (o.sentAt + 70000 ≤ o.clock s))) = some true ∧
    ((s.op? 2).map (fun o => decide (o.clock s < o.sentAt + 70000))) = some true :=
  ⟨by decide, by decide, by decide, by decide, by decide, by
    show 65536 < List.countP (fun t => decide (70000 < t + 2 ^ 24)) (List.replicate 65537 0)
    rw [List.countP_replicate]; decide, rfl, by decide, by decide, by decide, by decide⟩
/-- An entry of the home of die 0 that has reached a line of its area, which is lost with that line. -/
theorem test_hyp_PartEvents_journal : let d : JEntry := { owner := .die 0, key := ⟨0, 0, 0, 0, 0, 0⟩, word := 0, addr := 0, data := [], ret := none, kept := true, slot := 0 }
    let s : State := { State.reset with journal := [d] }
    (journalPlace s (.die 0) 0).isSome = true ∧ d ∈ s.journal ∧ d.kept = true := by decide

/-- A crew at a header that waits for nothing. -/
def atHeader (w : Word) : State :=
  ({ base with mem := Memory.writeN base.mem 0xFFC (leBytes w.toNat 4) }).modEntry 0 0 0 (fun e => { e with started := false, pc := 0xFFC, hdr := 0 })
/-- Crew 0 waits for the unit, and crew 1 is ready and pending. -/
def twoCrews : State :=
  let waiting : Entry := { pc := 0x1000, mask := 1, status := .waiting, waitOn := 15, started := true, hdr := 0xE001FE20 }
  let ready : Crew := { split := { pc := 0xFFC, mask := 1, status := .runnable } :: List.replicate 7 {}, lanes := some 0 :: List.replicate 31 none, active := false }
  base.modUnit 0 (fun y => { y with crews := [{ y.crew 0 with split := waiting :: List.replicate 7 {}, chosen := none }, ready] })
/-- A fibre waits in the basin, whose first slot the pool holds, and no crew holds any. -/
def basinUnit : State :=
  base.modUnit 0 (fun y => putSlot { y with
    cfg := { y.cfg with fibres := 33, part := 0x44620 }, crews := [{}, {}], fibs := y.fibs ++ [{ exists_ := true, inBasin := true }] } 0 { pc := 0x1000, pred := 1, fibre := 1, serial := 0, live := 1, forked := false, regs := [5] })
/-- The one entry waits on what `n` names. -/
def waits (n : Nib) : State :=
  (mid.modCrew 0 0 (fun x => { x with chosen := none })).modEntry 0 0 0 (fun e => { e with status := .waiting, waitOn := n })
/-- The BAR.WAIT of `test_hyp_BarrierObjects_BarrierWait` at the instruction. -/
def barriered : State := placeFetch State.reset ((encode (.barWait 0 2)).getD 0).toNat

theorem test_hyp_CrewEvents_lock : let b := basinUnit
    let y := b.unit 0
    y.core = some 0 ∧ y.cancelled = false ∧ y.leaving = false ∧ y.cfg.det = false ∧ (b.node y.cfg.node).doom = 0 ∧ lockPc y (basin b 0) = some 0x1000 ∧
    (freeCrewSlots y).head? = some 0 ∧ b.sectors = [] ∧ y.shareHeld + 256 ≤ y.shareSlots ∧ poolTaken b 0 + 256 ≤ 16384 ∧
    ((waitingAt (basin b 0) 0x1000).take 32).length = 1 ∧ ((waitingAt (basin b 0) 0x1000).take 32).all (fun e => linesOk b (slotRows e.1) true) = true := by decide +kernel
theorem test_hyp_CrewEvents :
    let s := atHeader 0xE001FE00
    let f : State := { atHeader 0xE003FE00 with ops := [{ id := 0, kind := .store, u := some 0, key := some ⟨0, 0, 0, 0, 0, 0⟩, flag := some 0 }] }
    let old : State := { twoCrews with now := 65536 }
    let m := (waits 13).modFib 0 0 (fun y => { y with watch := some 3 })
    (mayRun s 0 0 = true ∧ ((s.unit 0).crew 0).chosen = some 0 ∧ (((s.unit 0).crew 0).entry 0).started = false ∧
      (headerFault s 0 (((s.unit 0).crew 0).entry 0)).toOption = some 0xE001FE00 ∧ waitFlags 0xE001FE00 = [] ∧ ((s.unit 0).fib 0).pending = []) ∧
    (mayRun f 0 0 = true ∧ (headerFault f 0 (((f.unit 0).crew 0).entry 0)).toOption = some 0xE003FE00 ∧ waitFlags 0xE003FE00 = [0] ∧ flagBusy f 0 0 0 = true) ∧
    ((twoCrews.unit 0).core = some 0 ∧ ((twoCrews.unit 0).crew 0).active = true ∧ crewWaits twoCrews 0 0 = true ∧ swapChoice twoCrews 0 0 = some (0, 1)) ∧
    (longest old ((coreCrews old 0).filter (fun p => ((old.unit p.1).crew p.2).active)) = some (0, 0) ∧ (0, 1) ∈ coreCrews old 0 ∧ crewReady old 0 1 = true ∧
      ((old.unit 0).crew 1).since + 65536 ≤ old.now) ∧
    (unitArrived ((waits 15).unit 0) 15 = true ∧ unitReleased (waits 15) 0 0 = true ∧ ((waits 15).unit 0).staging = [] ∧ ((waits 15).unit 0).core.isSome = true ∧
      ((waits 15).unit 0).cancelled = false ∧ ((waits 15).unit 0).leaving = false) ∧
    ((liveCrews ((waits 15).unit 0)).all (fun d => !(((waits 15).unit 0).crew d).serial && (((waits 15).unit 0).crew d).loops == [] && decide ((((waits 15).unit 0).crew d).loopN 0 = 0)) = true) ∧
    (gangOf (waits 14) 0 = [0] ∧ ((waits 14).unit 0).ended = false ∧ unitArrived ((waits 14).unit 0) 14 = true ∧ unitReleased (waits 14) 0 3 = true) ∧
    running barriered 0 0 = some (0, .barWait 0 2) ∧
    ((m.unit 0).core.isSome = true ∧ (m.unit 0).cancelled = false ∧ ((m.unit 0).crew 0).serial = false ∧ 0 < ((m.unit 0).crew 0).split.length ∧
      (((m.unit 0).crew 0).entry 0).status = .waiting ∧ (((m.unit 0).crew 0).entry 0).waitOn = 13 ∧ (((m.unit 0).crew 0).entry 0).mask = 1 ∧
      (((m.unit 0).crew 0).entry 0).idx < hdrN (((m.unit 0).crew 0).entry 0).hdr ∧ ((m.unit 0).fib 0).pending = [] ∧ ((m.unit 0).fib 0).watch ≠ none ∧
      ((m.unit 0).fib 0).fired = false) ∧ (((waits 13).unit 0).fib 0).watch = none := by decide +kernel

/-- An operation of the fibre, in a phase. -/
def anOp (p : Phase) : Op :=
  { id := 9, kind := .store, u := some 0, crew := 0, fibre := 0, key := some ⟨0, 0, 0, 0, 0, 0⟩, word := 5, pc := 0x1000, va := 0x100, loc := 0x100
    leaf := some ⟨0x201F, 2 ^ 36, 0x100⟩, data := [1, 2, 3, 4], phase := p }
def withOp (o : Op) (now : Nat) : State := { base with ops := [o], now := now }

/-- A node that the line of a read named, where the record has room, and where it has none. -/
theorem test_hyp_RequesterEvents_ResponseEvents :
    let get : Op := { anOp (.response (.done [7] [3] true false)) with kind := .load, key := none, order := .acq, dst := [5] }
    let full := (withOp get 0).modNode 0 (fun n => { n with consumed := (List.range 4096).map (fun k => k + 10) })
    ((withOp get 0).op? 9 = some get ∧ get.clock (withOp get 0) < get.respAt + 70000 ∧ linesOk (withOp get 0) (get.dst.map (rowReg get.crew)) false = true ∧ ((withOp get 0).unit 0).core.isSome = true ∧ ((withOp get 0).unit 0).cancelled = false ∧ get.u = some 0 ∧ get.number = none ∧
      recordFull (withOp get 0) 0 [3] = false) ∧ recordFull full 0 [3] = true ∧
    ((withOp (anOp (.response (.fault 0x21 3))) 0).op? 9 = some (anOp (.response (.fault 0x21 3))) ∧ (anOp (.response .diverged)).cmd = none) ∧
    (let w := (withOp (anOp .request) 0).modEntry 0 0 0 (fun e => { e with hold := [9] })
     let f := (withOp (anOp .request) 0).modFib 0 0 (fun y => { y with fate := some 9 })
     ((w.unit 0).crew 0).split.any (fun e => e.hold.contains 9) = true ∧ ((f.unit 0).crew 0).split.any (fun e => e.hold.contains 9) = false ∧
      ((f.unit 0).fib 0).fate = some 9) ∧
    (let z := withOp { anOp .request with tries := 15 } 262144
     (anOp .request).sentAt + 4096 ≤ (withOp (anOp .request) 4096).cyc 0 ∧ (withOp (anOp .request) 4095).cyc 0 < (anOp .request).sentAt + 4096 ∧
      (anOp .request).sentAt + min (4096 * 2 ^ 15) 262144 ≤ z.cyc 0) ∧
    (10 + 3 ≤ (withOp (anOp (.backoff 10)) 13).cyc 0 ∧ ¬ 10 + 3 ≤ (withOp (anOp (.backoff 10)) 12).cyc 0) := by decide +kernel

/-- Serial 0 is answered and old, and serial 1 is the next to be drawn. -/
theorem test_hyp_RequesterEvents_RetireEvents :
    let s := (withOp (anOp .answered) 70000).modFib 0 0 (fun y => { y with serial := 1 })
    let y := (withOp (anOp .answered) 69999).modFib 0 0 (fun y => { y with serial := 1 })
    let p := s.modUnit 0 (fun y => { y with cfg := { y.cfg with prot := true } })
    let k : Key := ⟨0, 0, 0xFFFFF, 0, 0, 0⟩
    let r : Op := { id := 9, kind := .retire (some 3), u := none, key := some k, owner := .disp 0, loc := 1 + 2 ^ 32 }
    let g := (withOp r 0).modJob 0 (fun j => { j with origins := [(0, { serial := 1 })] })
    ((s.unit 0).protect = false ∧ ((s.unit 0).fib 0).low ≠ ((s.unit 0).fib 0).serial ∧
      (∀ q ∈ s.ops, q.phase = .answered ∧ q.sentAt + 70000 ≤ q.clock s) ∧ s.cmds = [] ∧ (s.unit 0).staging = []) ∧
    (∃ q ∈ y.ops, q.u = some 0 ∧ q.fibre = 0 ∧ q.key.map Key.serial = some ((y.unit 0).fib 0).low ∧ ¬ q.sentAt + 70000 ≤ q.clock y) ∧
    (p.unit 0).protect = true ∧ ((withOp r 0).op? 9 = some r ∧ r.kind = .retire (some 3) ∧ ownerUp (withOp r 0) r = true ∧ r.way (withOp r 0) = .comes ∧ (withOp r 0).journal = []) ∧
    (SMap.get {} (g.job 0).origins 0).low ≠ (SMap.get {} (g.job 0).origins 0).serial ∧
    Owner.die 3 ∈ ({ base with restarting := [.die 3] } : State).restarting ∧ Owner.die 3 ∉ base.restarting := by decide +kernel

/-- The key of `anOp`. -/
def aKey : Key := ⟨0, 0, 0, 0, 0, 0⟩
/-- The head of a store queue: a write to memory, and one of the scratchpad. -/
theorem test_hyp_OwnerEvents_queue :
    let q := (withOp (anOp .queued) 0).modCrew 0 0 (fun x => { x with fifo := [9] })
    let o : Op := { anOp .queued with kind := .scrStore, key := none, owner := .pool 0, leaf := none }
    let r := (withOp o 0).modCrew 0 0 (fun x => { x with fifo := [9] })
    (q.op? 9 = some (anOp .queued) ∧ ((q.unit 0).crew 0).fifo = [9] ∧ (q.unit 0).core.isSome = true ∧ doomed q (anOp .queued) = false ∧ lineBusy q (anOp .queued) = false ∧ (q.unit 0).cfg.red = false) ∧
    (r.op? 9 = some o ∧ ((r.unit 0).crew 0).fifo = [9] ∧ o.key = none ∧ o.mask = [] ∧ doomed r o = false ∧ o.loc + 16 ≤ 2 ^ 21 ∧
      (r.unit 0).rows.length ≠ 0 ∧ linesOk r (scrRows o.loc 16) false = true) := by decide +kernel
/-- A keyed request that has no entry, one that has, and one that its home refuses for its tag. -/
theorem test_hyp_OwnerEvents_keyed :
    let o := anOp .request
    let s := withOp o 0
    let e : JEntry := { owner := .die 0, key := aKey, word := 5, addr := 0x100, data := o.digestData, ret := none }
    (s.op? 9 = some o ∧ keyedReady s o = true ∧ ownerHome s o = true ∧ (retireOlder s o aKey).journal = [] ∧ journalRoom s (.die 0) = true ∧
      (homePlace s o).toOption = some (0, 0x100) ∧ reserved 0x100 = false ∧ s.sectors = [] ∧ pinRoom s o 0 0x100 = true ∧ o.way s = .comes ∧ masterBusy s o = false ∧ (homeBack s o).toOption = some 0) ∧
    (retireOlder { s with journal := [e] } o aKey).journal.find? (fun e => e.owner == .die 0 && e.key == aKey) = some e ∧
    (homePlace s { o with va := 2 ^ 60 }).toOption = none := by decide +kernel
/-- A read of a sound line and of a poisoned one. -/
theorem test_hyp_OwnerEvents_read :
    let o : Op := { anOp .request with kind := .load, key := none, data := [] }
    let s := withOp o 0
    s.op? 9 = some o ∧ ownerUp s o = true ∧ o.way s = .comes ∧ olderLoad s o = false ∧ loadWaits s o = false ∧ s.sectors = [] ∧ (homePlace s o).toOption = some (0, 0x100) ∧ s.poisonedAt 0x100 4 = false ∧
    ({ s with lines := [(2, { poison := true })] } : State).poisonedAt 0x100 4 = true := by decide +kernel
/-- An arrival at a unit that is away. -/
theorem test_hyp_OwnerEvents_arrival :
    let o : Op := { anOp .request with kind := .arrive 4, owner := .pool 1, leaf := none, loc := 16 }
    let s : State := { withOp o 0 with units := base.units ++ [{}] }
    s.op? 9 = some o ∧ keyedReady s o = true ∧ 1 < s.units.length ∧ (s.unit 1).core = none ∧ (retireOlder s o aKey).journal = [] ∧
    journalRoom s (.pool 1) = true := by decide +kernel
/-- The copies of a redundant unit. -/
def copies (ops : List Op) : State :=
  { red with ops := ops, units := red.units.map (fun y => { y with cfg := { y.cfg with twin := some 1 } }) ++
                                  red.units.map (fun y => { y with cfg := { y.cfg with twin := some 0, trailer := true } }) }
/-- The first arrival of a pair, and a second one with the same and with another operand. -/
theorem test_hyp_OwnerEvents_pair :
    let o : Op := { anOp .request with kind := .cas }
    let t : Op := { anOp .held with id := 10, kind := .cas, u := some 1 }
    ((copies [o]).op? 9 = some o ∧ paired (copies [o]) o = true ∧ ownerUp (copies [o]) o = true ∧ (copies [o]).journal = [] ∧ otherCopy (copies [o]) o = none) ∧
    (otherCopy (copies [o, t]) o = some t ∧ o.word = t.word ∧ o.digestAddr = t.digestAddr ∧ o.digestData = t.digestData) ∧
    otherCopy (copies [o, { t with data := [5] }]) o = some { t with data := [5] } := by decide +kernel
/-- The signature of an operation. -/
def sigOf (o : Op) (tr : Bool) : Sig := { op := o.id, key := aKey.num, trailer := tr, word := o.word, addr := o.digestAddr, data := o.digestData, localClass := false }
/-- A signature that stands alone, with and without room, and one that meets its equal and another. -/
theorem test_hyp_OwnerEvents_signature :
    let o := anOp .paired
    let t : Op := { anOp .paired with id := 10, u := some 1 }
    let s := fun (l : List Sig) => (copies [o, t]).modUnit 0 (fun y => { y with compare := l })
    ((s []).op? 9 = some o ∧ (s []).here.compare = [] ∧ o.key = some aKey ∧ o.phase = .paired) ∧
    (64 ≤ (s (List.replicate 64 { sigOf t true with key := 5 })).here.compare.length ∧ (5 : Nat) ≠ aKey.num) ∧
    ((s [sigOf t true]).here.compare = [sigOf t true] ∧ (sigOf t true).key = aKey.num ∧ (sigOf t true).trailer ≠ (s []).here.cfg.trailer ∧
      (sigOf t true).localClass = false ∧ (sigOf t true).op ≠ 9) := by decide +kernel

/-- An update that waits to be sent, its turn, and one that comes early. -/
theorem test_hyp_DrainedUpdates :
    let o := fun (p : Phase) (n : Nat) => ({ anOp p with kind := .rmw .add .i32 false false, number := some (n, false) } : Op)
    let s := fun (p : Phase) (n : Nat) => ({ withOp (o p n) 0 with drains := [{ owner := .die 0, addr := 0x100, unit := 0, node := 0, next := 0, held := [] }] } : State)
    (s .queued 0).op? 9 = some (o .queued 0) ∧
    ((s .request 0).op? 9 = some (o .request 0) ∧ ownerUp (s .request 0) (o .request 0) = true ∧ paired (s .request 0) (o .request 0) = false ∧
      (s .request 0).journal = [] ∧ drainOf (s .request 0) (o .request 0) = some 0 ∧ journalRoom (s .request 0) (.die 0) = true ∧
      (homePlace (s .request 0) (o .request 0)).toOption = some (0, 0x100) ∧ pinRoom (s .request 0) (o .request 0) 0 0x100 = true ∧ (o .request 0).way (s .request 0) = .comes ∧ (drainRace (s .request 0) (o .request 0)).1 = none ∧ (s .request 0).sectors = []) ∧
    drainOf (s .request 1) (o .request 1) = some 0 := by decide +kernel

/-- A request of each kind at a home, at a dispatcher, and in the scratchpad of a unit that holds its line. -/
theorem test_hyp_OwnerEffects :
    let ks : List OpKind := [.store, .part, .rmw .add .i32 false true, .cas, .ldDs, .stDs 0, .addDs, .redDs, .tagSet, .berth 0]
    let at_ := fun (k : OpKind) => ({ anOp .request with kind := k, va := 0x20000, loc := 0x20000, leaf := some ⟨0x201F, 2 ^ 36, 0x20000⟩ } : Op)
    let s := fun (k : OpKind) => ({ withOp (at_ k) 0 with stks := [(0, { drgn := [0x8000000000100002] })] } : State)
    let d := fun (k : OpKind) => ({ anOp .request with kind := k, owner := .disp 0, leaf := none, data := [] } : Op)
    let p := fun (k : OpKind) => ({ anOp .request with kind := k, owner := .pool 0, leaf := none } : Op)
    (ks.all (fun k => (s k).op? 9 == some (at_ k) && keyedReady (s k) (at_ k) && (at_ k).way (s k) == .comes && (retireOlder (s k) (at_ k) aKey).journal == [] &&
      journalRoom (s k) (.die 0) && pinRoom (s k) (at_ k) 0 0x20000 && !targetPoisoned (s k) (at_ k) 0x20000 && !reserved 0x20000 && (s k).sectors == []) = true) ∧
    ([OpKind.store, .part, .rmw .add .i32 false true, .cas, .tagSet].all (fun k => (homePlace (s k) (at_ k)).toOption == some (0, 0x20000)) = true ∧ dredged (s .addDs) 0x20000 = true) ∧
    ([OpKind.berOpen, .berPub 0 0 1, .tagRetire 3, .stepAdv, .cancel 0, .post 0].all (fun k => (withOp (d k) 0).op? 9 == some (d k) && keyedReady (withOp (d k) 0) (d k) &&
      (d k).way (withOp (d k) 0) == .comes && !masterBusy (withOp (d k) 0) (d k) && journalRoom (withOp (d k) 0) (.disp 0)) = true) ∧
    ([OpKind.store, .part, .arrive 4].all (fun k => (withOp (p k) 0).op? 9 == some (p k) && keyedReady (withOp (p k) 0) (p k) && journalRoom (withOp (p k) 0) (.pool 0) &&
      linesOk (withOp (p k) 0) (scrRows 0x100 16) false) = true) := by decide +kernel

-- launch, end and step -----------------------------------------------------------------------------------------------

/-- A card of one unit of one fibre, with a partition of 44 blocks; `x` adds further fields. -/
def card (x : Nat) : BitVec 512 := BitVec.ofNat 512 (0x44610 * 2 ^ 64 + 2 ^ 184 + 2 ^ 204 + 2 ^ 215 + x)
/-- A queued node whose images begin at 0x200000. -/
def queuedNode (x : Nat) : NodeSt := { job := 0, id := 7, card := card x, decl := BitVec.ofNat 2048 (0x200000 * 2 ^ 384), home := 0 }
def launch : State := { State.reset with nodes := [queuedNode 0], mem := [(0x200000, 1)] }

/-- The unit may start on core 5. -/
theorem test_hyp_LaunchEvents_dispatch : let r := tellShort ((List.range 1).foldl (fun s i => decodeRange (readPreds s 0 i) ((queuedNode 0).imageOf i) 256) launch)
    0 < launch.nodes.length ∧ (queuedNode 0).red = false ∧ 0 ∈ nextGangs r 0 false ∧ cardTurn r 0 = true ∧ heldBack r 0 (dieOf 5) = false ∧
    (queuedNode 0).gangAt 0 = 1 ∧ imageOk r 0 0 = true ∧ assign 5 (gangCores r 0 false 0) [] = some [5] := by decide +kernel
/-- Passed over for long enough, and not yet. -/
theorem test_hyp_LaunchEvents_passed :
    let s := fun now => ({ launch with nodes := [{ queuedNode 0 with passedAt := some 0 }], now := now } : State)
    ((s 1048576).node 0).passedAt = some 0 ∧ ((s 1048576).node 0).doom = 0 ∧ 0 + 2 ^ 20 ≤ (s 1048576).now ∧ (s 1048575).now < 0 + 2 ^ 20 := by decide
/-- A card of priority 1 whose one logical core is bound to core 0, where a unit of priority 0 stands. -/
theorem test_hyp_LaunchEvents_wanted :
    let n : NodeSt := { queuedNode (2 ^ 225 + 2 ^ 237 + 2 ^ 240) with lcores := [(0, 1)] }
    let s : State := { det with nodes := det.nodes ++ [n] }
    (s.unit 0).core.isSome = true ∧ (s.unit 0).cancelled = false ∧ (s.unit 0).stopping = false ∧ (s.unit 0).preempting = false ∧ (s.unit 0).cfg.det = true ∧ wanted s 0 = true ∧
    wanted base 0 = false := by decide +kernel
/-- A gang of one that has stopped; its image written; and the core it resumes on. -/
theorem test_hyp_LaunchEvents_gang :
    let p := base.modUnit 0 (fun y => { y with preempting := true })
    let e := base.modUnit 0 (fun y => { y with status := .evictable, core := none })
    let s := base.modUnit 0 (fun y => { y with status := .saved, core := none, lastCore := some 5, rows := [] })
    ((p.unit 0).core.isSome = true ∧ (p.unit 0).stopping = false ∧ (p.unit 0).preempting = true ∧ (p.unit 0).cfg.det = false ∧ liveGang p 0 = [0] ∧ (p.unit 0).cancelled = false ∧
      (p.unit 0).sweeps = [] ∧ crewsQuiet p 0 = true ∧ ∀ c ∈ (p.unit 0).crews, c.fifo = []) ∧
    ((e.unit 0).status = .evictable ∧ (e.unit 0).cancelled = false) ∧
    (liveGang s 0 = [0] ∧ (s.unit 0).status = .saved ∧ (s.unit 0).cancelled = false ∧ (s.unit 0).core = none ∧ (s.node 0).doom = 0 ∧ (s.node 0).stopping = none ∧
      (s.unit 0).lastCore = some 5 ∧ s.sectors = [] ∧ (Memory.read s.mem ((s.unit 0).base + 4)).getLsbD 2 = false ∧
      resumeCores (tellShort s) (liveGang s 0) 5 = some [5] ∧ (resumeUnit (tellShort s) 0 5).isSome = true) := by decide +kernel
/-- A request with and without a free grant; a grant that is due to expire and one that is not. -/
theorem test_hyp_LaunchEvents_grants :
    let s := fun (h now : Nat) => ({ base with dies := [(0, { hcap := h, queue := [0], served := [(3, 0)] })], now := now } : State)
    (((s 2 0).die 0).queue = [0] ∧ ((s 2 0).die 0).held.length + ((s 2 0).die 0).served.length < ((s 2 0).die 0).hcap) ∧
    ((s 1 0).die 0).hcap ≤ ((s 1 0).die 0).held.length + ((s 1 0).die 0).served.length ∧
    (∃ e ∈ ((s 1 8192).die 0).served, e.1 = 3 ∧ e.2 + 8192 ≤ (s 1 8192).now) ∧
    (∀ e ∈ ((s 1 8191).die 0).served, ¬ (e.1 = 3 ∧ e.2 + 8192 ≤ (s 1 8191).now)) := by decide

/-- The last fibre of a unit has ended. -/
def endedUnit : State := base.modFib 0 0 (fun f => { f with ended := true })
/-- A unit that may drain: it has ended and its gang holds the turn. -/
def drains : State := det.modUnit 0 (fun y => { y with ended := true, core := none
                                                       staging := [{ target := 0x100, value := 5, fibre := 0, type := 4, seq := 0, word := (encode (.red .rlx 7 false .add .f32 false 2 4)).getD 0, g := 0, crew := 0, slot := 0 }] })
theorem test_hyp_EndingEvents_unit :
    (unitDone endedUnit 0 = true ∧ (endedUnit.unit 0).stopping = false ∧ (endedUnit.unit 0).cfg.node < endedUnit.nodes.length ∧ (endedUnit.node 0).red = false ∧
      (endedUnit.unit 0).cfg.uidx ∉ (endedUnit.node 0).done) ∧ unitDone base 0 = false ∧
    (mayDrain drains 0 = true ∧ ∀ e ∈ (drains.unit 0).staging, e.local_ = false) ∧ mayDrain base 0 = false := by decide +kernel
/-- The decision; a home with lines of the node left, and none; and a node that may not commit. -/
theorem test_hyp_EndingEvents_commit :
    let s := fun (d : List Nat) (st : NStatus) (ls : SMap LineSt) => ({ base with nodes := [{ queuedNode 0 with status := st, done := d }], lines := ls } : State)
    let l : LineSt := { w := true, owner := 0, c := true }
    mayCommit (s [0] .running []) 0 = true ∧
    (((s [0] .committing [(2, l)]).node 0).status = .committing ∧ homeLeft (s [0] .committing [(2, l)]) 0 = some 0 ∧
      (s [0] .committing [(2, l)]).lines.filter (fun e => e.1 == 2) = [(2, l)]) ∧
    homeLeft (s [0] .committing []) 0 = none ∧ (mayCommit (s [] .running []) 0 = false ∧ ((s [] .running []).node 0).status ≠ .committing) := by decide +kernel
/-- Protected and not; three retries made; and 70,000 cycles after the rollback and before. -/
theorem test_hyp_EndingEvents_rollback :
    let s := fun (x doom retries : Nat) => ({ base with nodes := [{ queuedNode x with status := .running, doom := doom, retries := retries }] } : State)
    let z := fun now => ({ base with nodes := [{ queuedNode (2 ^ 239) with status := .running, doom := 4, passedAt := some 0 }], now := now } : State)
    ((rollbackSet (s (2 ^ 239) 2 2) 1 [0]).all (fun k => rollable ((s (2 ^ 239) 2 2).node k)) = true ∧ ((s (2 ^ 239) 2 2).node 0).status = .running ∧
      ((s (2 ^ 239) 2 2).node 0).stopping = none ∧ ((s (2 ^ 239) 2 2).node 0).doom = 2 ∧ ((s (2 ^ 239) 2 2).node 0).retries < 3) ∧
    ((rollbackSet (s 0 1 0) 1 [0]).all (fun k => rollable ((s 0 1 0).node k)) = false ∧ ((s 0 1 0).node 0).doom = 1) ∧
    (((s (2 ^ 239) 2 3).node 0).doom = 2 ∧ 3 ≤ ((s (2 ^ 239) 2 3).node 0).retries) ∧ ((s 0 0 0).node 0).doom ≠ 1 ∧
    (((z 70000).node 0).passedAt = some 0 ∧ ((z 70000).node 0).doom = 4 ∧ ((z 70000).node 0).status = .running ∧ ((z 70000).node 0).stopping = none ∧ 0 + 70000 ≤ (z 70000).now ∧ (z 69999).now < 0 + 70000) := by decide +kernel

/-- A STEP.ADV to a boundary that one core has still to see. -/
theorem test_hyp_StepEvents_step :
    let o : Op := { anOp .held with kind := .stepAdv, owner := .disp 0, leaf := none, data := [] }
    let s := fun (l : List Nat) => ({ withOp o 0 with jobs := [(0, { g := 0x100000, gOld := some 0xFFFFF, gNew := l, advancing := some 9 })] } : State)
    (s [0]).op? 9 = some o ∧ o.job (s [0]) = 0 ∧ ((s [0]).job 0).advancing = some 9 ∧ stepDone (s [0]) 0 = true ∧ stepDone (s []) 0 = false ∧
    ((s [0]).job 0).g.toNat % 2 ^ 20 = 0 := by decide +kernel
/-- A pass that may begin, one that waits for a RED.DS, and one in progress over a region of one slot page. -/
theorem test_hyp_StepEvents_dredge :
    let s := fun (b : Bool) => ({ base with stks := [(0, { due := [(0, 0x100000)], busy := b, target := 0x100000, drgn := [0x8000000000100002] })] } : State)
    let r : Op := { anOp .request with kind := .redDs, g := 0xFFFFF }
    (((s false).stack 0).due = (0, 0x100000) :: [] ∧ ((s false).stack 0).busy = false ∧ earlierRed (s false) 0 0x100000 = false) ∧
    earlierRed { s false with ops := [r] } 0 0x100000 = true ∧
    (((s true).stack 0).busy = true ∧ (0x8000000000100002 : BitVec 64) ∈ ((s true).stack 0).drgn ∧ (0x8000000000100002 : BitVec 64).getLsbD 63 = true ∧
      bits (0x8000000000100002 : BitVec 64).toNat 0 20 * 65536 ≤ 0x20008 ∧ 0x20008 < (bits (0x8000000000100002 : BitVec 64).toNat 0 20 +
        bits (0x8000000000100002 : BitVec 64).toNat 20 20) * 65536 ∧ reserved 0x20008 = false ∧ ((s true).line (0x20008 / 128)).poison = false) := by decide +kernel
/-- A checkpoint that may begin, one that may end, and a restore of a job with one page, that is not staged. -/
theorem test_hyp_StepEvents_checkpoint :
    let s := fun (k : Nat) => ({ State.reset with jobs := [(0, { ckpt := k })] } : State)
    let c : Ckpt := { job := 0, mem := [], poison := [], tags := [], g := 3, classes := [], open_ := 0, kctx := 0, tagmap := [], journal := [] }
    ((s 1).job 0).ckpt = 1 ∧ atBoundary (s 1) 0 = true ∧ ((s 1).job 0).waitStep = 0 ∧ ((s 2).job 0).ckpt = 2 ∧
    (({ State.reset with ckpts := [c] } : State).ckpts.filter (fun k => k.job == 0)).getLast? = some c ∧ jobRuns State.reset 0 = false ∧ jobRuns base 0 = true := by
  decide +kernel

/-- A COPY that has ended; a FRAME whose record, source and destination can be read; and COLLs that have and have not been performed. -/
def aCmd (k : CmdKind) (b : Nat) : Cmd :=
  { id := 9, kind := k, u := 0, crew := 0, lane := 0, fibre := 0, key := aKey, word := 5, pc := 0x1000, priv := false
    block := (List.range 8).map (fun j => BitVec.ofNat 32 (b / 2 ^ (32 * j))), flag := none, core := 0 }
def withCmd (c : Cmd) : State := { base with cmds := [c] }
theorem test_hyp_StepEvents_commands :
    let e : Cmd := { aCmd .copy 0 with sent := true, rung := true }
    let l := fun (sent : Bool) (n : Nat) => ({ aCmd .coll 0 with sent := sent, next := n } : Cmd)
    ((withCmd e).cmd? 9 = some e ∧ e.sent = true ∧ e.rung = true ∧ (withCmd e).ops = []) ∧ (aCmd .copy 0).sent = false ∧
    ((withCmd (l true 0)).cmd? 9 = some (l true 0)) ∧ ((withCmd (l false 0)).cmd? 9 = some (l false 0)) ∧ (withCmd (l false 1)).cmd? 9 = some (l false 1) := by
  decide +kernel
/-- One picture of 2 by 2 samples at 0x10000, in rows of BF16, to 0x40000; the record is as Table 17-8 says, and is the command's with its block. -/
def record : Nat := (2 + 2 * 2 ^ 16 + 2 * 2 ^ 32 + 2 * 2 ^ 48) * 2 ^ 64 + (4 + 8 * 2 ^ 32) * 2 ^ 192
def aFrame : Cmd :=
  let c := aCmd .frame (0x10000 + 2 ^ 64 * 0x40000 + 2 ^ 128 * 0x20000 + 2 ^ 192 * 100)
  { c with block := c.block ++ (List.range 60).map (fun j => BitVec.ofNat 32 (record / 2 ^ (32 * j))) ++ [0] }
theorem test_hyp_StepEvents_frame :
    let s := withCmd aFrame
    let r := wordsNat ((aFrame.block.drop 8).take 60)
    s.cmd? 9 = some aFrame ∧ frameNext s aFrame = true ∧ (s.node (s.unit aFrame.u).cfg.node).doom = 0 ∧ recordOk r = true ∧ rResize r = false ∧
    fetchSource s aFrame .glob [(baseOf (bSrc aFrame.blk), fSlen aFrame.blk), (rB r 16 8, 1536)] = none ∧ s.sectors = [] ∧
    (rangeBytes s aFrame .glob (bSrc aFrame.blk) (fSlen aFrame.blk)).2.toOption.map List.length = some 100 ∧
    (rangeBytes s aFrame .glob (rB r 16 8) 1536).2.toOption.map List.length = some 1536 ∧
    spanOf (granulesOf (spaceOf (bDst aFrame.blk)) (frameExtent r (bDst aFrame.blk))) ≤ 65534 := by decide +kernel
/-- A COLL that waits: not long enough, for its first timeout, its 16th and its 32nd; and a member that the 32nd reaches. -/
theorem test_hyp_StepEvents_tree :
    let c := fun (n : Nat) => ({ aCmd .coll 0 with tries := n } : Cmd)
    let s := fun (n now : Nat) => ({ withCmd (c n) with now := now } : State)
    (s 0 0).cyc 0 < (c 0).askedAt + collTimeout (s 0 0) (c 0) ∧ (c 0).askedAt + collTimeout (s 0 4096) (c 0) ≤ (s 0 4096).cyc 0 ∧ (c 0).gate = 0 ∧ (c 0).fate = false ∧
    (c 15).askedAt + collTimeout (s 15 262144) (c 15) ≤ (s 15 262144).cyc 0 ∧ (c 31).askedAt + collTimeout (s 31 262144) (c 31) ≤ (s 31 262144).cyc 0 ∧
    (s 31 0).cmd? 9 = some (c 31) ∧ 0 < (s 31 0).units.length ∧ 0 < ((s 31 0).unit 0).fibs.length := by decide +kernel

-- the machine --------------------------------------------------------------------------------------------------------

/-- A word outside a body; and the second pass of a body that steps register 3 to 4. -/
theorem test_hyp_StepRunsDecoded :
    let s := placeFetch State.reset ((encode (.iadd 3 1 2)).getD 0).toNat
    let a : State := { s with now := s.now + s.pace, inputs := [] }
    let b := choose a 0 0
    let en := ((b.unit 0).crew 0).entry 0
    let p := placeFetch State.reset ((encode (.iadd 3 1 2)).getD 0).toNat
    let q : State := { p with mem := Memory.writeN p.mem 0xFF8 (leBytes ((encode (.rept 5 1 0 0 0 0 false)).getD 0).toNat 4) }
    let l := (q.modCrew 0 0 (fun x => { x with loops := [(0, 0x201)] }))
    (s.inputs = .run 0 0 :: [] ∧ mayRun a 0 0 = true ∧ ((b.unit 0).crew 0).chosen = some 0 ∧ en.started = true ∧ en.stale = false ∧ s.lost = [] ∧ standing { b with cur := (0, 0, 0) } = true ∧
      (fetchWord b 0 en.handler en.pc).toOption = encode (.iadd 3 1 2) ∧ ((encode (.iadd 3 1 2)).map isMarker) = some false ∧ bodyOf b 0 0 en = false ∧
      ((encode (.iadd 3 1 2)).map decodeWord) = some (.ok (.iadd 3 1 2))) ∧
    (bodyOf l 0 0 ((((l.unit 0).crew 0)).entry 0) = true ∧
      ((encode (.iadd 3 1 2)).bind (fun w => stepped l 0 0 (((l.unit 0).crew 0).entry 0) (.iadd 3 1 2) w)) = encode (.iadd 4 1 2)) ∧
    encode .powerOn = none := by decide +kernel
/-- One instruction of each operand shape is well formed, and a word decodes. -/
theorem test_hyp_DecodeEncode : (Instr.cvt .f32 .e4m3 true .rdn 127 126).wf = true ∧ decodeWord 0x38181064 = .ok (.addi 3 1 100) := by decide
theorem test_hyp_StepKeepsMemory : State.reset.MemOk ∧ base.MemOk := by
  constructor <;> (unfold State.MemOk; decide)
theorem test_hyp_StepKeepsP0 : base.P0 ∧ Goes base := by
  have h : (match step base with | .next _ => true | _ => false) = true := by decide +kernel
  refine ⟨by unfold State.P0; decide, ?_⟩
  unfold Goes
  split at h
  · exact ⟨_, ‹_›⟩
  · cases h
/-- A scale register that a pass steps past 127; an entry that waits for an operation; one without an active lane; a check that fails; and a register that a COPY is still to write. -/
theorem test_hyp_ChecksTrap :
    let w := base.modEntry 0 0 0 (fun e => { e with hold := [9] })
    let p := base.modEntry 0 0 0 (fun e => { e with hdr := 0xE001FE02 })
    let b : State := { base with cmds := [{ aCmd .copy 0 with dst := [3] }] }
    let l : State := ({ base with mem := Memory.writeN base.mem 0xFF8 (leBytes ((encode (.rept 5 0 0 3 0 0 false)).getD 0).toNat 4) } : State).modCrew 0 0 (fun x => { x with loops := [(0, 0x201)] })
    (standing l = true ∧ waiting l l.ctx = false ∧ l.ctx.act ≠ 0 ∧ 127 < scaleReg l l.ctx 31 + 1) ∧
    (standing w = true ∧ waiting w w.ctx = true) ∧ (standing p = true ∧ waiting p p.ctx = false ∧ p.ctx.act = 0) ∧
    (standing base = true ∧ waiting base base.ctx = false ∧ base.ctx.act ≠ 0 ∧ privFails (.sread 1 .xrootLo) base.ctx.ent.handler (base.jobctl.getLsbD 33) = true) ∧
    (standing b = true ∧ waiting b b.ctx = false ∧ b.ctx.act ≠ 0 ∧ scoreboard b b.ctx (.iadd 3 1 2) = true) ∧ (encode (.iadd 3 1 2)).isSome = true := by decide +kernel
/-- A misaligned word; an address that is not canonical; a page that is not mapped, and one that may not be read; a berth and a staged page that only the home can refuse, and a
versioned page with no live berth; a tag that differs; and a sound access. -/
theorem test_hyp_AddressChecks_home :
    let paged := fun (e : Nat) => ({ base with mem := Memory.writeN base.mem 0x4000 (leBytes e 8) } : State)
    let y := base.unit 0
    let leaf := fun (e : Nat) => (⟨BitVec.ofNat 64 e, 2 ^ 36, 0x100⟩ : Leaf)
    let bare : State := { paged 0x208F with jobs := [(0, { tagmap := [(0, 0)] })] }
    ([0x208F, 0x210F].all (fun e => (translate (paged e) y.core y.cfg.job y.xroot 0x100).toOption == some (leaf e)) = true) ∧
    (permCause (leaf 0x208F).ent .berth false = none ∧ backing (paged 0x208F) (some 0) (y.berth (paged 0x208F)) 0x100 (leaf 0x208F) .berth 7 = none) ∧
    (permCause (leaf 0x210F).ent .st false = none ∧ backing (paged 0x210F) (some 0) (y.berth (paged 0x210F)) 0x100 (leaf 0x210F) .st 0 = none ∧
      entKind (leaf 0x210F).ent ≠ 2 ∧ entStaged (leaf 0x210F).ent = true) ∧
    (permCause (leaf 0x208F).ent .ld false = none ∧ backing bare (some 0) (y.berth bare) 0x100 (leaf 0x208F) .ld 0 = none ∧ entStaged (leaf 0x208F).ent = false) := by decide +kernel
/-- The others. -/
theorem test_hyp_AddressChecks :
    let s := base
    let y := s.unit 0
    let l : Leaf := ⟨0x201F, 2 ^ 36, 0x100⟩
    let bad : State := { regs base [(2, 0x102)] with mem := base.mem }
    let clash : State := ({ regs det [(2, 0x100)] with mem := Memory.writeN base.mem 0x4000 (leBytes 0x221F 8) } : State).modNode 0 (fun n =>
      { n with shadow := [{ sector := 8, writers := [{ unit := 7, crew := 0, gen := 0, ggen := 0 }] }] })
    (0x102 % 4 ≠ 0 ∧ 0x100 % 4 = 0 ∧ bits (2 ^ 56) 56 4 ≠ 0) ∧ (translate s y.core y.cfg.job y.xroot (2 ^ 36)).isOk = false ∧
    ((translate s y.core y.cfg.job y.xroot 0x100).toOption = some l ∧ permCause l.ent .ld false = none ∧ permCause (l.ent &&& ~~~4) .ld false = some 0 ∧
      backing s (some 0) (y.berth s) 0x100 l .ld 0 = some 0 ∧ s.coreTag y.core (l.place 0) = (0x100 : BitVec 64).extractLsb' 60 4 ∧
      s.coreTag y.core (l.place 0) ≠ (0x1000000000000100 : BitVec 64).extractLsb' 60 4) ∧
    (BitVec.ofNat 64 (Memory.nat base.mem (0x2000 + 8 * (0x100 / 2 ^ (16 + 10 * 3) % 1024)) 8) = 0x40001 ∧ malformed 0x40001 0 = false ∧
      BitVec.ofNat 64 (Memory.nat base.mem (0x4000 + 8 * (0x100 / 2 ^ (16 + 10 * 2) % 1024)) 8) = 0x201F ∧ malformed 0x201F 1 = false ∧ malformed 0x40003 0 = true) ∧
    (readyOk (.ldW .rlx 7 5 2 0) bad && readyOk (.stW .rlx 7 5 2 0) bad) = true ∧ (Instr.ldW .rlx 7 5 2 0).wf = true ∧ bad.sectors = [] ∧ bad.acts 0 ∧
    (readyOk (.stW .rlx 7 5 2 0) clash = true ∧ lanesOf clash.ctx.act = [0] ∧ clash.sectors = [] ∧
      (match (Target.glob ((clash.opnd 0 3 ++ clash.opnd 0 2) + BitVec.ofInt 64 (4 * (0 : BitVec 7).toInt))).check clash clash.ctx .st 4 4 0 with
        | .ok k => (k.race clash clash.ctx 4 .wr).1 == some 0 | .error _ => false) = true) ∧
    ((Target.glob ((bad.opnd 0 3 ++ bad.opnd 0 2) + BitVec.ofInt 64 (4 * (0 : BitVec 7).toInt))).check bad bad.ctx .ld 4 4 0).isOk = false := by decide +kernel

/-- A state in which the next step runs the first entry at a word, as a header or as an instruction, and inside the second pass of a body that steps register d. -/
def stands (started : Bool) (w : Word) : State :=
  (placeFetch State.reset w.toNat).modEntry 0 0 0 (fun e => { e with started := started })
def body (w : Word) : State :=
  let p := placeFetch State.reset w.toNat
  ({ p with mem := Memory.writeN p.mem 0xFF8 (leBytes ((encode (.rept 5 1 0 0 0 0 false)).getD 0).toNat 4) } : State).modCrew 0 0 (fun x => { x with loops := [(0, 0x201)] })
/-- The turn of a crew and its chosen entry. -/
def turnOk (s : State) : Bool :=
  let a : State := { s with now := s.now + s.pace, inputs := [] }
  let b := choose a 0 0
  s.lost == [] && s.inputs == [.run 0 0] && mayRun a 0 0 && ((b.unit 0).crew 0).chosen == some 0 && !(((b.unit 0).crew 0).entry 0).stale
/-- Words of no opcode, with a reserved bit set, with a register out of range as it stands and in a pass, and with an illegal value; a page that is not mapped; header words
where an instruction is due, and headers that open a clause, wait, name a wrong flag, and are none. -/
theorem test_hyp_FetchTraps :
    let far := fun (b : Bool) => (stands b 0).modEntry 0 0 0 (fun e => { e with pc := 2 ^ 40 })
    let fetch := fun (s : State) => let e := ((s.unit 0).crew 0).entry 0; fetchWord (fetchReads s 0 e.handler e.pc) 0 e.handler e.pc
    ([0x00600000, 0x00100000, 0xE001FE00, 0x2028A001].all (fun w => turnOk (stands true w) && (fetch (stands true w)).toOption == some w) = true) ∧
    (turnOk (far true) = true ∧ turnOk (far false) = true ∧ (fetch (far true)).isOk = false) ∧
    (rawOf 0x00600000 = none ∧ (rawOf 0x00100000).any (fun q => !(q.res && q.i.resOk)) = true) ∧
    (turnOk (body ((encode (.iadd 127 1 2)).getD 0)) = true) := by decide +kernel

/-- An IADD that reads stream 0, whose descriptor is at r8, of `dims` dimensions; its registers, and the memory that it walks. -/
def streaming (esz dims : Nat) (b : VReg) (rs : List (Nat × Word)) : State :=
  let p := placeFetch State.reset ((encode (.iadd 3 124 b)).getD 0).toNat
  regs ((({ base with mem := Memory.writeN p.mem 0x100 [1, 2, 3, 4, 5] } : State).modUnit 0 (fun y => { y with cfg := { y.cfg with part := y.cfg.part &&& ~~~(2 ^ 18) }, rows := y.rows ++ [] })).modCrew 0 0 (fun x => { x with streams := [{ bound := true, dr := 8, dims := BitVec.ofNat 2 dims, esz := BitVec.ofNat 2 esz }] })) rs
/-- Every dimension ends, an inner one ends, and none; reads that fail, that wait for the crew's own store, and that a poisoned line ends; in a deterministic launch, a read of what another crew wrote. -/
theorem test_hyp_StreamReads :
    let ok := fun (s : State) => standing s && !waiting s s.ctx && lanesOf s.ctx.act == [0] && (dynCheck s s.ctx (.iadd 3 124 2)).isNone && !scoreboard s s.ctx (.iadd 3 124 2) &&
      linesOk s (readRows s s.ctx (.iadd 3 124 2)) true && linesOk s (walkRows s s.ctx (.iadd 3 124 2) ++ destRows s s.ctx (.iadd 3 124 2)) false && streamsOf s s.ctx (.iadd 3 124 2) == [0] && s.sectors == []
    let s := streaming 0 2 2 [(8, 0x100), (10, 0x50005), (11, 4), (12, 0x20003), (13, 8), (14, 0x1), (15, 16), (2, 7)]
    let far := streaming 0 0 2 [(9, 0x100)]
    let busy : State := (({ s with ops := [{ id := 9, kind := .store, u := some 0, va := 0x100, loc := 0x100, leaf := some ⟨0x201F, 2 ^ 36, 0x100⟩, data := [1], owner := .die 0 }] } : State).modCrew 0 0 (fun x => { x with fifo := [9] }))
    let sick : State := { s with lines := [(2, { poison := true })] }
    let races := (({ s with mem := Memory.writeN s.mem 0x4000 (leBytes 0x221F 8) } : State).modNode 0 (fun n => { n with shadow := [{ sector := 8, writers := [{ unit := 7, crew := 0, gen := 0, ggen := 0 }] }] })).modUnit 0 (fun y => { y with cfg := { y.cfg with det := true } })
    (ok s && ok far && ok busy && ok sick && ok races = true) ∧ (checkLane far 0 false .ld 0x10000000000 4 0).isOk = false ∧
    (match checkLane s 0 false .ld 0x100 4 0 with
      | .ok g => !reserved g.loc && !mustWait s 0 0 (ownerOf g.loc) (some g.leaf) g.loc 4 && mustWait busy 0 0 (ownerOf g.loc) (some g.leaf) g.loc 4 && !s.poisonedAt g.loc 4 && sick.poisonedAt g.loc 4
      | .error _ => false) = true ∧
    (match checkLane races 0 false .ld 0x100 4 0 with | .ok g => (raceGlobal races 0 0 g.leaf g.loc 4 .rd).1 == some 1 | .error _ => false) = true := by decide +kernel

/-- A serial crew whose running lane 2 stands at an instruction; the other lanes' words are `ws`. -/
def serial (w : Word) (ws : List LaneWord) : State :=
  let s := ({ base with mem := Memory.writeN base.mem 0x1000 (leBytes w.toNat 4) } : State).modUnit 0 (fun y => { y with fibs := List.replicate 32 { exists_ := true } })
  let e : Entry := { ((base.unit 0).crew 0).entry 0 with mask := 4 }
  let here : LaneWord := { lst := .runnable, pc := 0x1000 }
  s.modCrew 0 0 (fun x => { x with serial := true, slane := 2, chosen := some 0, split := e :: List.replicate 7 {}, lanes := (List.range 32).map some,
                                   masks := 0 :: 0 :: 0 :: 0xC :: List.replicate 8 0, tab := (ws.take 2 ++ here :: ws.drop 2) ++ List.replicate (31 - ws.length) {} })
/-- A table that overflows and one that does not; lanes to choose from: none, one that runs, and one that has parked; the first and the last lane to come to a WAIT; a lane that
traps; and lanes that stand together, to run, to wait, and apart. -/
theorem test_hyp_SerialMode :
    let wait := (encode (.wait 3)).getD 0
    let run (p : Addr) : LaneWord := { lst := .runnable, pc := p }
    let await (p : Addr) : LaneWord := { lst := .waiting, pc := p, waitOn := 3 }
    let park (h : Bool) : LaneWord := { lst := .parked, pc := 0x1004, held := h }
    let idle := fun (ws : List LaneWord) => (serial 0 []).modCrew 0 0 (fun x => { x with chosen := none, split := List.replicate 8 {}, tab := ws ++ List.replicate (32 - ws.length) {} })
    let can := fun (w : LaneWord) => w.lst == .runnable || (w.lst == .parked && !w.held)
    let first := serial wait [run 0x1004, run 0x1008, run 0x100C]
    let last := serial wait [run 0x1004, run 0x1008, await 0x1000]
    let z : Crew := { last.crewHere with masks := last.crewHere.masks.set 3 0, split := List.replicate 8 {}, chosen := none, tab := [run 0x1004, run 0x1008, run 0x1004, run 0x1004] ++ List.replicate 28 {} }
    (List.replicate 8 ({} : Entry)).length ≤ 8 ∧ 8 < (List.replicate 9 ({} : Entry)).length ∧
    (((idle [park true]).unit 0).crew 0).tab.all (fun w => !can w) = true ∧ (idle [park true, run 0x1000]).crewHere.tab.map can = false :: true :: List.replicate 30 false ∧
    (park false).lst = .parked ∧ can (park false) = true ∧ (idle []).crewHere.chosen = none ∧ (idle []).crewHere.serial = true ∧ (idle []).crewHere.tab.length = 32 ∧
    (readyOk (.wait 3) first = true ∧ first.crewHere.loops = [] ∧ first.crewHere.tab.length = 32 ∧ first.crewHere.slane = 2 ∧ first.crewHere.masks.getD 3 0 &&& ~~~4 ≠ 0 ∧
      serialOver { first.crewHere with tab := first.crewHere.tab.set 2 (await 0x1000), split := List.replicate 8 {}, chosen := none } true = false) ∧
    (readyOk (.wait 3) last = true ∧ last.crewHere.masks.getD 3 0 &&& ~~~(maskOf [2, 3]) = 0 ∧ serialOver z true = false ∧
      (last.crewHere.tab.all (fun w => w.lst != .waiting || w.waitOn != 3 || w.pc == last.ctx.ent.pc)) = true) ∧
    (standing first = true ∧ first.crewHere.serial = true ∧ first.ctx.act ≠ 0 ∧ first.ctx.ent.handler = false ∧
      serialOver { first.crewHere with tab := first.crewHere.tab.set 2 { park false with pc := 0x1000 }, split := List.replicate 8 {}, chosen := none } true = false) ∧
    ([[run 0x1000, park true], [await 0x1000, await 0x1000, park true]].all (fun ws => serialOver (idle ws).crewHere true) = true ∧ serialOver (idle [run 0x1000, await 0x1000]).crewHere true = false ∧
      (idle []).here.loop = true) := by decide +kernel

/-- Two rows of 8 bytes at 0x10000 that a COPY or GATHER takes to `dst`, where it arrives at BAR 3. -/
def moves (k : CmdKind) (src dst : Nat) : Cmd :=
  { aCmd k (src + 2 ^ 64 * dst + 2 ^ 128 * 8 + 2 ^ 148 + 2 ^ 160 * 16 + 2 ^ 192 * 8 + 2 ^ 224 * 3 + 2 ^ 234) with recv := [0] }
/-- A turn of an engine; a granule for the scratchpad, for a mapped page and for one that is not mapped, and the end; a gather into registers, sound and poisoned; and a command whose
parts are out, are answered, and are not. -/
theorem test_hyp_EngineMoves :
    let toScr := moves .copy 0x10000 (15 * 2 ^ 56 + 0x100)
    let toMem := moves .copy 0x10000 0x20000
    let toFar := moves .copy 0x10000 0x10000000000
    let toReg : Cmd := { moves .gather 0x10000 (13 * 2 ^ 56 + 8) with block := (moves .gather 0x10000 (13 * 2 ^ 56 + 8)).block ++ [0, 3], dst := [8, 9, 10, 11] }
    let gap := fun (c : Cmd) => (fetchSource (withCmd c) c .glob ((List.range 2).map c.srcRange)).isNone && decide ((List.range 2).all (fun r => (rangeBytes (withCmd c) c .glob (c.srcRange r).1 (c.srcRange r).2).2.isOk))
    let cells := fun (c : Cmd) => granuleCells (spaceOf (bDst c.blk)) ((granulesOf (spaceOf (bDst c.blk)) (copyRows c.blk)).getD 0 0) ((List.range 2).map (fun r => (dstRow c.blk r, List.replicate 8 (1, false))))
    let sick : State := { withCmd toReg with lines := [(0x10000 / 128, { poison := true })] }
    ([toScr, toMem, toFar].all (fun c => (withCmd c).cmd? 9 == some c && gap c && (cells c).head?.isSome && c.next < c.recv.length * (granulesOf (spaceOf (bDst c.blk)) (copyRows c.blk)).length) = true) ∧
    (cmdCheck (withCmd toMem) 0 8 false .dst 0x20000).isOk = true ∧ (cmdCheck (withCmd toFar) 0 8 false .dst 0x10000000000).isOk = false ∧
    (spaceOf (bSrc toScr.blk) = .glob ∧ spaceOf (bDst toScr.blk) = .scr ∧ spaceOf (bDst toReg.blk) = .regs ∧ toScr.gate = 0 ∧ ((withCmd toScr).node 0).doom = 0) ∧
    (gap toReg = true ∧ toReg.dst.Nodup ∧ (toReg.dst.all (fun r => linesOk (withCmd toReg) [rowReg 0 r] false)) = true ∧
      ((rangeBytes (withCmd toReg) toReg .glob 0x10000 8).2.toOption.map (fun b => b.any Prod.snd)) = some false ∧
      ((rangeBytes sick toReg .glob 0x10000 8).2.toOption.map (fun b => b.any Prod.snd)) = some true) ∧
    (toScr.baren = true ∧ (aCmd .copy 0).baren = false ∧ (withCmd toScr).ops = [] ∧ trailCmd (withCmd { toScr with sent := true }) toScr = none ∧
      ({ anOp .request with cmd := some 9 } : Op).phase ≠ .answered) ∧
    linesOk (withCmd toScr) (scrRows 0 16) true = true ∧
    (match srcPieces (withCmd toMem) toMem 0x10000 8 with | .ok ps => ps.all (fun p => !p.apart && !reserved p.loc) | .error _ => false) = true := by decide +kernel

/-- Two units on cores 0 and 1 form group 0, whose list stands at 0x30000; both bring 8 bytes of FP32 to chunk 0 of a COLL to 0x100 of their scratchpads. -/
def pairUp : State × Cmd × Cmd :=
  let c : Cmd := aCmd .coll (0x10000 + 2 ^ 64 * (15 * 2 ^ 56 + 0x100) + 2 ^ 128 * 7)
  let d : Cmd := { c with id := 10, u := 1 }
  let y : UnitSt := { (base.unit 0) with cfg := { (base.unit 0).cfg with uidx := 1 } }
  let list := leBytes (memberWord base 0) 8 ++ leBytes (memberWord base 0 + 1) 8
  let mem := Memory.writeN (Memory.writeN base.mem 0x30000 list) 0x10000 (leBytes 0x3F800000 4 ++ leBytes 0x40000000 4)
  let j : Job := base.job 0
  ({ base with units := base.units ++ [y], cmds := [c, d], mem := mem, jobs := [(0, { j with root := (base.unit 0).xroot, groups := [(0, (0x30000, 1))] })] }, c, d)
/-- Both members have come, or one is still to come. -/
theorem test_hyp_CollectiveFrames :
    let s := pairUp.1
    let c := pairUp.2.1
    let d := pairUp.2.2
    let words := members s 0 0
    let one : State := { s with cmds := [c] }
    (s.cmd? 9 = some c ∧ c.gate = 0 ∧ c.sent = false ∧ c.kind = .coll ∧ (s.node 0).doom = 0 ∧ words.length = 2) ∧
    ((List.range 2).all (fun r => contributed s 0 0 0 r (words.getD r 0)) = true ∧ contributed one 0 0 0 1 (words.getD 1 0) = false) ∧
    ((List.range 2).all (fun r => match contribution s 0 0 0 r (words.getD r 0) with
      | (z, some x) => z == s && x.rank == r && x.cmd == some (if r = 0 then c else d) && x.len == 8 && x.ty == 0 && x.mode == 0 | _ => false) = true) ∧
    (collSource s c ((List.range 2).zip words)).isNone = true ∧ trailCmd s c = none ∧ spaceOf (bDst c.blk) = .scr ∧
    rResize 0 = false ∧ (3 : Nat) < rB (2 ^ 112 * 4) 14 2 := by decide +kernel

end Sys2Proof.Tests
end

section
/-! Masks: JOIN (R185). -/

namespace Sys2Proof.Machine

-- instructions that name no registers ----------------------------------------------------------------------------------

@[simp] theorem regRows_nil (y : UnitSt) (c : Nat) (m : BitVec 32) : regRows y c m [] = [] := by
  have hlanes : (lanesOf m).flatMap (fun l => ([] : List Nat).map (fun r => rowReg c (y.wb c l + r))) = [] :=
    List.flatMap_eq_nil_iff.mpr fun _ _ => rfl
  rw [regRows, hlanes, List.eraseDups_nil]

/-- To use no lines changes nothing. -/
@[simp] theorem useRows_nil (s : State) (u : Nat) : useRows s u [] = s := s.modUnit_self u

/-- An instruction that names no registers and reads no stream asks for no lines. -/
theorem State.used_of_no_registers {s : State} {i : Instr} (hs : streamsOf s s.ctx i = []) (hsrc : srcsIn s s.ctx i = []) (hdst : dsts i = []) :
    s.used i = s := by
  simp [State.used, readRows, walkRows, destRows, srcsHere, strmRegs, strmClears, hs, hsrc, hdst]

-- changes of one crew --------------------------------------------------------------------------------------------------

/-- Only what a change makes of the crew that is there matters. -/
theorem State.modCrew_congr {s : State} {u : Nat} (hu : u < s.units.length) {c : Nat} {f g : Crew → Crew} (h : f ((s.unit u).crew c) = g ((s.unit u).crew c)) :
    s.modCrew u c f = s.modCrew u c g := by
  refine State.modUnit_congr hu ?_
  have hcrews : (s.unit u).crews.modify c f = (s.unit u).crews.modify c g := by
    refine List.ext_getElem (by simp) fun k hk _ => ?_
    rw [List.length_modify] at hk
    have hcrew : (s.unit u).crew k = (s.unit u).crews[k] := List.getD_eq_getElem _ _ hk
    simp only [List.getElem_modify, ← hcrew]
    split
    · next hck => exact hck ▸ h
    · rfl
  rw [hcrews]

-- JOIN -----------------------------------------------------------------------------------------------------------------

/-- What a ready JOIN answers: the active lanes are set in its mask, and then the entry goes on. -/
theorem execJoin_ready {m : Nib} {s : State} (h : Ready (.join m) s) :
    Done (.join m) s (s.modCrew s.ctx.u s.ctx.c (fun y => { y with masks := y.masks.modify m.toNat (fun v => v ||| s.ctx.act) })) := by
  have hused : s.used (.join m) = s := State.used_of_no_registers h.unbound rfl rfl
  show execJoin m s = _
  rw [execJoin, withIssue_ready h, hused]

/-- Settles O14: a ready JOIN uses no register line, and changes its one mask among the masks of its crew. -/
theorem joinSets : Obligations.JoinSets := by
  intro m s h
  refine ⟨s.crewHere.masks.modify m.toNat (fun v => v ||| s.ctx.act), ?_, fun k => ?_⟩
  · have hcrew := State.modCrew_congr (standing_unit h.stands) (c := s.ctx.c)
      (f := fun y => { y with masks := y.masks.modify m.toNat (fun v => v ||| s.ctx.act) })
      (g := fun y => { y with masks := s.crewHere.masks.modify m.toNat (fun v => v ||| s.ctx.act) }) rfl
    exact hcrew ▸ execJoin_ready h
  · rw [List.getElem?_modify]
    by_cases hk : k = m.toNat
    · simp [hk]
    · simp [hk, Ne.symm hk]

end Sys2Proof.Machine
end

section
/-! Conversions: E8M0 (R233). -/

namespace Sys2Proof.Machine

-- exact values --------------------------------------------------------------------------------------------------------

/-- A value that is a multiple of the unit is not rounded. -/
theorem roundAt_multiple {e q : Int} (h : q ≤ e) (r : Round) (neg : Bool) (m : Nat) : roundAt r neg m e q = (m * 2 ^ (e - q).toNat, false) :=
  if_pos h

/-- A value that is a multiple of the unit of its binade, `2^q`, and does not overflow has its own code in a format: no flag, whatever the rounding. -/
theorem Form.round_exact (f : Form) (r : Round) (o : Ovf) (neg : Bool) {m : Nat} {e q : Int} (hm : m ≠ 0)
    (hunit : max ((Nat.log2 m : Nat) + e - f.frac) f.qmin = q) (hmultiple : q ≤ e)
    (hfits : (q - f.qmin).toNat * 2 ^ f.frac + m * 2 ^ (e - q).toNat ≤ f.maxCode) :
    f.round r o neg m e = (f.sign neg + ((q - f.qmin).toNat * 2 ^ f.frac + m * 2 ^ (e - q).toNat), 0, false) := by
  simp [Form.round, hm, hunit, roundAt_multiple hmultiple, Nat.not_lt.mpr hfits, flagIf]

-- E8M0 -----------------------------------------------------------------------------------------------------------------

/-- 2^-127 is a subnormal of FP32. -/
theorem round32_least_e8m0 (r : Round) : round32 r false 1 (-127) = (0x00400000, 0) := by
  rw [round32, fF32.round_exact r .ieee false (q := -149) (by decide) (by decide) (by decide) (by decide)]
  rfl

/-- The powers of two from 2^-126 to 2^127 are normal in FP32: their codes are their biased exponents, with fraction 0. -/
theorem round32_two_pow (r : Round) {e : Nat} (hpos : 0 < e) (hlt : e < 255) : round32 r false 1 ((e : Int) - 127) = (BitVec.ofNat 32 (e * 2 ^ 23), 0) := by
  have hlog : Nat.log2 1 = 0 := by decide
  have hunit : max ((Nat.log2 1 : Nat) + ((e : Int) - 127) - 23) (-149) = (e : Int) - 150 := by rw [hlog]; omega
  have hshift : ((e : Int) - 127 - (e - 150)).toNat = 23 := by omega
  have hcode : ((e : Int) - 150 - -149).toNat * 2 ^ 23 + 1 * 2 ^ ((e : Int) - 127 - (e - 150)).toNat = e * 2 ^ 23 := by
    rw [hshift]; omega
  have hfits : e * 2 ^ 23 ≤ 0x7F7FFFFF := by omega
  have hround := fF32.round_exact r .ieee false Nat.one_ne_zero hunit (by omega) (hcode.le.trans hfits)
  rw [round32, hround]
  exact congrArg (fun c => (BitVec.ofNat 32 c, 0)) ((Nat.zero_add _).trans hcode)

/-- The FP32 value of each E8M0 code. -/
theorem e8m0_eq (w : Word) :
    e8m0 w = if w.toNat % 256 = 255 then 0x7FC00000 else if w.toNat % 256 = 0 then 0x00400000 else BitVec.ofNat 32 (w.toNat % 256 * 2 ^ 23) := by
  have hlt : w.toNat % 256 < 256 := Nat.mod_lt _ (by decide)
  simp only [e8m0]
  generalize w.toNat % 256 = e at hlt ⊢
  split
  · rfl
  · next hnum =>
    split
    · next hzero =>
      subst hzero
      exact congrArg Prod.fst (round32_least_e8m0 .rne)
    · next hpos => rw [round32_two_pow .rne (Nat.pos_of_ne_zero hpos) (by omega)]

/-- E8M0 to FP32 sets no flag, and neither the rounding nor the overflow modifier matters. -/
theorem cvtVal_e8m0 (inf : Bool) (r : Round) (sat : Bool) (w : Word) : cvtVal .e8m0 .f32 inf r sat w = (e8m0 w, 0) := rfl

/-- Check 8 lets E8M0 stand as the source of a conversion to FP32 only. -/
theorem cvt_comboOk_e8m0 {src dst : Fmt} {inf : Bool} {rm : Rm} {d a : VReg} (h : (Instr.cvt src dst inf rm d a).comboOk = true) :
    dst ≠ .e8m0 ∧ (src = .e8m0 → dst = .f32) := by
  simp only [Instr.comboOk, Bool.and_eq_true, Bool.or_eq_true, bne_iff_ne, beq_iff_eq] at h
  obtain ⟨⟨⟨hdst, hsrc⟩, -⟩, -⟩ := h
  exact ⟨hdst, hsrc.resolve_left ∘ not_not_intro⟩

-- CVT ------------------------------------------------------------------------------------------------------------------

/-- The rounding code of FPMODE, bit by bit (Table 10-1). -/
theorem roundOf_bits : ∀ b : BitVec 2,
    roundOf b = if b.getLsbD 1 then (if b.getLsbD 0 then .rdn else .rup) else if b.getLsbD 0 then .rtz else .rne := by
  decide

/-- The rounding in the state in which the lines have been used is that of the modifier here. -/
theorem State.used_round (s : State) (i : Instr) (l : Nat) (rm : Rm) : s.ctx.round (s.used i) l rm = s.rounding l rm := by
  cases rm with
  | fpm =>
    have hfibre : s.ctx.fibre s l = s.fibre l := rfl
    simp [Ctx.round, State.rounding, hfibre, roundOf_bits]
  | rne | rtz | rup | rdn => rfl

/-- What a ready CVT answers, for every pair of formats. -/
theorem execCvt_ready {src dst : Fmt} {inf : Bool} {rm : Rm} {d a : VReg} {s : State} (h : Ready (.cvt src dst inf rm d a) s) :
    SetsFloat (.cvt src dst inf rm d a) s d.toNat (fun l => cvtVal src dst inf (s.rounding l rm) (rm == .rtz) (s.opnd l a.toNat)) := by
  have hset := laneInstr_setsFloat h d (fun x s l => cvtVal src dst inf (x.round s l rm) (rm == .rtz) (x.rd s l a)) rfl rfl
  simpa only [State.used_round, State.used_rd, rd_eq_opnd] using hset

/-- Settles O7: check 8 for the formats, and for the values the code of a power of two in each range of FP32. -/
theorem convertE8m0 : Obligations.ConvertE8m0 := by
  refine ⟨fun _ _ _ _ _ _ h => cvt_comboOk_e8m0 h, fun inf rm d a s h => ?_⟩
  have hset := execCvt_ready h
  simp only [cvtVal_e8m0, e8m0_eq] at hset
  exact hset

end Sys2Proof.Machine
end

section
/-! Floating-point classes: FCLASS (R299). -/

namespace Sys2Proof.Machine

-- the fields of an FP32 word -------------------------------------------------------------------------------------------

/-- A bit of a word, as the arithmetic of `Form.decode` takes it out. -/
theorem bit_eq_getLsbD (w : Word) (k : Nat) : (w.toNat / 2 ^ k % 2 == 1) = w.getLsbD k := by
  rw [← BitVec.testBit_toNat, Nat.testBit_eq_decide_div_mod_eq]
  rfl

/-- The exponent field of FP32. -/
theorem f32_exponent (w : Word) : w.toNat % 2 ^ 31 / 2 ^ 23 = (w.extractLsb' 23 8).toNat := by
  rw [BitVec.extractLsb'_toNat, Nat.shiftRight_eq_div_pow]
  exact Nat.mod_mul_right_div_self _ (2 ^ 23) (2 ^ 8)

/-- The fraction field of FP32. -/
theorem f32_fraction (w : Word) : w.toNat % 2 ^ 31 % 2 ^ 23 = (w.extractLsb' 0 23).toNat := by
  rw [BitVec.extractLsb'_toNat]
  exact Nat.mod_mod_of_dvd _ ⟨2 ^ 8, rfl⟩

/-- The top bit of the fraction of an FP32 word is clear: the mark of a signalling NaN. -/
theorem f32_signalling (w : Word) : (w.toNat % 2 ^ 31 / 2 ^ 22 % 2 == 0) = !w.getLsbD 22 := by
  have hbit : w.toNat % 2 ^ 31 / 2 ^ 22 % 2 = w.toNat / 2 ^ 22 % 2 := by omega
  rw [hbit, ← bit_eq_getLsbD]
  cases Nat.mod_two_eq_zero_or_one (w.toNat / 2 ^ 22) with
  | inl h => rw [h]; rfl
  | inr h => rw [h]; rfl

/-- The value of an FP32 word by its fields: exponent 255 holds the infinities and the NaNs, exponent 0 the zeros and the subnormals. -/
theorem f32_eq (w : Word) :
    f32 w =
      let neg := w.getLsbD 31
      let e := (w.extractLsb' 23 8).toNat
      let f := (w.extractLsb' 0 23).toNat
      if e = 255 then (if f = 0 then .inf neg else .nan (!w.getLsbD 22))
      else if e = 0 then .fin neg f (-149) else .fin neg (f + 2 ^ 23) (-149 + (e - 1 : Nat)) := by
  have hfinite : w.toNat % 2 ^ 31 ≤ 0x7F7FFFFF ↔ ¬ (w.extractLsb' 23 8).toNat = 255 := by rw [← f32_exponent]; omega
  have hinf : w.toNat % 2 ^ 31 = 0x7F800000 ↔ (w.extractLsb' 23 8).toNat = 255 ∧ (w.extractLsb' 0 23).toNat = 0 := by
    rw [← f32_exponent, ← f32_fraction]; omega
  simp only [f32, Form.decode, fF32, Nat.reduceSub, hfinite, hinf, f32_exponent, f32_fraction, bit_eq_getLsbD, f32_signalling]
  by_cases hspecial : (w.extractLsb' 23 8).toNat = 255
  · simp only [hspecial, not_true_eq_false, if_false, if_true, true_and]
  · simp only [hspecial, not_false_eq_true, if_false, if_true]

-- FCLASS ---------------------------------------------------------------------------------------------------------------

/-- A normal number carries its leading bit; a subnormal has the fraction alone. -/
theorem fpClass_eq (w : Word) :
    fpClass w =
      let neg := w.getLsbD 31
      let e := (w.extractLsb' 23 8).toNat
      let f := (w.extractLsb' 0 23).toNat
      BitVec.ofNat 32 (2 ^ (
        if e = 255 then (if f = 0 then (if neg then 0 else 7) else if w.getLsbD 22 then 9 else 8)
        else if e = 0 then (if f = 0 then (if neg then 3 else 4) else if neg then 2 else 5)
        else if neg then 1 else 6)) := by
  have hf : (w.extractLsb' 0 23).toNat < 8388608 := BitVec.isLt _
  have hmask (n : Nat) : BitVec.twoPow 32 n = BitVec.ofNat 32 (2 ^ n) :=
    BitVec.eq_of_toNat_eq (by rw [BitVec.toNat_twoPow, BitVec.toNat_ofNat])
  simp only [fpClass, f32_eq, hmask]
  generalize (w.extractLsb' 23 8).toNat = e
  generalize (w.extractLsb' 0 23).toNat = f at hf ⊢
  by_cases hspecial : e = 255
  · by_cases hzero : f = 0
    · simp [hspecial, hzero]
    · cases hquiet : w.getLsbD 22 with
      | false => simp [hspecial, hzero]
      | true => simp [hspecial, hzero]
  · by_cases hsub : e = 0
    · simp [hsub, hf]
    · simp [hspecial, hsub]

/-- What a ready FCLASS answers. -/
theorem execFclass_ready {d a : VReg} {s : State} (h : Ready (.fclass d a) s) :
    SetsReg (.fclass d a) s d.toNat (fun l => fpClass (s.opnd l a.toNat)) := by
  have hset := laneInstr_setsReg h d (fun x s l => fpClass (x.rd s l a)) rfl rfl
  simpa only [State.used_rd, rd_eq_opnd] using hset

/-- Settles O6: the class of each operand by its fields. -/
theorem fclassMask : Obligations.FclassMask := by
  intro d a s h
  have hset := execFclass_ready h
  simp only [fpClass_eq] at hset
  exact hset

end Sys2Proof.Machine
end
